-- ==== Sys2Proof/Word.lean ====
section
/-! DEFINITION. The word, byte and bit-string types of the model (00_scope.md R14, R16, R17). -/

namespace Sys2Proof

/-- A byte, an integer in 0 to 255 (R17). -/
abbrev Byte := BitVec 8

/-- A 32-bit register value or command word (R23, R80). -/
abbrev Word := BitVec 32

/-- A bit string, first bit first (R17); `true` stands for 1. -/
abbrev BitString := List Bool

/-- A byte string (R17). -/
abbrev ByteString := List Byte

end Sys2Proof
end

