-- ==== Sys2Proof/Syntax.lean ====
section
/-! DEFINITION. The commands of the engine, one constructor per row of spec/opcode_table.json (30_encoding.md
R83). A command carries no operand: every operand is the value of an argument register (R82). -/

namespace Sys2Proof

/-- A command of the engine (R83). -/
inductive Instr where
  /-- NOP (R144). -/
  | nop
  /-- FREQ_COUNT (R91). -/
  | freqCount
  /-- FREQ_SER (R92). -/
  | freqSer
  /-- FREQ_DES (R93). -/
  | freqDes
  /-- TREE_BUILD (R102). -/
  | treeBuild
  /-- CODE_GEN (R103). -/
  | codeGen
  /-- SYM_ENCODE (R109). -/
  | symEncode
  /-- SYM_DECODE (R110). -/
  | symDecode
  /-- HUF_ENCODE (R115). -/
  | hufEncode
  /-- HUF_DECODE (R116). -/
  | hufDecode
  /-- FRAME (R121). -/
  | frame
  /-- UNFRAME (R122). -/
  | unframe
  /-- AR_OPEN_W (R136). -/
  | arOpenW
  /-- AR_OPEN_R (R137). -/
  | arOpenR
  /-- AR_ADD (R138). -/
  | arAdd
  /-- AR_CLOSE (R139). -/
  | arClose
  /-- AR_GET (R140). -/
  | arGet
  /-- AR_ENUM (R141). -/
  | arEnum
  /-- AR_SETVER (R142). -/
  | arSetver
  /-- AR_GETVER (R143). -/
  | arGetver
  /-- SRESET (R145). -/
  | sreset
  deriving DecidableEq, Repr

end Sys2Proof
end

