-- ==== Sys2Proof/Decode.lean ====
section
/-! DEFINITION. The command decoder and the encoder (30_encoding.md R80 to R84). -/

namespace Sys2Proof

/-- The OP field of a command word, bits 7:0 (R80). -/
def opField (w : Word) : Byte := w.extractLsb' 0 8

/-- The RSV field of a command word, bits 31:8 (R80). -/
def rsvField (w : Word) : BitVec 24 := w.extractLsb' 8 24

/-- Why a word is no command (R84). -/
inductive DecodeError where
  /-- The RSV field is not 0. -/
  | reservedNotZero
  /-- The OP field is not in the opcode map. -/
  | unassignedOpcode (op : Byte)
  deriving DecidableEq, Repr

/-- The opcode map of R83: the exact 32-bit word of each command. -/
def opcodeMap : List (Word × Instr) :=
  [(0x00000000#32, .nop), (0x00000001#32, .freqCount), (0x00000002#32, .freqSer),
   (0x00000003#32, .freqDes), (0x00000004#32, .treeBuild), (0x00000005#32, .codeGen),
   (0x00000006#32, .symEncode), (0x00000007#32, .symDecode), (0x00000008#32, .hufEncode),
   (0x00000009#32, .hufDecode), (0x0000000A#32, .frame), (0x0000000B#32, .unframe),
   (0x00000010#32, .arOpenW), (0x00000011#32, .arOpenR), (0x00000012#32, .arAdd),
   (0x00000013#32, .arClose), (0x00000014#32, .arGet), (0x00000015#32, .arEnum),
   (0x00000016#32, .arSetver), (0x00000017#32, .arGetver), (0x00000020#32, .sreset)]

/-- The command of a word in a list of rows, all 32 bits compared (R83). -/
def findRow (w : Word) : List (Word × Instr) → Option Instr
  | [] => none
  | (m, i) :: rows => if m = w then some i else findRow w rows

/-- The decoder (R81, R83, R84): the command whose row equals the whole word, or the reason there is
none. -/
def decode (w : Word) : Except DecodeError Instr :=
  match findRow w opcodeMap with
  | some i => .ok i
  | none => .error (if rsvField w = 0#24 then .unassignedOpcode (opField w) else .reservedNotZero)

/-- The opcode of a command (R83). -/
def opcode : Instr → Byte
  | .nop => 0x00#8
  | .freqCount => 0x01#8
  | .freqSer => 0x02#8
  | .freqDes => 0x03#8
  | .treeBuild => 0x04#8
  | .codeGen => 0x05#8
  | .symEncode => 0x06#8
  | .symDecode => 0x07#8
  | .hufEncode => 0x08#8
  | .hufDecode => 0x09#8
  | .frame => 0x0A#8
  | .unframe => 0x0B#8
  | .arOpenW => 0x10#8
  | .arOpenR => 0x11#8
  | .arAdd => 0x12#8
  | .arClose => 0x13#8
  | .arGet => 0x14#8
  | .arEnum => 0x15#8
  | .arSetver => 0x16#8
  | .arGetver => 0x17#8
  | .sreset => 0x20#8

/-- The encoder (R80): RSV is 0 and OP is the command's opcode. -/
def encode (i : Instr) : Word := 0#24 ++ opcode i

/-- The command the decoder reads from an instruction of `nbits` bits whose value is `w`, the bits above
`nbits` being 0. A command word is one 32-bit value that arrives in one CMD write (R81), so there is no
byte layout to undo. -/
def decodeTableWord (nbits w : Nat) : Option Instr :=
  if nbits ≤ 32 ∧ w < 2 ^ nbits then (decode (BitVec.ofNat 32 w)).toOption else none

end Sys2Proof
end

