-- ==== Sys2Proof/Machine/Bytes.lean ====
section
/-! DEFINITION. Byte order and small byte-string helpers (00_scope.md R16, R17; 20_memory.md R58). -/

namespace Sys2Proof.Machine

/-- `le_N(v)` (R17): the N bytes of v, bits 7:0 first. -/
def le : Nat → Nat → ByteString
  | 0, _ => []
  | n + 1, v => BitVec.ofNat 8 v :: le n (v / 256)

/-- `from_le(s)` (R17). -/
def fromLe : ByteString → Nat
  | [] => 0
  | b :: bs => b.toNat + 256 * fromLe bs

/-- The value of a bit string, first bit least significant (R16, R45, R104). -/
def bitsToNat : BitString → Nat
  | [] => 0
  | b :: bits => b.toNat + 2 * bitsToNat bits

/-- `ceil_div(a, 8)` (R16). -/
def ceilDiv8 (a : Nat) : Nat := (a + 7) / 8

/-- A run of zero bytes. -/
def zeros (n : Nat) : ByteString := List.replicate n 0#8

/-- How many padding bytes follow n bytes so that the length is a multiple of 8 (R117, R126). -/
def padLen (n : Nat) : Nat := (8 - n % 8) % 8

/-- `s[i..j)` (R17). -/
def slice (s : ByteString) (i j : Nat) : ByteString := (s.drop i).take (j - i)

end Sys2Proof.Machine
end

