-- ==== Sys2Proof/Config.lean ====
section
/-! DEFINITION. What an implementation fixes (00_scope.md R10) and the values the spec leaves free. -/

namespace Sys2Proof

/-- `TIE_POLICY` (R10, R12): which of two nodes of equal weight the tree builder removes first. -/
inductive TiePolicy where
  | highKeyFirst
  | lowKeyFirst
  deriving DecidableEq, Repr

/-- `IO_FAULT_MODEL` (R10, R21): whether archive-store accesses may fail. -/
inductive IoFaultModel where
  | never
  | oracle
  deriving DecidableEq, Repr

/-- The implementation parameters of R10. A model takes them as arguments: they stand in State, and no
step changes them (log 1). -/
structure Params where
  bufSize : Nat
  arcCap : Nat
  maxEntries : Nat
  nameCap : Nat
  maxNameLen : Nat
  tiePolicy : TiePolicy
  streamHead : BitVec 64
  streamTail : BitVec 64
  indexHead : BitVec 64
  indexTail : BitVec 64
  engineId : Word
  ioFault : IoFaultModel
  deriving DecidableEq, Repr

/-- The default parameters of R10; the spec's vectors use them. -/
def Params.default : Params where
  bufSize := 65536
  arcCap := 65536
  maxEntries := 1024
  nameCap := 65536
  maxNameLen := 4096
  tiePolicy := .highKeyFirst
  streamHead := 0x9E3779B97F4A7C15#64
  streamTail := 0xC2B2AE3D27D4EB4F#64
  indexHead := 0x165667B19E3779F9#64
  indexTail := 0xD6E8FEB86659FD93#64
  engineId := 0x4E4C4846#32
  ioFault := .never

/-- The two points at which the rules put an `IoFail()`: the point that a command's own rule names (R136 to
R140), and the point of R139 in the close that an open of a write session performs first (R134, R151 item
4). A command draws at one of them at most (R21). -/
inductive IoDraw where
  | command
  | implicitClose
  deriving DecidableEq, Repr

/-- FREE VALUE (R21, I12). The one draw of a command under ORACLE, at a value of the step counter: any
Boolean, with no law relating one draw to another. -/
opaque Config.ioFails : Nat → Bool

/-- FREE VALUE (R21, R134; DESIGN CHOICE, log 4). Whether a command makes its one draw in the close that an open
performs first, rather than at the point of its own rule. -/
opaque Config.drawsInClose : Nat → Bool

/-- The two byte memories (R53, R56). -/
inductive ByteStore where
  | buf
  | arc
  deriving DecidableEq, Repr

/-- FREE VALUE (R55, R167, I1). The byte that an address of a memory holds at power-on: any byte (log 2). -/
opaque Config.powerOnByte : ByteStore → Nat → Byte

/-- FREE VALUE (R151, I10, I11). The byte that an address of a memory holds after a failure that leaves it
open, at a value of the step counter: any byte (log 3). -/
opaque Config.freeByte : ByteStore → Nat → Nat → Byte

end Sys2Proof
end

