-- ==== Sys2Proof/Machine/HostSyntax.lean ====
section
/-! DEFINITION. The names of the registers (10_state.md R23, R26) and the lines of a host program
(30_encoding.md R85, R86), as data. -/

namespace Sys2Proof.Machine

/-- A register of the window, by name (R23, R26, R43, R44, R45). -/
inductive Reg where
  | id | cmd | status | errcode
  | srcAddr | srcLen | dstAddr | dstCap | nameAddr | nameLen
  | resultLen | consumed | entrySel | entryCount | entryOffset | entrySize
  | bitcountLo | bitcountHi | version | arcLen | arcOffset | indexOff
  | nodeCount | symCount | codeSel | maxCodeLen
  | freq (s : Byte)
  | codeLen (s : Byte)
  | codeWord (j : Fin 8)
  deriving DecidableEq, Repr

/-- A field of STATUS that a host line may name (R85, R30). -/
inductive StatusField where
  | busy | done | err | warn | errSticky | overrun | mode | treeValid | codesValid
  deriving DecidableEq, Repr

/-- What a host line may read: a register, or a field of STATUS (R85). -/
inductive RegRef where
  | reg (r : Reg)
  | field (f : StatusField)
  deriving DecidableEq, Repr

/-- One line of a host program (R85). A label is a number. The last four constructors are not of R85's
table: a raw access of any width at any offset, so that the accesses of R27 and R61 can be written, a
read of ARC, which the host reaches (R56, R72) and R85 only writes, and the `rst_n` pin of R165 (logs 8,
16 and 25).

DESIGN CHOICE (I22, log 25). The host's path to BUF and ARC is one turn of the host for a whole line of
bytes: POKE and EXPECTBUF for BUF, POKEARC and `expectArc` for ARC. -/
inductive HostLine where
  /-- `MOV REG, v`. -/
  | mov (r : Reg) (v : Word)
  /-- `CMD MNEMONIC`. -/
  | cmd (i : Instr)
  /-- `WAIT`. -/
  | wait
  /-- `POKE a, b0 b1 ...`. -/
  | poke (a : Nat) (bs : ByteString)
  /-- `POKEARC o, b0 b1 ...`. -/
  | pokeArc (o : Nat) (bs : ByteString)
  /-- `EXPECT REG, v`. -/
  | expect (r : RegRef) (v : Word)
  /-- `EXPECTBUF a, b0 b1 ...`. -/
  | expectBuf (a : Nat) (bs : ByteString)
  /-- `label:`. -/
  | label (l : Nat)
  /-- `BEQ REG, v, label`. -/
  | beq (r : RegRef) (v : Word) (l : Nat)
  /-- `BNE REG, v, label`. -/
  | bne (r : RegRef) (v : Word) (l : Nat)
  /-- `JMP label`. -/
  | jmp (l : Nat)
  /-- `COPY REGA, REGB`: REGA receives what REGB, a register or a STATUS field, reads. -/
  | copy (a : Reg) (b : RegRef)
  /-- `INC REG`. -/
  | inc (r : RegRef)
  /-- `HALT`. -/
  | halt
  /-- A register write of `width` bits at a byte offset of the window. -/
  | portWrite (width : Nat) (off : BitVec 12) (v : Word)
  /-- A register read of `width` bits at a byte offset of the window. -/
  | portRead (width : Nat) (off : BitVec 12)
  /-- Assertion: the ARC bytes from `o` are `bs`. Not of R85: the model's own line (DESIGN CHOICE, log 25). -/
  | expectArc (o : Nat) (bs : ByteString)
  /-- The platform drives `rst_n` to a level. -/
  | rst (level : Bool)
  deriving DecidableEq, Repr

/-- A pseudo-instruction of a host program (R86). -/
inductive Pseudo where
  | op (i : Instr)
  | src (a n : Word)
  | dst (a n : Word)
  | name (a n : Word)
  | bits (v : BitVec 64)
  | encode (a n d c : Word)
  | decode (a n d c : Word)
  | add (na nl a n : Word)
  | get (na nl d c : Word)
  | check
  deriving DecidableEq, Repr

end Sys2Proof.Machine
end

