-- ==== Sys2Proof/Machine/State.lean ====
section
/-! DEFINITION. The state of the machine as plain data (10_state.md), its reset value, and the reasons a step
can stop. -/

namespace Sys2Proof.Machine

/-- The codes of R147 that ERRCODE can hold. Codes 15 to 255 are never produced. -/
inductive ErrCode where
  | ok | illegalCmd | range | dstFull | overlap | io | format | conflict | mode | versionParse
  | corrupt | notFound | capacity | state | arg
  deriving DecidableEq, Repr

/-- MODE, the archive handle state (R51). -/
inductive Mode where
  | unset | writeOpen | readOpen
  deriving DecidableEq, Repr

/-- A node of the Huffman tree (R47). Weights are exact integers (R15, log 13). -/
inductive Node where
  | leaf (sym : Byte) (weight : Nat)
  | placeholder
  | internal (weight key : Nat) (left right : Node)
  deriving DecidableEq, Repr

/-- An agent that can move (R4). -/
inductive Agent where
  | host | engine
  deriving DecidableEq, Repr

/-- One entry of the path index (R50). -/
structure Entry where
  path : ByteString
  offset : Word
  size : Word
  deriving DecidableEq, Repr

/-- The contents of a byte memory (R53): which memory it is, the bytes that have been written, and the
addresses whose byte a failure left open, each with the step counter at which it did (R151). An address
in neither list holds the byte it held at power-on (R167). In canonical form the addresses of each list
rise strictly and no address is in both lists (Memory.wf in Machine/Ops.lean; logs 2 and 3). -/
structure Memory where
  store : ByteStore
  cells : List Host.Cell
  free : List (Nat × Nat)
  deriving DecidableEq, Repr

/-- FREQ (R46). -/
abbrev FreqTable := Vector Word 256

/-- CODE (R48). -/
abbrev CodeTable := Vector BitString 256

/-- The state of the machine: every register and internal state element of 10_state.md, the two byte
memories, the reset pin, and the model's own fields (INVENTORY.md lists each with its rule). -/
structure State where
  -- argument registers (R23)
  srcAddr : Word
  srcLen : Word
  dstAddr : Word
  dstCap : Word
  nameAddr : Word
  nameLen : Word
  entrySel : Word
  bitcountLo : Word
  bitcountHi : Word
  codeSel : Byte
  -- handshake and STATUS bits (R30, R52): BUSY is 1 exactly while a command is latched
  pending : Option Word
  done : Bool
  err : Bool
  warn : Bool
  errSticky : Bool
  overrun : Bool
  mode : Mode
  treeValid : Bool
  codesValid : Bool
  errcode : ErrCode
  -- result registers (R32 to R40)
  resultLen : Word
  consumed : Word
  entryOffset : Word
  entrySize : Word
  version : Word
  arcLen : Word
  arcOffset : Word
  indexOff : Word
  nodeCount : Word
  -- internal state (R46 to R50, R53)
  freq : FreqTable
  tree : Option Node
  codes : CodeTable
  idx : List Entry
  buf : Memory
  arc : Memory
  -- the reset pin: true while rst_n is 0 (R165)
  inReset : Bool
  -- the model's own fields (logs 1, 5, 6, 7)
  params : Params
  stepTag : Nat
  sched : List Agent
  hostProg : List HostLine
  hostPos : Nat
  hostTemp : Option Word
  deriving DecidableEq, Repr

/-- A memory at power-on: no byte written and none left open. -/
def Memory.empty (m : ByteStore) : Memory := ⟨m, [], []⟩

/-- The machine right after a hardware reset (R55, R165, R167), with the default parameters of R10 and no
host program. -/
def State.reset : State where
  srcAddr := 0
  srcLen := 0
  dstAddr := 0
  dstCap := 0
  nameAddr := 0
  nameLen := 0
  entrySel := 0
  bitcountLo := 0
  bitcountHi := 0
  codeSel := 0
  pending := none
  done := false
  err := false
  warn := false
  errSticky := false
  overrun := false
  mode := .unset
  treeValid := false
  codesValid := false
  errcode := .ok
  resultLen := 0
  consumed := 0
  entryOffset := 0
  entrySize := 0
  version := 0
  arcLen := 0
  arcOffset := 0
  indexOff := 0
  nodeCount := 0
  freq := Vector.replicate 256 0#32
  tree := none
  codes := Vector.replicate 256 []
  idx := []
  buf := Memory.empty .buf
  arc := Memory.empty .arc
  inReset := false
  params := Params.default
  stepTag := 0
  sched := []
  hostProg := []
  hostPos := 0
  hostTemp := none

/-- Why the machine stops with a fault. The engine never faults (R146): each of these is raised by a
line of the host's program, and each is safe, because the run stops where the spec gives the host no
such move. -/
inductive Fault where
  /-- Raised by POKE and EXPECTBUF: an address at or above BUF_SIZE, which does not exist (R56). Safe. -/
  | bufAddressAbsent
  /-- Raised by POKEARC and expectArc: an offset at or above ARC_CAP, which does not exist (R56). Safe. -/
  | arcAddressAbsent
  /-- Raised by EXPECT, EXPECTBUF and expectArc: the host's own assertion does not hold (R85). Safe. -/
  | expectationFailed
  deriving DecidableEq, Repr

/-- Why the model gives a step no meaning. Each is safe: a refusal proves nothing about the hardware. -/
inductive Refusal where
  /-- Raised by exec for a command that has no meaning yet. Safe. -/
  | notModelled (mnemonic : String)
  /-- Raised by a register access that is not 32 bits wide at a multiple of 4 (R27, R61). Safe. -/
  | portAccessShape
  /-- Raised by a host access to BUF or ARC while BUSY = 1 (R72, I9). Safe. -/
  | hostAccessWhileBusy
  /-- Raised by a line that continues at a label the program does not define (R85). Safe. -/
  | unknownLabel
  deriving DecidableEq, Repr

/-- The outcome of a step of this machine. -/
abbrev Outcome := Host.Outcome State Fault Refusal

end Sys2Proof.Machine
end

