-- ==== Sys2Proof/Machine/Flags.lean ====
section
/-! DEFINITION. The STATUS word, the error numbers, and what accepting and completing a command does to the
flags (10_state.md R30, R31; 60_exceptions.md R147, R148, R152, R153). -/

namespace Sys2Proof.Machine

/-- The number of an error or warning code (R147). -/
def ErrCode.number : ErrCode → Byte
  | .ok => 0#8
  | .illegalCmd => 1#8
  | .range => 2#8
  | .dstFull => 3#8
  | .overlap => 4#8
  | .io => 5#8
  | .format => 6#8
  | .conflict => 7#8
  | .mode => 8#8
  | .versionParse => 9#8
  | .corrupt => 10#8
  | .notFound => 11#8
  | .capacity => 12#8
  | .state => 13#8
  | .arg => 14#8

/-- The MODE field of STATUS (R30): 0 UNSET, 1 WRITE_OPEN, 2 READ_OPEN. -/
def Mode.bits : Mode → BitVec 2
  | .unset => 0#2
  | .writeOpen => 1#2
  | .readOpen => 2#2

/-- STATUS.BUSY (R30, R52): a command is latched. -/
def State.busy (s : State) : Bool := s.pending.isSome

/-- One STATUS bit. -/
def flagBit (b : Bool) : BitVec 1 := BitVec.ofBool b

/-- STATUS as the host reads it, bit 9 first, bits 31:10 being 0 (R30). -/
def State.statusWord (s : State) : Word :=
  (flagBit s.codesValid ++ flagBit s.treeValid ++ s.mode.bits ++ flagBit s.overrun ++
    flagBit s.errSticky ++ flagBit s.warn ++ flagBit s.err ++ flagBit s.done ++
    flagBit s.busy).setWidth 32

/-- A host write of v to STATUS (R30): bit 4 clears ERR_STICKY, bit 5 clears OVERRUN, every other bit is
ignored. -/
def State.clearSticky (s : State) (v : Word) : State :=
  { s with
    errSticky := s.errSticky && !v.getLsbD 4
    overrun := s.overrun && !v.getLsbD 5 }

/-- Accepting a command (R148 item 1): BUSY = 1 with the word latched, DONE, ERR and WARN 0, ERRCODE 0. -/
def State.accept (s : State) (w : Word) : State :=
  { s with pending := some w, done := false, err := false, warn := false, errcode := .ok }

/-- What every completion does (R148 item 2): BUSY = 0 and DONE = 1. The model's step counter advances. -/
def State.complete (s : State) : State :=
  { s with pending := none, done := true, stepTag := s.stepTag + 1 }

/-- Completion after success (R148). -/
def State.succeed (s : State) : State :=
  { s.complete with err := false, warn := false, errcode := .ok }

/-- Completion after success with a warning (R148, R152). -/
def State.succeedWarn (s : State) (c : ErrCode) : State :=
  { s.complete with err := false, warn := true, errcode := c }

/-- Completion after failure (R148, R151 items 1 and 2, R153): ERR and ERR_STICKY are 1, RESULT_LEN and
CONSUMED are 0. -/
def State.reportError (s : State) (c : ErrCode) : State :=
  { s.complete with
    err := true, warn := false, errSticky := true, errcode := c, resultLen := 0, consumed := 0 }

/-- A write to FREQ through its window makes TREE and CODE stale (R43, R49). -/
def State.invalidate (s : State) : State :=
  { s with treeValid := false, codesValid := false, nodeCount := 0 }

/-- A new FREQ with no tree and no code table (R91, R93). -/
def State.loadFreq (s : State) (f : FreqTable) : State :=
  { s.invalidate with freq := f, tree := none, codes := Vector.replicate 256 [] }

end Sys2Proof.Machine
end

