-- ==== Sys2Proof/Machine/Ops.lean ====
section
/-! DEFINITION. The named operations over the byte memories, the checks of a command, and taking a failure
(20_memory.md R64 to R67; 60_exceptions.md R148, R151; 00_scope.md R20, R21). -/

namespace Sys2Proof.Machine

/-! ### Byte memories -/

/-- The value listed for an address. -/
def find {β : Type} (a : Nat) : List (Nat × β) → Option β
  | [] => none
  | (k, v) :: l => if k = a then some v else find a l

/-- The entries below an address. -/
def below {β : Type} (a : Nat) (l : List (Nat × β)) : List (Nat × β) := l.filter (fun e => decide (e.1 < a))

/-- The entries at or above an address. -/
def above {β : Type} (a : Nat) (l : List (Nat × β)) : List (Nat × β) := l.filter (fun e => decide (a ≤ e.1))

/-- The entries that list a byte string at consecutive addresses. -/
def listed : Nat → ByteString → List Host.Cell
  | _, [] => []
  | a, b :: bs => (a, b) :: listed (a + 1) bs

/-- The entries that leave n consecutive addresses open at a value of the step counter. -/
def opened : Nat → Nat → Nat → List (Nat × Nat)
  | _, 0, _ => []
  | a, n + 1, tag => (a, tag) :: opened (a + 1) n tag

/-- What an unlisted address of a memory reads as: the byte it held at power-on, which the spec leaves
unspecified (R55, R167, I1) and which is a free value (log 2). -/
def unlisted (m : ByteStore) (a : Nat) : Byte := Config.powerOnByte m a

/-- The byte at an address: a free byte where a failure left the address open, the byte last written, or
what an unlisted address reads as. -/
def Memory.read (m : Memory) (a : Nat) : Byte :=
  match find a m.free with
  | some tag => Config.freeByte m.store tag a
  | none => (find a m.cells).getD (unlisted m.store a)

/-- The n bytes at addresses a to a+n-1 (R19). -/
def Memory.readBytes (m : Memory) : Nat → Nat → ByteString
  | _, 0 => []
  | a, n + 1 => m.read a :: m.readBytes (a + 1) n

/-- Writes a byte string at addresses a, a+1, ... (R19). -/
def Memory.writeBytes (m : Memory) (a : Nat) (bs : ByteString) : Memory where
  store := m.store
  cells := below a m.cells ++ listed a bs ++ above (a + bs.length) m.cells
  free := below a m.free ++ above (a + bs.length) m.free

/-- Leaves the n bytes at addresses a to a+n-1 open: each holds a free byte (R151; log 3). -/
def Memory.release (m : Memory) (a n tag : Nat) : Memory where
  store := m.store
  cells := below a m.cells ++ above (a + n) m.cells
  free := below a m.free ++ opened a n tag ++ above (a + n) m.free

/-- The addresses of a list rise strictly. -/
abbrev rising {β : Type} (l : List (Nat × β)) : Prop := l.Pairwise (fun x y => x.1 < y.1)

/-- The canonical form: both lists rise strictly and no address is in both lists. (What an unlisted
address reads as is no known byte, so no listed byte can repeat it.) -/
abbrev Memory.wf (m : Memory) : Prop :=
  rising m.cells ∧ rising m.free ∧ ∀ c ∈ m.cells, ∀ f ∈ m.free, c.1 ≠ f.1

/-- Every address of the memory's lists exists in a memory of n bytes (R53). -/
abbrev Memory.inBounds (m : Memory) (n : Nat) : Prop :=
  (∀ c ∈ m.cells, c.1 < n) ∧ ∀ f ∈ m.free, f.1 < n

/-- `MemRead(addr, n)` (R19). -/
def State.memRead (s : State) (a n : Nat) : ByteString := s.buf.readBytes a n

/-- `MemWrite(addr, |bs|, bs)` (R19). -/
def State.memWrite (s : State) (a : Nat) (bs : ByteString) : State :=
  { s with buf := s.buf.writeBytes a bs }

/-- `ArcRead(off, n)` (R19). -/
def State.arcRead (s : State) (o n : Nat) : ByteString := s.arc.readBytes o n

/-- `ArcWrite(off, |bs|, bs)` (R19). -/
def State.arcWrite (s : State) (o : Nat) (bs : ByteString) : State :=
  { s with arc := s.arc.writeBytes o bs }

/-! ### Failures -/

/-- A failed command (R20, R151): its error code, whether its first `Emit` call had been made (item 3),
and the ARC offset from which an IoFail failure leaves the bytes open (item 4). -/
structure Failure where
  code : ErrCode
  emitted : Bool := false
  arcFrom : Option Nat := none
  deriving DecidableEq, Repr

/-- A computation of a command that may raise an error (R20). -/
abbrev Checked (α : Type) := Except Failure α

/-- `raise Error(CODE)` before any output (R20). -/
def raise {α : Type} (c : ErrCode) : Checked α := .error { code := c }

/-- `raise Error(CODE)` when `n` bytes have been emitted, one `Emit` call each (R107, R151 item 3). -/
def raiseAfter {α : Type} (n : Nat) (c : ErrCode) : Checked α := .error { code := c, emitted := n != 0 }

/-- A check that raises a code when it does not hold. -/
def require (p : Bool) (c : ErrCode) : Checked Unit := if p then .ok () else raise c

/-- `Emit(s)` of a whole output (R66): DST_FULL when it would exceed the capacity. -/
def emit (cap : Nat) (bs : ByteString) : Checked ByteString :=
  if bs.length ≤ cap then .ok bs else .error { code := .dstFull, emitted := true }

/-- The bytes of the DST window become open (R151 item 3). -/
def State.releaseDst (s : State) : State :=
  { s with buf := s.buf.release s.dstAddr.toNat s.dstCap.toNat s.stepTag }

/-- The bytes of ARC at and above an offset become open (R151 item 4). -/
def State.releaseArc (s : State) (o : Nat) : State :=
  { s with arc := s.arc.release o (s.params.arcCap - o) s.stepTag }

/-- TAKING A FAILURE (R146, R148, R151): the DST window is open if output had begun, ARC is open from the
failure's offset if it has one, everything else but the completion flags, RESULT_LEN and CONSUMED keeps
its value from before the command. No control transfer takes place and nothing is saved (R155); there
is no return from it (R156). -/
def State.fail (s : State) (f : Failure) : State :=
  let s1 := if f.emitted then s.releaseDst else s
  let s2 := match f.arcFrom with
    | some o => s1.releaseArc o
    | none => s1
  s2.reportError f.code

/-- Completes a command (R148): with the state its pseudocode leaves, or with the failure it raised. -/
def State.conclude (s : State) (r : Checked State) : Outcome :=
  match r with
  | .ok t => .next t.succeed
  | .error f => .next (s.fail f)

/-- Completes an illegal command word (R84). -/
def State.illegal (s : State) : State := s.fail { code := .illegalCmd }

/-- Whether the command draws at a point. It draws at one point only (R21); which one is free (log 4). -/
def State.drawsAt (s : State) : IoDraw → Bool
  | .command => !Config.drawsInClose s.stepTag
  | .implicitClose => Config.drawsInClose s.stepTag

/-- `IoFail()` at a point of a command (R21): false under NEVER; under ORACLE the command's one draw, a free
Boolean, at the point where it is made, and false where it is not. -/
def State.ioFail (s : State) (d : IoDraw) : Bool :=
  match s.params.ioFault with
  | .never => false
  | .oracle => s.drawsAt d && Config.ioFails s.stepTag

/-- Success results: RESULT_LEN and CONSUMED (R32, R33). -/
def State.results (s : State) (len used : Nat) : State :=
  { s with resultLen := BitVec.ofNat 32 len, consumed := BitVec.ofNat 32 used }

/-- Writes a command's whole output at DST_ADDR (R66). Source bytes are read before, and read regions
never overlap DST, so writing the output in one go is R70's single action (log 17). -/
def State.writeDst (s : State) (out : ByteString) : State := s.memWrite s.dstAddr.toNat out

/-- Every engine register and internal state element at its reset value; BUF, ARC, the parameters, the
pin and the host's own state keep theirs (R55, R145, R165). -/
def State.engineReset (s : State) : State :=
  { State.reset with
    buf := s.buf, arc := s.arc, inReset := s.inReset, params := s.params, stepTag := s.stepTag,
    sched := s.sched, hostProg := s.hostProg, hostPos := s.hostPos, hostTemp := s.hostTemp }

end Sys2Proof.Machine
end

