-- ==== Sys2Proof/Machine/Operands.lean ====
section
/-! DEFINITION. Every operand a command can have: the three regions of BUF with their range and overlap checks, and
the BITCOUNT pair (10_state.md R23, R24; 20_memory.md R64, R65; 30_encoding.md R82). -/

namespace Sys2Proof.Machine

/-- An operand region: a BUF address and a length (R64). -/
abbrev Region := Nat × Nat

/-- (SRC_ADDR, SRC_LEN) (R64). -/
def State.srcRegion (s : State) : Region := (s.srcAddr.toNat, s.srcLen.toNat)

/-- (NAME_ADDR, NAME_LEN) (R64). -/
def State.nameRegion (s : State) : Region := (s.nameAddr.toNat, s.nameLen.toNat)

/-- (DST_ADDR, DST_CAP) (R64). -/
def State.dstRegion (s : State) : Region := (s.dstAddr.toNat, s.dstCap.toNat)

/-- A region is in range (R64): its end, computed without wrap-around, does not pass BUF_SIZE. -/
def State.inRange (s : State) (r : Region) : Bool := decide (r.1 + r.2 ≤ s.params.bufSize)

/-- Two regions overlap (R65). -/
def overlaps (r q : Region) : Bool :=
  decide (0 < r.2) && decide (0 < q.2) && decide (r.1 < q.1 + q.2) && decide (q.1 < r.1 + r.2)

/-- The range check of a region (R64). -/
def State.checkRange (s : State) (r : Region) : Checked Unit := require (s.inRange r) .range

/-- The overlap check of a read region against DST (R65). -/
def State.checkOverlap (s : State) (r : Region) : Checked Unit :=
  require (!overlaps r s.dstRegion) .overlap

/-- The checks of a command that reads SRC and writes DST (R64, R65, R150): SRC in range, DST in range,
no overlap. -/
def State.checkSrcDst (s : State) : Checked Unit := do
  s.checkRange s.srcRegion
  s.checkRange s.dstRegion
  s.checkOverlap s.srcRegion

/-- The bytes of the SRC region. -/
def State.srcBytes (s : State) : ByteString := s.memRead s.srcAddr.toNat s.srcLen.toNat

/-- The bytes of the NAME region. -/
def State.nameBytes (s : State) : ByteString := s.memRead s.nameAddr.toNat s.nameLen.toNat

/-- BITCOUNT (R24): the 64-bit value of the register pair. -/
def State.bitcount (s : State) : Nat := s.bitcountHi.toNat * 2 ^ 32 + s.bitcountLo.toNat

/-- `BITCOUNT <- v` (R24). -/
def State.setBitcount (s : State) (v : Nat) : State :=
  { s with bitcountLo := BitVec.ofNat 32 v, bitcountHi := BitVec.ofNat 32 (v / 2 ^ 32) }

end Sys2Proof.Machine
end

