-- ==== Sys2Proof/Machine/FreqModel.lean ====
section
/-! DEFINITION. The frequency model and its serialised form, and the commands FREQ_COUNT, FREQ_SER and FREQ_DES
(40_freq_model.md). -/

namespace Sys2Proof.Machine

/-- The byte values 0 to 255, in ascending order. -/
def symbols : List Byte := (List.range 256).map (BitVec.ofNat 8)

/-- The 256-entry table of a function of the byte value. -/
def tabulate {α : Type} (f : Byte → α) : Vector α 256 := ⟨⟨symbols.map f⟩, by simp [symbols]⟩

/-- Entry `s` of a 256-entry table. -/
def entryAt {α : Type} (t : Vector α 256) (s : Byte) : α := t[s.toNat]'s.isLt

/-- A 256-entry table with entry `s` replaced. -/
def setEntry {α : Type} (t : Vector α 256) (s : Byte) (v : α) : Vector α 256 := t.set s.toNat v s.isLt

/-- The all-zero table. -/
def zeroFreq : FreqTable := Vector.replicate 256 0#32

/-- 256 empty strings. -/
def emptyCodes : CodeTable := Vector.replicate 256 []

/-- `CountFreq(s)` (R87). -/
def countFreq (s : ByteString) : FreqTable := tabulate fun v => BitVec.ofNat 32 (s.count v)

/-- The symbols that occur, ascending (R46, R88): one pass over the table (present_eq in Laws/Data.lean
says it as a filter). -/
def present (f : FreqTable) : List Byte :=
  ((symbols.zip f.toList).filter fun e => e.2 != 0#32).map Prod.fst

/-- The serialised entry of a symbol (R88). -/
def freqEntry (f : FreqTable) (v : Byte) : ByteString := v :: le 4 (entryAt f v).toNat

/-- `FreqSerialize(F)` (R88). -/
def freqSerialize (f : FreqTable) : ByteString :=
  le 4 (present f).length ++ (present f).flatMap (freqEntry f)

/-- The loop of `FreqParse` (R89): n entries of 5 bytes, no zero count, no repeated symbol. -/
def parseFreqEntries : Nat → ByteString → FreqTable → Checked FreqTable
  | 0, _, f => .ok f
  | n + 1, v :: k0 :: k1 :: k2 :: k3 :: rest, f =>
    let k := fromLe [k0, k1, k2, k3]
    if k = 0 then raise .format
    else if entryAt f v ≠ 0#32 then raise .format
    else parseFreqEntries n rest (setEntry f v (BitVec.ofNat 32 k))
  | _ + 1, _, _ => raise .format

/-- `FreqParse(b)` (R89): the table and the number of bytes of b it used. -/
def freqParse (b : ByteString) : Checked (FreqTable × Nat) := do
  require (decide (4 ≤ b.length)) .format
  let n := fromLe (slice b 0 4)
  require (decide (n ≤ 256)) .format
  require (decide (4 + 5 * n ≤ b.length)) .format
  let f ← parseFreqEntries n (b.drop 4) zeroFreq
  .ok (f, 4 + 5 * n)

/-- FREQ_COUNT (R91). -/
def execFreqCount (s : State) : Outcome :=
  s.conclude do
    s.checkRange s.srcRegion
    .ok ((s.loadFreq (countFreq s.srcBytes)).results 0 s.srcLen.toNat)

/-- FREQ_SER (R92). -/
def execFreqSer (s : State) : Outcome :=
  s.conclude do
    s.checkRange s.dstRegion
    let out ← emit s.dstCap.toNat (freqSerialize s.freq)
    .ok ((s.writeDst out).results out.length 0)

/-- FREQ_DES (R93). -/
def execFreqDes (s : State) : Outcome :=
  s.conclude do
    s.checkRange s.srcRegion
    let (f, c) ← freqParse s.srcBytes
    .ok ((s.loadFreq f).results 0 c)

end Sys2Proof.Machine
end

