-- ==== Sys2Proof/Machine/TreeCodes.lean ====
section
/-! DEFINITION. The Huffman tree builder and the code-table generator, and the commands TREE_BUILD and CODE_GEN
(41_tree_and_codes.md). -/

namespace Sys2Proof.Machine

/-- The weight of a node (R47). -/
def Node.weight : Node → Nat
  | .leaf _ w => w
  | .placeholder => 0
  | .internal w _ _ _ => w

/-- The key of a node (R95): a leaf's symbol, 256 for the placeholder, the stored key of an internal
node. -/
def Node.key : Node → Nat
  | .leaf v _ => v.toNat
  | .placeholder => 256
  | .internal _ k _ _ => k

/-- The number of nodes of a tree (R40). -/
def Node.size : Node → Nat
  | .leaf _ _ => 1
  | .placeholder => 1
  | .internal _ _ l r => 1 + l.size + r.size

/-- The child of a node along an edge (R100, R107): 0 is left and 1 is right. A leaf and the placeholder
have none. -/
def Node.child : Node → Bool → Option Node
  | .internal _ _ l r, b => some (if b then r else l)
  | .leaf _ _, _ => none
  | .placeholder, _ => none

/-- The key test of R96. -/
def keyTest (p : TiePolicy) (a b : Node) : Bool :=
  match p with
  | .highKeyFirst => decide (b.key < a.key)
  | .lowKeyFirst => decide (a.key < b.key)

/-- The extraction order of R96: node a comes before node b. -/
def comesBefore (p : TiePolicy) (a b : Node) : Bool :=
  decide (a.weight < b.weight) || (a.weight == b.weight && keyTest p a b)

/-- Adds a node to a forest kept in extraction order. -/
def insertNode (p : TiePolicy) (a : Node) : List Node → List Node
  | [] => [a]
  | b :: f => if comesBefore p a b then a :: b :: f else b :: insertNode p a f

/-- A list of nodes in extraction order. -/
def orderForest (p : TiePolicy) : List Node → List Node
  | [] => []
  | a :: f => insertNode p a (orderForest p f)

/-- The leaves of a frequency table (R94). -/
def leavesOf (f : FreqTable) : List Node := (present f).map fun v => .leaf v (entryAt f v).toNat

/-- The initial forest (R94): with exactly one leaf, the placeholder is added. -/
def initialForest (f : FreqTable) : List Node :=
  match leavesOf f with
  | [a] => [a, .placeholder]
  | l => l

/-- The node one merge step makes of the first and the second node (R97). -/
def mergeNodes (a b : Node) : Node := .internal (a.weight + b.weight) (min a.key b.key) a b

/-- The merge loop of R98 on a forest in extraction order, with the node count so far. The first
argument bounds the number of steps; the number of nodes is enough. -/
def mergeLoop (p : TiePolicy) : Nat → List Node → Nat → Option Node × Nat
  | n + 1, a :: b :: f, k => mergeLoop p n (insertNode p (mergeNodes a b) f) (k + 1)
  | _, f, k => (f.head?, k)

/-- `BuildTree(F)` (R98): the tree and its node count. -/
def buildTree (p : TiePolicy) (f : FreqTable) : Option Node × Nat :=
  let forest := initialForest f
  mergeLoop p forest.length (orderForest p forest) forest.length

/-- The breadth-first walk of R100. The first argument bounds the number of nodes taken from the queue;
the size of the tree is enough. -/
def codeWalk : Nat → List (Node × BitString) → CodeTable → CodeTable
  | n + 1, (.internal _ _ l r, c) :: q, t => codeWalk n (q ++ [(l, c ++ [false]), (r, c ++ [true])]) t
  | n + 1, (.leaf v _, c) :: q, t => codeWalk n q (setEntry t v c)
  | n + 1, (.placeholder, _) :: q, t => codeWalk n q t
  | _, _, t => t

/-- `CodeGen(T)` (R100). -/
def genCodes : Option Node → CodeTable
  | none => emptyCodes
  | some t => codeWalk t.size [(t, [])] emptyCodes

/-- The tree of a table becomes TREE, with its node count (R98, R102). -/
def State.setTree (s : State) (f : FreqTable) : State :=
  { s with
    tree := (buildTree s.params.tiePolicy f).1
    nodeCount := BitVec.ofNat 32 (buildTree s.params.tiePolicy f).2
    treeValid := true
    codes := emptyCodes
    codesValid := false }

/-- The code table of TREE becomes CODE (R103). -/
def State.setCodes (s : State) : State := { s with codes := genCodes s.tree, codesValid := true }

/-- TREE_BUILD (R102). -/
def execTreeBuild (s : State) : Outcome := s.conclude (.ok ((s.setTree s.freq).results 0 0))

/-- CODE_GEN (R103). -/
def execCodeGen (s : State) : Outcome :=
  s.conclude do
    require s.treeValid .state
    .ok (s.setCodes.results 0 0)

end Sys2Proof.Machine
end

