-- ==== Sys2Proof/Machine/BitPacker.lean ====
section
/-! DEFINITION. The bit packer and the bit unpacker, and the commands SYM_ENCODE and SYM_DECODE
(42_bit_packer.md). -/

namespace Sys2Proof.Machine

/-- The byte whose bit i is the i-th of at most 8 bits; absent bits are 0 (R104). -/
def packByte (bits : BitString) : Byte := BitVec.ofNat 8 (bitsToNat bits)

/-- n packed bytes, 8 bits each. -/
def packBytes : Nat → BitString → ByteString
  | 0, _ => []
  | n + 1, bits => packByte (bits.take 8) :: packBytes n (bits.drop 8)

/-- `Pack(bits)` (R104). -/
def pack (bits : BitString) : ByteString := packBytes (ceilDiv8 bits.length) bits

/-- `StreamBit(b, i)` (R105). -/
def streamBit (b : ByteString) (i : Nat) : Bool := (b.getD (i / 8) 0#8).getLsbD (i % 8)

/-- The 8 bits of a byte, bit 0 first. -/
def byteBits (b : Byte) : BitString := (List.range 8).map b.getLsbD

/-- The first m bits of a packed byte string, in stream order (R105, R107). -/
def streamBits (b : ByteString) (m : Nat) : BitString := (b.flatMap byteBits).take m

/-- `CodeStream(s)` (R106). -/
def codeStream (t : CodeTable) (s : ByteString) : BitString := s.flatMap (entryAt t)

/-- The loop of `Walk` (R107): from a node of the tree, after p bytes have been emitted. Reaching a leaf
emits its symbol and goes back to the root; the placeholder, an end that is not the root, and (only in
a tree no run builds, log 10) a missing child are CORRUPT. -/
def walkFrom (root : Node) (cap : Nat) : Nat → Node → BitString → Checked ByteString
  | p, n, [] => if n = root then .ok [] else raiseAfter p .corrupt
  | p, n, b :: bits =>
    match n.child b with
    | some (.leaf v _) =>
      if p + 1 ≤ cap then
        match walkFrom root cap (p + 1) root bits with
        | .ok out => .ok (v :: out)
        | .error e => .error e
      else .error { code := .dstFull, emitted := true }
    | some .placeholder => raiseAfter p .corrupt
    | some (.internal w k l r) => walkFrom root cap p (.internal w k l r) bits
    | none => raiseAfter p .corrupt

/-- `Walk(T, b, m)` (R107) with at most `cap` bytes of output. -/
def walk (cap : Nat) (t : Option Node) (b : ByteString) (m : Nat) : Checked ByteString :=
  if m = 0 then .ok []
  else
    match t with
    | none => raise .corrupt
    | some root => walkFrom root cap 0 root (streamBits b m)

/-- SYM_ENCODE (R109). -/
def execSymEncode (s : State) : Outcome :=
  s.conclude do
    s.checkSrcDst
    require s.codesValid .state
    require (s.srcBytes.all fun v => entryAt s.codes v != []) .state
    let bits := codeStream s.codes s.srcBytes
    let out ← emit s.dstCap.toNat (pack bits)
    .ok (((s.writeDst out).setBitcount bits.length).results out.length s.srcLen.toNat)

/-- SYM_DECODE (R110). -/
def execSymDecode (s : State) : Outcome :=
  s.conclude do
    s.checkSrcDst
    require s.treeValid .state
    let nb := ceilDiv8 s.bitcount
    require (decide (nb ≤ s.srcLen.toNat)) .format
    let out ← walk s.dstCap.toNat s.tree (s.memRead s.srcAddr.toNat nb) s.bitcount
    .ok ((s.writeDst out).results out.length nb)

end Sys2Proof.Machine
end

