-- ==== Sys2Proof/Machine/Codec.lean ====
section
/-! DEFINITION. Encode and Decode, and the commands HUF_ENCODE and HUF_DECODE (43_codec.md). -/

namespace Sys2Proof.Machine

/-- The code table of a table's tree (R98, R100). -/
def codesOf (p : TiePolicy) (f : FreqTable) : CodeTable := genCodes (buildTree p f).1

/-- The bits of a byte string under the code table of its own counts (R106, R112). -/
def encodedBits (p : TiePolicy) (b : ByteString) : BitString := codeStream (codesOf p (countFreq b)) b

/-- The block of `EncodeBlock(s)` (R111, R112). -/
def encodeBlock (p : TiePolicy) (b : ByteString) : ByteString :=
  freqSerialize (countFreq b) ++ le 8 (encodedBits p b).length ++ pack (encodedBits p b)

/-- What `EncodeBlock(s)` leaves in FREQ, TREE, CODE and BITCOUNT (R112). -/
def State.afterEncode (s : State) (b : ByteString) : State :=
  (({ s with freq := countFreq b }.setTree (countFreq b)).setCodes).setBitcount
    (encodedBits s.params.tiePolicy b).length

/-- The result of `DecodeBlock(b)` (R113): the table, the bit count, the decoded bytes and the number of
bytes of b the block occupies. -/
structure Decoded where
  table : FreqTable
  bits : Nat
  out : ByteString
  used : Nat
  deriving DecidableEq, Repr

/-- `DecodeBlock(b)` (R113) with at most `cap` bytes of output. -/
def decodeBlock (p : TiePolicy) (cap : Nat) (b : ByteString) : Checked Decoded := do
  let (f, c) ← freqParse b
  if present f = [] then .ok { table := f, bits := 0, out := [], used := c }
  else do
    require (decide (c + 8 ≤ b.length)) .format
    let m := fromLe (slice b c (c + 8))
    let nb := ceilDiv8 m
    require (decide (c + 8 + nb ≤ b.length)) .format
    let out ← walk cap (buildTree p f).1 (slice b (c + 8) (c + 8 + nb)) m
    .ok { table := f, bits := m, out := out, used := c + 8 + nb }

/-- What `DecodeBlock(b)` leaves in FREQ, TREE, CODE and BITCOUNT (R113). The tree of a zero-symbol table is
Empty with node count 0, which is what `BuildTree` gives. -/
def State.afterDecode (s : State) (d : Decoded) : State :=
  ({ s with freq := d.table }.setTree d.table).setBitcount d.bits

/-- HUF_ENCODE (R115). -/
def execHufEncode (s : State) : Outcome :=
  s.conclude do
    s.checkSrcDst
    let out ← emit s.dstCap.toNat (encodeBlock s.params.tiePolicy s.srcBytes)
    .ok (((s.afterEncode s.srcBytes).writeDst out).results out.length s.srcLen.toNat)

/-- HUF_DECODE (R116). -/
def execHufDecode (s : State) : Outcome :=
  s.conclude do
    s.checkSrcDst
    let d ← decodeBlock s.params.tiePolicy s.dstCap.toNat s.srcBytes
    .ok (((s.afterDecode d).writeDst d.out).results d.out.length d.used)

end Sys2Proof.Machine
end

