-- ==== Sys2Proof/Machine/Framing.lean ====
section
/-! DEFINITION. Stream frames, and the commands FRAME and UNFRAME (44_framing.md). -/

namespace Sys2Proof.Machine

/-- `Frame(b)` (R117). -/
def frameOf (p : Params) (b : ByteString) : ByteString :=
  le 8 p.streamHead.toNat ++ b ++ zeros (padLen b.length) ++ le 8 p.streamTail.toNat

/-- `CheckFrame(f)` (R118): the bytes between the sentinels. -/
def checkFrame (p : Params) (f : ByteString) : Checked ByteString := do
  require (decide (16 ≤ f.length)) .format
  require (f.length % 8 == 0) .format
  require (fromLe (slice f 0 8) == p.streamHead.toNat) .format
  require (fromLe (slice f (f.length - 8) f.length) == p.streamTail.toNat) .format
  .ok (slice f 8 (f.length - 8))

/-- FRAME (R121). -/
def execFrame (s : State) : Outcome :=
  s.conclude do
    s.checkSrcDst
    let out ← emit s.dstCap.toNat (frameOf s.params s.srcBytes)
    .ok ((s.writeDst out).results out.length s.srcLen.toNat)

/-- UNFRAME (R122). -/
def execUnframe (s : State) : Outcome :=
  s.conclude do
    s.checkSrcDst
    let pl ← checkFrame s.params s.srcBytes
    let out ← emit s.dstCap.toNat pl
    .ok ((s.writeDst out).results out.length s.srcLen.toNat)

end Sys2Proof.Machine
end

