-- ==== Sys2Proof/Machine/PathIndex.lean ====
section
/-! DEFINITION. The path index, its serialised form and its parser (45_archive.md R125, R126, R127, R137). -/

namespace Sys2Proof.Machine

/-- Ascending path order (R127): by the first unequal byte as an unsigned value; a proper prefix comes
first. -/
def pathBefore : ByteString → ByteString → Bool
  | [], [] => false
  | [], _ :: _ => true
  | _ :: _, [] => false
  | a :: as, b :: bs => decide (a.toNat < b.toNat) || (a == b && pathBefore as bs)

/-- `I[n] <- (o, z)`: the map is kept as `Ordered(I)` (R50, R127; log 14). -/
def insertEntry (e : Entry) : List Entry → List Entry
  | [] => [e]
  | x :: l =>
    if e.path = x.path then e :: l
    else if pathBefore e.path x.path then e :: x :: l
    else x :: insertEntry e l

/-- `I[n]`: the entry of a path, if the map holds it (R9, R50). -/
def findEntry (n : ByteString) (l : List Entry) : Option Entry := l.find? fun e => e.path == n

/-- `NameBytes(I)` (R138): the sum of the path lengths. -/
def nameTotal (l : List Entry) : Nat := (l.map fun e => e.path.length).sum

/-- One serialised index entry (R125). -/
def entryBytes (e : Entry) : ByteString :=
  le 4 e.path.length ++ e.path ++ le 8 e.offset.toNat ++ le 8 e.size.toNat

/-- The serialised entry list E of an index (R126). -/
def entryList (l : List Entry) : ByteString := l.flatMap entryBytes

/-- `IndexSerialize(I, V)` (R126). -/
def indexSerialize (p : Params) (l : List Entry) (v : Word) : ByteString :=
  le 8 p.indexHead.toNat ++ le 4 (entryList l).length ++ le 4 v.toNat ++ entryList l ++
    zeros (padLen (16 + (entryList l).length)) ++ le 8 p.indexTail.toNat

/-- `IndexLen(I)` (R126). -/
def indexLen (l : List Entry) : Nat :=
  24 + (entryList l).length + padLen (16 + (entryList l).length)

/-- The entry loop of AR_OPEN_R (R137) on the bytes from q to the declared end e, with the index so far.
The first argument bounds the number of entries; the number of bytes is enough. -/
def parseEntries (p : Params) : Nat → ByteString → List Entry → Checked (List Entry)
  | _, [], l => .ok l
  | 0, _ :: _, _ => raise .format
  | n + 1, b :: bs, l => do
    let rest := b :: bs
    require (decide (4 ≤ rest.length)) .format
    let len := fromLe (slice rest 0 4)
    require (len != 0) .format
    require (decide (4 + len + 16 ≤ rest.length)) .format
    require (decide (len ≤ p.maxNameLen)) .capacity
    let path := slice rest 4 (4 + len)
    let o := fromLe (slice rest (4 + len) (12 + len))
    let z := fromLe (slice rest (12 + len) (20 + len))
    require (findEntry path l).isNone .format
    require (decide (o < 2 ^ 32) && decide (z < 2 ^ 32)) .format
    require (l.length != p.maxEntries && decide (nameTotal l + len ≤ p.nameCap)) .capacity
    parseEntries p n (rest.drop (20 + len))
      (insertEntry { path := path, offset := BitVec.ofNat 32 o, size := BitVec.ofNat 32 z } l)

end Sys2Proof.Machine
end

