-- ==== Sys2Proof/Machine/Version.lean ====
section
/-! DEFINITION. The packed archive version: packing, parsing, formatting and the validity check
(45_archive.md R129 to R132). -/

namespace Sys2Proof.Machine

/-- `VerPack` (R129). -/
def verPack (groups : List Nat) : Word :=
  groups.foldl (fun v g => (v <<< 8) ||| (0x80#32 ||| BitVec.ofNat 32 g)) 0#32

/-- A byte string split at every byte 0x2E (R130). -/
def splitDots : ByteString → List ByteString
  | [] => [[]]
  | b :: bs =>
    match splitDots bs with
    | [] => [[b]]
    | g :: gs => if b = 0x2E#8 then [] :: g :: gs else (b :: g) :: gs

/-- The bytes 0x30 to 0x39 (R130). -/
def isDigit (b : Byte) : Bool := decide (0x30 ≤ b.toNat) && decide (b.toNat ≤ 0x39)

/-- `DecimalValue(t)` (R130): leading zeros are allowed. -/
def decimalValue (t : ByteString) : Nat := t.foldl (fun acc b => 10 * acc + (b.toNat - 0x30)) 0

/-- The value of one group: one or more digits with value at most 99 (R130). -/
def groupValue (t : ByteString) : Option Nat :=
  if t ≠ [] ∧ t.all isDigit ∧ decimalValue t ≤ 99 then some (decimalValue t) else none

/-- The values of all groups, if each is valid (R130). -/
def groupValues : List ByteString → Option (List Nat)
  | [] => some []
  | t :: ts =>
    match groupValue t, groupValues ts with
    | some g, some gs => some (g :: gs)
    | _, _ => none

/-- `VerParse(s)` (R130): `none` is invalid. -/
def verParse (s : ByteString) : Option Word :=
  if (splitDots s).length ≤ 4 then (groupValues (splitDots s)).map verPack else none

/-- The four bytes of a packed version, bits 31:24 first (R131). -/
def verBytes (v : Word) : ByteString :=
  [v.extractLsb' 24 8, v.extractLsb' 16 8, v.extractLsb' 8 8, v.extractLsb' 0 8]

/-- The ASCII byte of a decimal digit. -/
def digitByte (n : Nat) : Byte := BitVec.ofNat 8 (0x30 + n % 10)

/-- The decimal string of a value below 1000, without leading zeros (R131). -/
def decimalString (n : Nat) : ByteString :=
  if n < 10 then [digitByte n]
  else if n < 100 then [digitByte (n / 10), digitByte n]
  else [digitByte (n / 100), digitByte (n / 10), digitByte n]

/-- Byte strings joined with "." (R131). -/
def joinDots : List ByteString → ByteString
  | [] => []
  | [t] => t
  | t :: u :: ts => t ++ 0x2E#8 :: joinDots (u :: ts)

/-- `VerFormat(v)` (R131): bytes with bit 7 clear are skipped. -/
def verFormat (v : Word) : ByteString :=
  joinDots (((verBytes v).filter fun b => b.getLsbD 7).map fun b => decimalString (b.toNat % 128))

/-- `VerValid(v)` (R132): after the zero bytes at the top, every byte has bit 7 set and a low 7-bit value of
at most 99. The value 0 has no byte left. -/
def verValid (v : Word) : Bool :=
  ((verBytes v).dropWhile fun b => b == 0#8).all fun b => b.getLsbD 7 && decide (b.toNat % 128 ≤ 99)

end Sys2Proof.Machine
end

