-- ==== Sys2Proof/Machine/Archive.lean ====
section
/-! DEFINITION. The archive handle and the commands AR_OPEN_W, AR_OPEN_R, AR_ADD, AR_CLOSE, AR_GET, AR_ENUM, AR_SETVER
and AR_GETVER (45_archive.md). -/

namespace Sys2Proof.Machine

/-- The handle is closed: IDX empty, VERSION 0, MODE UNSET, ARC_OFFSET 0 (R139). -/
def State.closeHandle (s : State) : State :=
  { s with idx := [], version := 0, mode := .unset, arcOffset := 0 }

/-- What a failed close of a write session leaves (R139, failure clause). -/
def State.closeFailed (s : State) : State :=
  { s.closeHandle with indexOff := 0, arcLen := s.arcOffset }

/-- What a successful close of a write session leaves (R139): the index at H = ARC_OFFSET, the header
patched with H. -/
def State.closeWritten (s : State) : State :=
  { s with
    arc := (s.arc.writeBytes s.arcOffset.toNat (indexSerialize s.params s.idx s.version)).writeBytes 0
      (le 8 s.arcOffset.toNat)
    arcLen := BitVec.ofNat 32 (s.arcOffset.toNat + indexLen s.idx)
    indexOff := s.arcOffset
    idx := [], version := 0, mode := .unset, arcOffset := 0 }

/-- The state changes of AR_CLOSE and its error code, with `IoFail()` drawn at a given place (R139). After
an IoFail failure the ARC bytes at and above H are open; the header keeps its bytes (R151 item 4, log 11).
-/
def State.closeArchive (s : State) (d : IoDraw) : State × Option ErrCode :=
  match s.mode with
  | .unset => (s.results 0 0, none)
  | .readOpen => ({ s with idx := [], version := 0, mode := .unset }.results 0 0, none)
  | .writeOpen =>
    let h := s.arcOffset.toNat
    let l := indexLen s.idx
    if s.params.arcCap < h + l then (s.closeFailed, some .io)
    else if s.ioFail d then ((s.releaseArc (max 8 h)).closeFailed, some .io)
    else (s.closeWritten.results l 0, none)

/-- `ImplicitClose()` (R134): AR_CLOSE's effects when a handle is open; its error code is discarded. -/
def State.implicitClose (s : State) : State :=
  match s.mode with
  | .unset => s
  | .writeOpen => (s.closeArchive .implicitClose).1
  | .readOpen => (s.closeArchive .implicitClose).1

/-- What a successful AR_OPEN_W does after the implicit close (R136). -/
def State.openForWriting (s : State) : State :=
  { s.arcWrite 0 (le 8 0) with
    arcLen := 8, arcOffset := 8, indexOff := 0, idx := [], version := 0, mode := .writeOpen }

/-- AR_OPEN_W (R136). When `IoFail()` is true the implicit close's effects stay and MODE is UNSET. -/
def execArOpenW (s : State) : Outcome :=
  let t := s.implicitClose
  if t.ioFail .command then .next ({ t with mode := .unset }.reportError .io)
  else .next (t.openForWriting.results 8 0).succeed

/-- What AR_OPEN_R's checks and parse give (R137): the index offset, the version and the index. -/
structure OpenedIndex where
  indexOff : Nat
  version : Word
  idx : List Entry
  deriving DecidableEq, Repr

/-- The checks and the parse of AR_OPEN_R after the implicit close (R137). -/
def State.readIndex (s : State) : Checked OpenedIndex := do
  let n := s.arcLen.toNat
  require (decide (n ≤ s.params.arcCap)) .io
  require (!s.ioFail .command) .io
  require (decide (32 ≤ n)) .format
  let h := fromLe (s.arcRead 0 8)
  require (h % 8 == 0 && decide (8 ≤ h) && decide (h + 24 ≤ n)) .format
  require (fromLe (s.arcRead h 8) == s.params.indexHead.toNat) .format
  require (fromLe (s.arcRead (n - 8) 8) == s.params.indexTail.toNat) .format
  let span := n - h
  require (span % 8 == 0) .format
  let le_ := fromLe (s.arcRead (h + 8) 4)
  let v := BitVec.ofNat 32 (fromLe (s.arcRead (h + 12) 4))
  require (verValid v) .format
  require (decide (24 + le_ ≤ span) && decide (span - 24 - le_ ≤ 7)) .format
  let l ← parseEntries s.params le_ (s.arcRead (h + 16) le_) []
  .ok { indexOff := h, version := v, idx := l }

/-- What a successful AR_OPEN_R leaves (R137). -/
def State.openForReading (s : State) (o : OpenedIndex) : State :=
  { s with
    idx := o.idx, version := o.version, indexOff := BitVec.ofNat 32 o.indexOff, arcOffset := 0,
    mode := .readOpen }

/-- What a failed AR_OPEN_R leaves (R137, failure clause). -/
def State.openFailed (s : State) : State := { s.closeHandle with indexOff := 0 }

/-- AR_OPEN_R (R137). -/
def execArOpenR (s : State) : Outcome :=
  let t := s.implicitClose
  match t.readIndex with
  | .ok o => .next ((t.openForReading o).results 0 0).succeed
  | .error f => .next (t.openFailed.reportError f.code)

/-- The frame AR_ADD appends (R138). -/
def State.addedFrame (s : State) : ByteString :=
  frameOf s.params (encodeBlock s.params.tiePolicy s.srcBytes)

/-- What a successful AR_ADD leaves (R138). -/
def State.appendFrame (s : State) : State :=
  { s.afterEncode s.srcBytes with
    arc := s.arc.writeBytes s.arcOffset.toNat s.addedFrame
    idx := insertEntry
      { path := s.nameBytes, offset := s.arcOffset,
        size := BitVec.ofNat 32 s.addedFrame.length } s.idx
    entryOffset := s.arcOffset
    entrySize := BitVec.ofNat 32 s.addedFrame.length
    arcOffset := BitVec.ofNat 32 (s.arcOffset.toNat + s.addedFrame.length)
    arcLen := BitVec.ofNat 32 (s.arcOffset.toNat + s.addedFrame.length) }

/-- AR_ADD (R138). After an IoFail failure the ARC bytes at and above the frame offset are open (R151 item
4). -/
def execArAdd (s : State) : Outcome :=
  s.conclude do
    require (s.mode == .writeOpen) .mode
    require (s.nameLen != 0#32) .arg
    s.checkRange s.srcRegion
    s.checkRange s.nameRegion
    let n := s.nameBytes
    require (findEntry n s.idx).isNone .conflict
    require (decide (n.length ≤ s.params.maxNameLen) && s.idx.length != s.params.maxEntries &&
      decide (nameTotal s.idx + n.length ≤ s.params.nameCap)) .capacity
    let f := s.addedFrame
    let o := s.arcOffset.toNat
    require (decide (o + f.length ≤ s.params.arcCap)) .io
    if s.ioFail .command then .error { code := .io, arcFrom := some o }
    else .ok (s.appendFrame.results f.length s.srcLen.toNat)

/-- AR_CLOSE (R139). -/
def execArClose (s : State) : Outcome :=
  match s.closeArchive .command with
  | (t, none) => .next t.succeed
  | (t, some c) => .next (t.reportError c)

/-- The bounds AR_GET checks on an entry (R140). -/
def frameInRegion (o z indexOff : Nat) : Bool :=
  decide (16 ≤ z) && z % 8 == 0 && o % 8 == 0 && decide (8 ≤ o) && decide (o + z ≤ indexOff)

/-- The bounds of an ArcRead (R67). -/
def State.arcReadable (s : State) (o z : Nat) : Bool :=
  decide (o + z ≤ s.arcLen.toNat) && decide (s.arcLen.toNat ≤ s.params.arcCap)

/-- AR_GET (R140). The bounds of R67 on its ArcRead hold in every state a run reaches (log 12). -/
def execArGet (s : State) : Outcome :=
  s.conclude do
    require (s.mode == .readOpen) .mode
    s.checkRange s.nameRegion
    s.checkRange s.dstRegion
    s.checkOverlap s.nameRegion
    match findEntry s.nameBytes s.idx with
    | none => raise .notFound
    | some e =>
      let o := e.offset.toNat
      let z := e.size.toNat
      require (frameInRegion o z s.indexOff.toNat) .format
      require (!s.ioFail .command) .io
      require (s.arcReadable o z) .format
      let pl ← checkFrame s.params (s.arcRead o z)
      let d ← decodeBlock s.params.tiePolicy s.dstCap.toNat pl
      .ok (({ s.afterDecode d with entryOffset := e.offset, entrySize := e.size }.writeDst d.out).results
        d.out.length z)

/-- AR_ENUM (R141). -/
def execArEnum (s : State) : Outcome :=
  s.conclude do
    require (s.mode != .unset) .mode
    s.checkRange s.dstRegion
    match s.idx[s.entrySel.toNat]? with
    | none => raise .notFound
    | some e =>
      let out ← emit s.dstCap.toNat e.path
      .ok (({ s with entryOffset := e.offset, entrySize := e.size }.writeDst out).results out.length 0)

/-- AR_SETVER (R142): an invalid string is a warning and leaves VERSION unchanged (R152). -/
def execArSetver (s : State) : Outcome :=
  match (do
    require (s.mode == .writeOpen) .mode
    s.checkRange s.srcRegion : Checked Unit) with
  | .error f => .next (s.fail f)
  | .ok _ =>
    let t := s.results 0 s.srcLen.toNat
    match verParse s.srcBytes with
    | none => .next (t.succeedWarn .versionParse)
    | some v => .next { t with version := v }.succeed

/-- AR_GETVER (R143). -/
def execArGetver (s : State) : Outcome :=
  s.conclude do
    s.checkRange s.dstRegion
    let out ← emit s.dstCap.toNat (verFormat s.version)
    .ok ((s.writeDst out).results out.length 0)

end Sys2Proof.Machine
end

