-- ==== Sys2Proof/Machine/Control.lean ====
section
/-! DEFINITION. The commands NOP and SRESET (46_control.md). -/

namespace Sys2Proof.Machine

/-- NOP (R144). -/
def execNop (s : State) : Outcome := s.conclude (.ok (s.results 0 0))

/-- SRESET (R145): every engine register and internal state element at its reset value, then the
completion of a successful command. -/
def execSreset (s : State) : Outcome := s.conclude (.ok s.engineReset)

end Sys2Proof.Machine
end

