-- ==== Sys2Proof/Machine/Dispatch.lean ====
section
/-! DEFINITION. The meaning of each command, one arm per constructor of Instr. -/

namespace Sys2Proof.Machine

def exec (i : Instr) (s : State) : Host.Outcome State Fault Refusal :=
  match i with
  | .nop => Sys2Proof.Machine.execNop s
  | .freqCount => Sys2Proof.Machine.execFreqCount s
  | .freqSer => Sys2Proof.Machine.execFreqSer s
  | .freqDes => Sys2Proof.Machine.execFreqDes s
  | .treeBuild => Sys2Proof.Machine.execTreeBuild s
  | .codeGen => Sys2Proof.Machine.execCodeGen s
  | .symEncode => Sys2Proof.Machine.execSymEncode s
  | .symDecode => Sys2Proof.Machine.execSymDecode s
  | .hufEncode => Sys2Proof.Machine.execHufEncode s
  | .hufDecode => Sys2Proof.Machine.execHufDecode s
  | .frame => Sys2Proof.Machine.execFrame s
  | .unframe => Sys2Proof.Machine.execUnframe s
  | .arOpenW => Sys2Proof.Machine.execArOpenW s
  | .arOpenR => Sys2Proof.Machine.execArOpenR s
  | .arAdd => Sys2Proof.Machine.execArAdd s
  | .arClose => Sys2Proof.Machine.execArClose s
  | .arGet => Sys2Proof.Machine.execArGet s
  | .arEnum => Sys2Proof.Machine.execArEnum s
  | .arSetver => Sys2Proof.Machine.execArSetver s
  | .arGetver => Sys2Proof.Machine.execArGetver s
  | .sreset => Sys2Proof.Machine.execSreset s

end Sys2Proof.Machine
end

