-- ==== Sys2Proof/Machine/Engine.lean ====
section
/-! DEFINITION. The engine's move: fetching the latched command word, decoding it and running it
(60_exceptions.md R148; 30_encoding.md R84). -/

namespace Sys2Proof.Machine

/-- The engine has a step to take: a command is latched and the engine is not in reset (R148, R165). -/
def State.engineReady (s : State) : Bool := s.busy && !s.inReset

/-- One turn of the engine (R148 item 2): it decodes the latched word and runs the command; an illegal
word completes with ILLEGAL_CMD (R84). With no latched command, or in reset, it is idle (R164, R165). -/
def engineMove (s : State) : Outcome :=
  if s.inReset then .next s
  else
    match s.pending with
    | none => .next s
    | some w =>
      match decode w with
      | .ok i => exec i s
      | .error _ => .next s.illegal

/-- The state with a command word where the engine fetches it (R52): latched, with the engine's turn next
and `rst_n` high. -/
def State.placeCommand (s : State) (w : Word) : State :=
  { s with pending := some w, sched := [], inReset := false }

end Sys2Proof.Machine
end

