-- ==== Sys2Proof/Machine/RegWindow.lean ====
section
/-! DEFINITION. The host register port: the register map, what each register reads as and what a write does
(10_state.md R22 to R45; 20_memory.md R61, R71; 60_exceptions.md R148, R149; 70_reset_and_hazards.md R165). -/

namespace Sys2Proof.Machine

/-- The registers outside the windows, with their byte offsets (R23, R26). -/
def registerMap : List (Nat × Reg) :=
  [(0x000, .id), (0x004, .cmd), (0x008, .status), (0x00C, .errcode), (0x010, .srcAddr),
   (0x014, .srcLen), (0x018, .dstAddr), (0x01C, .dstCap), (0x020, .nameAddr), (0x024, .nameLen),
   (0x028, .resultLen), (0x02C, .consumed), (0x030, .entrySel), (0x034, .entryCount),
   (0x038, .entryOffset), (0x03C, .entrySize), (0x040, .bitcountLo), (0x044, .bitcountHi),
   (0x048, .version), (0x04C, .arcLen), (0x050, .arcOffset), (0x054, .indexOff),
   (0x058, .nodeCount), (0x05C, .symCount), (0x060, .codeSel), (0x064, .maxCodeLen)]

/-- The register at a byte offset that is a multiple of 4; none where the offset is reserved (R26). -/
def regAt (off : Nat) : Option Reg :=
  if off < 0x400 then find off registerMap
  else if off < 0x800 then some (.freq (BitVec.ofNat 8 ((off - 0x400) / 4)))
  else if off < 0xC00 then some (.codeLen (BitVec.ofNat 8 ((off - 0x800) / 4)))
  else if h : (off - 0xC00) / 4 < 8 then some (.codeWord ⟨(off - 0xC00) / 4, h⟩)
  else none

/-- The byte offset of a register (R23, R26). -/
def Reg.offset : Reg → BitVec 12
  | .id => 0x000#12
  | .cmd => 0x004#12
  | .status => 0x008#12
  | .errcode => 0x00C#12
  | .srcAddr => 0x010#12
  | .srcLen => 0x014#12
  | .dstAddr => 0x018#12
  | .dstCap => 0x01C#12
  | .nameAddr => 0x020#12
  | .nameLen => 0x024#12
  | .resultLen => 0x028#12
  | .consumed => 0x02C#12
  | .entrySel => 0x030#12
  | .entryCount => 0x034#12
  | .entryOffset => 0x038#12
  | .entrySize => 0x03C#12
  | .bitcountLo => 0x040#12
  | .bitcountHi => 0x044#12
  | .version => 0x048#12
  | .arcLen => 0x04C#12
  | .arcOffset => 0x050#12
  | .indexOff => 0x054#12
  | .nodeCount => 0x058#12
  | .symCount => 0x05C#12
  | .codeSel => 0x060#12
  | .maxCodeLen => 0x064#12
  | .freq v => BitVec.ofNat 12 (0x400 + 4 * v.toNat)
  | .codeLen v => BitVec.ofNat 12 (0x800 + 4 * v.toNat)
  | .codeWord j => BitVec.ofNat 12 (0xC00 + 4 * j.val)

/-- The code table the windows show: CODE while CODES_VALID = 1, 256 empty strings otherwise (R42, R44,
R45). -/
def State.shownCodes (s : State) : CodeTable := if s.codesValid then s.codes else emptyCodes

/-- MAX_CODE_LEN (R42). -/
def State.maxCodeLen (s : State) : Nat :=
  (s.shownCodes.toList.map List.length).foldr max 0

/-- Word j of the CODE_WORD window (R45): bits 32j to 32j+31 of the selected code. -/
def State.codeWord (s : State) (j : Nat) : Word :=
  BitVec.ofNat 32 (bitsToNat (((entryAt s.shownCodes s.codeSel).drop (32 * j)).take 32))

/-- What a register reads as (R28 to R45); CMD is write only and reads 0. -/
def State.readReg (s : State) : Reg → Word
  | .id => s.params.engineId
  | .cmd => 0
  | .status => s.statusWord
  | .errcode => s.errcode.number.setWidth 32
  | .srcAddr => s.srcAddr
  | .srcLen => s.srcLen
  | .dstAddr => s.dstAddr
  | .dstCap => s.dstCap
  | .nameAddr => s.nameAddr
  | .nameLen => s.nameLen
  | .resultLen => s.resultLen
  | .consumed => s.consumed
  | .entrySel => s.entrySel
  | .entryCount => BitVec.ofNat 32 s.idx.length
  | .entryOffset => s.entryOffset
  | .entrySize => s.entrySize
  | .bitcountLo => s.bitcountLo
  | .bitcountHi => s.bitcountHi
  | .version => s.version
  | .arcLen => s.arcLen
  | .arcOffset => s.arcOffset
  | .indexOff => s.indexOff
  | .nodeCount => s.nodeCount
  | .symCount => BitVec.ofNat 32 (present s.freq).length
  | .codeSel => s.codeSel.setWidth 32
  | .maxCodeLen => BitVec.ofNat 32 s.maxCodeLen
  | .freq v => entryAt s.freq v
  | .codeLen v => (BitVec.ofNat 9 (entryAt s.shownCodes v).length).setWidth 32
  | .codeWord j => s.codeWord j.val

/-- What a write of v to a register does while BUSY = 0 and `rst_n` = 1 (R23, R26, R29, R30, R37, R43,
R71). A write to a read-only register is ignored (R27). -/
def State.writeReg (s : State) (r : Reg) (v : Word) : State :=
  match r with
  | .cmd => s.accept v
  | .status => s.clearSticky v
  | .srcAddr => { s with srcAddr := v }
  | .srcLen => { s with srcLen := v }
  | .dstAddr => { s with dstAddr := v }
  | .dstCap => { s with dstCap := v }
  | .nameAddr => { s with nameAddr := v }
  | .nameLen => { s with nameLen := v }
  | .entrySel => { s with entrySel := v }
  | .bitcountLo => { s with bitcountLo := v }
  | .bitcountHi => { s with bitcountHi := v }
  | .codeSel => { s with codeSel := v.setWidth 8 }
  | .arcLen => if s.mode = .unset then { s with arcLen := v } else s
  | .freq b => { s.invalidate with freq := setEntry s.freq b v }
  | .id => s
  | .errcode => s
  | .resultLen => s
  | .consumed => s
  | .entryCount => s
  | .entryOffset => s
  | .entrySize => s
  | .version => s
  | .arcOffset => s
  | .indexOff => s
  | .nodeCount => s
  | .symCount => s
  | .maxCodeLen => s
  | .codeLen _ => s
  | .codeWord _ => s

/-- A 32-bit read at a byte offset (R26, R165): a reserved offset reads 0, and so does every offset while
`rst_n` is 0. Reads are always allowed and have no side effect (R27, R71). -/
def State.portRead (s : State) (off : BitVec 12) : Word :=
  if s.inReset then 0
  else
    match regAt off.toNat with
    | some r => s.readReg r
    | none => 0

/-- A 32-bit write at a byte offset: ignored while `rst_n` is 0 (R165), dropped with OVERRUN while BUSY = 1
(R149), ignored at a reserved offset (R26). -/
def State.portWrite (s : State) (off : BitVec 12) (v : Word) : State :=
  if s.inReset then s
  else if s.busy then { s with overrun := true }
  else
    match regAt off.toNat with
    | some r => s.writeReg r v
    | none => s

end Sys2Proof.Machine
end

