-- ==== Sys2Proof/WellFormed.lean ====
section
/-! DEFINITION. The checks on the terms a run is made of: the parameters (00_scope.md R10, R11), the command word
(30_encoding.md R84), the command (R82) and the host program (R85, 20_memory.md R61). -/

namespace Sys2Proof

/-- The four sentinels are pairwise distinct (R11). -/
def Params.sentinelsDistinct (p : Params) : Bool :=
  p.streamHead != p.streamTail && p.streamHead != p.indexHead && p.streamHead != p.indexTail &&
  p.streamTail != p.indexHead && p.streamTail != p.indexTail && p.indexHead != p.indexTail

/-- The constraints of R10 and R11 on the parameters. -/
def Params.valid (p : Params) : Bool :=
  decide (1 ≤ p.bufSize) && decide (p.bufSize ≤ 2 ^ 32) &&
  decide (32 ≤ p.arcCap) && decide (p.arcCap ≤ 2 ^ 32 - 1) &&
  decide (1 ≤ p.maxEntries) && decide (p.maxEntries ≤ 2 ^ 32 - 1) &&
  decide (1 ≤ p.maxNameLen) && decide (p.maxNameLen ≤ p.nameCap) &&
  decide (p.nameCap ≤ 2 ^ 32 - 1) && p.sentinelsDistinct

/-- Every command is well formed: a command carries no immediate and no register number (R82), so there
is no field to check. -/
def Instr.wellFormed : Instr → Bool
  | .nop => true
  | .freqCount => true
  | .freqSer => true
  | .freqDes => true
  | .treeBuild => true
  | .codeGen => true
  | .symEncode => true
  | .symDecode => true
  | .hufEncode => true
  | .hufDecode => true
  | .frame => true
  | .unframe => true
  | .arOpenW => true
  | .arOpenR => true
  | .arAdd => true
  | .arClose => true
  | .arGet => true
  | .arEnum => true
  | .arSetver => true
  | .arGetver => true
  | .sreset => true

/-- The OP values that R84 lists as illegal. -/
def opIllegal (op : Nat) : Bool :=
  (decide (0x0C ≤ op) && decide (op ≤ 0x0F)) || (decide (0x18 ≤ op) && decide (op ≤ 0x1F)) ||
  (decide (0x21 ≤ op) && decide (op ≤ 0xFF))

/-- A command word is legal unless its RSV field is not 0 or its OP is one of R84's illegal values. -/
def wordLegal (w : Word) : Bool :=
  w.extractLsb' 8 24 == 0#24 && !opIllegal (w.extractLsb' 0 8).toNat

namespace Machine

/-- A register access has a meaning only when it is 32 bits wide at a multiple of 4 (R27, R61). -/
def accessWellFormed (width : Nat) (off : BitVec 12) : Bool :=
  width == 32 && off.toNat % 4 == 0

/-- The label a line may continue at (R85). -/
def HostLine.target : HostLine → Option Nat
  | .beq _ _ l => some l
  | .bne _ _ l => some l
  | .jmp l => some l
  | _ => none

/-- The label a line defines (R85). -/
def HostLine.defines : HostLine → Option Nat
  | .label l => some l
  | _ => none

/-- The raw accesses of a line have a shape the port accepts (R61). -/
def HostLine.wellFormed : HostLine → Bool
  | .portWrite width off _ => accessWellFormed width off
  | .portRead width off => accessWellFormed width off
  | _ => true

/-- A host program is well formed when each line is, no label is defined twice and every label a line
names is defined (R85). -/
def programWellFormed (prog : List HostLine) : Bool :=
  prog.all HostLine.wellFormed &&
  decide (prog.filterMap HostLine.defines).Nodup &&
  (prog.filterMap HostLine.target).all (fun l => (prog.filterMap HostLine.defines).contains l)

end Machine

end Sys2Proof
end

