-- ==== Sys2Proof/Machine/HostAgent.lean ====
section
/-! DEFINITION. The host's move: the lines of a host program (30_encoding.md R85, R86), the accesses to BUF and
ARC (20_memory.md R72) and the reset pin (70_reset_and_hazards.md R165). -/

namespace Sys2Proof.Machine

/-- A field of a STATUS word (R30, R85). -/
def statusField (w : Word) : StatusField → Word
  | .busy => (w.extractLsb' 0 1).setWidth 32
  | .done => (w.extractLsb' 1 1).setWidth 32
  | .err => (w.extractLsb' 2 1).setWidth 32
  | .warn => (w.extractLsb' 3 1).setWidth 32
  | .errSticky => (w.extractLsb' 4 1).setWidth 32
  | .overrun => (w.extractLsb' 5 1).setWidth 32
  | .mode => (w.extractLsb' 6 2).setWidth 32
  | .treeValid => (w.extractLsb' 8 1).setWidth 32
  | .codesValid => (w.extractLsb' 9 1).setWidth 32

/-- What a host line reads: a register, or a field of STATUS after a read of STATUS (R85). -/
def State.hostRead (s : State) : RegRef → Word
  | .reg r => s.portRead r.offset
  | .field f => statusField (s.portRead Reg.status.offset) f

/-- The position of the first line that defines a label. -/
def labelPos (l : Nat) : List HostLine → Option Nat
  | [] => none
  | line :: prog => if line.defines = some l then some 0 else (labelPos l prog).map (· + 1)

/-- The host goes on to its next line. -/
def State.advance (s : State) : State := { s with hostPos := s.hostPos + 1 }

/-- The host continues at a label (R85). -/
def State.jumpTo (s : State) (l : Nat) : Outcome :=
  match labelPos l s.hostProg with
  | some p => .next { s with hostPos := p }
  | none => .refused .unknownLabel

/-- The pin `rst_n` is driven to a level (R165). Low: a latched command is abandoned and every register
and internal state element takes its reset value. High again: they hold it, and the engine runs. -/
def State.drivePin (s : State) (level : Bool) : State :=
  if level then (if s.inReset then { s.engineReset with inReset := false } else s)
  else { s.engineReset with inReset := true }

/-- The register that a reference names: a STATUS field names STATUS (R85, log 7). -/
def RegRef.register : RegRef → Reg
  | .reg r => r
  | .field _ => .status

/-- A line that reads a register or a STATUS field and then writes a register (COPY, INC) makes two
accesses (R85): the first keeps what it read, the second writes (log 7). -/
def State.readThenWrite (s : State) (src : RegRef) (dst : Reg) (f : Word → Word) : State :=
  match s.hostTemp with
  | none => { s with hostTemp := some (s.hostRead src) }
  | some v => { (s.portWrite dst.offset (f v)).advance with hostTemp := none }

/-- One turn of the host on a line of its program (R85). -/
def runLine (s : State) (line : HostLine) : Outcome :=
  match line with
  | .mov r v => .next (s.portWrite r.offset v).advance
  | .cmd i => .next (s.portWrite Reg.cmd.offset (encode i)).advance
  | .wait =>
    if s.hostRead (.field .busy) = 0#32 then .next s.advance else .next s
  | .poke a bs =>
    if s.busy then .refused .hostAccessWhileBusy
    else if a + bs.length ≤ s.params.bufSize then .next (s.memWrite a bs).advance
    else .fault .bufAddressAbsent
  | .pokeArc o bs =>
    if s.busy then .refused .hostAccessWhileBusy
    else if o + bs.length ≤ s.params.arcCap then .next (s.arcWrite o bs).advance
    else .fault .arcAddressAbsent
  | .expect r v => if s.hostRead r = v then .next s.advance else .fault .expectationFailed
  | .expectBuf a bs =>
    if s.busy then .refused .hostAccessWhileBusy
    else if a + bs.length ≤ s.params.bufSize then
      if s.memRead a bs.length = bs then .next s.advance else .fault .expectationFailed
    else .fault .bufAddressAbsent
  | .label _ => .next s.advance
  | .beq r v l => if s.hostRead r = v then s.jumpTo l else .next s.advance
  | .bne r v l => if s.hostRead r = v then .next s.advance else s.jumpTo l
  | .jmp l => s.jumpTo l
  | .copy a b => .next (s.readThenWrite b a id)
  | .inc r => .next (s.readThenWrite r r.register (· + 1#32))
  | .halt => .next s
  | .portWrite width off v =>
    if accessWellFormed width off then .next (s.portWrite off v).advance
    else .refused .portAccessShape
  | .portRead width off =>
    if accessWellFormed width off then .next s.advance else .refused .portAccessShape
  | .expectArc o bs =>
    if s.busy then .refused .hostAccessWhileBusy
    else if o + bs.length ≤ s.params.arcCap then
      if s.arcRead o bs.length = bs then .next s.advance else .fault .expectationFailed
    else .fault .arcAddressAbsent
  | .rst level => .next (s.drivePin level).advance

/-- One turn of the host. At the end of its program it does nothing (R85 HALT). -/
def hostMove (s : State) : Outcome :=
  match s.hostProg[s.hostPos]? with
  | some line => runLine s line
  | none => .next s

/-- The lines a pseudo-instruction stands for (R86). -/
def Pseudo.expand : Pseudo → List HostLine
  | .op i => [.cmd i, .wait]
  | .src a n => [.mov .srcAddr a, .mov .srcLen n]
  | .dst a n => [.mov .dstAddr a, .mov .dstCap n]
  | .name a n => [.mov .nameAddr a, .mov .nameLen n]
  | .bits v => [.mov .bitcountLo (v.extractLsb' 0 32), .mov .bitcountHi (v.extractLsb' 32 32)]
  | .encode a n d c =>
    [.mov .srcAddr a, .mov .srcLen n, .mov .dstAddr d, .mov .dstCap c, .cmd .hufEncode, .wait]
  | .decode a n d c =>
    [.mov .srcAddr a, .mov .srcLen n, .mov .dstAddr d, .mov .dstCap c, .cmd .hufDecode, .wait]
  | .add na nl a n =>
    [.mov .nameAddr na, .mov .nameLen nl, .mov .srcAddr a, .mov .srcLen n, .cmd .arAdd, .wait]
  | .get na nl d c =>
    [.mov .nameAddr na, .mov .nameLen nl, .mov .dstAddr d, .mov .dstCap c, .cmd .arGet, .wait]
  | .check => [.expect (.field .err) 0#32]

end Sys2Proof.Machine
end

