-- ==== Sys2Proof/Machine/Turns.lean ====
section
/-! DEFINITION. Which agent moves next (60_exceptions.md R148). -/

namespace Sys2Proof.Machine

/-- One transition of the machine. The schedule says whose turn it is; with no turn left in it, the engine
moves while it has a step to take and the host moves otherwise, so an engine step is delayed by any
finite number of host moves and by no more (R148; log 6). -/
def takeTurn (s : State) : Outcome :=
  match s.sched with
  | .engine :: turns => engineMove { s with sched := turns }
  | .host :: turns => hostMove { s with sched := turns }
  | [] => if s.engineReady then engineMove s else hostMove s

end Sys2Proof.Machine
end

