-- ==== Sys2Proof/Machine/Step.lean ====
section
/-! DEFINITION. One step of the machine, and the placing of a command where the next step fetches it. -/

namespace Sys2Proof.Machine

/-- One step (R148): the next transition of the host or of the engine. -/
def step (s : State) : Host.Outcome State Fault Refusal := takeTurn s

/-- The state whose next step fetches and runs the instruction of `nbits` bits with value `w`, the bits
above `nbits` being 0 (R52, R148; log 6). -/
def State.withFetchWord (s : State) (nbits w : Nat) : State :=
  s.placeCommand (BitVec.ofNat 32 (w % 2 ^ nbits))

end Sys2Proof.Machine
end

