-- ==== Sys2Proof/Safety.lean ====
section
/-! DEFINITION. The terms the statements use: how a command completes, what a store leaves, when a path index is in
order, and the invariant of the machine. -/

namespace Sys2Proof.Machine

/-- A state completed by a success (R148 item 2): BUSY 0, DONE 1, ERR 0, WARN 0, ERRCODE 0. The model's own
step counter advances at every completion (log 5). -/
def doneOk (s : State) : State :=
  { s with
    pending := none, done := true, err := false, warn := false, errcode := .ok,
    stepTag := s.stepTag + 1 }

/-- A state completed by a warning (R148 item 2, R152). -/
def doneWarn (s : State) (c : ErrCode) : State :=
  { s with
    pending := none, done := true, err := false, warn := true, errcode := c,
    stepTag := s.stepTag + 1 }

/-- A state completed by a failure (R148 item 2, R151 items 1 and 2). -/
def doneErr (s : State) (c : ErrCode) : State :=
  { s with
    pending := none, done := true, err := true, warn := false, errSticky := true, errcode := c,
    resultLen := 0, consumed := 0, stepTag := s.stepTag + 1 }

/-- From memory m to memory m', the bytes at a, a+1, ... become `bs` and every other byte reads as
before. -/
def StoresAt (m m' : Memory) (a : Nat) (bs : ByteString) : Prop :=
  m'.readBytes a bs.length = bs ∧ ∀ x, (x < a ∨ a + bs.length ≤ x) → m'.read x = m.read x

/-- Every byte outside [a, a+n) reads as before. -/
def SameOutside (m m' : Memory) (a n : Nat) : Prop :=
  ∀ x, (x < a ∨ a + n ≤ x) → m'.read x = m.read x

/-- `le_4` of a 32-bit value, written out (R17, R58). -/
def wordBytes (w : Word) : ByteString :=
  [w.extractLsb' 0 8, w.extractLsb' 8 8, w.extractLsb' 16 8, w.extractLsb' 24 8]

/-- The 4-byte little-endian field at an index of a byte string, written out (R17, R58). -/
def wordAt (b : ByteString) (i : Nat) : Word :=
  b.getD (i + 3) 0#8 ++ b.getD (i + 2) 0#8 ++ b.getD (i + 1) 0#8 ++ b.getD i 0#8

/-- The symbols with a non-zero count, in ascending order (R46, R88). -/
def occurring (f : FreqTable) : List Byte :=
  ((List.range 256).map (BitVec.ofNat 8)).filter fun v => entryAt f v != 0#32

/-- The SRC and DST operands pass the checks of R64 and R65. -/
abbrev SrcDstGood (s : State) : Prop :=
  s.srcAddr.toNat + s.srcLen.toNat ≤ s.params.bufSize ∧
  s.dstAddr.toNat + s.dstCap.toNat ≤ s.params.bufSize ∧
  overlaps s.srcRegion s.dstRegion = false

/-- What a command that reads SRC and writes DST does with its operands before anything else (R64, R65,
R150): RANGE when SRC or DST is not in range, then OVERLAP when they overlap; when both checks pass, P
says what it does. -/
def AfterOperandChecks (i : Instr) (s : State) (P : Prop) : Prop :=
  ((s.params.bufSize < s.srcAddr.toNat + s.srcLen.toNat ∨
      s.params.bufSize < s.dstAddr.toNat + s.dstCap.toNat) →
    exec i s = .next (doneErr s .range)) ∧
  (s.srcAddr.toNat + s.srcLen.toNat ≤ s.params.bufSize →
    s.dstAddr.toNat + s.dstCap.toNat ≤ s.params.bufSize →
    0 < s.srcLen.toNat → 0 < s.dstCap.toNat →
    s.srcAddr.toNat < s.dstAddr.toNat + s.dstCap.toNat →
    s.dstAddr.toNat < s.srcAddr.toNat + s.srcLen.toNat →
    exec i s = .next (doneErr s .overlap)) ∧
  (SrcDstGood s → P)

/-- The node that a path from a node leads to (R100). -/
def descend : Node → BitString → Option Node
  | n, [] => some n
  | n, b :: bits =>
    match n.child b with
    | some m => descend m bits
    | none => none

/-- MODE after a success (R133). -/
def modeAfter : Instr → Mode → Mode
  | .arOpenW, _ => .writeOpen
  | .arOpenR, _ => .readOpen
  | .arClose, _ => .unset
  | .sreset, _ => .unset
  | .nop, m => m
  | .freqCount, m => m
  | .freqSer, m => m
  | .freqDes, m => m
  | .treeBuild, m => m
  | .codeGen, m => m
  | .symEncode, m => m
  | .symDecode, m => m
  | .hufEncode, m => m
  | .hufDecode, m => m
  | .frame, m => m
  | .unframe, m => m
  | .arAdd, m => m
  | .arGet, m => m
  | .arEnum, m => m
  | .arSetver, m => m
  | .arGetver, m => m

/-- The reset value of every engine register and internal state element, with the BUF, the ARC, the
parameters and the host's own state of s (R55, R145, R165). -/
def resetValues (s : State) : State where
  srcAddr := 0
  srcLen := 0
  dstAddr := 0
  dstCap := 0
  nameAddr := 0
  nameLen := 0
  entrySel := 0
  bitcountLo := 0
  bitcountHi := 0
  codeSel := 0
  pending := none
  done := false
  err := false
  warn := false
  errSticky := false
  overrun := false
  mode := .unset
  treeValid := false
  codesValid := false
  errcode := .ok
  resultLen := 0
  consumed := 0
  entryOffset := 0
  entrySize := 0
  version := 0
  arcLen := 0
  arcOffset := 0
  indexOff := 0
  nodeCount := 0
  freq := Vector.replicate 256 0
  tree := none
  codes := Vector.replicate 256 []
  idx := []
  buf := s.buf
  arc := s.arc
  inReset := s.inReset
  params := s.params
  stepTag := s.stepTag
  sched := s.sched
  hostProg := s.hostProg
  hostPos := s.hostPos
  hostTemp := s.hostTemp

/-- A path index the engine can hold (R50, R127): strictly ascending paths of 1 to MAX_NAME_LEN bytes, at
most MAX_ENTRIES of them, at most NAME_CAP name bytes. -/
structure IndexGood (p : Params) (l : List Entry) : Prop where
  ascending : l.Pairwise (fun a b => pathBefore a.path b.path = true)
  lengths : ∀ e ∈ l, 1 ≤ e.path.length ∧ e.path.length ≤ p.maxNameLen
  count : l.length ≤ p.maxEntries
  names : nameTotal l ≤ p.nameCap

/-- Entries that AR_OPEN_R has accepted so far, in the order of the file (R137): distinct paths of 1 to
MAX_NAME_LEN bytes, at most MAX_ENTRIES of them, at most NAME_CAP name bytes. -/
def EntriesAccepted (p : Params) (l : List Entry) : Prop :=
  (l.map Entry.path).Nodup ∧ (∀ e ∈ l, 1 ≤ e.path.length ∧ e.path.length ≤ p.maxNameLen) ∧
  l.length ≤ p.maxEntries ∧ nameTotal l ≤ p.nameCap

/-- The checks of R137 on the next entry, in their order, with `rest` the bytes from it to the declared end
of the entry list and `l` the entries before it. -/
def entryError (p : Params) (l : List Entry) (rest : ByteString) : Option ErrCode :=
  let len := fromLe (rest.take 4)
  if rest = [] then none
  else if rest.length < 4 then some .format
  else if len = 0 then some .format
  else if rest.length < 4 + len + 16 then some .format
  else if p.maxNameLen < len then some .capacity
  else if ∃ e ∈ l, e.path = (rest.drop 4).take len then some .format
  else if 2 ^ 32 ≤ fromLe ((rest.drop (4 + len)).take 8) then some .format
  else if 2 ^ 32 ≤ fromLe ((rest.drop (12 + len)).take 8) then some .format
  else if l.length = p.maxEntries then some .capacity
  else if p.nameCap < nameTotal l + len then some .capacity
  else none

/-- What holds of every reachable state of the machine. -/
structure Inv (s : State) : Prop where
  /-- The parameters meet R10 and R11. -/
  params : s.params.valid = true
  /-- BUF is in canonical form and holds only bytes that exist (R53). -/
  buf : s.buf.store = .buf ∧ s.buf.wf ∧ s.buf.inBounds s.params.bufSize
  /-- ARC is in canonical form and holds only bytes that exist (R53). -/
  arc : s.arc.store = .arc ∧ s.arc.wf ∧ s.arc.inBounds s.params.arcCap
  /-- While BUSY = 1, DONE, ERR and WARN are 0 and ERRCODE is 0 (R148 item 1). -/
  busy : s.busy = true → s.done = false ∧ s.err = false ∧ s.warn = false ∧ s.errcode = .ok
  /-- ERR goes with an error code, WARN with the warning code, and never both (R30, R31, R150). -/
  report : (s.err = true → s.warn = false ∧ s.errcode ≠ .ok ∧ s.errcode ≠ .versionParse) ∧
    (s.warn = true → s.errcode = .versionParse) ∧
    (s.err = false → s.warn = false → s.errcode = .ok)
  /-- No command is latched while `rst_n` is 0 (R165). -/
  reset : s.inReset = true → s.pending = none
  /-- While TREE_VALID = 1, TREE is the tree of FREQ and NODE_COUNT its number of nodes (R30, R40,
  R49). -/
  tree : s.treeValid = true → s.tree = (buildTree s.params.tiePolicy s.freq).1 ∧
    s.nodeCount = BitVec.ofNat 32 (buildTree s.params.tiePolicy s.freq).2
  /-- NODE_COUNT is 0 while TREE_VALID = 0 (R40). -/
  noTree : s.treeValid = false → s.nodeCount = 0
  /-- While CODES_VALID = 1, CODE is the code table of the current TREE (R30, R49). -/
  codes : s.codesValid = true → s.treeValid = true ∧ s.codes = genCodes s.tree
  /-- The path index (R50). -/
  index : IndexGood s.params s.idx
  /-- VERSION holds a value that VerParse can return, or 0 (R36, R132). -/
  version : verValid s.version = true
  /-- A closed handle (R36, R38, R50, R51). -/
  unset : s.mode = .unset → s.idx = [] ∧ s.version = 0 ∧ s.arcOffset = 0
  /-- A write session (R38, R39): ARC_OFFSET = ARC_LEN, a multiple of 8 from 8 to ARC_CAP. -/
  writing : s.mode = .writeOpen → s.arcOffset = s.arcLen ∧ s.arcOffset.toNat % 8 = 0 ∧
    8 ≤ s.arcOffset.toNat ∧ s.arcOffset.toNat ≤ s.params.arcCap ∧ s.indexOff = 0
  /-- A read session (R38, R39, R137): the index lies inside the file. -/
  reading : s.mode = .readOpen → s.arcOffset = 0 ∧ s.indexOff.toNat % 8 = 0 ∧
    8 ≤ s.indexOff.toNat ∧ s.indexOff.toNat + 24 ≤ s.arcLen.toNat ∧ s.arcLen.toNat ≤ s.params.arcCap

end Sys2Proof.Machine
end

