-- ==== Sys2Proof/Certificates/Slice0/Obligations.lean ====
section
/-! DEFINITION. The statements about the machine, for the provers. -/

open Sys2Proof Sys2Proof.Machine

/-! ### Encoding (30_encoding.md) -/

/-- A few words of the opcode map (R83) decode to their commands. -/
def Obligations.OpcodeWordsDecode : Prop :=
  decode 0b00000000000000000000000000000000#32 = .ok .nop ∧
  decode 0b00000000000000000000000000000010#32 = .ok .freqSer ∧
  decode 0b00000000000000000000000000000100#32 = .ok .treeBuild ∧
  decode 0b00000000000000000000000000000111#32 = .ok .symDecode ∧
  decode 0b00000000000000000000000000001000#32 = .ok .hufEncode ∧
  decode 0b00000000000000000000000000001011#32 = .ok .unframe ∧
  decode 0b00000000000000000000000000010100#32 = .ok .arGet ∧
  decode 0b00000000000000000000000000100000#32 = .ok .sreset

/-- R83: a word decodes to a command exactly when the pair is a row of the opcode map, all 32 bits
compared. -/
def Obligations.DecodeSelectsExactWord : Prop :=
  ∀ (w : Word) (i : Instr), decode w = .ok i ↔ (w, i) ∈
    [(0x00000000#32, Instr.nop), (0x00000001#32, .freqCount), (0x00000002#32, .freqSer),
     (0x00000003#32, .freqDes), (0x00000004#32, .treeBuild), (0x00000005#32, .codeGen),
     (0x00000006#32, .symEncode), (0x00000007#32, .symDecode), (0x00000008#32, .hufEncode),
     (0x00000009#32, .hufDecode), (0x0000000A#32, .frame), (0x0000000B#32, .unframe),
     (0x00000010#32, .arOpenW), (0x00000011#32, .arOpenR), (0x00000012#32, .arAdd),
     (0x00000013#32, .arClose), (0x00000014#32, .arGet), (0x00000015#32, .arEnum),
     (0x00000016#32, .arSetver), (0x00000017#32, .arGetver), (0x00000020#32, .sreset)]

/-- Decode and encode agree, both ways: the encoding of every command decodes to it, and a word that
decodes to a command is its encoding. -/
def Obligations.DecodeEncodeAgree : Prop :=
  (∀ i : Instr, i.wellFormed = true ∧ decode (encode i) = .ok i) ∧
  ∀ (w : Word) (i : Instr), decode w = .ok i → encode i = w

/-- R84: a word is no command exactly when RSV is not 0 or OP is one of the illegal values; the handshake
accepts it like any other; the engine step completes it with ERR = 1 and ERRCODE = ILLEGAL_CMD and
changes nothing but the completion flags, RESULT_LEN and CONSUMED. -/
def Obligations.IllegalWordFails : Prop :=
  (∀ w : Word, (∃ e, decode w = .error e) ↔
    (w.extractLsb' 8 24 ≠ 0#24 ∨
      (let op := (w.extractLsb' 0 8).toNat
       (0x0C ≤ op ∧ op ≤ 0x0F) ∨ (0x18 ≤ op ∧ op ≤ 0x1F) ∨ (0x21 ≤ op ∧ op ≤ 0xFF)))) ∧
  (∀ (s : State) (w : Word), s.inReset = false → s.pending = none →
    s.portWrite 0x004#12 w =
      { s with pending := some w, done := false, err := false, warn := false, errcode := .ok }) ∧
  ∀ (s : State) (w : Word) (e : DecodeError), s.inReset = false → s.sched = [] →
    s.pending = some w → decode w = .error e →
    step s = .next (doneErr s .illegalCmd) ∧ ErrCode.illegalCmd.number = 1#8

/-! ### The handshake, the registers and the reset (10_state.md, 60_exceptions.md, 70_reset_and_hazards.md) -/

/-- A step runs the decoded command: when a latched word decodes to a command and it is the engine's turn,
by the schedule or because the schedule is empty, the step is exec of that command. Around exec, the
step only takes the turn off the schedule (the schedule is the model's own, log 6). -/
def Obligations.StepRunsDecodedCommand : Prop :=
  ∀ (s : State) (w : Word) (i : Instr), s.inReset = false → s.pending = some w → decode w = .ok i →
    (s.sched = [] → step s = exec i s) ∧
    ∀ turns, s.sched = .engine :: turns → step s = exec i { s with sched := turns }

/-- The engine step is taken after any finite number n of host turns: with the host at the end of its
program, n + 1 steps run the latched command (R148; the schedule is the model's own, log 6). -/
def Obligations.EngineStepAfterFiniteDelay : Prop :=
  ∀ (n : Nat) (s : State) (w : Word) (i : Instr), s.inReset = false → s.pending = some w →
    decode w = .ok i → s.hostProg[s.hostPos]? = none → s.sched = List.replicate n .host →
    Sys2Proof.core.run (n + 1) s = exec i { s with sched := [] }

/-- Every command of every state completes (R146, R148): the next state has BUSY = 0 and DONE = 1, and
reports a success, the warning or one error. -/
def Obligations.EveryCommandCompletes : Prop :=
  ∀ (i : Instr) (s : State), ∃ t, exec i s = .next t ∧ t.pending = none ∧ t.done = true ∧
    ((t.err = false ∧ t.warn = false ∧ t.errcode = .ok) ∨
     (i = .arSetver ∧ t.err = false ∧ t.warn = true ∧ t.errcode = .versionParse) ∨
     (t.err = true ∧ t.warn = false ∧ t.errcode ≠ .ok ∧ t.errcode ≠ .versionParse))

/-- R29: a CMD write while BUSY = 0 latches the word, sets BUSY and starts the command; a read of CMD
returns 0. R149: a register write of any offset, CMD and STATUS included, while BUSY = 1 is dropped and
sets OVERRUN. -/
def Obligations.RegisterWriteHandshake : Prop :=
  (∀ (s : State) (w : Word), s.inReset = false → s.busy = false →
    s.portWrite 0x004#12 w =
      { s with pending := some w, done := false, err := false, warn := false, errcode := .ok } ∧
    (s.portWrite 0x004#12 w).busy = true) ∧
  (∀ s : State, s.portRead 0x004#12 = 0#32) ∧
  ∀ (s : State) (off : BitVec 12) (v : Word), s.inReset = false → s.busy = true →
    s.portWrite off v = { s with overrun := true }

/-- The fields of STATUS stand at the bit positions of R30, bits 31:10 read 0, and a write clears
ERR_STICKY with bit 4 and OVERRUN with bit 5 and changes nothing else. -/
def Obligations.StatusLayoutAndClear : Prop :=
  (∀ s : State, s.inReset = false →
    let w := s.portRead 0x008#12
    w.getLsbD 0 = s.pending.isSome ∧ w.getLsbD 1 = s.done ∧ w.getLsbD 2 = s.err ∧
    w.getLsbD 3 = s.warn ∧ w.getLsbD 4 = s.errSticky ∧ w.getLsbD 5 = s.overrun ∧
    w.extractLsb' 6 2 =
      (match s.mode with | .unset => 0#2 | .writeOpen => 1#2 | .readOpen => 2#2) ∧
    w.getLsbD 8 = s.treeValid ∧ w.getLsbD 9 = s.codesValid ∧
    ∀ k, 10 ≤ k → w.getLsbD k = false) ∧
  ∀ (s : State) (v : Word), s.inReset = false → s.busy = false →
    s.portWrite 0x008#12 v =
      { s with errSticky := s.errSticky && !v.getLsbD 4, overrun := s.overrun && !v.getLsbD 5 }

/-- The register window (R26): every register stands at its offset, a multiple of 4; at every other
multiple of 4 a read returns 0 and a write is ignored. -/
def Obligations.RegisterWindowLayout : Prop :=
  (∀ r : Reg, regAt r.offset.toNat = some r ∧ r.offset.toNat % 4 = 0) ∧
  ∀ (off : BitVec 12), off.toNat % 4 = 0 → (∀ r : Reg, r.offset ≠ off) →
    ((0x68 ≤ off.toNat ∧ off.toNat < 0x400) ∨ 0xC20 ≤ off.toNat) ∧
    ∀ s : State, s.portRead off = 0#32 ∧
      ∀ v, s.inReset = false → s.busy = false → s.portWrite off v = s

/-- Outside reset a read of ID, ERRCODE, an argument register, ARC_LEN or a result register but MAX_CODE_LEN
returns the register (R28, R31 to R41), ERRCODE the number of its code (R147). Argument registers hold what
the host last wrote, CODE_SEL its low 8 bits (R23); ARC_LEN takes a write only while MODE = UNSET (R37). A
write to a read-only register or to the CODE_LEN window is ignored (R27). (CMD, STATUS, MAX_CODE_LEN and
the windows FREQ, CODE_LEN and CODE_WORD are in RegisterWriteHandshake, StatusLayoutAndClear,
CodeLengthRegisters, FreqWindowWrite and CodeWordWindow.) -/
def Obligations.HostRegisterWrites : Prop :=
  (∀ (s : State) (v : Word), s.inReset = false → s.busy = false →
    s.portWrite 0x010#12 v = { s with srcAddr := v } ∧
    s.portWrite 0x014#12 v = { s with srcLen := v } ∧
    s.portWrite 0x018#12 v = { s with dstAddr := v } ∧
    s.portWrite 0x01C#12 v = { s with dstCap := v } ∧
    s.portWrite 0x020#12 v = { s with nameAddr := v } ∧
    s.portWrite 0x024#12 v = { s with nameLen := v } ∧
    s.portWrite 0x030#12 v = { s with entrySel := v } ∧
    s.portWrite 0x040#12 v = { s with bitcountLo := v } ∧
    s.portWrite 0x044#12 v = { s with bitcountHi := v } ∧
    s.portWrite 0x060#12 v = { s with codeSel := v.extractLsb' 0 8 } ∧
    s.portWrite 0x04C#12 v = (if s.mode = .unset then { s with arcLen := v } else s)) ∧
  (∀ s : State, s.inReset = false →
    s.portRead 0x000#12 = s.params.engineId ∧
    s.portRead 0x00C#12 = 0#24 ++ s.errcode.number ∧
    s.portRead 0x010#12 = s.srcAddr ∧ s.portRead 0x014#12 = s.srcLen ∧
    s.portRead 0x018#12 = s.dstAddr ∧ s.portRead 0x01C#12 = s.dstCap ∧
    s.portRead 0x020#12 = s.nameAddr ∧ s.portRead 0x024#12 = s.nameLen ∧
    s.portRead 0x028#12 = s.resultLen ∧ s.portRead 0x02C#12 = s.consumed ∧
    s.portRead 0x030#12 = s.entrySel ∧ s.portRead 0x034#12 = BitVec.ofNat 32 s.idx.length ∧
    s.portRead 0x038#12 = s.entryOffset ∧ s.portRead 0x03C#12 = s.entrySize ∧
    s.portRead 0x040#12 = s.bitcountLo ∧ s.portRead 0x044#12 = s.bitcountHi ∧
    s.portRead 0x048#12 = s.version ∧ s.portRead 0x04C#12 = s.arcLen ∧
    s.portRead 0x050#12 = s.arcOffset ∧ s.portRead 0x054#12 = s.indexOff ∧
    s.portRead 0x058#12 = s.nodeCount ∧
    s.portRead 0x05C#12 = BitVec.ofNat 32 (occurring s.freq).length ∧
    s.portRead 0x060#12 = 0#24 ++ s.codeSel) ∧
  ([ErrCode.ok, .illegalCmd, .range, .dstFull, .overlap, .io, .format, .conflict, .mode, .versionParse,
    .corrupt, .notFound, .capacity, .state, .arg].map ErrCode.number =
      (List.range 15).map (BitVec.ofNat 8)) ∧
  ∀ (s : State) (v : Word), s.inReset = false → s.busy = false →
    (∀ off ∈ [0x000#12, 0x00C#12, 0x028#12, 0x02C#12, 0x034#12, 0x038#12, 0x03C#12, 0x048#12, 0x050#12,
      0x054#12, 0x058#12, 0x05C#12, 0x064#12], s.portWrite off v = s) ∧
    ∀ b : Byte, s.portWrite (BitVec.ofNat 12 (0x800 + 4 * b.toNat)) v = s

/-- R43: offset 0x400 + 4s reads as FREQ[s]; a write while BUSY = 0 sets that entry alone and sets
TREE_VALID, CODES_VALID and NODE_COUNT to 0. -/
def Obligations.FreqWindowWrite : Prop :=
  ∀ (s : State) (b : Byte) (v : Word), s.inReset = false →
    s.portRead (BitVec.ofNat 12 (0x400 + 4 * b.toNat)) = entryAt s.freq b ∧
    (s.busy = false → ∃ f : FreqTable,
      s.portWrite (BitVec.ofNat 12 (0x400 + 4 * b.toNat)) v =
        { s with freq := f, treeValid := false, codesValid := false, nodeCount := 0#32 } ∧
      entryAt f b = v ∧ ∀ c, c ≠ b → entryAt f c = entryAt s.freq c)

/-- R45: bit b of CODE_WORD[j] is bit 32j + b of the selected code while CODES_VALID = 1, and 0 past its
end or while CODES_VALID = 0; a write changes nothing. -/
def Obligations.CodeWordWindow : Prop :=
  ∀ (s : State) (j b : Nat), s.inReset = false → j < 8 → b < 32 →
    (s.portRead (BitVec.ofNat 12 (0xC00 + 4 * j))).getLsbD b =
      (if s.codesValid then entryAt s.codes s.codeSel else []).getD (32 * j + b) false ∧
    (s.busy = false → ∀ v, s.portWrite (BitVec.ofNat 12 (0xC00 + 4 * j)) v = s)

/-- The CODE_LEN window reads the length of each code (R44) and MAX_CODE_LEN the greatest of them (R42)
while CODES_VALID = 1, and both read 0 while it is 0. -/
def Obligations.CodeLengthRegisters : Prop :=
  (∀ s : State, s.inReset = false → s.codesValid = true →
    (∀ v, (entryAt s.codes v).length ≤ 255) →
    (∀ v, (s.portRead (BitVec.ofNat 12 (0x800 + 4 * v.toNat))).toNat = (entryAt s.codes v).length) ∧
    (∀ v, (entryAt s.codes v).length ≤ (s.portRead 0x064#12).toNat) ∧
    ∃ v, (entryAt s.codes v).length = (s.portRead 0x064#12).toNat) ∧
  ∀ s : State, s.codesValid = false →
    s.portRead 0x064#12 = 0#32 ∧
    ∀ v : Byte, s.portRead (BitVec.ofNat 12 (0x800 + 4 * v.toNat)) = 0#32

/-- What reset leaves (R55): every register reads 0 but ID, MODE is UNSET, FREQ is all 0, TREE is Empty,
every code is empty, IDX is empty and no command is latched. -/
def Obligations.ResetStateValues : Prop :=
  State.reset = resetValues State.reset ∧
  State.reset.portRead 0x000#12 = State.reset.params.engineId ∧
  (∀ r : Reg, r ≠ .id → State.reset.portRead r.offset = 0#32) ∧
  (∀ v, entryAt State.reset.freq v = 0#32) ∧ (∀ v, entryAt State.reset.codes v = [])

/-- R165: while `rst_n` is 0 every read returns 0 and every write is ignored without setting OVERRUN;
when it goes to 1 every register and internal state element holds its reset value, a latched command is
abandoned, and BUF and ARC keep their contents. -/
def Obligations.HardwareReset : Prop :=
  (∀ s : State, s.inReset = true →
    (∀ off, s.portRead off = 0#32) ∧ (∀ off v, s.portWrite off v = s) ∧
    s.drivePin true = { resetValues s with inReset := false }) ∧
  ∀ s : State, (s.drivePin false).inReset = true ∧ (s.drivePin false).pending = none ∧
    (s.drivePin false).drivePin true = { resetValues s with inReset := false } ∧
    ((s.drivePin false).drivePin true).portRead 0x008#12 = 0#32

/-- The host does not reach BUF or ARC while BUSY = 1 (R72): the model refuses the line (log 15). While BUSY = 0, a
POKE inside BUF stores its bytes and nothing else, and an address past BUF_SIZE is a fault. -/
def Obligations.HostReachesBufOnlyWhenIdle : Prop :=
  ∀ (s : State) (a : Nat) (bs : ByteString),
    (s.busy = true → runLine s (.poke a bs) = .refused .hostAccessWhileBusy ∧
      runLine s (.pokeArc a bs) = .refused .hostAccessWhileBusy ∧
      runLine s (.expectBuf a bs) = .refused .hostAccessWhileBusy) ∧
    (s.busy = false → a + bs.length ≤ s.params.bufSize → ∃ m,
      runLine s (.poke a bs) = .next { s with buf := m, hostPos := s.hostPos + 1 } ∧
      StoresAt s.buf m a bs) ∧
    (s.busy = false → s.params.bufSize < a + bs.length →
      runLine s (.poke a bs) = .fault .bufAddressAbsent)

/-! ### Control commands (46_control.md) -/

/-- R144: NOP has no effect beyond the handshake. R145: SRESET returns every register and internal state
element to its reset value and completes; STATUS then reads 0x00000002; BUF and ARC are not touched. -/
def Obligations.ControlCommandResults : Prop :=
  ∀ s : State,
    exec .nop s = .next (doneOk { s with resultLen := 0#32, consumed := 0#32 }) ∧
    exec .sreset s = .next (doneOk (resetValues s)) ∧
    (doneOk (resetValues s)).statusWord = 0x00000002#32 ∧
    (doneOk (resetValues s)).buf = s.buf ∧ (doneOk (resetValues s)).arc = s.arc

/-! ### Frequency model (40_freq_model.md) -/

/-- R87: entry v of CountFreq(s) is the number of indices that hold v. -/
def Obligations.CountFreqCounts : Prop :=
  ∀ (s : ByteString) (v : Byte), s.length ≤ 2 ^ 32 - 1 → (entryAt (countFreq s) v).toNat = s.count v

/-- R91: FREQ_COUNT counts the source bytes into FREQ and drops tree and code table; RANGE when the source
is not in range. -/
def Obligations.FreqCountResult : Prop :=
  ∀ s : State,
    (s.srcAddr.toNat + s.srcLen.toNat ≤ s.params.bufSize →
      exec .freqCount s = .next (doneOk { s with
        freq := countFreq (s.buf.readBytes s.srcAddr.toNat s.srcLen.toNat)
        tree := none, treeValid := false
        codes := Vector.replicate 256 [], codesValid := false
        nodeCount := 0#32, resultLen := 0#32, consumed := s.srcLen })) ∧
    (s.params.bufSize < s.srcAddr.toNat + s.srcLen.toNat →
      exec .freqCount s = .next (doneErr s .range))

/-- R92: FREQ_SER stores the serialised table, 4 + 5n bytes, at DST_ADDR and changes nothing else; RANGE when
DST is not in range; DST_FULL when DST_CAP < 4 + 5n, with no byte outside the DST window changed. R88: the
table is the number n of symbols that occur in 4 bytes, least significant first, and then for each of
them, in ascending order, its byte and its count in 4 bytes. -/
def Obligations.FreqSerResult : Prop :=
  ∀ s : State,
    let p := occurring s.freq
    let n := p.length
    let bytes := wordBytes (BitVec.ofNat 32 n) ++ p.flatMap fun v => v :: wordBytes (entryAt s.freq v)
    freqSerialize s.freq = bytes ∧ bytes.length = 4 + 5 * n ∧
    (s.params.bufSize < s.dstAddr.toNat + s.dstCap.toNat →
      exec .freqSer s = .next (doneErr s .range)) ∧
    (s.dstAddr.toNat + s.dstCap.toNat ≤ s.params.bufSize → 4 + 5 * n ≤ s.dstCap.toNat → ∃ m,
      exec .freqSer s = .next (doneOk { s with
        buf := m, resultLen := BitVec.ofNat 32 (4 + 5 * n), consumed := 0#32 }) ∧
      StoresAt s.buf m s.dstAddr.toNat bytes) ∧
    (s.dstAddr.toNat + s.dstCap.toNat ≤ s.params.bufSize → s.dstCap.toNat < 4 + 5 * n → ∃ m,
      exec .freqSer s = .next (doneErr { s with buf := m } .dstFull) ∧
      SameOutside s.buf m s.dstAddr.toNat s.dstCap.toNat)

/-- R89: a byte string is a table unless it is shorter than 4 bytes, declares more than 256 entries or more
than it holds, or has a zero count or a repeated symbol; the parse gives the table of its entries and the
bytes they take. R93: FREQ_DES loads the parsed table and drops tree and code table; RANGE when the source
is not in range; FORMAT, with FREQ unchanged, when the bytes are no table. -/
def Obligations.FreqDesResult : Prop :=
  (∀ b : ByteString,
    let n := (wordAt b 0).toNat
    let sym := fun i : Nat => b.getD (4 + 5 * i) 0#8
    let cnt := fun i : Nat => wordAt b (5 + 5 * i)
    ((b.length < 4 ∨ 256 < n ∨ b.length < 4 + 5 * n ∨ (∃ i, i < n ∧ cnt i = 0#32) ∨
        (∃ i j, j < i ∧ i < n ∧ sym j = sym i)) →
      freqParse b = .error { code := .format }) ∧
    (4 ≤ b.length → n ≤ 256 → 4 + 5 * n ≤ b.length → (∀ i, i < n → cnt i ≠ 0#32) →
      (∀ i j, j < i → i < n → sym j ≠ sym i) → ∃ f : FreqTable,
        freqParse b = .ok (f, 4 + 5 * n) ∧ (∀ i, i < n → entryAt f (sym i) = cnt i) ∧
        ∀ v, (∀ i, i < n → sym i ≠ v) → entryAt f v = 0#32)) ∧
  ∀ s : State,
    let b := s.buf.readBytes s.srcAddr.toNat s.srcLen.toNat
    (s.params.bufSize < s.srcAddr.toNat + s.srcLen.toNat →
      exec .freqDes s = .next (doneErr s .range)) ∧
    (∀ f c, s.srcAddr.toNat + s.srcLen.toNat ≤ s.params.bufSize → freqParse b = .ok (f, c) →
      exec .freqDes s = .next (doneOk { s with
        freq := f, tree := none, treeValid := false
        codes := Vector.replicate 256 [], codesValid := false
        nodeCount := 0#32, resultLen := 0#32, consumed := BitVec.ofNat 32 c })) ∧
    (∀ e, s.srcAddr.toNat + s.srcLen.toNat ≤ s.params.bufSize → freqParse b = .error e →
      exec .freqDes s = .next (doneErr s .format))

/-- R90: parsing a serialised table, whatever bytes follow, gives the table and its length. The byte order of
every field of the formats (R17): byte i of `le_N(v)` is `(v >> 8i) & 0xFF`, and `from_le(s)` is the sum of
`s[i] * 2^(8i)`. -/
def Obligations.FreqTableRoundTrip : Prop :=
  (∀ (f : FreqTable) (t : ByteString),
    freqParse (freqSerialize f ++ t) = .ok (f, 4 + 5 * (present f).length)) ∧
  (∀ n v i : Nat, (le n v).length = n ∧ (i < n → (le n v).getD i 0#8 = BitVec.ofNat 8 (v / 2 ^ (8 * i)))) ∧
  ∀ b : ByteString, fromLe b = ((List.range b.length).map fun i => (b.getD i 0#8).toNat * 2 ^ (8 * i)).sum

/-! ### Tree and codes (41_tree_and_codes.md) -/

/-- R102: TREE_BUILD builds the tree of FREQ and drops the code table. -/
def Obligations.TreeBuildResult : Prop :=
  ∀ s : State, exec .treeBuild s = .next (doneOk { s with
    tree := (buildTree s.params.tiePolicy s.freq).1
    nodeCount := BitVec.ofNat 32 (buildTree s.params.tiePolicy s.freq).2
    treeValid := true, codes := Vector.replicate 256 [], codesValid := false
    resultLen := 0#32, consumed := 0#32 })

/-- The tree builder (R94 to R98). Node a comes before node b when its weight is less, or the weights are equal
and the key test of the tie policy holds. The builder starts from the leaves of the symbols that occur
(and a placeholder beside a single leaf), whose keys differ, reordered so that every node comes before
every later one. One merge step removes the first two nodes, the first becoming the left child, and leaves
the others and the new node, of the summed weight and the smaller key, in that order and with keys that
differ. It ends with the last node. -/
def Obligations.ForestKeptInExtractionOrder : Prop :=
  (∀ (p : TiePolicy) (a b : Node), comesBefore p a b = true ↔
    a.weight < b.weight ∨ (a.weight = b.weight ∧
      match p with
      | .highKeyFirst => b.key < a.key
      | .lowKeyFirst => a.key < b.key)) ∧
  (∀ (p : TiePolicy) (l : List Node), l.Pairwise (fun a b => a.key ≠ b.key) →
    (orderForest p l).Perm l ∧
    (orderForest p l).Pairwise (fun a b => comesBefore p a b = true ∧ comesBefore p b a = false)) ∧
  (∀ (p : TiePolicy) (f : FreqTable),
    let leaves := (occurring f).map fun v => Node.leaf v (entryAt f v).toNat
    let forest := if leaves.length = 1 then leaves ++ [.placeholder] else leaves
    forest.Pairwise (fun a b => a.key ≠ b.key) ∧
    buildTree p f = mergeLoop p forest.length (orderForest p forest) forest.length) ∧
  (∀ (p : TiePolicy) (n k : Nat) (a b : Node) (f : List Node),
    (a :: b :: f).Pairwise (fun x y => x.key ≠ y.key) →
    (a :: b :: f).Pairwise (fun x y => comesBefore p x y = true ∧ comesBefore p y x = false) → ∃ f',
      mergeLoop p (n + 1) (a :: b :: f) k = mergeLoop p n f' (k + 1) ∧
      f'.Perm (.internal (a.weight + b.weight) (min a.key b.key) a b :: f) ∧
      f'.Pairwise (fun x y => x.key ≠ y.key) ∧
      f'.Pairwise (fun x y => comesBefore p x y = true ∧ comesBefore p y x = false)) ∧
  ∀ (p : TiePolicy) (n k : Nat) (t : Node),
    mergeLoop p n [] k = (none, k) ∧ mergeLoop p n [t] k = (some t, k)

/-- The node counts of BuildTree (R98): no tree and 0 for no symbol, 3 for one symbol, 2n - 1 for n
symbols; the count is the number of nodes of the tree, and the root weighs the sum of the counts. -/
def Obligations.TreeNodeCounts : Prop :=
  ∀ (p : TiePolicy) (f : FreqTable),
    let n := (present f).length
    (n = 0 → buildTree p f = (none, 0)) ∧
    (1 ≤ n → ∃ t, buildTree p f = (some t, if n = 1 then 3 else 2 * n - 1) ∧
      t.size = (if n = 1 then 3 else 2 * n - 1) ∧
      t.weight = ((present f).map fun v => (entryAt f v).toNat).sum)

/-- R103: CODE_GEN derives the code table of TREE; STATE when TREE_VALID = 0. -/
def Obligations.CodeGenResult : Prop :=
  ∀ s : State,
    (s.treeValid = true → exec .codeGen s = .next (doneOk { s with
      codes := genCodes s.tree, codesValid := true, resultLen := 0#32, consumed := 0#32 })) ∧
    (s.treeValid = false → exec .codeGen s = .next (doneErr s .state))

/-- R101: the properties of the code table of a built tree. A symbol has a code exactly when it occurs;
codes are prefix-free; a single symbol has the code "1"; no code is longer than 255 bits; each code is
the path from the root to its leaf. -/
def Obligations.CodeTableProperties : Prop :=
  ∀ (p : TiePolicy) (f : FreqTable),
    let c := genCodes (buildTree p f).1
    (∀ v, entryAt c v ≠ [] ↔ entryAt f v ≠ 0#32) ∧
    (∀ u v, u ≠ v → entryAt f u ≠ 0#32 → entryAt f v ≠ 0#32 → ¬ entryAt c u <+: entryAt c v) ∧
    (∀ v, present f = [v] → entryAt c v = [true]) ∧
    (∀ v, (entryAt c v).length ≤ 255) ∧
    ∀ v, entryAt f v ≠ 0#32 → ∃ t, (buildTree p f).1 = some t ∧
      descend t (entryAt c v) = some (.leaf v (entryAt f v).toNat)

/-! ### Bit packer (42_bit_packer.md) -/

/-- R104: Pack stores bit i in byte i/8 at position i mod 8, in ceil(m/8) bytes; positions past the end of
the string are 0. -/
def Obligations.PackLayout : Prop :=
  ∀ bits : BitString, (pack bits).length = (bits.length + 7) / 8 ∧
    ∀ (j k : Nat), j < (pack bits).length → k < 8 →
      ((pack bits).getD j 0#8).getLsbD k = bits.getD (8 * j + k) false

/-- R109: SYM_ENCODE packs the codes of the source bytes at DST_ADDR; STATE without a valid code table or
for a byte without a code; DST_FULL when the packed bytes do not fit. -/
def Obligations.SymEncodeResult : Prop :=
  ∀ s : State, AfterOperandChecks .symEncode s <|
    let src := s.buf.readBytes s.srcAddr.toNat s.srcLen.toNat
    let bits := codeStream s.codes src
    let nb := (bits.length + 7) / 8
    (s.codesValid = false → exec .symEncode s = .next (doneErr s .state)) ∧
    (s.codesValid = true → (∃ v ∈ src, entryAt s.codes v = []) →
      exec .symEncode s = .next (doneErr s .state)) ∧
    (s.codesValid = true → (∀ v ∈ src, entryAt s.codes v ≠ []) → nb ≤ s.dstCap.toNat → ∃ m,
      exec .symEncode s = .next (doneOk { s with
        buf := m
        bitcountLo := BitVec.ofNat 32 bits.length
        bitcountHi := BitVec.ofNat 32 (bits.length / 2 ^ 32)
        resultLen := BitVec.ofNat 32 nb, consumed := s.srcLen }) ∧
      StoresAt s.buf m s.dstAddr.toNat (pack bits)) ∧
    (s.codesValid = true → (∀ v ∈ src, entryAt s.codes v ≠ []) → s.dstCap.toNat < nb → ∃ m,
      exec .symEncode s = .next (doneErr { s with buf := m } .dstFull) ∧
      SameOutside s.buf m s.dstAddr.toNat s.dstCap.toNat)

/-- R107: the walk over m bits. Bits that are the paths of leaves emit their symbols. It is CORRUPT when bits meet
an empty tree, when a path reaches the placeholder, and when the bits end inside a path; `emitted` says
whether a symbol was emitted before. A symbol past the capacity is DST_FULL. R110: SYM_DECODE walks TREE
over BITCOUNT bits of the source and stores what the walk emits; STATE without a valid tree; FORMAT when
the source is shorter than the bit count needs; when the walk fails, its error, with no byte outside the
DST window changed, and no byte at all when nothing was emitted (R151 item 3). -/
def Obligations.SymDecodeResult : Prop :=
  (∀ (cap : Nat) (t : Option Node) (src : ByteString), walk cap t src 0 = .ok []) ∧
  (∀ (cap : Nat) (src : ByteString) (m : Nat), 0 < m →
    walk cap none src m = .error { code := .corrupt }) ∧
  (∀ (cap w k : Nat) (l r : Node) (src : ByteString) (m : Nat) (out : ByteString) (paths : List BitString)
      (rest : BitString),
    let root := Node.internal w k l r
    let failed := fun c : ErrCode => walk cap (some root) src m =
      .error { code := c, emitted := c == .dstFull || out.length != 0 }
    m ≤ 8 * src.length →
    ((List.range m).map fun i => (src.getD (i / 8) 0#8).getLsbD (i % 8)) = paths.flatten ++ rest →
    List.Forall₂ (fun v c => ∃ n, descend root c = some (.leaf v n)) out paths → out.length ≤ cap →
    (rest = [] → walk cap (some root) src m = .ok out) ∧
    (rest ≠ [] → (∃ w' k' l' r', descend root rest = some (.internal w' k' l' r')) → failed .corrupt) ∧
    (∀ c more, rest = c ++ more → descend root c = some .placeholder → failed .corrupt) ∧
    (∀ c more v n, rest = c ++ more → descend root c = some (.leaf v n) → out.length = cap →
      failed .dstFull)) ∧
  ∀ s : State, AfterOperandChecks .symDecode s <|
    let m := s.bitcountHi.toNat * 2 ^ 32 + s.bitcountLo.toNat
    let nb := (m + 7) / 8
    let w := walk s.dstCap.toNat s.tree (s.buf.readBytes s.srcAddr.toNat nb) m
    (s.treeValid = false → exec .symDecode s = .next (doneErr s .state)) ∧
    (s.treeValid = true → s.srcLen.toNat < nb → exec .symDecode s = .next (doneErr s .format)) ∧
    (s.treeValid = true → nb ≤ s.srcLen.toNat → ∀ out, w = .ok out → ∃ b,
      exec .symDecode s = .next (doneOk { s with
        buf := b, resultLen := BitVec.ofNat 32 out.length, consumed := BitVec.ofNat 32 nb }) ∧
      StoresAt s.buf b s.dstAddr.toNat out) ∧
    (s.treeValid = true → nb ≤ s.srcLen.toNat → ∀ e, w = .error e → ∃ b,
      exec .symDecode s = .next (doneErr { s with buf := b } e.code) ∧
      (e.code = .corrupt ∨ e.code = .dstFull) ∧ (e.emitted = false → b = s.buf) ∧
      SameOutside s.buf b s.dstAddr.toNat s.dstCap.toNat)

/-- Walking the tree of a table over the packed codes of a string of its symbols emits the string,
whatever bytes follow (R108). -/
def Obligations.SymbolStreamRoundTrip : Prop :=
  ∀ (p : TiePolicy) (f : FreqTable) (s t : ByteString) (cap : Nat),
    (∀ v ∈ s, entryAt f v ≠ 0#32) → s.length ≤ cap →
    let tree := (buildTree p f).1
    let bits := codeStream (genCodes tree) s
    walk cap tree (pack bits ++ t) bits.length = .ok s

/-! ### Codec (43_codec.md) -/

/-- R115: HUF_ENCODE stores the block of the source at DST_ADDR and leaves FREQ, TREE, CODE and BITCOUNT of
that source; DST_FULL, with all of them unchanged, when the block does not fit. -/
def Obligations.HufEncodeResult : Prop :=
  ∀ s : State, AfterOperandChecks .hufEncode s <|
    let src := s.buf.readBytes s.srcAddr.toNat s.srcLen.toNat
    let f := countFreq src
    let tree := (buildTree s.params.tiePolicy f).1
    let bits := codeStream (genCodes tree) src
    let blk := freqSerialize f ++ le 8 bits.length ++ pack bits
    (blk.length ≤ s.dstCap.toNat → ∃ m,
      exec .hufEncode s = .next (doneOk { s with
        buf := m, freq := f, tree := tree
        nodeCount := BitVec.ofNat 32 (buildTree s.params.tiePolicy f).2
        treeValid := true, codes := genCodes tree, codesValid := true
        bitcountLo := BitVec.ofNat 32 bits.length
        bitcountHi := BitVec.ofNat 32 (bits.length / 2 ^ 32)
        resultLen := BitVec.ofNat 32 blk.length, consumed := s.srcLen }) ∧
      StoresAt s.buf m s.dstAddr.toNat blk) ∧
    (s.dstCap.toNat < blk.length → ∃ m,
      exec .hufEncode s = .next (doneErr { s with buf := m } .dstFull) ∧
      SameOutside s.buf m s.dstAddr.toNat s.dstCap.toNat)

/-- R113: a block is a table, and unless the table is empty a bit count of 8 bytes and the packed bits; FORMAT
when any of them is malformed or cut short; the bits are walked over the table's tree. R116: HUF_DECODE
stores the decoded bytes of the block at the front of the source and leaves FREQ, TREE and BITCOUNT of
that block, with no code table; on any error all of them keep their values, and the DST window too when
nothing was emitted. -/
def Obligations.HufDecodeResult : Prop :=
  (∀ (p : TiePolicy) (cap : Nat) (b : ByteString),
    (∀ e, freqParse b = .error e → decodeBlock p cap b = .error { code := .format }) ∧
    ∀ f c, freqParse b = .ok (f, c) →
      let m := fromLe ((b.drop c).take 8)
      let nb := (m + 7) / 8
      if present f = [] then decodeBlock p cap b = .ok { table := f, bits := 0, out := [], used := c }
      else if b.length < c + 8 ∨ b.length < c + 8 + nb then
        decodeBlock p cap b = .error { code := .format }
      else
        (∀ out, walk cap (buildTree p f).1 ((b.drop (c + 8)).take nb) m = .ok out →
          decodeBlock p cap b = .ok { table := f, bits := m, out := out, used := c + 8 + nb }) ∧
        ∀ e, walk cap (buildTree p f).1 ((b.drop (c + 8)).take nb) m = .error e →
          decodeBlock p cap b = .error e) ∧
  ∀ s : State, AfterOperandChecks .hufDecode s <|
    let r := decodeBlock s.params.tiePolicy s.dstCap.toNat
      (s.buf.readBytes s.srcAddr.toNat s.srcLen.toNat)
    (∀ d, r = .ok d → ∃ m,
      exec .hufDecode s = .next (doneOk { s with
        buf := m, freq := d.table, tree := (buildTree s.params.tiePolicy d.table).1
        nodeCount := BitVec.ofNat 32 (buildTree s.params.tiePolicy d.table).2
        treeValid := true, codes := Vector.replicate 256 [], codesValid := false
        bitcountLo := BitVec.ofNat 32 d.bits, bitcountHi := BitVec.ofNat 32 (d.bits / 2 ^ 32)
        resultLen := BitVec.ofNat 32 d.out.length, consumed := BitVec.ofNat 32 d.used }) ∧
      StoresAt s.buf m s.dstAddr.toNat d.out) ∧
    (∀ e, r = .error e → ∃ m,
      exec .hufDecode s = .next (doneErr { s with buf := m } e.code) ∧
      (e.code = .format ∨ e.code = .corrupt ∨ e.code = .dstFull) ∧ (e.emitted = false → m = s.buf) ∧
      SameOutside s.buf m s.dstAddr.toNat s.dstCap.toNat)

/-- Decoding an encoded block gives the bytes back, under either tie policy and whatever bytes follow. The
bytes used are the whole block, but for the empty string: there the decoder ends after the 4 bytes of
the zero-symbol table (R113, R116; R114 says the whole length for every string: log 21). -/
def Obligations.BlockRoundTrip : Prop :=
  ∀ (p : TiePolicy) (b t : ByteString) (cap : Nat), b.length ≤ 2 ^ 32 - 1 → b.length ≤ cap →
    ∃ d, decodeBlock p cap (encodeBlock p b ++ t) = .ok d ∧
      d.out = b ∧ d.table = countFreq b ∧ d.bits = (encodedBits p b).length ∧
      d.used = if b = [] then 4 else (encodeBlock p b).length

/-! ### Framer (44_framing.md) -/

/-- R121: FRAME stores the frame of the source at DST_ADDR; DST_FULL when it does not fit. -/
def Obligations.FrameResult : Prop :=
  ∀ s : State, AfterOperandChecks .frame s <|
    let src := s.buf.readBytes s.srcAddr.toNat s.srcLen.toNat
    let pad := (8 - src.length % 8) % 8
    let f := le 8 s.params.streamHead.toNat ++ src ++ List.replicate pad 0#8 ++
      le 8 s.params.streamTail.toNat
    (f.length ≤ s.dstCap.toNat → ∃ m,
      exec .frame s = .next (doneOk { s with
        buf := m, resultLen := BitVec.ofNat 32 (16 + s.srcLen.toNat + pad), consumed := s.srcLen }) ∧
      StoresAt s.buf m s.dstAddr.toNat f) ∧
    (s.dstCap.toNat < f.length → ∃ m,
      exec .frame s = .next (doneErr { s with buf := m } .dstFull) ∧
      SameOutside s.buf m s.dstAddr.toNat s.dstCap.toNat)

/-- R122: UNFRAME stores the bytes between the sentinels of a valid frame; FORMAT when the frame is not
valid; DST_FULL when they do not fit. -/
def Obligations.UnframeResult : Prop :=
  ∀ s : State, AfterOperandChecks .unframe s <|
    let src := s.buf.readBytes s.srcAddr.toNat s.srcLen.toNat
    let n := s.srcLen.toNat
    let good := 16 ≤ n ∧ n % 8 = 0 ∧ fromLe (src.take 8) = s.params.streamHead.toNat ∧
      fromLe (src.drop (n - 8)) = s.params.streamTail.toNat
    let pl := (src.drop 8).take (n - 16)
    (¬ good → exec .unframe s = .next (doneErr s .format)) ∧
    (good → n - 16 ≤ s.dstCap.toNat → ∃ m,
      exec .unframe s = .next (doneOk { s with
        buf := m, resultLen := BitVec.ofNat 32 (n - 16), consumed := s.srcLen }) ∧
      StoresAt s.buf m s.dstAddr.toNat pl) ∧
    (good → s.dstCap.toNat < n - 16 → ∃ m,
      exec .unframe s = .next (doneErr { s with buf := m } .dstFull) ∧
      SameOutside s.buf m s.dstAddr.toNat s.dstCap.toNat)

/-- A frame passes the reader's checks, which give back the block and its padding, and its size is a
multiple of 8 (R117, R118, R119). -/
def Obligations.FrameRoundTrip : Prop :=
  ∀ (p : Params) (b : ByteString),
    checkFrame p (frameOf p b) = .ok (b ++ List.replicate ((8 - b.length % 8) % 8) 0#8) ∧
    (frameOf p b).length = 16 + b.length + (8 - b.length % 8) % 8 ∧
    (frameOf p b).length % 8 = 0

/-- R120: changing any byte of either sentinel of a frame makes CheckFrame raise FORMAT. -/
def Obligations.SentinelChangeDetected : Prop :=
  ∀ (p : Params) (f pl : ByteString) (i : Nat) (v : Byte), checkFrame p f = .ok pl →
    (i < 8 ∨ (f.length - 8 ≤ i ∧ i < f.length)) → f[i]? ≠ some v →
    checkFrame p (f.set i v) = .error { code := .format }

/-! ### Archive (45_archive.md) -/

/-- AR_OPEN_W on a closed handle (R136): when the archive store fails (IoFail) the command fails with IO and
leaves ARC, ARC_LEN and the closed handle alone; otherwise it writes a zero header and leaves an empty
write session. -/
def Obligations.ArOpenWResult : Prop :=
  ∀ s : State, s.mode = .unset →
    if s.ioFail .command then exec .arOpenW s = .next (doneErr s .io)
    else ∃ m,
      exec .arOpenW s = .next (doneOk { s with
        arc := m, arcLen := 8#32, arcOffset := 8#32, indexOff := 0#32
        idx := [], version := 0#32, mode := .writeOpen
        resultLen := 8#32, consumed := 0#32 }) ∧
      StoresAt s.arc m 0 (List.replicate 8 0#8)

/-- R134: an open of an open handle first has the effects of AR_CLOSE, whose error is discarded (the
completion and ERR_STICKY are the open's own). Where IoFail is never true these are the effects of the
command AR_CLOSE. Under either IoFail model (an open draws once, in the close or at its own point: R21, log
4) they are those of R139: a read session is closed; a write session is closed with its index written at
H = ARC_OFFSET and the header patched, or, when the index does not fit or the archive store fails, with
ARC_LEN = H and INDEX_OFF = 0, ARC unchanged in the first case and below H in the second (log 11 for H below
8). The open then does what it
does on the handle so closed. So AR_OPEN_W, when its own IoFail is true, fails with IO and leaves what the
close left (R136); otherwise it leaves an empty write session with a zero header, as it does after a
close in which the archive store failed. -/
def Obligations.OpenClosesFirst : Prop :=
  (∀ s : State, s.mode ≠ .unset → s.params.ioFault = .never →
    ∃ c, exec .arClose s = .next c ∧
      let t := { c with stepTag := s.stepTag, errSticky := s.errSticky }
      t.mode = .unset ∧ exec .arOpenW s = exec .arOpenW t ∧ exec .arOpenR s = exec .arOpenR t) ∧
  (∀ s : State, (s.ioFail .implicitClose && s.ioFail .command) = false) ∧
  ∀ s : State, s.mode ≠ .unset → ∃ (a : Memory) (n x : Word),
    (let h := s.arcOffset.toNat
     if s.mode = .readOpen then a = s.arc ∧ n = s.arcLen ∧ x = s.indexOff
     else if s.params.arcCap < h + indexLen s.idx then a = s.arc ∧ n = s.arcOffset ∧ x = 0#32
     else if s.ioFail .implicitClose then n = s.arcOffset ∧ x = 0#32 ∧
       ∀ y, (y < max 8 h ∨ s.params.arcCap ≤ y) → a.read y = s.arc.read y
     else n = BitVec.ofNat 32 (h + indexLen s.idx) ∧ x = s.arcOffset ∧
       a = (s.arc.writeBytes h (indexSerialize s.params s.idx s.version)).writeBytes 0 (le 8 h)) ∧
    let c := { s with
      arc := a, arcLen := n, indexOff := x, idx := [], version := 0#32, mode := .unset
      arcOffset := if s.mode = .readOpen then s.arcOffset else 0#32 }
    exec .arOpenR s = exec .arOpenR c ∧ exec .arOpenW s = exec .arOpenW c ∧
    if s.ioFail .command then exec .arOpenW s = .next (doneErr c .io)
    else ∃ m,
      exec .arOpenW s = .next (doneOk { c with
        arc := m, arcLen := 8#32, arcOffset := 8#32, indexOff := 0#32, mode := .writeOpen
        resultLen := 8#32, consumed := 0#32 }) ∧
      StoresAt a m 0 (List.replicate 8 0#8)

/-- AR_OPEN_R on a closed handle opens every well-formed archive (R137): a header H, a multiple of 8 from
8, and at H the serialised index of entries the engine can hold, ending at ARC_LEN. -/
def Obligations.WellFormedArchiveOpens : Prop :=
  ∀ (s : State) (l : List Entry) (v : Word) (h : Nat),
    s.params.valid = true → s.mode = .unset → s.ioFail .command = false →
    IndexGood s.params l → verValid v = true →
    h % 8 = 0 → 8 ≤ h → s.arcLen.toNat = h + indexLen l → s.arcLen.toNat ≤ s.params.arcCap →
    s.arc.readBytes 0 8 = le 8 h →
    s.arc.readBytes h (indexLen l) = indexSerialize s.params l v →
    exec .arOpenR s = .next (doneOk { s with
      idx := l, version := v, indexOff := BitVec.ofNat 32 h, arcOffset := 0#32, mode := .readOpen
      resultLen := 0#32, consumed := 0#32 })

/-- AR_OPEN_R on a closed handle (R137): the checks on the file in their order, each with its error, and then the
entry list in the order of the file. The length against ARC_CAP and IoFail are IO; a file below 32 bytes,
a bad header, a wrong index sentinel, an unaligned span, an invalid version and a declared length that
does not fit the span are FORMAT; the first entry that R137 refuses gives FORMAT or CAPACITY. A failure
leaves the handle closed. When every entry is accepted the handle is open with the entries in path order. -/
def Obligations.BadLengthFailsOpen : Prop :=
  ∀ s : State, s.mode = .unset →
    let n := s.arcLen.toNat
    let h := fromLe (s.arc.readBytes 0 8)
    let len := fromLe (s.arc.readBytes (h + 8) 4)
    let v := BitVec.ofNat 32 (fromLe (s.arc.readBytes (h + 12) 4))
    let fails := fun c : ErrCode => exec .arOpenR s = .next (doneErr { s with
      idx := [], version := 0#32, mode := .unset, arcOffset := 0#32, indexOff := 0#32 } c)
    if s.params.arcCap < n then fails .io
    else if s.ioFail .command then fails .io
    else if n < 32 then fails .format
    else if h % 8 ≠ 0 ∨ h < 8 ∨ n < h + 24 then fails .format
    else if fromLe (s.arc.readBytes h 8) ≠ s.params.indexHead.toNat then fails .format
    else if fromLe (s.arc.readBytes (n - 8) 8) ≠ s.params.indexTail.toNat then fails .format
    else if (n - h) % 8 ≠ 0 then fails .format
    else if verValid v = false then fails .format
    else if n < h + 24 + len ∨ h + 24 + len + 7 < n then fails .format
    else ∀ (l : List Entry) (rest : ByteString),
      s.arc.readBytes (h + 16) len =
        (l.flatMap fun e =>
          le 4 e.path.length ++ e.path ++ le 8 e.offset.toNat ++ le 8 e.size.toNat) ++ rest →
      EntriesAccepted s.params l →
      (∀ c, entryError s.params l rest = some c → fails c) ∧
      (rest = [] → ∃ l' : List Entry, l'.Perm l ∧
        l'.Pairwise (fun a b => pathBefore a.path b.path = true) ∧
        exec .arOpenR s = .next (doneOk { s with
          idx := l', version := v, indexOff := BitVec.ofNat 32 h, arcOffset := 0#32, mode := .readOpen
          resultLen := 0#32, consumed := 0#32 }))

/-- The failure of AR_OPEN_R in any mode, whatever the check that fails (R137, R134, R151): but for the
completion, the closed handle and the ARC and ARC_LEN of the implicit close, every register, internal
element and BUF keep their values. The implicit close touches ARC and ARC_LEN only in a write session:
there it leaves ARC alone when the index does not fit, leaves the bytes below the index offset when the
archive store fails (log 11), and otherwise writes the index and patches the header. -/
def Obligations.FailedOpenLeavesHandleClosed : Prop :=
  ∀ s t : State, exec .arOpenR s = .next t → t.err = true →
    ∃ (a : Memory) (n : Word),
      t = doneErr { s with
        idx := [], version := 0#32, mode := .unset, arcOffset := 0#32, indexOff := 0#32
        arc := a, arcLen := n } t.errcode ∧
      (t.errcode = .io ∨ t.errcode = .format ∨ t.errcode = .capacity) ∧
      let h := s.arcOffset.toNat
      if s.mode ≠ .writeOpen then a = s.arc ∧ n = s.arcLen
      else if s.params.arcCap < h + indexLen s.idx then a = s.arc ∧ n = s.arcOffset
      else if s.ioFail .implicitClose then
        n = s.arcOffset ∧ ∀ x, (x < max 8 h ∨ s.params.arcCap ≤ x) → a.read x = s.arc.read x
      else
        n = BitVec.ofNat 32 (h + indexLen s.idx) ∧
        a = (s.arc.writeBytes h (indexSerialize s.params s.idx s.version)).writeBytes 0 (le 8 h)

/-- AR_ADD (R138, R150): its checks in their order, MODE, ARG, RANGE of SRC and NAME, CONFLICT, CAPACITY, IO when
the frame does not fit and IO when the archive store fails, which leaves ARC below the frame offset alone.
Otherwise the frame of the encoded source is appended and the entry recorded in path order, and FREQ,
TREE, CODE and BITCOUNT are those of the source (that AR_ADD writes BITCOUNT is log 22: R24 does not name
it). -/
def Obligations.ArAddResult : Prop :=
  ∀ s : State,
    let n := s.buf.readBytes s.nameAddr.toNat s.nameLen.toNat
    let src := s.buf.readBytes s.srcAddr.toNat s.srcLen.toNat
    let c := countFreq src
    let tree := (buildTree s.params.tiePolicy c).1
    let bits := codeStream (genCodes tree) src
    let f := frameOf s.params (encodeBlock s.params.tiePolicy src)
    let o := s.arcOffset.toNat
    let fails := fun e : ErrCode => exec .arAdd s = .next (doneErr s e)
    if s.mode ≠ .writeOpen then fails .mode
    else if s.nameLen = 0#32 then fails .arg
    else if s.params.bufSize < s.srcAddr.toNat + s.srcLen.toNat then fails .range
    else if s.params.bufSize < s.nameAddr.toNat + s.nameLen.toNat then fails .range
    else if ∃ e ∈ s.idx, e.path = n then fails .conflict
    else if s.params.maxNameLen < n.length ∨ s.idx.length = s.params.maxEntries ∨
      s.params.nameCap < nameTotal s.idx + n.length then fails .capacity
    else if s.params.arcCap < o + f.length then fails .io
    else if s.ioFail .command then ∃ m,
      exec .arAdd s = .next (doneErr { s with arc := m } .io) ∧
      SameOutside s.arc m o (s.params.arcCap - o)
    else ∃ m l,
      exec .arAdd s = .next (doneOk { s with
        arc := m, idx := l, freq := c, tree := tree
        nodeCount := BitVec.ofNat 32 (buildTree s.params.tiePolicy c).2
        treeValid := true, codes := genCodes tree, codesValid := true
        bitcountLo := BitVec.ofNat 32 bits.length
        bitcountHi := BitVec.ofNat 32 (bits.length / 2 ^ 32)
        entryOffset := s.arcOffset, entrySize := BitVec.ofNat 32 f.length
        arcOffset := BitVec.ofNat 32 (o + f.length), arcLen := BitVec.ofNat 32 (o + f.length)
        resultLen := BitVec.ofNat 32 f.length, consumed := s.srcLen }) ∧
      StoresAt s.arc m o f ∧ l.length = s.idx.length + 1 ∧
      (∀ e, e ∈ l ↔ e = { path := n, offset := s.arcOffset, size := BitVec.ofNat 32 f.length } ∨
        e ∈ s.idx) ∧
      (s.idx.Pairwise (fun a b => pathBefore a.path b.path = true) →
        l.Pairwise (fun a b => pathBefore a.path b.path = true))

/-- AR_CLOSE in each mode (R139): a no-op on a closed handle; a read handle is closed; a write session writes the
index at H = ARC_OFFSET and patches the header with H. When the index does not fit it fails with IO and
leaves ARC alone; when the archive store fails it fails with IO and leaves the ARC bytes below H, the
header among them, alone (R151 item 4; that the open bytes start at H is log 11 for H below 8); either
failure leaves the handle closed with ARC_LEN = H. -/
def Obligations.ArCloseResult : Prop :=
  ∀ s : State,
    let h := s.arcOffset.toNat
    let n := indexLen s.idx
    let e := s.idx.flatMap fun e =>
      le 4 e.path.length ++ e.path ++ le 8 e.offset.toNat ++ le 8 e.size.toNat
    (s.mode = .unset →
      exec .arClose s = .next (doneOk { s with resultLen := 0#32, consumed := 0#32 })) ∧
    (s.mode = .readOpen →
      exec .arClose s = .next (doneOk { s with
        idx := [], version := 0#32, mode := .unset, resultLen := 0#32, consumed := 0#32 })) ∧
    (s.mode = .writeOpen → s.params.arcCap < h + n →
      exec .arClose s = .next (doneErr { s with
        idx := [], version := 0#32, mode := .unset, arcOffset := 0#32, indexOff := 0#32
        arcLen := s.arcOffset } .io)) ∧
    (s.mode = .writeOpen → h + n ≤ s.params.arcCap → 8 ≤ h →
      if s.ioFail .command then ∃ m,
        exec .arClose s = .next (doneErr { s with
          arc := m, idx := [], version := 0#32, mode := .unset, arcOffset := 0#32, indexOff := 0#32
          arcLen := s.arcOffset } .io) ∧
        SameOutside s.arc m h (s.params.arcCap - h)
      else ∃ m,
        exec .arClose s = .next (doneOk { s with
          arc := m, idx := [], version := 0#32, mode := .unset, arcOffset := 0#32
          indexOff := s.arcOffset, arcLen := BitVec.ofNat 32 (h + n)
          resultLen := BitVec.ofNat 32 n, consumed := 0#32 }) ∧
        m.readBytes 0 8 = le 8 h ∧
        m.readBytes h n = le 8 s.params.indexHead.toNat ++ le 4 e.length ++ le 4 s.version.toNat ++ e ++
          List.replicate ((8 - (16 + e.length) % 8) % 8) 0#8 ++ le 8 s.params.indexTail.toNat ∧
        ∀ x, 8 ≤ x → (x < h ∨ h + n ≤ x) → m.read x = s.arc.read x)

/-- AR_GET (R140, R150): its checks in their order, MODE, RANGE of NAME and DST, OVERLAP, NOT_FOUND, FORMAT for an
entry outside the frame region, IO when the archive store fails, FORMAT for a read past ARC_LEN (log 12:
no run meets it), FORMAT for a frame that CheckFrame refuses, and the errors of the block, with no BUF byte
outside the DST window changed and none at all when nothing was emitted. Otherwise it stores the decoded
bytes, reports the entry and leaves FREQ, TREE and BITCOUNT of the block. -/
def Obligations.ArGetResult : Prop :=
  ∀ s : State,
    let n := s.buf.readBytes s.nameAddr.toNat s.nameLen.toNat
    let fails := fun c : ErrCode => exec .arGet s = .next (doneErr s c)
    if s.mode ≠ .readOpen then fails .mode
    else if s.params.bufSize < s.nameAddr.toNat + s.nameLen.toNat then fails .range
    else if s.params.bufSize < s.dstAddr.toNat + s.dstCap.toNat then fails .range
    else if 0 < s.nameLen.toNat ∧ 0 < s.dstCap.toNat ∧
      s.nameAddr.toNat < s.dstAddr.toNat + s.dstCap.toNat ∧
      s.dstAddr.toNat < s.nameAddr.toNat + s.nameLen.toNat then fails .overlap
    else ((∀ e ∈ s.idx, e.path ≠ n) → fails .notFound) ∧
      ∀ e, s.idx.find? (fun x => x.path == n) = some e →
        let o := e.offset.toNat
        let z := e.size.toNat
        let pl := ((s.arc.readBytes o z).drop 8).take (z - 16)
        if z < 16 ∨ z % 8 ≠ 0 ∨ o % 8 ≠ 0 ∨ o < 8 ∨ s.indexOff.toNat < o + z then fails .format
        else if s.ioFail .command then fails .io
        else if s.arcLen.toNat < o + z ∨ s.params.arcCap < s.arcLen.toNat then fails .format
        else if fromLe (s.arc.readBytes o 8) ≠ s.params.streamHead.toNat ∨
          fromLe (s.arc.readBytes (o + z - 8) 8) ≠ s.params.streamTail.toNat then fails .format
        else
          (∀ d, decodeBlock s.params.tiePolicy s.dstCap.toNat pl = .ok d → ∃ m,
            exec .arGet s = .next (doneOk { s with
              buf := m, freq := d.table, tree := (buildTree s.params.tiePolicy d.table).1
              nodeCount := BitVec.ofNat 32 (buildTree s.params.tiePolicy d.table).2
              treeValid := true, codes := Vector.replicate 256 [], codesValid := false
              bitcountLo := BitVec.ofNat 32 d.bits, bitcountHi := BitVec.ofNat 32 (d.bits / 2 ^ 32)
              entryOffset := e.offset, entrySize := e.size
              resultLen := BitVec.ofNat 32 d.out.length, consumed := e.size }) ∧
            StoresAt s.buf m s.dstAddr.toNat d.out) ∧
          ∀ f, decodeBlock s.params.tiePolicy s.dstCap.toNat pl = .error f → ∃ m,
            exec .arGet s = .next (doneErr { s with buf := m } f.code) ∧
            (f.emitted = false → m = s.buf) ∧
            SameOutside s.buf m s.dstAddr.toNat s.dstCap.toNat

/-- R141: AR_ENUM stores the path of entry ENTRY_SEL of the ordered index and shows its offset and size;
MODE, RANGE, NOT_FOUND and DST_FULL otherwise. -/
def Obligations.ArEnumResult : Prop :=
  ∀ s : State,
    (s.mode = .unset → exec .arEnum s = .next (doneErr s .mode)) ∧
    (s.mode ≠ .unset → s.params.bufSize < s.dstAddr.toNat + s.dstCap.toNat →
      exec .arEnum s = .next (doneErr s .range)) ∧
    (s.mode ≠ .unset → s.dstAddr.toNat + s.dstCap.toNat ≤ s.params.bufSize →
      (s.idx.length ≤ s.entrySel.toNat → exec .arEnum s = .next (doneErr s .notFound)) ∧
      ∀ e, s.idx[s.entrySel.toNat]? = some e →
        (e.path.length ≤ s.dstCap.toNat → ∃ m,
          exec .arEnum s = .next (doneOk { s with
            buf := m, entryOffset := e.offset, entrySize := e.size
            resultLen := BitVec.ofNat 32 e.path.length, consumed := 0#32 }) ∧
          StoresAt s.buf m s.dstAddr.toNat e.path) ∧
        (s.dstCap.toNat < e.path.length → ∃ m,
          exec .arEnum s = .next (doneErr { s with buf := m } .dstFull) ∧
          SameOutside s.buf m s.dstAddr.toNat s.dstCap.toNat))

/-- R142: AR_SETVER sets VERSION from a valid string; an invalid string is a warning that leaves VERSION
unchanged; MODE outside a write session; RANGE for a source out of range. -/
def Obligations.ArSetverResult : Prop :=
  ∀ s : State,
    let str := s.buf.readBytes s.srcAddr.toNat s.srcLen.toNat
    (s.mode ≠ .writeOpen → exec .arSetver s = .next (doneErr s .mode)) ∧
    (s.mode = .writeOpen → s.params.bufSize < s.srcAddr.toNat + s.srcLen.toNat →
      exec .arSetver s = .next (doneErr s .range)) ∧
    (s.mode = .writeOpen → s.srcAddr.toNat + s.srcLen.toNat ≤ s.params.bufSize →
      (∀ v, verParse str = some v → exec .arSetver s = .next (doneOk { s with
        version := v, resultLen := 0#32, consumed := s.srcLen })) ∧
      (verParse str = none → exec .arSetver s = .next (doneWarn { s with
        resultLen := 0#32, consumed := s.srcLen } .versionParse)))

/-- R143: AR_GETVER stores the formatted version at DST_ADDR in every mode; RANGE and DST_FULL
otherwise. -/
def Obligations.ArGetverResult : Prop :=
  ∀ s : State,
    let str := verFormat s.version
    (s.params.bufSize < s.dstAddr.toNat + s.dstCap.toNat →
      exec .arGetver s = .next (doneErr s .range)) ∧
    (s.dstAddr.toNat + s.dstCap.toNat ≤ s.params.bufSize → str.length ≤ s.dstCap.toNat → ∃ m,
      exec .arGetver s = .next (doneOk { s with
        buf := m, resultLen := BitVec.ofNat 32 str.length, consumed := 0#32 }) ∧
      StoresAt s.buf m s.dstAddr.toNat str) ∧
    (s.dstAddr.toNat + s.dstCap.toNat ≤ s.params.bufSize → s.dstCap.toNat < str.length → ∃ m,
      exec .arGetver s = .next (doneErr { s with buf := m } .dstFull) ∧
      SameOutside s.buf m s.dstAddr.toNat s.dstCap.toNat)

/-- Versions. VerParse (R130) splits the string at every byte 0x2E. The string is valid when there are at most 4
groups and each has one or more bytes, all from 0x30 to 0x39, and a decimal value of at most 99; the result
then holds 0x80 + value of each group in a byte of its own, the last group in bits 7:0 (R129). VerFormat
(R131) writes the low 7 bits of each byte with bit 7 set in decimal, bits 31:24 first, joined by 0x2E; of a
parsed string it gives the groups without leading zeros. VerValid (R132): 0, or the low k bytes, 1 to 4 of
them, have bit 7 set and a low 7-bit value of at most 99 and the bytes above are 0. The valid versions are 0
and the values VerParse returns (R132), and parsing the formatted string of a version gives it back
(R131). -/
def Obligations.VersionFormatParse : Prop :=
  let value := fun t : ByteString => Nat.ofDigits 10 (t.reverse.map fun b => b.toNat - 0x30)
  let decimal := fun n : Nat => (Nat.toDigits 10 n).map fun c => BitVec.ofNat 8 c.toNat
  (∀ s : ByteString,
    let groups := s.splitOn 0x2E#8
    if groups.length ≤ 4 ∧
      ∀ t ∈ groups, t ≠ [] ∧ (∀ b ∈ t, 0x30 ≤ b.toNat ∧ b.toNat ≤ 0x39) ∧ value t ≤ 99
    then
      let v := BitVec.ofNat 32 (Nat.ofDigits 256 (groups.reverse.map fun t => 0x80 + value t))
      verParse s = some v ∧
      verFormat v = [0x2E#8].intercalate (groups.map fun t => decimal (value t))
    else verParse s = none) ∧
  (∀ v : Word, verFormat v = [0x2E#8].intercalate
    (([v.extractLsb' 24 8, v.extractLsb' 16 8, v.extractLsb' 8 8, v.extractLsb' 0 8].filter
      fun b => b.getLsbD 7).map fun b => decimal (b.extractLsb' 0 7).toNat)) ∧
  (∀ v : Word, verValid v = true ↔ v = 0#32 ∨ ∃ k, 1 ≤ k ∧ k ≤ 4 ∧
    (∀ i, i < k → v.getLsbD (8 * i + 7) = true ∧ (v.extractLsb' (8 * i) 7).toNat ≤ 99) ∧
    ∀ i, k ≤ i → v.extractLsb' (8 * i) 8 = 0#8) ∧
  (∀ v : Word, verValid v = true ↔ v = 0#32 ∨ ∃ str, verParse str = some v) ∧
  ∀ v : Word, verValid v = true → v ≠ 0#32 → verParse (verFormat v) = some v

/-- Closing a write session and opening the file for reading restores the index and the version (R139: the
file is well formed, so AR_OPEN_R accepts it without a host write of ARC_LEN). -/
def Obligations.CloseThenOpenRestoresIndex : Prop :=
  ∀ s : State, Inv s → s.mode = .writeOpen → s.params.ioFault = .never →
    s.arcOffset.toNat + indexLen s.idx ≤ s.params.arcCap →
    ∃ t u, exec .arClose s = .next t ∧ exec .arOpenR t = .next u ∧
      u.mode = .readOpen ∧ u.idx = s.idx ∧ u.version = s.version ∧ u.indexOff = s.arcOffset ∧
      u.errcode = .ok ∧ u.buf = s.buf

/-- A file added to an archive, which is then closed and opened for reading, is fetched back byte for
byte (the source's concrete scenario, 95_test_vectors.md E8, for every file and every path). -/
def Obligations.ArchivedFileIsFetchedBack : Prop :=
  ∀ s : State, Inv s → s.mode = .writeOpen → s.params.ioFault = .never →
    s.nameLen ≠ 0#32 →
    s.srcAddr.toNat + s.srcLen.toNat ≤ s.params.bufSize →
    s.nameAddr.toNat + s.nameLen.toNat ≤ s.params.bufSize →
    s.dstAddr.toNat + s.dstCap.toNat ≤ s.params.bufSize →
    overlaps s.nameRegion s.dstRegion = false →
    s.srcLen.toNat ≤ s.dstCap.toNat →
    let n := s.buf.readBytes s.nameAddr.toNat s.nameLen.toNat
    let src := s.buf.readBytes s.srcAddr.toNat s.srcLen.toNat
    let f := frameOf s.params (encodeBlock s.params.tiePolicy src)
    (∀ e ∈ s.idx, e.path ≠ n) → n.length ≤ s.params.maxNameLen →
    s.idx.length < s.params.maxEntries → nameTotal s.idx + n.length ≤ s.params.nameCap →
    s.arcOffset.toNat + f.length + (indexLen s.idx + 20 + n.length + 8) ≤ s.params.arcCap →
    ∃ a c o g, exec .arAdd s = .next a ∧ exec .arClose a = .next c ∧ exec .arOpenR c = .next o ∧
      exec .arGet o = .next g ∧
      a.errcode = .ok ∧ c.errcode = .ok ∧ o.errcode = .ok ∧ g.errcode = .ok ∧
      g.resultLen = s.srcLen ∧ StoresAt s.buf g.buf s.dstAddr.toNat src

/-- R133: the modes each archive command requires, and MODE after a success of each command. -/
def Obligations.HandleModeTable : Prop :=
  (∀ s : State, s.mode ≠ .writeOpen → exec .arAdd s = .next (doneErr s .mode) ∧
    exec .arSetver s = .next (doneErr s .mode)) ∧
  (∀ s : State, s.mode ≠ .readOpen → exec .arGet s = .next (doneErr s .mode)) ∧
  (∀ s : State, s.mode = .unset → exec .arEnum s = .next (doneErr s .mode)) ∧
  (∀ (i : Instr) (s t : State), exec i s = .next t → t.errcode = .mode →
    i = .arAdd ∨ i = .arGet ∨ i = .arEnum ∨ i = .arSetver) ∧
  (∀ (i : Instr) (s t : State), exec i s = .next t → t.err = false → t.mode = modeAfter i s.mode) ∧
  ∀ (i : Instr) (s t : State), exec i s = .next t → t.mode ≠ s.mode →
    i = .arOpenW ∨ i = .arOpenR ∨ i = .arClose ∨ i = .sreset

/-! ### Failures and whole-machine rules (60_exceptions.md, 20_memory.md) -/

/-- R151: what a failed command may change. Outside the opens and the close, a failure leaves every
register and internal state element as it was, but for the completion; BUF changes only inside the DST
window, and only for DST_FULL and CORRUPT (SymDecodeResult, HufDecodeResult and ArGetResult say that a
CORRUPT before any output leaves BUF alone); ARC changes only for AR_ADD, and only from the frame offset
up. -/
def Obligations.FailureEffects : Prop :=
  ∀ (i : Instr) (s t : State), i ≠ .arOpenW → i ≠ .arOpenR → i ≠ .arClose →
    exec i s = .next t → t.err = true →
    ∃ b a, t = doneErr { s with buf := b, arc := a } t.errcode ∧
      SameOutside s.buf b s.dstAddr.toNat s.dstCap.toNat ∧
      (t.errcode ≠ .dstFull → t.errcode ≠ .corrupt → b = s.buf) ∧
      (i ≠ .arAdd ∨ s.ioFail .command = false → a = s.arc) ∧
      ∀ x, x < s.arcOffset.toNat → a.read x = s.arc.read x

/-- A command never writes BUF outside the DST window (R66), whatever its outcome. -/
def Obligations.BufWritesStayInWindow : Prop :=
  ∀ (i : Instr) (s t : State), exec i s = .next t →
    SameOutside s.buf t.buf s.dstAddr.toNat s.dstCap.toNat

/-- Commands never write the argument registers (R23), but for SRESET, and for BITCOUNT, which only
SYM_ENCODE, HUF_ENCODE, HUF_DECODE, AR_GET and AR_ADD write (R24, R112; AR_ADD: log 22). -/
def Obligations.ArgumentRegistersKept : Prop :=
  ∀ (i : Instr) (s t : State), i ≠ .sreset → exec i s = .next t →
    t.srcAddr = s.srcAddr ∧ t.srcLen = s.srcLen ∧ t.dstAddr = s.dstAddr ∧ t.dstCap = s.dstCap ∧
    t.nameAddr = s.nameAddr ∧ t.nameLen = s.nameLen ∧ t.entrySel = s.entrySel ∧
    t.codeSel = s.codeSel ∧ t.overrun = s.overrun ∧ t.inReset = s.inReset ∧ t.params = s.params ∧
    (i ∉ [Instr.symEncode, .hufEncode, .hufDecode, .arGet, .arAdd] →
      t.bitcountLo = s.bitcountLo ∧ t.bitcountHi = s.bitcountHi)

/-- ERR_STICKY is set by every failed command and by no other outcome of a command, and only SRESET among the commands
clears it (R153). -/
def Obligations.StickyBitRecordsFailures : Prop :=
  ∀ (i : Instr) (s t : State), exec i s = .next t →
    t.errSticky = (if i = .sreset then false else s.errSticky || t.err)

/-! ### The invariant -/

/-- The invariant holds at reset. -/
def Obligations.ResetMeetsInvariant : Prop := Inv State.reset

/-- Every step of the machine, of the host or of the engine, keeps the invariant: canonical and bounded
memories, TREE and CODE current when marked valid, a path index within its limits, a legal handle
state. -/
def Obligations.StepKeepsInvariant : Prop :=
  ∀ s t : State, Inv s → step s = .next t → Inv t
end

