-- ==== Sys2Proof/Laws/Bytes.lean ====
section
/-! SUPPORT. Lemmas of the byte-order helpers: lengths, bounds and that reading a field back gives its value. -/

namespace Sys2Proof.Machine

@[simp] theorem length_le (n v : Nat) : (le n v).length = n := by
  induction n generalizing v with
  | zero => rfl
  | succ n ih => simp [le, ih]

theorem fromLe_lt (bs : ByteString) : fromLe bs < 256 ^ bs.length := by
  induction bs with
  | nil => simp [fromLe]
  | cons b bs ih =>
    have hb : b.toNat < 256 := b.isLt
    simp only [fromLe, List.length_cons, Nat.pow_succ]
    omega

/-- `from_le(le_N(v)) = v` for a value that fits N bytes. -/
theorem fromLe_le {n v : Nat} (h : v < 256 ^ n) : fromLe (le n v) = v := by
  induction n generalizing v with
  | zero => simp at h; simp [le, fromLe, h]
  | succ n ih =>
    have hv : v / 256 < 256 ^ n := by rw [Nat.pow_succ] at h; omega
    simp only [le, fromLe, BitVec.toNat_ofNat, ih hv]
    omega

/-- `le_N(from_le(s)) = s` for a byte string of N bytes. -/
theorem le_fromLe (bs : ByteString) : le bs.length (fromLe bs) = bs := by
  induction bs with
  | nil => rfl
  | cons b bs ih =>
    have hb : b.toNat < 256 := b.isLt
    have h1 : (b.toNat + 256 * fromLe bs) / 256 = fromLe bs := by omega
    simp only [List.length_cons, le, fromLe, h1, ih]
    congr 1
    apply BitVec.eq_of_toNat_eq
    simp only [BitVec.toNat_ofNat]
    omega

/-- Byte strings of one length with one value are equal. -/
theorem fromLe_inj {a b : ByteString} (hl : a.length = b.length) (h : fromLe a = fromLe b) : a = b := by
  rw [← le_fromLe a, ← le_fromLe b, hl, h]

@[simp] theorem length_zeros (n : Nat) : (zeros n).length = n := by simp [zeros]

theorem padLen_lt (n : Nat) : padLen n < 8 := by simp only [padLen]; omega

theorem add_padLen_mod (n : Nat) : (n + padLen n) % 8 = 0 := by simp only [padLen]; omega

theorem length_slice (s : ByteString) (i j : Nat) : (slice s i j).length = min (j - i) (s.length - i) := by
  simp [slice]

/-- A field in the middle of a byte string. -/
theorem slice_append {a b c : ByteString} {i j : Nat} (hi : i = a.length) (hj : j = a.length + b.length) :
    slice (a ++ b ++ c) i j = b := by
  subst hi hj
  simp [slice]

theorem bitsToNat_lt (bits : BitString) : bitsToNat bits < 2 ^ bits.length := by
  induction bits with
  | nil => simp [bitsToNat]
  | cons b bits ih =>
    have := Bool.toNat_lt b
    simp only [bitsToNat, List.length_cons, Nat.pow_succ]
    omega

/-- Bit i of the value of a bit string is its i-th bit. -/
theorem testBit_bitsToNat (bits : BitString) (i : Nat) : (bitsToNat bits).testBit i = bits.getD i false := by
  induction bits generalizing i with
  | nil => simp [bitsToNat]
  | cons b bits ih =>
    cases i with
    | zero =>
      simp only [bitsToNat, Nat.testBit_zero, List.getD_cons_zero]
      cases b <;> simp
    | succ i =>
      have h : (b.toNat + 2 * bitsToNat bits) / 2 = bitsToNat bits := by
        have := Bool.toNat_lt b
        omega
      simp only [bitsToNat, Nat.testBit_succ, h, ih, List.getD_cons_succ]

end Sys2Proof.Machine
end

