-- ==== Sys2Proof/Laws/Memory.lean ====
section
/-! SUPPORT. What the operations over a byte memory do: reading after a write, reading after a release, and that
each keeps the canonical form and the bounds. -/

namespace Sys2Proof.Machine

variable {β : Type}

@[simp] theorem find_nil (x : Nat) : find x ([] : List (Nat × β)) = none := rfl

theorem find_cons (x k : Nat) (v : β) (l : List (Nat × β)) :
    find x ((k, v) :: l) = if k = x then some v else find x l := rfl

theorem find_append (x : Nat) (l r : List (Nat × β)) :
    find x (l ++ r) = (find x l).or (find x r) := by
  induction l with
  | nil => rfl
  | cons e l ih =>
    obtain ⟨k, v⟩ := e
    by_cases h : k = x <;> simp [find_cons, h, ih]

/-- An address found in a list is one of its keys. -/
theorem mem_of_find {x : Nat} {v : β} {l : List (Nat × β)} (h : find x l = some v) : (x, v) ∈ l := by
  induction l with
  | nil => simp at h
  | cons e l ih =>
    obtain ⟨k, w⟩ := e
    rw [find_cons] at h
    split at h
    · next hk => simp_all
    · exact List.mem_cons_of_mem _ (ih h)

theorem find_eq_none_of_forall {x : Nat} {l : List (Nat × β)} (h : ∀ e ∈ l, e.1 ≠ x) :
    find x l = none := by
  cases hf : find x l with
  | none => rfl
  | some v => exact absurd rfl (h _ (mem_of_find hf))

theorem find_filter (x : Nat) (p : Nat → Bool) (l : List (Nat × β)) :
    find x (l.filter fun e => p e.1) = if p x then find x l else none := by
  induction l with
  | nil => simp
  | cons e l ih =>
    obtain ⟨k, v⟩ := e
    by_cases hk : p k <;> by_cases hx : k = x
    · subst hx; simp [find_cons, hk]
    · simp [find_cons, hk, hx, ih]
    · subst hx; simp [hk, ih]
    · simp [find_cons, hk, hx, ih]

@[simp] theorem find_below (x a : Nat) (l : List (Nat × β)) :
    find x (below a l) = if x < a then find x l else none := by
  simpa [below] using find_filter x (fun k => decide (k < a)) l

@[simp] theorem find_above (x a : Nat) (l : List (Nat × β)) :
    find x (above a l) = if a ≤ x then find x l else none := by
  simpa [above] using find_filter x (fun k => decide (a ≤ k)) l

/-- A key of the entries of a byte string is one of its addresses. -/
theorem mem_listed {a : Nat} {bs : ByteString} {e : Host.Cell} (h : e ∈ listed a bs) :
    a ≤ e.1 ∧ e.1 < a + bs.length := by
  induction bs generalizing a with
  | nil => simp [listed] at h
  | cons b bs ih =>
    simp only [List.length_cons]
    rcases List.mem_cons.mp h with rfl | h
    · simp
    · have := ih h
      omega

theorem find_listed (x a : Nat) (bs : ByteString) (h : a ≤ x) : find x (listed a bs) = bs[x - a]? := by
  induction bs generalizing a with
  | nil => simp [listed]
  | cons b bs ih =>
    rw [listed, find_cons]
    rcases Nat.eq_or_lt_of_le h with rfl | hlt
    · simp
    · rw [if_neg (by omega), ih (a + 1) hlt, show x - a = x - (a + 1) + 1 by omega,
        List.getElem?_cons_succ]

theorem find_listed_out (x a : Nat) (bs : ByteString) (h : x < a ∨ a + bs.length ≤ x) :
    find x (listed a bs) = none :=
  find_eq_none_of_forall fun e he => by have := mem_listed he; omega

theorem mem_opened {a n tag : Nat} {e : Nat × Nat} (h : e ∈ opened a n tag) :
    a ≤ e.1 ∧ e.1 < a + n := by
  induction n generalizing a with
  | zero => simp [opened] at h
  | succ n ih =>
    rcases List.mem_cons.mp h with rfl | h
    · simp
    · have := ih h; omega

theorem find_opened (x a n tag : Nat) :
    find x (opened a n tag) = if a ≤ x ∧ x < a + n then some tag else none := by
  induction n generalizing a with
  | zero => simp [opened]
  | succ n ih =>
    rw [opened, find_cons, ih]
    split
    · next h => subst h; simp
    · congr 1
      apply propext
      omega

@[simp] theorem writeBytes_store (m : Memory) (a : Nat) (bs : ByteString) :
    (m.writeBytes a bs).store = m.store := rfl

@[simp] theorem release_store (m : Memory) (a n tag : Nat) : (m.release a n tag).store = m.store := rfl

/-- Reading after a write: the byte written inside the written range, the byte before elsewhere. -/
theorem read_writeBytes (m : Memory) (a : Nat) (bs : ByteString) (x : Nat) :
    (m.writeBytes a bs).read x =
      if a ≤ x ∧ x < a + bs.length then bs.getD (x - a) 0#8 else m.read x := by
  simp only [Memory.read, Memory.writeBytes, find_append, find_below, find_above]
  by_cases hx : a ≤ x ∧ x < a + bs.length
  · obtain ⟨h1, h2⟩ := hx
    rw [if_neg (by omega : ¬ x < a), if_neg (by omega : ¬ a + bs.length ≤ x),
      if_neg (by omega : ¬ x < a), if_neg (by omega : ¬ a + bs.length ≤ x), if_pos ⟨h1, h2⟩,
      find_listed x a bs h1, List.getElem?_eq_getElem (by omega)]
    simp [List.getD_eq_getElem?_getD, List.getElem?_eq_getElem (show x - a < bs.length by omega)]
  · rw [if_neg hx, find_listed_out x a bs (by omega)]
    by_cases hlt : x < a
    · simp [hlt, show ¬ a + bs.length ≤ x by omega]
    · simp [hlt, show a + bs.length ≤ x by omega]

/-- Reading after a release: a free byte inside the released range, the byte before elsewhere. -/
theorem read_release (m : Memory) (a n tag x : Nat) :
    (m.release a n tag).read x =
      if a ≤ x ∧ x < a + n then Config.freeByte m.store tag x else m.read x := by
  simp only [Memory.read, Memory.release, find_append, find_below, find_above, find_opened]
  by_cases hx : a ≤ x ∧ x < a + n
  · obtain ⟨h1, h2⟩ := hx
    simp [show ¬ x < a by omega, h1, h2]
  · rw [if_neg hx]
    by_cases hlt : x < a
    · simp [hlt, show ¬ a + n ≤ x by omega, show ¬ a ≤ x by omega]
    · simp [hlt, show a + n ≤ x by omega, show ¬ x < a + n by omega]

@[simp] theorem length_readBytes (m : Memory) (a n : Nat) : (m.readBytes a n).length = n := by
  induction n generalizing a with
  | zero => rfl
  | succ n ih => simp [Memory.readBytes, ih]

theorem getElem_readBytes (m : Memory) (a n i : Nat) (h : i < (m.readBytes a n).length) :
    (m.readBytes a n)[i] = m.read (a + i) := by
  induction n generalizing a i with
  | zero => simp at h
  | succ n ih =>
    cases i with
    | zero => rfl
    | succ i =>
      simp only [Memory.readBytes, List.getElem_cons_succ]
      rw [ih]
      congr 1
      omega

/-- Two memories that read alike on a range give the same bytes there. -/
theorem readBytes_congr {m m' : Memory} {a n : Nat} (h : ∀ x, a ≤ x → x < a + n → m'.read x = m.read x) :
    m'.readBytes a n = m.readBytes a n := by
  apply List.ext_getElem (by simp)
  intro i h1 h2
  rw [getElem_readBytes, getElem_readBytes]
  simp only [length_readBytes] at h1
  exact h _ (by omega) (by omega)

theorem readBytes_writeBytes (m : Memory) (a : Nat) (bs : ByteString) :
    (m.writeBytes a bs).readBytes a bs.length = bs := by
  apply List.ext_getElem (by simp)
  intro i h1 h2
  rw [getElem_readBytes, read_writeBytes, if_pos ⟨by omega, by omega⟩]
  have : a + i - a = i := by omega
  rw [this, List.getD_eq_getElem?_getD, List.getElem?_eq_getElem h2]
  rfl

theorem readBytes_append (m : Memory) (a n k : Nat) :
    m.readBytes a (n + k) = m.readBytes a n ++ m.readBytes (a + n) k := by
  induction n generalizing a with
  | zero => simp [Memory.readBytes]
  | succ n ih =>
    have e : n + 1 + k = n + k + 1 := by omega
    rw [e]
    simp only [Memory.readBytes, List.cons_append, ih]
    rw [show a + 1 + n = a + (n + 1) by omega]

theorem mem_below {a : Nat} {l : List (Nat × β)} {e : Nat × β} : e ∈ below a l ↔ e ∈ l ∧ e.1 < a := by
  simp [below]

theorem mem_above {a : Nat} {l : List (Nat × β)} {e : Nat × β} : e ∈ above a l ↔ e ∈ l ∧ a ≤ e.1 := by
  simp [above]

theorem rising_listed (a : Nat) (bs : ByteString) : rising (listed a bs) := by
  induction bs generalizing a with
  | nil => exact List.Pairwise.nil
  | cons b bs ih =>
    exact List.Pairwise.cons (fun e he => by have := mem_listed he; simp only; omega) (ih _)

theorem rising_opened (a n tag : Nat) : rising (opened a n tag) := by
  induction n generalizing a with
  | zero => exact List.Pairwise.nil
  | succ n ih =>
    exact List.Pairwise.cons (fun e he => by have := mem_opened he; simp only; omega) (ih _)

/-- Replacing the entries of a range by rising entries of that range keeps a list rising. -/
theorem rising_splice {l r : List (Nat × β)} {a n : Nat} (hl : rising l) (hr : rising r)
    (hk : ∀ e ∈ r, a ≤ e.1 ∧ e.1 < a + n) : rising (below a l ++ r ++ above (a + n) l) := by
  have h1 : rising (below a l) := List.Pairwise.filter _ hl
  have h2 : rising (above (a + n) l) := List.Pairwise.filter _ hl
  refine List.pairwise_append.mpr ⟨List.pairwise_append.mpr ⟨h1, hr, ?_⟩, h2, ?_⟩
  · intro x hx y hy
    have := (mem_below.mp hx).2
    have := hk y hy
    omega
  · intro x hx y hy
    have := (mem_above.mp hy).2
    rcases List.mem_append.mp hx with hx | hx
    · have := (mem_below.mp hx).2; omega
    · have := hk x hx; omega

/-- A write keeps the canonical form. -/
theorem wf_writeBytes {m : Memory} (h : m.wf) (a : Nat) (bs : ByteString) : (m.writeBytes a bs).wf := by
  obtain ⟨hc, hf, hd⟩ := h
  refine ⟨rising_splice hc (rising_listed a bs) fun e he => mem_listed he,
    by simpa [Memory.writeBytes] using
      rising_splice (r := []) hf List.Pairwise.nil (a := a) (n := bs.length) (by simp), ?_⟩
  intro c hc' f hf'
  simp only [Memory.writeBytes, List.mem_append, mem_below, mem_above] at hc' hf'
  rcases hc' with (⟨h', _⟩ | h') | ⟨h', _⟩
  · exact hd c h' f (by tauto)
  · have := mem_listed h'
    rcases hf' with ⟨_, _⟩ | ⟨_, _⟩ <;> omega
  · exact hd c h' f (by tauto)

/-- A release keeps the canonical form. -/
theorem wf_release {m : Memory} (h : m.wf) (a n tag : Nat) : (m.release a n tag).wf := by
  obtain ⟨hc, hf, hd⟩ := h
  refine ⟨by simpa [Memory.release] using
      rising_splice (r := []) hc List.Pairwise.nil (a := a) (n := n) (by simp),
    rising_splice hf (rising_opened a n tag) fun e he => mem_opened he, ?_⟩
  intro c hc' f hf'
  simp only [Memory.release, List.mem_append, mem_below, mem_above] at hc' hf'
  rcases hf' with (⟨h', _⟩ | h') | ⟨h', _⟩
  · exact hd c (by tauto) f h'
  · have := mem_opened h'
    rcases hc' with ⟨_, _⟩ | ⟨_, _⟩ <;> omega
  · exact hd c (by tauto) f h'

theorem wf_empty (st : ByteStore) : (Memory.empty st).wf := by simp [Memory.wf, Memory.empty, rising]

theorem inBounds_empty (st : ByteStore) (n : Nat) : (Memory.empty st).inBounds n := by
  simp [Memory.inBounds, Memory.empty]

/-- A write inside a memory keeps its bounds. -/
theorem inBounds_writeBytes {m : Memory} {k : Nat} (h : m.inBounds k) {a : Nat} {bs : ByteString}
    (hb : a + bs.length ≤ k) : (m.writeBytes a bs).inBounds k := by
  obtain ⟨hc, hf⟩ := h
  constructor
  · intro c hc'
    simp only [Memory.writeBytes, List.mem_append, mem_below, mem_above] at hc'
    rcases hc' with (⟨h', _⟩ | h') | ⟨h', _⟩
    · exact hc c h'
    · have := mem_listed h'; omega
    · exact hc c h'
  · intro f hf'
    simp only [Memory.writeBytes, List.mem_append, mem_below, mem_above] at hf'
    exact hf f (by tauto)

/-- A release inside a memory keeps its bounds. -/
theorem inBounds_release {m : Memory} {k : Nat} (h : m.inBounds k) {a n : Nat} (tag : Nat)
    (hb : n = 0 ∨ a + n ≤ k) : (m.release a n tag).inBounds k := by
  obtain ⟨hc, hf⟩ := h
  constructor
  · intro c hc'
    simp only [Memory.release, List.mem_append, mem_below, mem_above] at hc'
    exact hc c (by tauto)
  · intro f hf'
    simp only [Memory.release, List.mem_append, mem_below, mem_above] at hf'
    rcases hf' with (⟨h', _⟩ | h') | ⟨h', _⟩
    · exact hf f h'
    · have := mem_opened h'; omega
    · exact hf f h'

theorem find_of_mem_rising {l : List (Nat × β)} (h : rising l) {x : Nat} {v : β} (hm : (x, v) ∈ l) :
    find x l = some v := by
  induction l with
  | nil => simp at hm
  | cons e l ih =>
    obtain ⟨k, w⟩ := e
    obtain ⟨h1, h2⟩ := List.pairwise_cons.mp h
    rcases List.mem_cons.mp hm with heq | hm
    · cases heq; simp [find_cons]
    · have := h1 _ hm
      rw [find_cons, if_neg (by simp only at this; omega)]
      exact ih h2 hm

/-- Two rising lists that find alike are the same list. -/
theorem rising_ext {l r : List (Nat × β)} (hl : rising l) (hr : rising r)
    (h : ∀ x, find x l = find x r) : l = r := by
  have sub : ∀ {p q : List (Nat × β)}, rising p → (∀ x, find x p = find x q) → p ⊆ q := by
    intro p q hp hpq e he
    obtain ⟨k, v⟩ := e
    exact mem_of_find ((hpq k) ▸ find_of_mem_rising hp he)
  have irr : ∀ x y : Nat × β, x.1 < y.1 → y.1 < x.1 → False := fun x y h1 h2 => by omega
  have nd : ∀ {p : List (Nat × β)}, rising p → p.Nodup := fun hp =>
    List.Pairwise.imp (fun {x y} hxy heq => by subst heq; omega) hp
  exact List.Perm.eq_of_pairwise (fun x y _ _ h1 h2 => (irr x y h1 h2).elim) hl hr
    ((List.perm_ext_iff_of_nodup (nd hl) (nd hr)).mpr fun e =>
      ⟨fun he => sub hl h he, fun he => sub hr (fun x => (h x).symm) he⟩)

/-- Equal memories are equal data: two canonical forms of one memory that list the same bytes and the same
open addresses are the same. -/
theorem memory_ext {m m' : Memory} (h : m.wf) (h' : m'.wf) (hs : m.store = m'.store)
    (hc : ∀ x, find x m.cells = find x m'.cells) (hf : ∀ x, find x m.free = find x m'.free) : m = m' := by
  have h1 := rising_ext h.1 h'.1 hc
  have h2 := rising_ext h.2.1 h'.2.1 hf
  cases m; cases m'; simp_all

end Sys2Proof.Machine
end

