-- ==== Sys2Proof/Laws/State.lean ====
section
/-! SUPPORT. One lemma per field per named update of State: what the field is after the update. -/

namespace Sys2Proof.Machine

variable (s : State)

@[simp] theorem State.complete_srcAddr : s.complete.srcAddr = s.srcAddr := rfl
@[simp] theorem State.complete_srcLen : s.complete.srcLen = s.srcLen := rfl
@[simp] theorem State.complete_dstAddr : s.complete.dstAddr = s.dstAddr := rfl
@[simp] theorem State.complete_dstCap : s.complete.dstCap = s.dstCap := rfl
@[simp] theorem State.complete_nameAddr : s.complete.nameAddr = s.nameAddr := rfl
@[simp] theorem State.complete_nameLen : s.complete.nameLen = s.nameLen := rfl
@[simp] theorem State.complete_entrySel : s.complete.entrySel = s.entrySel := rfl
@[simp] theorem State.complete_bitcountLo : s.complete.bitcountLo = s.bitcountLo := rfl
@[simp] theorem State.complete_bitcountHi : s.complete.bitcountHi = s.bitcountHi := rfl
@[simp] theorem State.complete_codeSel : s.complete.codeSel = s.codeSel := rfl
@[simp] theorem State.complete_pending : s.complete.pending = none := rfl
@[simp] theorem State.complete_done : s.complete.done = true := rfl
@[simp] theorem State.complete_err : s.complete.err = s.err := rfl
@[simp] theorem State.complete_warn : s.complete.warn = s.warn := rfl
@[simp] theorem State.complete_errSticky : s.complete.errSticky = s.errSticky := rfl
@[simp] theorem State.complete_overrun : s.complete.overrun = s.overrun := rfl
@[simp] theorem State.complete_mode : s.complete.mode = s.mode := rfl
@[simp] theorem State.complete_treeValid : s.complete.treeValid = s.treeValid := rfl
@[simp] theorem State.complete_codesValid : s.complete.codesValid = s.codesValid := rfl
@[simp] theorem State.complete_errcode : s.complete.errcode = s.errcode := rfl
@[simp] theorem State.complete_resultLen : s.complete.resultLen = s.resultLen := rfl
@[simp] theorem State.complete_consumed : s.complete.consumed = s.consumed := rfl
@[simp] theorem State.complete_entryOffset : s.complete.entryOffset = s.entryOffset := rfl
@[simp] theorem State.complete_entrySize : s.complete.entrySize = s.entrySize := rfl
@[simp] theorem State.complete_version : s.complete.version = s.version := rfl
@[simp] theorem State.complete_arcLen : s.complete.arcLen = s.arcLen := rfl
@[simp] theorem State.complete_arcOffset : s.complete.arcOffset = s.arcOffset := rfl
@[simp] theorem State.complete_indexOff : s.complete.indexOff = s.indexOff := rfl
@[simp] theorem State.complete_nodeCount : s.complete.nodeCount = s.nodeCount := rfl
@[simp] theorem State.complete_freq : s.complete.freq = s.freq := rfl
@[simp] theorem State.complete_tree : s.complete.tree = s.tree := rfl
@[simp] theorem State.complete_codes : s.complete.codes = s.codes := rfl
@[simp] theorem State.complete_idx : s.complete.idx = s.idx := rfl
@[simp] theorem State.complete_buf : s.complete.buf = s.buf := rfl
@[simp] theorem State.complete_arc : s.complete.arc = s.arc := rfl
@[simp] theorem State.complete_inReset : s.complete.inReset = s.inReset := rfl
@[simp] theorem State.complete_params : s.complete.params = s.params := rfl
@[simp] theorem State.complete_stepTag : s.complete.stepTag = s.stepTag + 1 := rfl
@[simp] theorem State.complete_sched : s.complete.sched = s.sched := rfl
@[simp] theorem State.complete_hostProg : s.complete.hostProg = s.hostProg := rfl
@[simp] theorem State.complete_hostPos : s.complete.hostPos = s.hostPos := rfl
@[simp] theorem State.complete_hostTemp : s.complete.hostTemp = s.hostTemp := rfl

@[simp] theorem State.succeed_srcAddr : s.succeed.srcAddr = s.srcAddr := rfl
@[simp] theorem State.succeed_srcLen : s.succeed.srcLen = s.srcLen := rfl
@[simp] theorem State.succeed_dstAddr : s.succeed.dstAddr = s.dstAddr := rfl
@[simp] theorem State.succeed_dstCap : s.succeed.dstCap = s.dstCap := rfl
@[simp] theorem State.succeed_nameAddr : s.succeed.nameAddr = s.nameAddr := rfl
@[simp] theorem State.succeed_nameLen : s.succeed.nameLen = s.nameLen := rfl
@[simp] theorem State.succeed_entrySel : s.succeed.entrySel = s.entrySel := rfl
@[simp] theorem State.succeed_bitcountLo : s.succeed.bitcountLo = s.bitcountLo := rfl
@[simp] theorem State.succeed_bitcountHi : s.succeed.bitcountHi = s.bitcountHi := rfl
@[simp] theorem State.succeed_codeSel : s.succeed.codeSel = s.codeSel := rfl
@[simp] theorem State.succeed_pending : s.succeed.pending = none := rfl
@[simp] theorem State.succeed_done : s.succeed.done = true := rfl
@[simp] theorem State.succeed_err : s.succeed.err = false := rfl
@[simp] theorem State.succeed_warn : s.succeed.warn = false := rfl
@[simp] theorem State.succeed_errSticky : s.succeed.errSticky = s.errSticky := rfl
@[simp] theorem State.succeed_overrun : s.succeed.overrun = s.overrun := rfl
@[simp] theorem State.succeed_mode : s.succeed.mode = s.mode := rfl
@[simp] theorem State.succeed_treeValid : s.succeed.treeValid = s.treeValid := rfl
@[simp] theorem State.succeed_codesValid : s.succeed.codesValid = s.codesValid := rfl
@[simp] theorem State.succeed_errcode : s.succeed.errcode = .ok := rfl
@[simp] theorem State.succeed_resultLen : s.succeed.resultLen = s.resultLen := rfl
@[simp] theorem State.succeed_consumed : s.succeed.consumed = s.consumed := rfl
@[simp] theorem State.succeed_entryOffset : s.succeed.entryOffset = s.entryOffset := rfl
@[simp] theorem State.succeed_entrySize : s.succeed.entrySize = s.entrySize := rfl
@[simp] theorem State.succeed_version : s.succeed.version = s.version := rfl
@[simp] theorem State.succeed_arcLen : s.succeed.arcLen = s.arcLen := rfl
@[simp] theorem State.succeed_arcOffset : s.succeed.arcOffset = s.arcOffset := rfl
@[simp] theorem State.succeed_indexOff : s.succeed.indexOff = s.indexOff := rfl
@[simp] theorem State.succeed_nodeCount : s.succeed.nodeCount = s.nodeCount := rfl
@[simp] theorem State.succeed_freq : s.succeed.freq = s.freq := rfl
@[simp] theorem State.succeed_tree : s.succeed.tree = s.tree := rfl
@[simp] theorem State.succeed_codes : s.succeed.codes = s.codes := rfl
@[simp] theorem State.succeed_idx : s.succeed.idx = s.idx := rfl
@[simp] theorem State.succeed_buf : s.succeed.buf = s.buf := rfl
@[simp] theorem State.succeed_arc : s.succeed.arc = s.arc := rfl
@[simp] theorem State.succeed_inReset : s.succeed.inReset = s.inReset := rfl
@[simp] theorem State.succeed_params : s.succeed.params = s.params := rfl
@[simp] theorem State.succeed_stepTag : s.succeed.stepTag = s.stepTag + 1 := rfl
@[simp] theorem State.succeed_sched : s.succeed.sched = s.sched := rfl
@[simp] theorem State.succeed_hostProg : s.succeed.hostProg = s.hostProg := rfl
@[simp] theorem State.succeed_hostPos : s.succeed.hostPos = s.hostPos := rfl
@[simp] theorem State.succeed_hostTemp : s.succeed.hostTemp = s.hostTemp := rfl

@[simp] theorem State.succeedWarn_srcAddr (c : ErrCode) : (s.succeedWarn c).srcAddr = s.srcAddr := rfl
@[simp] theorem State.succeedWarn_srcLen (c : ErrCode) : (s.succeedWarn c).srcLen = s.srcLen := rfl
@[simp] theorem State.succeedWarn_dstAddr (c : ErrCode) : (s.succeedWarn c).dstAddr = s.dstAddr := rfl
@[simp] theorem State.succeedWarn_dstCap (c : ErrCode) : (s.succeedWarn c).dstCap = s.dstCap := rfl
@[simp] theorem State.succeedWarn_nameAddr (c : ErrCode) : (s.succeedWarn c).nameAddr = s.nameAddr := rfl
@[simp] theorem State.succeedWarn_nameLen (c : ErrCode) : (s.succeedWarn c).nameLen = s.nameLen := rfl
@[simp] theorem State.succeedWarn_entrySel (c : ErrCode) : (s.succeedWarn c).entrySel = s.entrySel := rfl
@[simp] theorem State.succeedWarn_bitcountLo (c : ErrCode) : (s.succeedWarn c).bitcountLo = s.bitcountLo := rfl
@[simp] theorem State.succeedWarn_bitcountHi (c : ErrCode) : (s.succeedWarn c).bitcountHi = s.bitcountHi := rfl
@[simp] theorem State.succeedWarn_codeSel (c : ErrCode) : (s.succeedWarn c).codeSel = s.codeSel := rfl
@[simp] theorem State.succeedWarn_pending (c : ErrCode) : (s.succeedWarn c).pending = none := rfl
@[simp] theorem State.succeedWarn_done (c : ErrCode) : (s.succeedWarn c).done = true := rfl
@[simp] theorem State.succeedWarn_err (c : ErrCode) : (s.succeedWarn c).err = false := rfl
@[simp] theorem State.succeedWarn_warn (c : ErrCode) : (s.succeedWarn c).warn = true := rfl
@[simp] theorem State.succeedWarn_errSticky (c : ErrCode) : (s.succeedWarn c).errSticky = s.errSticky := rfl
@[simp] theorem State.succeedWarn_overrun (c : ErrCode) : (s.succeedWarn c).overrun = s.overrun := rfl
@[simp] theorem State.succeedWarn_mode (c : ErrCode) : (s.succeedWarn c).mode = s.mode := rfl
@[simp] theorem State.succeedWarn_treeValid (c : ErrCode) : (s.succeedWarn c).treeValid = s.treeValid := rfl
@[simp] theorem State.succeedWarn_codesValid (c : ErrCode) : (s.succeedWarn c).codesValid = s.codesValid := rfl
@[simp] theorem State.succeedWarn_errcode (c : ErrCode) : (s.succeedWarn c).errcode = c := rfl
@[simp] theorem State.succeedWarn_resultLen (c : ErrCode) : (s.succeedWarn c).resultLen = s.resultLen := rfl
@[simp] theorem State.succeedWarn_consumed (c : ErrCode) : (s.succeedWarn c).consumed = s.consumed := rfl
@[simp] theorem State.succeedWarn_entryOffset (c : ErrCode) : (s.succeedWarn c).entryOffset = s.entryOffset := rfl
@[simp] theorem State.succeedWarn_entrySize (c : ErrCode) : (s.succeedWarn c).entrySize = s.entrySize := rfl
@[simp] theorem State.succeedWarn_version (c : ErrCode) : (s.succeedWarn c).version = s.version := rfl
@[simp] theorem State.succeedWarn_arcLen (c : ErrCode) : (s.succeedWarn c).arcLen = s.arcLen := rfl
@[simp] theorem State.succeedWarn_arcOffset (c : ErrCode) : (s.succeedWarn c).arcOffset = s.arcOffset := rfl
@[simp] theorem State.succeedWarn_indexOff (c : ErrCode) : (s.succeedWarn c).indexOff = s.indexOff := rfl
@[simp] theorem State.succeedWarn_nodeCount (c : ErrCode) : (s.succeedWarn c).nodeCount = s.nodeCount := rfl
@[simp] theorem State.succeedWarn_freq (c : ErrCode) : (s.succeedWarn c).freq = s.freq := rfl
@[simp] theorem State.succeedWarn_tree (c : ErrCode) : (s.succeedWarn c).tree = s.tree := rfl
@[simp] theorem State.succeedWarn_codes (c : ErrCode) : (s.succeedWarn c).codes = s.codes := rfl
@[simp] theorem State.succeedWarn_idx (c : ErrCode) : (s.succeedWarn c).idx = s.idx := rfl
@[simp] theorem State.succeedWarn_buf (c : ErrCode) : (s.succeedWarn c).buf = s.buf := rfl
@[simp] theorem State.succeedWarn_arc (c : ErrCode) : (s.succeedWarn c).arc = s.arc := rfl
@[simp] theorem State.succeedWarn_inReset (c : ErrCode) : (s.succeedWarn c).inReset = s.inReset := rfl
@[simp] theorem State.succeedWarn_params (c : ErrCode) : (s.succeedWarn c).params = s.params := rfl
@[simp] theorem State.succeedWarn_stepTag (c : ErrCode) : (s.succeedWarn c).stepTag = s.stepTag + 1 := rfl
@[simp] theorem State.succeedWarn_sched (c : ErrCode) : (s.succeedWarn c).sched = s.sched := rfl
@[simp] theorem State.succeedWarn_hostProg (c : ErrCode) : (s.succeedWarn c).hostProg = s.hostProg := rfl
@[simp] theorem State.succeedWarn_hostPos (c : ErrCode) : (s.succeedWarn c).hostPos = s.hostPos := rfl
@[simp] theorem State.succeedWarn_hostTemp (c : ErrCode) : (s.succeedWarn c).hostTemp = s.hostTemp := rfl

@[simp] theorem State.reportError_srcAddr (c : ErrCode) : (s.reportError c).srcAddr = s.srcAddr := rfl
@[simp] theorem State.reportError_srcLen (c : ErrCode) : (s.reportError c).srcLen = s.srcLen := rfl
@[simp] theorem State.reportError_dstAddr (c : ErrCode) : (s.reportError c).dstAddr = s.dstAddr := rfl
@[simp] theorem State.reportError_dstCap (c : ErrCode) : (s.reportError c).dstCap = s.dstCap := rfl
@[simp] theorem State.reportError_nameAddr (c : ErrCode) : (s.reportError c).nameAddr = s.nameAddr := rfl
@[simp] theorem State.reportError_nameLen (c : ErrCode) : (s.reportError c).nameLen = s.nameLen := rfl
@[simp] theorem State.reportError_entrySel (c : ErrCode) : (s.reportError c).entrySel = s.entrySel := rfl
@[simp] theorem State.reportError_bitcountLo (c : ErrCode) : (s.reportError c).bitcountLo = s.bitcountLo := rfl
@[simp] theorem State.reportError_bitcountHi (c : ErrCode) : (s.reportError c).bitcountHi = s.bitcountHi := rfl
@[simp] theorem State.reportError_codeSel (c : ErrCode) : (s.reportError c).codeSel = s.codeSel := rfl
@[simp] theorem State.reportError_pending (c : ErrCode) : (s.reportError c).pending = none := rfl
@[simp] theorem State.reportError_done (c : ErrCode) : (s.reportError c).done = true := rfl
@[simp] theorem State.reportError_err (c : ErrCode) : (s.reportError c).err = true := rfl
@[simp] theorem State.reportError_warn (c : ErrCode) : (s.reportError c).warn = false := rfl
@[simp] theorem State.reportError_errSticky (c : ErrCode) : (s.reportError c).errSticky = true := rfl
@[simp] theorem State.reportError_overrun (c : ErrCode) : (s.reportError c).overrun = s.overrun := rfl
@[simp] theorem State.reportError_mode (c : ErrCode) : (s.reportError c).mode = s.mode := rfl
@[simp] theorem State.reportError_treeValid (c : ErrCode) : (s.reportError c).treeValid = s.treeValid := rfl
@[simp] theorem State.reportError_codesValid (c : ErrCode) : (s.reportError c).codesValid = s.codesValid := rfl
@[simp] theorem State.reportError_errcode (c : ErrCode) : (s.reportError c).errcode = c := rfl
@[simp] theorem State.reportError_resultLen (c : ErrCode) : (s.reportError c).resultLen = 0#32 := rfl
@[simp] theorem State.reportError_consumed (c : ErrCode) : (s.reportError c).consumed = 0#32 := rfl
@[simp] theorem State.reportError_entryOffset (c : ErrCode) : (s.reportError c).entryOffset = s.entryOffset := rfl
@[simp] theorem State.reportError_entrySize (c : ErrCode) : (s.reportError c).entrySize = s.entrySize := rfl
@[simp] theorem State.reportError_version (c : ErrCode) : (s.reportError c).version = s.version := rfl
@[simp] theorem State.reportError_arcLen (c : ErrCode) : (s.reportError c).arcLen = s.arcLen := rfl
@[simp] theorem State.reportError_arcOffset (c : ErrCode) : (s.reportError c).arcOffset = s.arcOffset := rfl
@[simp] theorem State.reportError_indexOff (c : ErrCode) : (s.reportError c).indexOff = s.indexOff := rfl
@[simp] theorem State.reportError_nodeCount (c : ErrCode) : (s.reportError c).nodeCount = s.nodeCount := rfl
@[simp] theorem State.reportError_freq (c : ErrCode) : (s.reportError c).freq = s.freq := rfl
@[simp] theorem State.reportError_tree (c : ErrCode) : (s.reportError c).tree = s.tree := rfl
@[simp] theorem State.reportError_codes (c : ErrCode) : (s.reportError c).codes = s.codes := rfl
@[simp] theorem State.reportError_idx (c : ErrCode) : (s.reportError c).idx = s.idx := rfl
@[simp] theorem State.reportError_buf (c : ErrCode) : (s.reportError c).buf = s.buf := rfl
@[simp] theorem State.reportError_arc (c : ErrCode) : (s.reportError c).arc = s.arc := rfl
@[simp] theorem State.reportError_inReset (c : ErrCode) : (s.reportError c).inReset = s.inReset := rfl
@[simp] theorem State.reportError_params (c : ErrCode) : (s.reportError c).params = s.params := rfl
@[simp] theorem State.reportError_stepTag (c : ErrCode) : (s.reportError c).stepTag = s.stepTag + 1 := rfl
@[simp] theorem State.reportError_sched (c : ErrCode) : (s.reportError c).sched = s.sched := rfl
@[simp] theorem State.reportError_hostProg (c : ErrCode) : (s.reportError c).hostProg = s.hostProg := rfl
@[simp] theorem State.reportError_hostPos (c : ErrCode) : (s.reportError c).hostPos = s.hostPos := rfl
@[simp] theorem State.reportError_hostTemp (c : ErrCode) : (s.reportError c).hostTemp = s.hostTemp := rfl

@[simp] theorem State.accept_srcAddr (w : Word) : (s.accept w).srcAddr = s.srcAddr := rfl
@[simp] theorem State.accept_srcLen (w : Word) : (s.accept w).srcLen = s.srcLen := rfl
@[simp] theorem State.accept_dstAddr (w : Word) : (s.accept w).dstAddr = s.dstAddr := rfl
@[simp] theorem State.accept_dstCap (w : Word) : (s.accept w).dstCap = s.dstCap := rfl
@[simp] theorem State.accept_nameAddr (w : Word) : (s.accept w).nameAddr = s.nameAddr := rfl
@[simp] theorem State.accept_nameLen (w : Word) : (s.accept w).nameLen = s.nameLen := rfl
@[simp] theorem State.accept_entrySel (w : Word) : (s.accept w).entrySel = s.entrySel := rfl
@[simp] theorem State.accept_bitcountLo (w : Word) : (s.accept w).bitcountLo = s.bitcountLo := rfl
@[simp] theorem State.accept_bitcountHi (w : Word) : (s.accept w).bitcountHi = s.bitcountHi := rfl
@[simp] theorem State.accept_codeSel (w : Word) : (s.accept w).codeSel = s.codeSel := rfl
@[simp] theorem State.accept_pending (w : Word) : (s.accept w).pending = some w := rfl
@[simp] theorem State.accept_done (w : Word) : (s.accept w).done = false := rfl
@[simp] theorem State.accept_err (w : Word) : (s.accept w).err = false := rfl
@[simp] theorem State.accept_warn (w : Word) : (s.accept w).warn = false := rfl
@[simp] theorem State.accept_errSticky (w : Word) : (s.accept w).errSticky = s.errSticky := rfl
@[simp] theorem State.accept_overrun (w : Word) : (s.accept w).overrun = s.overrun := rfl
@[simp] theorem State.accept_mode (w : Word) : (s.accept w).mode = s.mode := rfl
@[simp] theorem State.accept_treeValid (w : Word) : (s.accept w).treeValid = s.treeValid := rfl
@[simp] theorem State.accept_codesValid (w : Word) : (s.accept w).codesValid = s.codesValid := rfl
@[simp] theorem State.accept_errcode (w : Word) : (s.accept w).errcode = .ok := rfl
@[simp] theorem State.accept_resultLen (w : Word) : (s.accept w).resultLen = s.resultLen := rfl
@[simp] theorem State.accept_consumed (w : Word) : (s.accept w).consumed = s.consumed := rfl
@[simp] theorem State.accept_entryOffset (w : Word) : (s.accept w).entryOffset = s.entryOffset := rfl
@[simp] theorem State.accept_entrySize (w : Word) : (s.accept w).entrySize = s.entrySize := rfl
@[simp] theorem State.accept_version (w : Word) : (s.accept w).version = s.version := rfl
@[simp] theorem State.accept_arcLen (w : Word) : (s.accept w).arcLen = s.arcLen := rfl
@[simp] theorem State.accept_arcOffset (w : Word) : (s.accept w).arcOffset = s.arcOffset := rfl
@[simp] theorem State.accept_indexOff (w : Word) : (s.accept w).indexOff = s.indexOff := rfl
@[simp] theorem State.accept_nodeCount (w : Word) : (s.accept w).nodeCount = s.nodeCount := rfl
@[simp] theorem State.accept_freq (w : Word) : (s.accept w).freq = s.freq := rfl
@[simp] theorem State.accept_tree (w : Word) : (s.accept w).tree = s.tree := rfl
@[simp] theorem State.accept_codes (w : Word) : (s.accept w).codes = s.codes := rfl
@[simp] theorem State.accept_idx (w : Word) : (s.accept w).idx = s.idx := rfl
@[simp] theorem State.accept_buf (w : Word) : (s.accept w).buf = s.buf := rfl
@[simp] theorem State.accept_arc (w : Word) : (s.accept w).arc = s.arc := rfl
@[simp] theorem State.accept_inReset (w : Word) : (s.accept w).inReset = s.inReset := rfl
@[simp] theorem State.accept_params (w : Word) : (s.accept w).params = s.params := rfl
@[simp] theorem State.accept_stepTag (w : Word) : (s.accept w).stepTag = s.stepTag := rfl
@[simp] theorem State.accept_sched (w : Word) : (s.accept w).sched = s.sched := rfl
@[simp] theorem State.accept_hostProg (w : Word) : (s.accept w).hostProg = s.hostProg := rfl
@[simp] theorem State.accept_hostPos (w : Word) : (s.accept w).hostPos = s.hostPos := rfl
@[simp] theorem State.accept_hostTemp (w : Word) : (s.accept w).hostTemp = s.hostTemp := rfl

@[simp] theorem State.clearSticky_srcAddr (v : Word) : (s.clearSticky v).srcAddr = s.srcAddr := rfl
@[simp] theorem State.clearSticky_srcLen (v : Word) : (s.clearSticky v).srcLen = s.srcLen := rfl
@[simp] theorem State.clearSticky_dstAddr (v : Word) : (s.clearSticky v).dstAddr = s.dstAddr := rfl
@[simp] theorem State.clearSticky_dstCap (v : Word) : (s.clearSticky v).dstCap = s.dstCap := rfl
@[simp] theorem State.clearSticky_nameAddr (v : Word) : (s.clearSticky v).nameAddr = s.nameAddr := rfl
@[simp] theorem State.clearSticky_nameLen (v : Word) : (s.clearSticky v).nameLen = s.nameLen := rfl
@[simp] theorem State.clearSticky_entrySel (v : Word) : (s.clearSticky v).entrySel = s.entrySel := rfl
@[simp] theorem State.clearSticky_bitcountLo (v : Word) : (s.clearSticky v).bitcountLo = s.bitcountLo := rfl
@[simp] theorem State.clearSticky_bitcountHi (v : Word) : (s.clearSticky v).bitcountHi = s.bitcountHi := rfl
@[simp] theorem State.clearSticky_codeSel (v : Word) : (s.clearSticky v).codeSel = s.codeSel := rfl
@[simp] theorem State.clearSticky_pending (v : Word) : (s.clearSticky v).pending = s.pending := rfl
@[simp] theorem State.clearSticky_done (v : Word) : (s.clearSticky v).done = s.done := rfl
@[simp] theorem State.clearSticky_err (v : Word) : (s.clearSticky v).err = s.err := rfl
@[simp] theorem State.clearSticky_warn (v : Word) : (s.clearSticky v).warn = s.warn := rfl
@[simp] theorem State.clearSticky_errSticky (v : Word) : (s.clearSticky v).errSticky = (s.errSticky && !v.getLsbD 4) := rfl
@[simp] theorem State.clearSticky_overrun (v : Word) : (s.clearSticky v).overrun = (s.overrun && !v.getLsbD 5) := rfl
@[simp] theorem State.clearSticky_mode (v : Word) : (s.clearSticky v).mode = s.mode := rfl
@[simp] theorem State.clearSticky_treeValid (v : Word) : (s.clearSticky v).treeValid = s.treeValid := rfl
@[simp] theorem State.clearSticky_codesValid (v : Word) : (s.clearSticky v).codesValid = s.codesValid := rfl
@[simp] theorem State.clearSticky_errcode (v : Word) : (s.clearSticky v).errcode = s.errcode := rfl
@[simp] theorem State.clearSticky_resultLen (v : Word) : (s.clearSticky v).resultLen = s.resultLen := rfl
@[simp] theorem State.clearSticky_consumed (v : Word) : (s.clearSticky v).consumed = s.consumed := rfl
@[simp] theorem State.clearSticky_entryOffset (v : Word) : (s.clearSticky v).entryOffset = s.entryOffset := rfl
@[simp] theorem State.clearSticky_entrySize (v : Word) : (s.clearSticky v).entrySize = s.entrySize := rfl
@[simp] theorem State.clearSticky_version (v : Word) : (s.clearSticky v).version = s.version := rfl
@[simp] theorem State.clearSticky_arcLen (v : Word) : (s.clearSticky v).arcLen = s.arcLen := rfl
@[simp] theorem State.clearSticky_arcOffset (v : Word) : (s.clearSticky v).arcOffset = s.arcOffset := rfl
@[simp] theorem State.clearSticky_indexOff (v : Word) : (s.clearSticky v).indexOff = s.indexOff := rfl
@[simp] theorem State.clearSticky_nodeCount (v : Word) : (s.clearSticky v).nodeCount = s.nodeCount := rfl
@[simp] theorem State.clearSticky_freq (v : Word) : (s.clearSticky v).freq = s.freq := rfl
@[simp] theorem State.clearSticky_tree (v : Word) : (s.clearSticky v).tree = s.tree := rfl
@[simp] theorem State.clearSticky_codes (v : Word) : (s.clearSticky v).codes = s.codes := rfl
@[simp] theorem State.clearSticky_idx (v : Word) : (s.clearSticky v).idx = s.idx := rfl
@[simp] theorem State.clearSticky_buf (v : Word) : (s.clearSticky v).buf = s.buf := rfl
@[simp] theorem State.clearSticky_arc (v : Word) : (s.clearSticky v).arc = s.arc := rfl
@[simp] theorem State.clearSticky_inReset (v : Word) : (s.clearSticky v).inReset = s.inReset := rfl
@[simp] theorem State.clearSticky_params (v : Word) : (s.clearSticky v).params = s.params := rfl
@[simp] theorem State.clearSticky_stepTag (v : Word) : (s.clearSticky v).stepTag = s.stepTag := rfl
@[simp] theorem State.clearSticky_sched (v : Word) : (s.clearSticky v).sched = s.sched := rfl
@[simp] theorem State.clearSticky_hostProg (v : Word) : (s.clearSticky v).hostProg = s.hostProg := rfl
@[simp] theorem State.clearSticky_hostPos (v : Word) : (s.clearSticky v).hostPos = s.hostPos := rfl
@[simp] theorem State.clearSticky_hostTemp (v : Word) : (s.clearSticky v).hostTemp = s.hostTemp := rfl

@[simp] theorem State.invalidate_srcAddr : s.invalidate.srcAddr = s.srcAddr := rfl
@[simp] theorem State.invalidate_srcLen : s.invalidate.srcLen = s.srcLen := rfl
@[simp] theorem State.invalidate_dstAddr : s.invalidate.dstAddr = s.dstAddr := rfl
@[simp] theorem State.invalidate_dstCap : s.invalidate.dstCap = s.dstCap := rfl
@[simp] theorem State.invalidate_nameAddr : s.invalidate.nameAddr = s.nameAddr := rfl
@[simp] theorem State.invalidate_nameLen : s.invalidate.nameLen = s.nameLen := rfl
@[simp] theorem State.invalidate_entrySel : s.invalidate.entrySel = s.entrySel := rfl
@[simp] theorem State.invalidate_bitcountLo : s.invalidate.bitcountLo = s.bitcountLo := rfl
@[simp] theorem State.invalidate_bitcountHi : s.invalidate.bitcountHi = s.bitcountHi := rfl
@[simp] theorem State.invalidate_codeSel : s.invalidate.codeSel = s.codeSel := rfl
@[simp] theorem State.invalidate_pending : s.invalidate.pending = s.pending := rfl
@[simp] theorem State.invalidate_done : s.invalidate.done = s.done := rfl
@[simp] theorem State.invalidate_err : s.invalidate.err = s.err := rfl
@[simp] theorem State.invalidate_warn : s.invalidate.warn = s.warn := rfl
@[simp] theorem State.invalidate_errSticky : s.invalidate.errSticky = s.errSticky := rfl
@[simp] theorem State.invalidate_overrun : s.invalidate.overrun = s.overrun := rfl
@[simp] theorem State.invalidate_mode : s.invalidate.mode = s.mode := rfl
@[simp] theorem State.invalidate_treeValid : s.invalidate.treeValid = false := rfl
@[simp] theorem State.invalidate_codesValid : s.invalidate.codesValid = false := rfl
@[simp] theorem State.invalidate_errcode : s.invalidate.errcode = s.errcode := rfl
@[simp] theorem State.invalidate_resultLen : s.invalidate.resultLen = s.resultLen := rfl
@[simp] theorem State.invalidate_consumed : s.invalidate.consumed = s.consumed := rfl
@[simp] theorem State.invalidate_entryOffset : s.invalidate.entryOffset = s.entryOffset := rfl
@[simp] theorem State.invalidate_entrySize : s.invalidate.entrySize = s.entrySize := rfl
@[simp] theorem State.invalidate_version : s.invalidate.version = s.version := rfl
@[simp] theorem State.invalidate_arcLen : s.invalidate.arcLen = s.arcLen := rfl
@[simp] theorem State.invalidate_arcOffset : s.invalidate.arcOffset = s.arcOffset := rfl
@[simp] theorem State.invalidate_indexOff : s.invalidate.indexOff = s.indexOff := rfl
@[simp] theorem State.invalidate_nodeCount : s.invalidate.nodeCount = 0#32 := rfl
@[simp] theorem State.invalidate_freq : s.invalidate.freq = s.freq := rfl
@[simp] theorem State.invalidate_tree : s.invalidate.tree = s.tree := rfl
@[simp] theorem State.invalidate_codes : s.invalidate.codes = s.codes := rfl
@[simp] theorem State.invalidate_idx : s.invalidate.idx = s.idx := rfl
@[simp] theorem State.invalidate_buf : s.invalidate.buf = s.buf := rfl
@[simp] theorem State.invalidate_arc : s.invalidate.arc = s.arc := rfl
@[simp] theorem State.invalidate_inReset : s.invalidate.inReset = s.inReset := rfl
@[simp] theorem State.invalidate_params : s.invalidate.params = s.params := rfl
@[simp] theorem State.invalidate_stepTag : s.invalidate.stepTag = s.stepTag := rfl
@[simp] theorem State.invalidate_sched : s.invalidate.sched = s.sched := rfl
@[simp] theorem State.invalidate_hostProg : s.invalidate.hostProg = s.hostProg := rfl
@[simp] theorem State.invalidate_hostPos : s.invalidate.hostPos = s.hostPos := rfl
@[simp] theorem State.invalidate_hostTemp : s.invalidate.hostTemp = s.hostTemp := rfl

@[simp] theorem State.loadFreq_srcAddr (f : FreqTable) : (s.loadFreq f).srcAddr = s.srcAddr := rfl
@[simp] theorem State.loadFreq_srcLen (f : FreqTable) : (s.loadFreq f).srcLen = s.srcLen := rfl
@[simp] theorem State.loadFreq_dstAddr (f : FreqTable) : (s.loadFreq f).dstAddr = s.dstAddr := rfl
@[simp] theorem State.loadFreq_dstCap (f : FreqTable) : (s.loadFreq f).dstCap = s.dstCap := rfl
@[simp] theorem State.loadFreq_nameAddr (f : FreqTable) : (s.loadFreq f).nameAddr = s.nameAddr := rfl
@[simp] theorem State.loadFreq_nameLen (f : FreqTable) : (s.loadFreq f).nameLen = s.nameLen := rfl
@[simp] theorem State.loadFreq_entrySel (f : FreqTable) : (s.loadFreq f).entrySel = s.entrySel := rfl
@[simp] theorem State.loadFreq_bitcountLo (f : FreqTable) : (s.loadFreq f).bitcountLo = s.bitcountLo := rfl
@[simp] theorem State.loadFreq_bitcountHi (f : FreqTable) : (s.loadFreq f).bitcountHi = s.bitcountHi := rfl
@[simp] theorem State.loadFreq_codeSel (f : FreqTable) : (s.loadFreq f).codeSel = s.codeSel := rfl
@[simp] theorem State.loadFreq_pending (f : FreqTable) : (s.loadFreq f).pending = s.pending := rfl
@[simp] theorem State.loadFreq_done (f : FreqTable) : (s.loadFreq f).done = s.done := rfl
@[simp] theorem State.loadFreq_err (f : FreqTable) : (s.loadFreq f).err = s.err := rfl
@[simp] theorem State.loadFreq_warn (f : FreqTable) : (s.loadFreq f).warn = s.warn := rfl
@[simp] theorem State.loadFreq_errSticky (f : FreqTable) : (s.loadFreq f).errSticky = s.errSticky := rfl
@[simp] theorem State.loadFreq_overrun (f : FreqTable) : (s.loadFreq f).overrun = s.overrun := rfl
@[simp] theorem State.loadFreq_mode (f : FreqTable) : (s.loadFreq f).mode = s.mode := rfl
@[simp] theorem State.loadFreq_treeValid (f : FreqTable) : (s.loadFreq f).treeValid = false := rfl
@[simp] theorem State.loadFreq_codesValid (f : FreqTable) : (s.loadFreq f).codesValid = false := rfl
@[simp] theorem State.loadFreq_errcode (f : FreqTable) : (s.loadFreq f).errcode = s.errcode := rfl
@[simp] theorem State.loadFreq_resultLen (f : FreqTable) : (s.loadFreq f).resultLen = s.resultLen := rfl
@[simp] theorem State.loadFreq_consumed (f : FreqTable) : (s.loadFreq f).consumed = s.consumed := rfl
@[simp] theorem State.loadFreq_entryOffset (f : FreqTable) : (s.loadFreq f).entryOffset = s.entryOffset := rfl
@[simp] theorem State.loadFreq_entrySize (f : FreqTable) : (s.loadFreq f).entrySize = s.entrySize := rfl
@[simp] theorem State.loadFreq_version (f : FreqTable) : (s.loadFreq f).version = s.version := rfl
@[simp] theorem State.loadFreq_arcLen (f : FreqTable) : (s.loadFreq f).arcLen = s.arcLen := rfl
@[simp] theorem State.loadFreq_arcOffset (f : FreqTable) : (s.loadFreq f).arcOffset = s.arcOffset := rfl
@[simp] theorem State.loadFreq_indexOff (f : FreqTable) : (s.loadFreq f).indexOff = s.indexOff := rfl
@[simp] theorem State.loadFreq_nodeCount (f : FreqTable) : (s.loadFreq f).nodeCount = 0#32 := rfl
@[simp] theorem State.loadFreq_freq (f : FreqTable) : (s.loadFreq f).freq = f := rfl
@[simp] theorem State.loadFreq_tree (f : FreqTable) : (s.loadFreq f).tree = none := rfl
@[simp] theorem State.loadFreq_codes (f : FreqTable) : (s.loadFreq f).codes = emptyCodes := rfl
@[simp] theorem State.loadFreq_idx (f : FreqTable) : (s.loadFreq f).idx = s.idx := rfl
@[simp] theorem State.loadFreq_buf (f : FreqTable) : (s.loadFreq f).buf = s.buf := rfl
@[simp] theorem State.loadFreq_arc (f : FreqTable) : (s.loadFreq f).arc = s.arc := rfl
@[simp] theorem State.loadFreq_inReset (f : FreqTable) : (s.loadFreq f).inReset = s.inReset := rfl
@[simp] theorem State.loadFreq_params (f : FreqTable) : (s.loadFreq f).params = s.params := rfl
@[simp] theorem State.loadFreq_stepTag (f : FreqTable) : (s.loadFreq f).stepTag = s.stepTag := rfl
@[simp] theorem State.loadFreq_sched (f : FreqTable) : (s.loadFreq f).sched = s.sched := rfl
@[simp] theorem State.loadFreq_hostProg (f : FreqTable) : (s.loadFreq f).hostProg = s.hostProg := rfl
@[simp] theorem State.loadFreq_hostPos (f : FreqTable) : (s.loadFreq f).hostPos = s.hostPos := rfl
@[simp] theorem State.loadFreq_hostTemp (f : FreqTable) : (s.loadFreq f).hostTemp = s.hostTemp := rfl

@[simp] theorem State.memWrite_srcAddr (a : Nat) (bs : ByteString) : (s.memWrite a bs).srcAddr = s.srcAddr := rfl
@[simp] theorem State.memWrite_srcLen (a : Nat) (bs : ByteString) : (s.memWrite a bs).srcLen = s.srcLen := rfl
@[simp] theorem State.memWrite_dstAddr (a : Nat) (bs : ByteString) : (s.memWrite a bs).dstAddr = s.dstAddr := rfl
@[simp] theorem State.memWrite_dstCap (a : Nat) (bs : ByteString) : (s.memWrite a bs).dstCap = s.dstCap := rfl
@[simp] theorem State.memWrite_nameAddr (a : Nat) (bs : ByteString) : (s.memWrite a bs).nameAddr = s.nameAddr := rfl
@[simp] theorem State.memWrite_nameLen (a : Nat) (bs : ByteString) : (s.memWrite a bs).nameLen = s.nameLen := rfl
@[simp] theorem State.memWrite_entrySel (a : Nat) (bs : ByteString) : (s.memWrite a bs).entrySel = s.entrySel := rfl
@[simp] theorem State.memWrite_bitcountLo (a : Nat) (bs : ByteString) : (s.memWrite a bs).bitcountLo = s.bitcountLo := rfl
@[simp] theorem State.memWrite_bitcountHi (a : Nat) (bs : ByteString) : (s.memWrite a bs).bitcountHi = s.bitcountHi := rfl
@[simp] theorem State.memWrite_codeSel (a : Nat) (bs : ByteString) : (s.memWrite a bs).codeSel = s.codeSel := rfl
@[simp] theorem State.memWrite_pending (a : Nat) (bs : ByteString) : (s.memWrite a bs).pending = s.pending := rfl
@[simp] theorem State.memWrite_done (a : Nat) (bs : ByteString) : (s.memWrite a bs).done = s.done := rfl
@[simp] theorem State.memWrite_err (a : Nat) (bs : ByteString) : (s.memWrite a bs).err = s.err := rfl
@[simp] theorem State.memWrite_warn (a : Nat) (bs : ByteString) : (s.memWrite a bs).warn = s.warn := rfl
@[simp] theorem State.memWrite_errSticky (a : Nat) (bs : ByteString) : (s.memWrite a bs).errSticky = s.errSticky := rfl
@[simp] theorem State.memWrite_overrun (a : Nat) (bs : ByteString) : (s.memWrite a bs).overrun = s.overrun := rfl
@[simp] theorem State.memWrite_mode (a : Nat) (bs : ByteString) : (s.memWrite a bs).mode = s.mode := rfl
@[simp] theorem State.memWrite_treeValid (a : Nat) (bs : ByteString) : (s.memWrite a bs).treeValid = s.treeValid := rfl
@[simp] theorem State.memWrite_codesValid (a : Nat) (bs : ByteString) : (s.memWrite a bs).codesValid = s.codesValid := rfl
@[simp] theorem State.memWrite_errcode (a : Nat) (bs : ByteString) : (s.memWrite a bs).errcode = s.errcode := rfl
@[simp] theorem State.memWrite_resultLen (a : Nat) (bs : ByteString) : (s.memWrite a bs).resultLen = s.resultLen := rfl
@[simp] theorem State.memWrite_consumed (a : Nat) (bs : ByteString) : (s.memWrite a bs).consumed = s.consumed := rfl
@[simp] theorem State.memWrite_entryOffset (a : Nat) (bs : ByteString) : (s.memWrite a bs).entryOffset = s.entryOffset := rfl
@[simp] theorem State.memWrite_entrySize (a : Nat) (bs : ByteString) : (s.memWrite a bs).entrySize = s.entrySize := rfl
@[simp] theorem State.memWrite_version (a : Nat) (bs : ByteString) : (s.memWrite a bs).version = s.version := rfl
@[simp] theorem State.memWrite_arcLen (a : Nat) (bs : ByteString) : (s.memWrite a bs).arcLen = s.arcLen := rfl
@[simp] theorem State.memWrite_arcOffset (a : Nat) (bs : ByteString) : (s.memWrite a bs).arcOffset = s.arcOffset := rfl
@[simp] theorem State.memWrite_indexOff (a : Nat) (bs : ByteString) : (s.memWrite a bs).indexOff = s.indexOff := rfl
@[simp] theorem State.memWrite_nodeCount (a : Nat) (bs : ByteString) : (s.memWrite a bs).nodeCount = s.nodeCount := rfl
@[simp] theorem State.memWrite_freq (a : Nat) (bs : ByteString) : (s.memWrite a bs).freq = s.freq := rfl
@[simp] theorem State.memWrite_tree (a : Nat) (bs : ByteString) : (s.memWrite a bs).tree = s.tree := rfl
@[simp] theorem State.memWrite_codes (a : Nat) (bs : ByteString) : (s.memWrite a bs).codes = s.codes := rfl
@[simp] theorem State.memWrite_idx (a : Nat) (bs : ByteString) : (s.memWrite a bs).idx = s.idx := rfl
@[simp] theorem State.memWrite_buf (a : Nat) (bs : ByteString) : (s.memWrite a bs).buf = s.buf.writeBytes a bs := rfl
@[simp] theorem State.memWrite_arc (a : Nat) (bs : ByteString) : (s.memWrite a bs).arc = s.arc := rfl
@[simp] theorem State.memWrite_inReset (a : Nat) (bs : ByteString) : (s.memWrite a bs).inReset = s.inReset := rfl
@[simp] theorem State.memWrite_params (a : Nat) (bs : ByteString) : (s.memWrite a bs).params = s.params := rfl
@[simp] theorem State.memWrite_stepTag (a : Nat) (bs : ByteString) : (s.memWrite a bs).stepTag = s.stepTag := rfl
@[simp] theorem State.memWrite_sched (a : Nat) (bs : ByteString) : (s.memWrite a bs).sched = s.sched := rfl
@[simp] theorem State.memWrite_hostProg (a : Nat) (bs : ByteString) : (s.memWrite a bs).hostProg = s.hostProg := rfl
@[simp] theorem State.memWrite_hostPos (a : Nat) (bs : ByteString) : (s.memWrite a bs).hostPos = s.hostPos := rfl
@[simp] theorem State.memWrite_hostTemp (a : Nat) (bs : ByteString) : (s.memWrite a bs).hostTemp = s.hostTemp := rfl

@[simp] theorem State.arcWrite_srcAddr (a : Nat) (bs : ByteString) : (s.arcWrite a bs).srcAddr = s.srcAddr := rfl
@[simp] theorem State.arcWrite_srcLen (a : Nat) (bs : ByteString) : (s.arcWrite a bs).srcLen = s.srcLen := rfl
@[simp] theorem State.arcWrite_dstAddr (a : Nat) (bs : ByteString) : (s.arcWrite a bs).dstAddr = s.dstAddr := rfl
@[simp] theorem State.arcWrite_dstCap (a : Nat) (bs : ByteString) : (s.arcWrite a bs).dstCap = s.dstCap := rfl
@[simp] theorem State.arcWrite_nameAddr (a : Nat) (bs : ByteString) : (s.arcWrite a bs).nameAddr = s.nameAddr := rfl
@[simp] theorem State.arcWrite_nameLen (a : Nat) (bs : ByteString) : (s.arcWrite a bs).nameLen = s.nameLen := rfl
@[simp] theorem State.arcWrite_entrySel (a : Nat) (bs : ByteString) : (s.arcWrite a bs).entrySel = s.entrySel := rfl
@[simp] theorem State.arcWrite_bitcountLo (a : Nat) (bs : ByteString) : (s.arcWrite a bs).bitcountLo = s.bitcountLo := rfl
@[simp] theorem State.arcWrite_bitcountHi (a : Nat) (bs : ByteString) : (s.arcWrite a bs).bitcountHi = s.bitcountHi := rfl
@[simp] theorem State.arcWrite_codeSel (a : Nat) (bs : ByteString) : (s.arcWrite a bs).codeSel = s.codeSel := rfl
@[simp] theorem State.arcWrite_pending (a : Nat) (bs : ByteString) : (s.arcWrite a bs).pending = s.pending := rfl
@[simp] theorem State.arcWrite_done (a : Nat) (bs : ByteString) : (s.arcWrite a bs).done = s.done := rfl
@[simp] theorem State.arcWrite_err (a : Nat) (bs : ByteString) : (s.arcWrite a bs).err = s.err := rfl
@[simp] theorem State.arcWrite_warn (a : Nat) (bs : ByteString) : (s.arcWrite a bs).warn = s.warn := rfl
@[simp] theorem State.arcWrite_errSticky (a : Nat) (bs : ByteString) : (s.arcWrite a bs).errSticky = s.errSticky := rfl
@[simp] theorem State.arcWrite_overrun (a : Nat) (bs : ByteString) : (s.arcWrite a bs).overrun = s.overrun := rfl
@[simp] theorem State.arcWrite_mode (a : Nat) (bs : ByteString) : (s.arcWrite a bs).mode = s.mode := rfl
@[simp] theorem State.arcWrite_treeValid (a : Nat) (bs : ByteString) : (s.arcWrite a bs).treeValid = s.treeValid := rfl
@[simp] theorem State.arcWrite_codesValid (a : Nat) (bs : ByteString) : (s.arcWrite a bs).codesValid = s.codesValid := rfl
@[simp] theorem State.arcWrite_errcode (a : Nat) (bs : ByteString) : (s.arcWrite a bs).errcode = s.errcode := rfl
@[simp] theorem State.arcWrite_resultLen (a : Nat) (bs : ByteString) : (s.arcWrite a bs).resultLen = s.resultLen := rfl
@[simp] theorem State.arcWrite_consumed (a : Nat) (bs : ByteString) : (s.arcWrite a bs).consumed = s.consumed := rfl
@[simp] theorem State.arcWrite_entryOffset (a : Nat) (bs : ByteString) : (s.arcWrite a bs).entryOffset = s.entryOffset := rfl
@[simp] theorem State.arcWrite_entrySize (a : Nat) (bs : ByteString) : (s.arcWrite a bs).entrySize = s.entrySize := rfl
@[simp] theorem State.arcWrite_version (a : Nat) (bs : ByteString) : (s.arcWrite a bs).version = s.version := rfl
@[simp] theorem State.arcWrite_arcLen (a : Nat) (bs : ByteString) : (s.arcWrite a bs).arcLen = s.arcLen := rfl
@[simp] theorem State.arcWrite_arcOffset (a : Nat) (bs : ByteString) : (s.arcWrite a bs).arcOffset = s.arcOffset := rfl
@[simp] theorem State.arcWrite_indexOff (a : Nat) (bs : ByteString) : (s.arcWrite a bs).indexOff = s.indexOff := rfl
@[simp] theorem State.arcWrite_nodeCount (a : Nat) (bs : ByteString) : (s.arcWrite a bs).nodeCount = s.nodeCount := rfl
@[simp] theorem State.arcWrite_freq (a : Nat) (bs : ByteString) : (s.arcWrite a bs).freq = s.freq := rfl
@[simp] theorem State.arcWrite_tree (a : Nat) (bs : ByteString) : (s.arcWrite a bs).tree = s.tree := rfl
@[simp] theorem State.arcWrite_codes (a : Nat) (bs : ByteString) : (s.arcWrite a bs).codes = s.codes := rfl
@[simp] theorem State.arcWrite_idx (a : Nat) (bs : ByteString) : (s.arcWrite a bs).idx = s.idx := rfl
@[simp] theorem State.arcWrite_buf (a : Nat) (bs : ByteString) : (s.arcWrite a bs).buf = s.buf := rfl
@[simp] theorem State.arcWrite_arc (a : Nat) (bs : ByteString) : (s.arcWrite a bs).arc = s.arc.writeBytes a bs := rfl
@[simp] theorem State.arcWrite_inReset (a : Nat) (bs : ByteString) : (s.arcWrite a bs).inReset = s.inReset := rfl
@[simp] theorem State.arcWrite_params (a : Nat) (bs : ByteString) : (s.arcWrite a bs).params = s.params := rfl
@[simp] theorem State.arcWrite_stepTag (a : Nat) (bs : ByteString) : (s.arcWrite a bs).stepTag = s.stepTag := rfl
@[simp] theorem State.arcWrite_sched (a : Nat) (bs : ByteString) : (s.arcWrite a bs).sched = s.sched := rfl
@[simp] theorem State.arcWrite_hostProg (a : Nat) (bs : ByteString) : (s.arcWrite a bs).hostProg = s.hostProg := rfl
@[simp] theorem State.arcWrite_hostPos (a : Nat) (bs : ByteString) : (s.arcWrite a bs).hostPos = s.hostPos := rfl
@[simp] theorem State.arcWrite_hostTemp (a : Nat) (bs : ByteString) : (s.arcWrite a bs).hostTemp = s.hostTemp := rfl

@[simp] theorem State.releaseDst_srcAddr : s.releaseDst.srcAddr = s.srcAddr := rfl
@[simp] theorem State.releaseDst_srcLen : s.releaseDst.srcLen = s.srcLen := rfl
@[simp] theorem State.releaseDst_dstAddr : s.releaseDst.dstAddr = s.dstAddr := rfl
@[simp] theorem State.releaseDst_dstCap : s.releaseDst.dstCap = s.dstCap := rfl
@[simp] theorem State.releaseDst_nameAddr : s.releaseDst.nameAddr = s.nameAddr := rfl
@[simp] theorem State.releaseDst_nameLen : s.releaseDst.nameLen = s.nameLen := rfl
@[simp] theorem State.releaseDst_entrySel : s.releaseDst.entrySel = s.entrySel := rfl
@[simp] theorem State.releaseDst_bitcountLo : s.releaseDst.bitcountLo = s.bitcountLo := rfl
@[simp] theorem State.releaseDst_bitcountHi : s.releaseDst.bitcountHi = s.bitcountHi := rfl
@[simp] theorem State.releaseDst_codeSel : s.releaseDst.codeSel = s.codeSel := rfl
@[simp] theorem State.releaseDst_pending : s.releaseDst.pending = s.pending := rfl
@[simp] theorem State.releaseDst_done : s.releaseDst.done = s.done := rfl
@[simp] theorem State.releaseDst_err : s.releaseDst.err = s.err := rfl
@[simp] theorem State.releaseDst_warn : s.releaseDst.warn = s.warn := rfl
@[simp] theorem State.releaseDst_errSticky : s.releaseDst.errSticky = s.errSticky := rfl
@[simp] theorem State.releaseDst_overrun : s.releaseDst.overrun = s.overrun := rfl
@[simp] theorem State.releaseDst_mode : s.releaseDst.mode = s.mode := rfl
@[simp] theorem State.releaseDst_treeValid : s.releaseDst.treeValid = s.treeValid := rfl
@[simp] theorem State.releaseDst_codesValid : s.releaseDst.codesValid = s.codesValid := rfl
@[simp] theorem State.releaseDst_errcode : s.releaseDst.errcode = s.errcode := rfl
@[simp] theorem State.releaseDst_resultLen : s.releaseDst.resultLen = s.resultLen := rfl
@[simp] theorem State.releaseDst_consumed : s.releaseDst.consumed = s.consumed := rfl
@[simp] theorem State.releaseDst_entryOffset : s.releaseDst.entryOffset = s.entryOffset := rfl
@[simp] theorem State.releaseDst_entrySize : s.releaseDst.entrySize = s.entrySize := rfl
@[simp] theorem State.releaseDst_version : s.releaseDst.version = s.version := rfl
@[simp] theorem State.releaseDst_arcLen : s.releaseDst.arcLen = s.arcLen := rfl
@[simp] theorem State.releaseDst_arcOffset : s.releaseDst.arcOffset = s.arcOffset := rfl
@[simp] theorem State.releaseDst_indexOff : s.releaseDst.indexOff = s.indexOff := rfl
@[simp] theorem State.releaseDst_nodeCount : s.releaseDst.nodeCount = s.nodeCount := rfl
@[simp] theorem State.releaseDst_freq : s.releaseDst.freq = s.freq := rfl
@[simp] theorem State.releaseDst_tree : s.releaseDst.tree = s.tree := rfl
@[simp] theorem State.releaseDst_codes : s.releaseDst.codes = s.codes := rfl
@[simp] theorem State.releaseDst_idx : s.releaseDst.idx = s.idx := rfl
@[simp] theorem State.releaseDst_buf : s.releaseDst.buf = s.buf.release s.dstAddr.toNat s.dstCap.toNat s.stepTag := rfl
@[simp] theorem State.releaseDst_arc : s.releaseDst.arc = s.arc := rfl
@[simp] theorem State.releaseDst_inReset : s.releaseDst.inReset = s.inReset := rfl
@[simp] theorem State.releaseDst_params : s.releaseDst.params = s.params := rfl
@[simp] theorem State.releaseDst_stepTag : s.releaseDst.stepTag = s.stepTag := rfl
@[simp] theorem State.releaseDst_sched : s.releaseDst.sched = s.sched := rfl
@[simp] theorem State.releaseDst_hostProg : s.releaseDst.hostProg = s.hostProg := rfl
@[simp] theorem State.releaseDst_hostPos : s.releaseDst.hostPos = s.hostPos := rfl
@[simp] theorem State.releaseDst_hostTemp : s.releaseDst.hostTemp = s.hostTemp := rfl

@[simp] theorem State.releaseArc_srcAddr (o : Nat) : (s.releaseArc o).srcAddr = s.srcAddr := rfl
@[simp] theorem State.releaseArc_srcLen (o : Nat) : (s.releaseArc o).srcLen = s.srcLen := rfl
@[simp] theorem State.releaseArc_dstAddr (o : Nat) : (s.releaseArc o).dstAddr = s.dstAddr := rfl
@[simp] theorem State.releaseArc_dstCap (o : Nat) : (s.releaseArc o).dstCap = s.dstCap := rfl
@[simp] theorem State.releaseArc_nameAddr (o : Nat) : (s.releaseArc o).nameAddr = s.nameAddr := rfl
@[simp] theorem State.releaseArc_nameLen (o : Nat) : (s.releaseArc o).nameLen = s.nameLen := rfl
@[simp] theorem State.releaseArc_entrySel (o : Nat) : (s.releaseArc o).entrySel = s.entrySel := rfl
@[simp] theorem State.releaseArc_bitcountLo (o : Nat) : (s.releaseArc o).bitcountLo = s.bitcountLo := rfl
@[simp] theorem State.releaseArc_bitcountHi (o : Nat) : (s.releaseArc o).bitcountHi = s.bitcountHi := rfl
@[simp] theorem State.releaseArc_codeSel (o : Nat) : (s.releaseArc o).codeSel = s.codeSel := rfl
@[simp] theorem State.releaseArc_pending (o : Nat) : (s.releaseArc o).pending = s.pending := rfl
@[simp] theorem State.releaseArc_done (o : Nat) : (s.releaseArc o).done = s.done := rfl
@[simp] theorem State.releaseArc_err (o : Nat) : (s.releaseArc o).err = s.err := rfl
@[simp] theorem State.releaseArc_warn (o : Nat) : (s.releaseArc o).warn = s.warn := rfl
@[simp] theorem State.releaseArc_errSticky (o : Nat) : (s.releaseArc o).errSticky = s.errSticky := rfl
@[simp] theorem State.releaseArc_overrun (o : Nat) : (s.releaseArc o).overrun = s.overrun := rfl
@[simp] theorem State.releaseArc_mode (o : Nat) : (s.releaseArc o).mode = s.mode := rfl
@[simp] theorem State.releaseArc_treeValid (o : Nat) : (s.releaseArc o).treeValid = s.treeValid := rfl
@[simp] theorem State.releaseArc_codesValid (o : Nat) : (s.releaseArc o).codesValid = s.codesValid := rfl
@[simp] theorem State.releaseArc_errcode (o : Nat) : (s.releaseArc o).errcode = s.errcode := rfl
@[simp] theorem State.releaseArc_resultLen (o : Nat) : (s.releaseArc o).resultLen = s.resultLen := rfl
@[simp] theorem State.releaseArc_consumed (o : Nat) : (s.releaseArc o).consumed = s.consumed := rfl
@[simp] theorem State.releaseArc_entryOffset (o : Nat) : (s.releaseArc o).entryOffset = s.entryOffset := rfl
@[simp] theorem State.releaseArc_entrySize (o : Nat) : (s.releaseArc o).entrySize = s.entrySize := rfl
@[simp] theorem State.releaseArc_version (o : Nat) : (s.releaseArc o).version = s.version := rfl
@[simp] theorem State.releaseArc_arcLen (o : Nat) : (s.releaseArc o).arcLen = s.arcLen := rfl
@[simp] theorem State.releaseArc_arcOffset (o : Nat) : (s.releaseArc o).arcOffset = s.arcOffset := rfl
@[simp] theorem State.releaseArc_indexOff (o : Nat) : (s.releaseArc o).indexOff = s.indexOff := rfl
@[simp] theorem State.releaseArc_nodeCount (o : Nat) : (s.releaseArc o).nodeCount = s.nodeCount := rfl
@[simp] theorem State.releaseArc_freq (o : Nat) : (s.releaseArc o).freq = s.freq := rfl
@[simp] theorem State.releaseArc_tree (o : Nat) : (s.releaseArc o).tree = s.tree := rfl
@[simp] theorem State.releaseArc_codes (o : Nat) : (s.releaseArc o).codes = s.codes := rfl
@[simp] theorem State.releaseArc_idx (o : Nat) : (s.releaseArc o).idx = s.idx := rfl
@[simp] theorem State.releaseArc_buf (o : Nat) : (s.releaseArc o).buf = s.buf := rfl
@[simp] theorem State.releaseArc_arc (o : Nat) : (s.releaseArc o).arc = s.arc.release o (s.params.arcCap - o) s.stepTag := rfl
@[simp] theorem State.releaseArc_inReset (o : Nat) : (s.releaseArc o).inReset = s.inReset := rfl
@[simp] theorem State.releaseArc_params (o : Nat) : (s.releaseArc o).params = s.params := rfl
@[simp] theorem State.releaseArc_stepTag (o : Nat) : (s.releaseArc o).stepTag = s.stepTag := rfl
@[simp] theorem State.releaseArc_sched (o : Nat) : (s.releaseArc o).sched = s.sched := rfl
@[simp] theorem State.releaseArc_hostProg (o : Nat) : (s.releaseArc o).hostProg = s.hostProg := rfl
@[simp] theorem State.releaseArc_hostPos (o : Nat) : (s.releaseArc o).hostPos = s.hostPos := rfl
@[simp] theorem State.releaseArc_hostTemp (o : Nat) : (s.releaseArc o).hostTemp = s.hostTemp := rfl

@[simp] theorem State.results_srcAddr (m n : Nat) : (s.results m n).srcAddr = s.srcAddr := rfl
@[simp] theorem State.results_srcLen (m n : Nat) : (s.results m n).srcLen = s.srcLen := rfl
@[simp] theorem State.results_dstAddr (m n : Nat) : (s.results m n).dstAddr = s.dstAddr := rfl
@[simp] theorem State.results_dstCap (m n : Nat) : (s.results m n).dstCap = s.dstCap := rfl
@[simp] theorem State.results_nameAddr (m n : Nat) : (s.results m n).nameAddr = s.nameAddr := rfl
@[simp] theorem State.results_nameLen (m n : Nat) : (s.results m n).nameLen = s.nameLen := rfl
@[simp] theorem State.results_entrySel (m n : Nat) : (s.results m n).entrySel = s.entrySel := rfl
@[simp] theorem State.results_bitcountLo (m n : Nat) : (s.results m n).bitcountLo = s.bitcountLo := rfl
@[simp] theorem State.results_bitcountHi (m n : Nat) : (s.results m n).bitcountHi = s.bitcountHi := rfl
@[simp] theorem State.results_codeSel (m n : Nat) : (s.results m n).codeSel = s.codeSel := rfl
@[simp] theorem State.results_pending (m n : Nat) : (s.results m n).pending = s.pending := rfl
@[simp] theorem State.results_done (m n : Nat) : (s.results m n).done = s.done := rfl
@[simp] theorem State.results_err (m n : Nat) : (s.results m n).err = s.err := rfl
@[simp] theorem State.results_warn (m n : Nat) : (s.results m n).warn = s.warn := rfl
@[simp] theorem State.results_errSticky (m n : Nat) : (s.results m n).errSticky = s.errSticky := rfl
@[simp] theorem State.results_overrun (m n : Nat) : (s.results m n).overrun = s.overrun := rfl
@[simp] theorem State.results_mode (m n : Nat) : (s.results m n).mode = s.mode := rfl
@[simp] theorem State.results_treeValid (m n : Nat) : (s.results m n).treeValid = s.treeValid := rfl
@[simp] theorem State.results_codesValid (m n : Nat) : (s.results m n).codesValid = s.codesValid := rfl
@[simp] theorem State.results_errcode (m n : Nat) : (s.results m n).errcode = s.errcode := rfl
@[simp] theorem State.results_resultLen (m n : Nat) : (s.results m n).resultLen = BitVec.ofNat 32 m := rfl
@[simp] theorem State.results_consumed (m n : Nat) : (s.results m n).consumed = BitVec.ofNat 32 n := rfl
@[simp] theorem State.results_entryOffset (m n : Nat) : (s.results m n).entryOffset = s.entryOffset := rfl
@[simp] theorem State.results_entrySize (m n : Nat) : (s.results m n).entrySize = s.entrySize := rfl
@[simp] theorem State.results_version (m n : Nat) : (s.results m n).version = s.version := rfl
@[simp] theorem State.results_arcLen (m n : Nat) : (s.results m n).arcLen = s.arcLen := rfl
@[simp] theorem State.results_arcOffset (m n : Nat) : (s.results m n).arcOffset = s.arcOffset := rfl
@[simp] theorem State.results_indexOff (m n : Nat) : (s.results m n).indexOff = s.indexOff := rfl
@[simp] theorem State.results_nodeCount (m n : Nat) : (s.results m n).nodeCount = s.nodeCount := rfl
@[simp] theorem State.results_freq (m n : Nat) : (s.results m n).freq = s.freq := rfl
@[simp] theorem State.results_tree (m n : Nat) : (s.results m n).tree = s.tree := rfl
@[simp] theorem State.results_codes (m n : Nat) : (s.results m n).codes = s.codes := rfl
@[simp] theorem State.results_idx (m n : Nat) : (s.results m n).idx = s.idx := rfl
@[simp] theorem State.results_buf (m n : Nat) : (s.results m n).buf = s.buf := rfl
@[simp] theorem State.results_arc (m n : Nat) : (s.results m n).arc = s.arc := rfl
@[simp] theorem State.results_inReset (m n : Nat) : (s.results m n).inReset = s.inReset := rfl
@[simp] theorem State.results_params (m n : Nat) : (s.results m n).params = s.params := rfl
@[simp] theorem State.results_stepTag (m n : Nat) : (s.results m n).stepTag = s.stepTag := rfl
@[simp] theorem State.results_sched (m n : Nat) : (s.results m n).sched = s.sched := rfl
@[simp] theorem State.results_hostProg (m n : Nat) : (s.results m n).hostProg = s.hostProg := rfl
@[simp] theorem State.results_hostPos (m n : Nat) : (s.results m n).hostPos = s.hostPos := rfl
@[simp] theorem State.results_hostTemp (m n : Nat) : (s.results m n).hostTemp = s.hostTemp := rfl

@[simp] theorem State.writeDst_srcAddr (bs : ByteString) : (s.writeDst bs).srcAddr = s.srcAddr := rfl
@[simp] theorem State.writeDst_srcLen (bs : ByteString) : (s.writeDst bs).srcLen = s.srcLen := rfl
@[simp] theorem State.writeDst_dstAddr (bs : ByteString) : (s.writeDst bs).dstAddr = s.dstAddr := rfl
@[simp] theorem State.writeDst_dstCap (bs : ByteString) : (s.writeDst bs).dstCap = s.dstCap := rfl
@[simp] theorem State.writeDst_nameAddr (bs : ByteString) : (s.writeDst bs).nameAddr = s.nameAddr := rfl
@[simp] theorem State.writeDst_nameLen (bs : ByteString) : (s.writeDst bs).nameLen = s.nameLen := rfl
@[simp] theorem State.writeDst_entrySel (bs : ByteString) : (s.writeDst bs).entrySel = s.entrySel := rfl
@[simp] theorem State.writeDst_bitcountLo (bs : ByteString) : (s.writeDst bs).bitcountLo = s.bitcountLo := rfl
@[simp] theorem State.writeDst_bitcountHi (bs : ByteString) : (s.writeDst bs).bitcountHi = s.bitcountHi := rfl
@[simp] theorem State.writeDst_codeSel (bs : ByteString) : (s.writeDst bs).codeSel = s.codeSel := rfl
@[simp] theorem State.writeDst_pending (bs : ByteString) : (s.writeDst bs).pending = s.pending := rfl
@[simp] theorem State.writeDst_done (bs : ByteString) : (s.writeDst bs).done = s.done := rfl
@[simp] theorem State.writeDst_err (bs : ByteString) : (s.writeDst bs).err = s.err := rfl
@[simp] theorem State.writeDst_warn (bs : ByteString) : (s.writeDst bs).warn = s.warn := rfl
@[simp] theorem State.writeDst_errSticky (bs : ByteString) : (s.writeDst bs).errSticky = s.errSticky := rfl
@[simp] theorem State.writeDst_overrun (bs : ByteString) : (s.writeDst bs).overrun = s.overrun := rfl
@[simp] theorem State.writeDst_mode (bs : ByteString) : (s.writeDst bs).mode = s.mode := rfl
@[simp] theorem State.writeDst_treeValid (bs : ByteString) : (s.writeDst bs).treeValid = s.treeValid := rfl
@[simp] theorem State.writeDst_codesValid (bs : ByteString) : (s.writeDst bs).codesValid = s.codesValid := rfl
@[simp] theorem State.writeDst_errcode (bs : ByteString) : (s.writeDst bs).errcode = s.errcode := rfl
@[simp] theorem State.writeDst_resultLen (bs : ByteString) : (s.writeDst bs).resultLen = s.resultLen := rfl
@[simp] theorem State.writeDst_consumed (bs : ByteString) : (s.writeDst bs).consumed = s.consumed := rfl
@[simp] theorem State.writeDst_entryOffset (bs : ByteString) : (s.writeDst bs).entryOffset = s.entryOffset := rfl
@[simp] theorem State.writeDst_entrySize (bs : ByteString) : (s.writeDst bs).entrySize = s.entrySize := rfl
@[simp] theorem State.writeDst_version (bs : ByteString) : (s.writeDst bs).version = s.version := rfl
@[simp] theorem State.writeDst_arcLen (bs : ByteString) : (s.writeDst bs).arcLen = s.arcLen := rfl
@[simp] theorem State.writeDst_arcOffset (bs : ByteString) : (s.writeDst bs).arcOffset = s.arcOffset := rfl
@[simp] theorem State.writeDst_indexOff (bs : ByteString) : (s.writeDst bs).indexOff = s.indexOff := rfl
@[simp] theorem State.writeDst_nodeCount (bs : ByteString) : (s.writeDst bs).nodeCount = s.nodeCount := rfl
@[simp] theorem State.writeDst_freq (bs : ByteString) : (s.writeDst bs).freq = s.freq := rfl
@[simp] theorem State.writeDst_tree (bs : ByteString) : (s.writeDst bs).tree = s.tree := rfl
@[simp] theorem State.writeDst_codes (bs : ByteString) : (s.writeDst bs).codes = s.codes := rfl
@[simp] theorem State.writeDst_idx (bs : ByteString) : (s.writeDst bs).idx = s.idx := rfl
@[simp] theorem State.writeDst_buf (bs : ByteString) : (s.writeDst bs).buf = s.buf.writeBytes s.dstAddr.toNat bs := rfl
@[simp] theorem State.writeDst_arc (bs : ByteString) : (s.writeDst bs).arc = s.arc := rfl
@[simp] theorem State.writeDst_inReset (bs : ByteString) : (s.writeDst bs).inReset = s.inReset := rfl
@[simp] theorem State.writeDst_params (bs : ByteString) : (s.writeDst bs).params = s.params := rfl
@[simp] theorem State.writeDst_stepTag (bs : ByteString) : (s.writeDst bs).stepTag = s.stepTag := rfl
@[simp] theorem State.writeDst_sched (bs : ByteString) : (s.writeDst bs).sched = s.sched := rfl
@[simp] theorem State.writeDst_hostProg (bs : ByteString) : (s.writeDst bs).hostProg = s.hostProg := rfl
@[simp] theorem State.writeDst_hostPos (bs : ByteString) : (s.writeDst bs).hostPos = s.hostPos := rfl
@[simp] theorem State.writeDst_hostTemp (bs : ByteString) : (s.writeDst bs).hostTemp = s.hostTemp := rfl

@[simp] theorem State.setBitcount_srcAddr (v : Nat) : (s.setBitcount v).srcAddr = s.srcAddr := rfl
@[simp] theorem State.setBitcount_srcLen (v : Nat) : (s.setBitcount v).srcLen = s.srcLen := rfl
@[simp] theorem State.setBitcount_dstAddr (v : Nat) : (s.setBitcount v).dstAddr = s.dstAddr := rfl
@[simp] theorem State.setBitcount_dstCap (v : Nat) : (s.setBitcount v).dstCap = s.dstCap := rfl
@[simp] theorem State.setBitcount_nameAddr (v : Nat) : (s.setBitcount v).nameAddr = s.nameAddr := rfl
@[simp] theorem State.setBitcount_nameLen (v : Nat) : (s.setBitcount v).nameLen = s.nameLen := rfl
@[simp] theorem State.setBitcount_entrySel (v : Nat) : (s.setBitcount v).entrySel = s.entrySel := rfl
@[simp] theorem State.setBitcount_bitcountLo (v : Nat) : (s.setBitcount v).bitcountLo = BitVec.ofNat 32 v := rfl
@[simp] theorem State.setBitcount_bitcountHi (v : Nat) : (s.setBitcount v).bitcountHi = BitVec.ofNat 32 (v / 2 ^ 32) := rfl
@[simp] theorem State.setBitcount_codeSel (v : Nat) : (s.setBitcount v).codeSel = s.codeSel := rfl
@[simp] theorem State.setBitcount_pending (v : Nat) : (s.setBitcount v).pending = s.pending := rfl
@[simp] theorem State.setBitcount_done (v : Nat) : (s.setBitcount v).done = s.done := rfl
@[simp] theorem State.setBitcount_err (v : Nat) : (s.setBitcount v).err = s.err := rfl
@[simp] theorem State.setBitcount_warn (v : Nat) : (s.setBitcount v).warn = s.warn := rfl
@[simp] theorem State.setBitcount_errSticky (v : Nat) : (s.setBitcount v).errSticky = s.errSticky := rfl
@[simp] theorem State.setBitcount_overrun (v : Nat) : (s.setBitcount v).overrun = s.overrun := rfl
@[simp] theorem State.setBitcount_mode (v : Nat) : (s.setBitcount v).mode = s.mode := rfl
@[simp] theorem State.setBitcount_treeValid (v : Nat) : (s.setBitcount v).treeValid = s.treeValid := rfl
@[simp] theorem State.setBitcount_codesValid (v : Nat) : (s.setBitcount v).codesValid = s.codesValid := rfl
@[simp] theorem State.setBitcount_errcode (v : Nat) : (s.setBitcount v).errcode = s.errcode := rfl
@[simp] theorem State.setBitcount_resultLen (v : Nat) : (s.setBitcount v).resultLen = s.resultLen := rfl
@[simp] theorem State.setBitcount_consumed (v : Nat) : (s.setBitcount v).consumed = s.consumed := rfl
@[simp] theorem State.setBitcount_entryOffset (v : Nat) : (s.setBitcount v).entryOffset = s.entryOffset := rfl
@[simp] theorem State.setBitcount_entrySize (v : Nat) : (s.setBitcount v).entrySize = s.entrySize := rfl
@[simp] theorem State.setBitcount_version (v : Nat) : (s.setBitcount v).version = s.version := rfl
@[simp] theorem State.setBitcount_arcLen (v : Nat) : (s.setBitcount v).arcLen = s.arcLen := rfl
@[simp] theorem State.setBitcount_arcOffset (v : Nat) : (s.setBitcount v).arcOffset = s.arcOffset := rfl
@[simp] theorem State.setBitcount_indexOff (v : Nat) : (s.setBitcount v).indexOff = s.indexOff := rfl
@[simp] theorem State.setBitcount_nodeCount (v : Nat) : (s.setBitcount v).nodeCount = s.nodeCount := rfl
@[simp] theorem State.setBitcount_freq (v : Nat) : (s.setBitcount v).freq = s.freq := rfl
@[simp] theorem State.setBitcount_tree (v : Nat) : (s.setBitcount v).tree = s.tree := rfl
@[simp] theorem State.setBitcount_codes (v : Nat) : (s.setBitcount v).codes = s.codes := rfl
@[simp] theorem State.setBitcount_idx (v : Nat) : (s.setBitcount v).idx = s.idx := rfl
@[simp] theorem State.setBitcount_buf (v : Nat) : (s.setBitcount v).buf = s.buf := rfl
@[simp] theorem State.setBitcount_arc (v : Nat) : (s.setBitcount v).arc = s.arc := rfl
@[simp] theorem State.setBitcount_inReset (v : Nat) : (s.setBitcount v).inReset = s.inReset := rfl
@[simp] theorem State.setBitcount_params (v : Nat) : (s.setBitcount v).params = s.params := rfl
@[simp] theorem State.setBitcount_stepTag (v : Nat) : (s.setBitcount v).stepTag = s.stepTag := rfl
@[simp] theorem State.setBitcount_sched (v : Nat) : (s.setBitcount v).sched = s.sched := rfl
@[simp] theorem State.setBitcount_hostProg (v : Nat) : (s.setBitcount v).hostProg = s.hostProg := rfl
@[simp] theorem State.setBitcount_hostPos (v : Nat) : (s.setBitcount v).hostPos = s.hostPos := rfl
@[simp] theorem State.setBitcount_hostTemp (v : Nat) : (s.setBitcount v).hostTemp = s.hostTemp := rfl

@[simp] theorem State.setTree_srcAddr (f : FreqTable) : (s.setTree f).srcAddr = s.srcAddr := rfl
@[simp] theorem State.setTree_srcLen (f : FreqTable) : (s.setTree f).srcLen = s.srcLen := rfl
@[simp] theorem State.setTree_dstAddr (f : FreqTable) : (s.setTree f).dstAddr = s.dstAddr := rfl
@[simp] theorem State.setTree_dstCap (f : FreqTable) : (s.setTree f).dstCap = s.dstCap := rfl
@[simp] theorem State.setTree_nameAddr (f : FreqTable) : (s.setTree f).nameAddr = s.nameAddr := rfl
@[simp] theorem State.setTree_nameLen (f : FreqTable) : (s.setTree f).nameLen = s.nameLen := rfl
@[simp] theorem State.setTree_entrySel (f : FreqTable) : (s.setTree f).entrySel = s.entrySel := rfl
@[simp] theorem State.setTree_bitcountLo (f : FreqTable) : (s.setTree f).bitcountLo = s.bitcountLo := rfl
@[simp] theorem State.setTree_bitcountHi (f : FreqTable) : (s.setTree f).bitcountHi = s.bitcountHi := rfl
@[simp] theorem State.setTree_codeSel (f : FreqTable) : (s.setTree f).codeSel = s.codeSel := rfl
@[simp] theorem State.setTree_pending (f : FreqTable) : (s.setTree f).pending = s.pending := rfl
@[simp] theorem State.setTree_done (f : FreqTable) : (s.setTree f).done = s.done := rfl
@[simp] theorem State.setTree_err (f : FreqTable) : (s.setTree f).err = s.err := rfl
@[simp] theorem State.setTree_warn (f : FreqTable) : (s.setTree f).warn = s.warn := rfl
@[simp] theorem State.setTree_errSticky (f : FreqTable) : (s.setTree f).errSticky = s.errSticky := rfl
@[simp] theorem State.setTree_overrun (f : FreqTable) : (s.setTree f).overrun = s.overrun := rfl
@[simp] theorem State.setTree_mode (f : FreqTable) : (s.setTree f).mode = s.mode := rfl
@[simp] theorem State.setTree_treeValid (f : FreqTable) : (s.setTree f).treeValid = true := rfl
@[simp] theorem State.setTree_codesValid (f : FreqTable) : (s.setTree f).codesValid = false := rfl
@[simp] theorem State.setTree_errcode (f : FreqTable) : (s.setTree f).errcode = s.errcode := rfl
@[simp] theorem State.setTree_resultLen (f : FreqTable) : (s.setTree f).resultLen = s.resultLen := rfl
@[simp] theorem State.setTree_consumed (f : FreqTable) : (s.setTree f).consumed = s.consumed := rfl
@[simp] theorem State.setTree_entryOffset (f : FreqTable) : (s.setTree f).entryOffset = s.entryOffset := rfl
@[simp] theorem State.setTree_entrySize (f : FreqTable) : (s.setTree f).entrySize = s.entrySize := rfl
@[simp] theorem State.setTree_version (f : FreqTable) : (s.setTree f).version = s.version := rfl
@[simp] theorem State.setTree_arcLen (f : FreqTable) : (s.setTree f).arcLen = s.arcLen := rfl
@[simp] theorem State.setTree_arcOffset (f : FreqTable) : (s.setTree f).arcOffset = s.arcOffset := rfl
@[simp] theorem State.setTree_indexOff (f : FreqTable) : (s.setTree f).indexOff = s.indexOff := rfl
@[simp] theorem State.setTree_nodeCount (f : FreqTable) : (s.setTree f).nodeCount = BitVec.ofNat 32 (buildTree s.params.tiePolicy f).2 := rfl
@[simp] theorem State.setTree_freq (f : FreqTable) : (s.setTree f).freq = s.freq := rfl
@[simp] theorem State.setTree_tree (f : FreqTable) : (s.setTree f).tree = (buildTree s.params.tiePolicy f).1 := rfl
@[simp] theorem State.setTree_codes (f : FreqTable) : (s.setTree f).codes = emptyCodes := rfl
@[simp] theorem State.setTree_idx (f : FreqTable) : (s.setTree f).idx = s.idx := rfl
@[simp] theorem State.setTree_buf (f : FreqTable) : (s.setTree f).buf = s.buf := rfl
@[simp] theorem State.setTree_arc (f : FreqTable) : (s.setTree f).arc = s.arc := rfl
@[simp] theorem State.setTree_inReset (f : FreqTable) : (s.setTree f).inReset = s.inReset := rfl
@[simp] theorem State.setTree_params (f : FreqTable) : (s.setTree f).params = s.params := rfl
@[simp] theorem State.setTree_stepTag (f : FreqTable) : (s.setTree f).stepTag = s.stepTag := rfl
@[simp] theorem State.setTree_sched (f : FreqTable) : (s.setTree f).sched = s.sched := rfl
@[simp] theorem State.setTree_hostProg (f : FreqTable) : (s.setTree f).hostProg = s.hostProg := rfl
@[simp] theorem State.setTree_hostPos (f : FreqTable) : (s.setTree f).hostPos = s.hostPos := rfl
@[simp] theorem State.setTree_hostTemp (f : FreqTable) : (s.setTree f).hostTemp = s.hostTemp := rfl

@[simp] theorem State.setCodes_srcAddr : s.setCodes.srcAddr = s.srcAddr := rfl
@[simp] theorem State.setCodes_srcLen : s.setCodes.srcLen = s.srcLen := rfl
@[simp] theorem State.setCodes_dstAddr : s.setCodes.dstAddr = s.dstAddr := rfl
@[simp] theorem State.setCodes_dstCap : s.setCodes.dstCap = s.dstCap := rfl
@[simp] theorem State.setCodes_nameAddr : s.setCodes.nameAddr = s.nameAddr := rfl
@[simp] theorem State.setCodes_nameLen : s.setCodes.nameLen = s.nameLen := rfl
@[simp] theorem State.setCodes_entrySel : s.setCodes.entrySel = s.entrySel := rfl
@[simp] theorem State.setCodes_bitcountLo : s.setCodes.bitcountLo = s.bitcountLo := rfl
@[simp] theorem State.setCodes_bitcountHi : s.setCodes.bitcountHi = s.bitcountHi := rfl
@[simp] theorem State.setCodes_codeSel : s.setCodes.codeSel = s.codeSel := rfl
@[simp] theorem State.setCodes_pending : s.setCodes.pending = s.pending := rfl
@[simp] theorem State.setCodes_done : s.setCodes.done = s.done := rfl
@[simp] theorem State.setCodes_err : s.setCodes.err = s.err := rfl
@[simp] theorem State.setCodes_warn : s.setCodes.warn = s.warn := rfl
@[simp] theorem State.setCodes_errSticky : s.setCodes.errSticky = s.errSticky := rfl
@[simp] theorem State.setCodes_overrun : s.setCodes.overrun = s.overrun := rfl
@[simp] theorem State.setCodes_mode : s.setCodes.mode = s.mode := rfl
@[simp] theorem State.setCodes_treeValid : s.setCodes.treeValid = s.treeValid := rfl
@[simp] theorem State.setCodes_codesValid : s.setCodes.codesValid = true := rfl
@[simp] theorem State.setCodes_errcode : s.setCodes.errcode = s.errcode := rfl
@[simp] theorem State.setCodes_resultLen : s.setCodes.resultLen = s.resultLen := rfl
@[simp] theorem State.setCodes_consumed : s.setCodes.consumed = s.consumed := rfl
@[simp] theorem State.setCodes_entryOffset : s.setCodes.entryOffset = s.entryOffset := rfl
@[simp] theorem State.setCodes_entrySize : s.setCodes.entrySize = s.entrySize := rfl
@[simp] theorem State.setCodes_version : s.setCodes.version = s.version := rfl
@[simp] theorem State.setCodes_arcLen : s.setCodes.arcLen = s.arcLen := rfl
@[simp] theorem State.setCodes_arcOffset : s.setCodes.arcOffset = s.arcOffset := rfl
@[simp] theorem State.setCodes_indexOff : s.setCodes.indexOff = s.indexOff := rfl
@[simp] theorem State.setCodes_nodeCount : s.setCodes.nodeCount = s.nodeCount := rfl
@[simp] theorem State.setCodes_freq : s.setCodes.freq = s.freq := rfl
@[simp] theorem State.setCodes_tree : s.setCodes.tree = s.tree := rfl
@[simp] theorem State.setCodes_codes : s.setCodes.codes = genCodes s.tree := rfl
@[simp] theorem State.setCodes_idx : s.setCodes.idx = s.idx := rfl
@[simp] theorem State.setCodes_buf : s.setCodes.buf = s.buf := rfl
@[simp] theorem State.setCodes_arc : s.setCodes.arc = s.arc := rfl
@[simp] theorem State.setCodes_inReset : s.setCodes.inReset = s.inReset := rfl
@[simp] theorem State.setCodes_params : s.setCodes.params = s.params := rfl
@[simp] theorem State.setCodes_stepTag : s.setCodes.stepTag = s.stepTag := rfl
@[simp] theorem State.setCodes_sched : s.setCodes.sched = s.sched := rfl
@[simp] theorem State.setCodes_hostProg : s.setCodes.hostProg = s.hostProg := rfl
@[simp] theorem State.setCodes_hostPos : s.setCodes.hostPos = s.hostPos := rfl
@[simp] theorem State.setCodes_hostTemp : s.setCodes.hostTemp = s.hostTemp := rfl

@[simp] theorem State.afterEncode_srcAddr (b : ByteString) : (s.afterEncode b).srcAddr = s.srcAddr := rfl
@[simp] theorem State.afterEncode_srcLen (b : ByteString) : (s.afterEncode b).srcLen = s.srcLen := rfl
@[simp] theorem State.afterEncode_dstAddr (b : ByteString) : (s.afterEncode b).dstAddr = s.dstAddr := rfl
@[simp] theorem State.afterEncode_dstCap (b : ByteString) : (s.afterEncode b).dstCap = s.dstCap := rfl
@[simp] theorem State.afterEncode_nameAddr (b : ByteString) : (s.afterEncode b).nameAddr = s.nameAddr := rfl
@[simp] theorem State.afterEncode_nameLen (b : ByteString) : (s.afterEncode b).nameLen = s.nameLen := rfl
@[simp] theorem State.afterEncode_entrySel (b : ByteString) : (s.afterEncode b).entrySel = s.entrySel := rfl
@[simp] theorem State.afterEncode_bitcountLo (b : ByteString) : (s.afterEncode b).bitcountLo = BitVec.ofNat 32 (encodedBits s.params.tiePolicy b).length := rfl
@[simp] theorem State.afterEncode_bitcountHi (b : ByteString) : (s.afterEncode b).bitcountHi = BitVec.ofNat 32 ((encodedBits s.params.tiePolicy b).length / 2 ^ 32) := rfl
@[simp] theorem State.afterEncode_codeSel (b : ByteString) : (s.afterEncode b).codeSel = s.codeSel := rfl
@[simp] theorem State.afterEncode_pending (b : ByteString) : (s.afterEncode b).pending = s.pending := rfl
@[simp] theorem State.afterEncode_done (b : ByteString) : (s.afterEncode b).done = s.done := rfl
@[simp] theorem State.afterEncode_err (b : ByteString) : (s.afterEncode b).err = s.err := rfl
@[simp] theorem State.afterEncode_warn (b : ByteString) : (s.afterEncode b).warn = s.warn := rfl
@[simp] theorem State.afterEncode_errSticky (b : ByteString) : (s.afterEncode b).errSticky = s.errSticky := rfl
@[simp] theorem State.afterEncode_overrun (b : ByteString) : (s.afterEncode b).overrun = s.overrun := rfl
@[simp] theorem State.afterEncode_mode (b : ByteString) : (s.afterEncode b).mode = s.mode := rfl
@[simp] theorem State.afterEncode_treeValid (b : ByteString) : (s.afterEncode b).treeValid = true := rfl
@[simp] theorem State.afterEncode_codesValid (b : ByteString) : (s.afterEncode b).codesValid = true := rfl
@[simp] theorem State.afterEncode_errcode (b : ByteString) : (s.afterEncode b).errcode = s.errcode := rfl
@[simp] theorem State.afterEncode_resultLen (b : ByteString) : (s.afterEncode b).resultLen = s.resultLen := rfl
@[simp] theorem State.afterEncode_consumed (b : ByteString) : (s.afterEncode b).consumed = s.consumed := rfl
@[simp] theorem State.afterEncode_entryOffset (b : ByteString) : (s.afterEncode b).entryOffset = s.entryOffset := rfl
@[simp] theorem State.afterEncode_entrySize (b : ByteString) : (s.afterEncode b).entrySize = s.entrySize := rfl
@[simp] theorem State.afterEncode_version (b : ByteString) : (s.afterEncode b).version = s.version := rfl
@[simp] theorem State.afterEncode_arcLen (b : ByteString) : (s.afterEncode b).arcLen = s.arcLen := rfl
@[simp] theorem State.afterEncode_arcOffset (b : ByteString) : (s.afterEncode b).arcOffset = s.arcOffset := rfl
@[simp] theorem State.afterEncode_indexOff (b : ByteString) : (s.afterEncode b).indexOff = s.indexOff := rfl
@[simp] theorem State.afterEncode_nodeCount (b : ByteString) : (s.afterEncode b).nodeCount = BitVec.ofNat 32 (buildTree s.params.tiePolicy (countFreq b)).2 := rfl
@[simp] theorem State.afterEncode_freq (b : ByteString) : (s.afterEncode b).freq = countFreq b := rfl
@[simp] theorem State.afterEncode_tree (b : ByteString) : (s.afterEncode b).tree = (buildTree s.params.tiePolicy (countFreq b)).1 := rfl
@[simp] theorem State.afterEncode_codes (b : ByteString) : (s.afterEncode b).codes = codesOf s.params.tiePolicy (countFreq b) := rfl
@[simp] theorem State.afterEncode_idx (b : ByteString) : (s.afterEncode b).idx = s.idx := rfl
@[simp] theorem State.afterEncode_buf (b : ByteString) : (s.afterEncode b).buf = s.buf := rfl
@[simp] theorem State.afterEncode_arc (b : ByteString) : (s.afterEncode b).arc = s.arc := rfl
@[simp] theorem State.afterEncode_inReset (b : ByteString) : (s.afterEncode b).inReset = s.inReset := rfl
@[simp] theorem State.afterEncode_params (b : ByteString) : (s.afterEncode b).params = s.params := rfl
@[simp] theorem State.afterEncode_stepTag (b : ByteString) : (s.afterEncode b).stepTag = s.stepTag := rfl
@[simp] theorem State.afterEncode_sched (b : ByteString) : (s.afterEncode b).sched = s.sched := rfl
@[simp] theorem State.afterEncode_hostProg (b : ByteString) : (s.afterEncode b).hostProg = s.hostProg := rfl
@[simp] theorem State.afterEncode_hostPos (b : ByteString) : (s.afterEncode b).hostPos = s.hostPos := rfl
@[simp] theorem State.afterEncode_hostTemp (b : ByteString) : (s.afterEncode b).hostTemp = s.hostTemp := rfl

@[simp] theorem State.afterDecode_srcAddr (d : Decoded) : (s.afterDecode d).srcAddr = s.srcAddr := rfl
@[simp] theorem State.afterDecode_srcLen (d : Decoded) : (s.afterDecode d).srcLen = s.srcLen := rfl
@[simp] theorem State.afterDecode_dstAddr (d : Decoded) : (s.afterDecode d).dstAddr = s.dstAddr := rfl
@[simp] theorem State.afterDecode_dstCap (d : Decoded) : (s.afterDecode d).dstCap = s.dstCap := rfl
@[simp] theorem State.afterDecode_nameAddr (d : Decoded) : (s.afterDecode d).nameAddr = s.nameAddr := rfl
@[simp] theorem State.afterDecode_nameLen (d : Decoded) : (s.afterDecode d).nameLen = s.nameLen := rfl
@[simp] theorem State.afterDecode_entrySel (d : Decoded) : (s.afterDecode d).entrySel = s.entrySel := rfl
@[simp] theorem State.afterDecode_bitcountLo (d : Decoded) : (s.afterDecode d).bitcountLo = BitVec.ofNat 32 d.bits := rfl
@[simp] theorem State.afterDecode_bitcountHi (d : Decoded) : (s.afterDecode d).bitcountHi = BitVec.ofNat 32 (d.bits / 2 ^ 32) := rfl
@[simp] theorem State.afterDecode_codeSel (d : Decoded) : (s.afterDecode d).codeSel = s.codeSel := rfl
@[simp] theorem State.afterDecode_pending (d : Decoded) : (s.afterDecode d).pending = s.pending := rfl
@[simp] theorem State.afterDecode_done (d : Decoded) : (s.afterDecode d).done = s.done := rfl
@[simp] theorem State.afterDecode_err (d : Decoded) : (s.afterDecode d).err = s.err := rfl
@[simp] theorem State.afterDecode_warn (d : Decoded) : (s.afterDecode d).warn = s.warn := rfl
@[simp] theorem State.afterDecode_errSticky (d : Decoded) : (s.afterDecode d).errSticky = s.errSticky := rfl
@[simp] theorem State.afterDecode_overrun (d : Decoded) : (s.afterDecode d).overrun = s.overrun := rfl
@[simp] theorem State.afterDecode_mode (d : Decoded) : (s.afterDecode d).mode = s.mode := rfl
@[simp] theorem State.afterDecode_treeValid (d : Decoded) : (s.afterDecode d).treeValid = true := rfl
@[simp] theorem State.afterDecode_codesValid (d : Decoded) : (s.afterDecode d).codesValid = false := rfl
@[simp] theorem State.afterDecode_errcode (d : Decoded) : (s.afterDecode d).errcode = s.errcode := rfl
@[simp] theorem State.afterDecode_resultLen (d : Decoded) : (s.afterDecode d).resultLen = s.resultLen := rfl
@[simp] theorem State.afterDecode_consumed (d : Decoded) : (s.afterDecode d).consumed = s.consumed := rfl
@[simp] theorem State.afterDecode_entryOffset (d : Decoded) : (s.afterDecode d).entryOffset = s.entryOffset := rfl
@[simp] theorem State.afterDecode_entrySize (d : Decoded) : (s.afterDecode d).entrySize = s.entrySize := rfl
@[simp] theorem State.afterDecode_version (d : Decoded) : (s.afterDecode d).version = s.version := rfl
@[simp] theorem State.afterDecode_arcLen (d : Decoded) : (s.afterDecode d).arcLen = s.arcLen := rfl
@[simp] theorem State.afterDecode_arcOffset (d : Decoded) : (s.afterDecode d).arcOffset = s.arcOffset := rfl
@[simp] theorem State.afterDecode_indexOff (d : Decoded) : (s.afterDecode d).indexOff = s.indexOff := rfl
@[simp] theorem State.afterDecode_nodeCount (d : Decoded) : (s.afterDecode d).nodeCount = BitVec.ofNat 32 (buildTree s.params.tiePolicy d.table).2 := rfl
@[simp] theorem State.afterDecode_freq (d : Decoded) : (s.afterDecode d).freq = d.table := rfl
@[simp] theorem State.afterDecode_tree (d : Decoded) : (s.afterDecode d).tree = (buildTree s.params.tiePolicy d.table).1 := rfl
@[simp] theorem State.afterDecode_codes (d : Decoded) : (s.afterDecode d).codes = emptyCodes := rfl
@[simp] theorem State.afterDecode_idx (d : Decoded) : (s.afterDecode d).idx = s.idx := rfl
@[simp] theorem State.afterDecode_buf (d : Decoded) : (s.afterDecode d).buf = s.buf := rfl
@[simp] theorem State.afterDecode_arc (d : Decoded) : (s.afterDecode d).arc = s.arc := rfl
@[simp] theorem State.afterDecode_inReset (d : Decoded) : (s.afterDecode d).inReset = s.inReset := rfl
@[simp] theorem State.afterDecode_params (d : Decoded) : (s.afterDecode d).params = s.params := rfl
@[simp] theorem State.afterDecode_stepTag (d : Decoded) : (s.afterDecode d).stepTag = s.stepTag := rfl
@[simp] theorem State.afterDecode_sched (d : Decoded) : (s.afterDecode d).sched = s.sched := rfl
@[simp] theorem State.afterDecode_hostProg (d : Decoded) : (s.afterDecode d).hostProg = s.hostProg := rfl
@[simp] theorem State.afterDecode_hostPos (d : Decoded) : (s.afterDecode d).hostPos = s.hostPos := rfl
@[simp] theorem State.afterDecode_hostTemp (d : Decoded) : (s.afterDecode d).hostTemp = s.hostTemp := rfl

@[simp] theorem State.closeHandle_srcAddr : s.closeHandle.srcAddr = s.srcAddr := rfl
@[simp] theorem State.closeHandle_srcLen : s.closeHandle.srcLen = s.srcLen := rfl
@[simp] theorem State.closeHandle_dstAddr : s.closeHandle.dstAddr = s.dstAddr := rfl
@[simp] theorem State.closeHandle_dstCap : s.closeHandle.dstCap = s.dstCap := rfl
@[simp] theorem State.closeHandle_nameAddr : s.closeHandle.nameAddr = s.nameAddr := rfl
@[simp] theorem State.closeHandle_nameLen : s.closeHandle.nameLen = s.nameLen := rfl
@[simp] theorem State.closeHandle_entrySel : s.closeHandle.entrySel = s.entrySel := rfl
@[simp] theorem State.closeHandle_bitcountLo : s.closeHandle.bitcountLo = s.bitcountLo := rfl
@[simp] theorem State.closeHandle_bitcountHi : s.closeHandle.bitcountHi = s.bitcountHi := rfl
@[simp] theorem State.closeHandle_codeSel : s.closeHandle.codeSel = s.codeSel := rfl
@[simp] theorem State.closeHandle_pending : s.closeHandle.pending = s.pending := rfl
@[simp] theorem State.closeHandle_done : s.closeHandle.done = s.done := rfl
@[simp] theorem State.closeHandle_err : s.closeHandle.err = s.err := rfl
@[simp] theorem State.closeHandle_warn : s.closeHandle.warn = s.warn := rfl
@[simp] theorem State.closeHandle_errSticky : s.closeHandle.errSticky = s.errSticky := rfl
@[simp] theorem State.closeHandle_overrun : s.closeHandle.overrun = s.overrun := rfl
@[simp] theorem State.closeHandle_mode : s.closeHandle.mode = .unset := rfl
@[simp] theorem State.closeHandle_treeValid : s.closeHandle.treeValid = s.treeValid := rfl
@[simp] theorem State.closeHandle_codesValid : s.closeHandle.codesValid = s.codesValid := rfl
@[simp] theorem State.closeHandle_errcode : s.closeHandle.errcode = s.errcode := rfl
@[simp] theorem State.closeHandle_resultLen : s.closeHandle.resultLen = s.resultLen := rfl
@[simp] theorem State.closeHandle_consumed : s.closeHandle.consumed = s.consumed := rfl
@[simp] theorem State.closeHandle_entryOffset : s.closeHandle.entryOffset = s.entryOffset := rfl
@[simp] theorem State.closeHandle_entrySize : s.closeHandle.entrySize = s.entrySize := rfl
@[simp] theorem State.closeHandle_version : s.closeHandle.version = 0#32 := rfl
@[simp] theorem State.closeHandle_arcLen : s.closeHandle.arcLen = s.arcLen := rfl
@[simp] theorem State.closeHandle_arcOffset : s.closeHandle.arcOffset = 0#32 := rfl
@[simp] theorem State.closeHandle_indexOff : s.closeHandle.indexOff = s.indexOff := rfl
@[simp] theorem State.closeHandle_nodeCount : s.closeHandle.nodeCount = s.nodeCount := rfl
@[simp] theorem State.closeHandle_freq : s.closeHandle.freq = s.freq := rfl
@[simp] theorem State.closeHandle_tree : s.closeHandle.tree = s.tree := rfl
@[simp] theorem State.closeHandle_codes : s.closeHandle.codes = s.codes := rfl
@[simp] theorem State.closeHandle_idx : s.closeHandle.idx = [] := rfl
@[simp] theorem State.closeHandle_buf : s.closeHandle.buf = s.buf := rfl
@[simp] theorem State.closeHandle_arc : s.closeHandle.arc = s.arc := rfl
@[simp] theorem State.closeHandle_inReset : s.closeHandle.inReset = s.inReset := rfl
@[simp] theorem State.closeHandle_params : s.closeHandle.params = s.params := rfl
@[simp] theorem State.closeHandle_stepTag : s.closeHandle.stepTag = s.stepTag := rfl
@[simp] theorem State.closeHandle_sched : s.closeHandle.sched = s.sched := rfl
@[simp] theorem State.closeHandle_hostProg : s.closeHandle.hostProg = s.hostProg := rfl
@[simp] theorem State.closeHandle_hostPos : s.closeHandle.hostPos = s.hostPos := rfl
@[simp] theorem State.closeHandle_hostTemp : s.closeHandle.hostTemp = s.hostTemp := rfl

@[simp] theorem State.closeFailed_srcAddr : s.closeFailed.srcAddr = s.srcAddr := rfl
@[simp] theorem State.closeFailed_srcLen : s.closeFailed.srcLen = s.srcLen := rfl
@[simp] theorem State.closeFailed_dstAddr : s.closeFailed.dstAddr = s.dstAddr := rfl
@[simp] theorem State.closeFailed_dstCap : s.closeFailed.dstCap = s.dstCap := rfl
@[simp] theorem State.closeFailed_nameAddr : s.closeFailed.nameAddr = s.nameAddr := rfl
@[simp] theorem State.closeFailed_nameLen : s.closeFailed.nameLen = s.nameLen := rfl
@[simp] theorem State.closeFailed_entrySel : s.closeFailed.entrySel = s.entrySel := rfl
@[simp] theorem State.closeFailed_bitcountLo : s.closeFailed.bitcountLo = s.bitcountLo := rfl
@[simp] theorem State.closeFailed_bitcountHi : s.closeFailed.bitcountHi = s.bitcountHi := rfl
@[simp] theorem State.closeFailed_codeSel : s.closeFailed.codeSel = s.codeSel := rfl
@[simp] theorem State.closeFailed_pending : s.closeFailed.pending = s.pending := rfl
@[simp] theorem State.closeFailed_done : s.closeFailed.done = s.done := rfl
@[simp] theorem State.closeFailed_err : s.closeFailed.err = s.err := rfl
@[simp] theorem State.closeFailed_warn : s.closeFailed.warn = s.warn := rfl
@[simp] theorem State.closeFailed_errSticky : s.closeFailed.errSticky = s.errSticky := rfl
@[simp] theorem State.closeFailed_overrun : s.closeFailed.overrun = s.overrun := rfl
@[simp] theorem State.closeFailed_mode : s.closeFailed.mode = .unset := rfl
@[simp] theorem State.closeFailed_treeValid : s.closeFailed.treeValid = s.treeValid := rfl
@[simp] theorem State.closeFailed_codesValid : s.closeFailed.codesValid = s.codesValid := rfl
@[simp] theorem State.closeFailed_errcode : s.closeFailed.errcode = s.errcode := rfl
@[simp] theorem State.closeFailed_resultLen : s.closeFailed.resultLen = s.resultLen := rfl
@[simp] theorem State.closeFailed_consumed : s.closeFailed.consumed = s.consumed := rfl
@[simp] theorem State.closeFailed_entryOffset : s.closeFailed.entryOffset = s.entryOffset := rfl
@[simp] theorem State.closeFailed_entrySize : s.closeFailed.entrySize = s.entrySize := rfl
@[simp] theorem State.closeFailed_version : s.closeFailed.version = 0#32 := rfl
@[simp] theorem State.closeFailed_arcLen : s.closeFailed.arcLen = s.arcOffset := rfl
@[simp] theorem State.closeFailed_arcOffset : s.closeFailed.arcOffset = 0#32 := rfl
@[simp] theorem State.closeFailed_indexOff : s.closeFailed.indexOff = 0#32 := rfl
@[simp] theorem State.closeFailed_nodeCount : s.closeFailed.nodeCount = s.nodeCount := rfl
@[simp] theorem State.closeFailed_freq : s.closeFailed.freq = s.freq := rfl
@[simp] theorem State.closeFailed_tree : s.closeFailed.tree = s.tree := rfl
@[simp] theorem State.closeFailed_codes : s.closeFailed.codes = s.codes := rfl
@[simp] theorem State.closeFailed_idx : s.closeFailed.idx = [] := rfl
@[simp] theorem State.closeFailed_buf : s.closeFailed.buf = s.buf := rfl
@[simp] theorem State.closeFailed_arc : s.closeFailed.arc = s.arc := rfl
@[simp] theorem State.closeFailed_inReset : s.closeFailed.inReset = s.inReset := rfl
@[simp] theorem State.closeFailed_params : s.closeFailed.params = s.params := rfl
@[simp] theorem State.closeFailed_stepTag : s.closeFailed.stepTag = s.stepTag := rfl
@[simp] theorem State.closeFailed_sched : s.closeFailed.sched = s.sched := rfl
@[simp] theorem State.closeFailed_hostProg : s.closeFailed.hostProg = s.hostProg := rfl
@[simp] theorem State.closeFailed_hostPos : s.closeFailed.hostPos = s.hostPos := rfl
@[simp] theorem State.closeFailed_hostTemp : s.closeFailed.hostTemp = s.hostTemp := rfl

@[simp] theorem State.closeWritten_srcAddr : s.closeWritten.srcAddr = s.srcAddr := rfl
@[simp] theorem State.closeWritten_srcLen : s.closeWritten.srcLen = s.srcLen := rfl
@[simp] theorem State.closeWritten_dstAddr : s.closeWritten.dstAddr = s.dstAddr := rfl
@[simp] theorem State.closeWritten_dstCap : s.closeWritten.dstCap = s.dstCap := rfl
@[simp] theorem State.closeWritten_nameAddr : s.closeWritten.nameAddr = s.nameAddr := rfl
@[simp] theorem State.closeWritten_nameLen : s.closeWritten.nameLen = s.nameLen := rfl
@[simp] theorem State.closeWritten_entrySel : s.closeWritten.entrySel = s.entrySel := rfl
@[simp] theorem State.closeWritten_bitcountLo : s.closeWritten.bitcountLo = s.bitcountLo := rfl
@[simp] theorem State.closeWritten_bitcountHi : s.closeWritten.bitcountHi = s.bitcountHi := rfl
@[simp] theorem State.closeWritten_codeSel : s.closeWritten.codeSel = s.codeSel := rfl
@[simp] theorem State.closeWritten_pending : s.closeWritten.pending = s.pending := rfl
@[simp] theorem State.closeWritten_done : s.closeWritten.done = s.done := rfl
@[simp] theorem State.closeWritten_err : s.closeWritten.err = s.err := rfl
@[simp] theorem State.closeWritten_warn : s.closeWritten.warn = s.warn := rfl
@[simp] theorem State.closeWritten_errSticky : s.closeWritten.errSticky = s.errSticky := rfl
@[simp] theorem State.closeWritten_overrun : s.closeWritten.overrun = s.overrun := rfl
@[simp] theorem State.closeWritten_mode : s.closeWritten.mode = .unset := rfl
@[simp] theorem State.closeWritten_treeValid : s.closeWritten.treeValid = s.treeValid := rfl
@[simp] theorem State.closeWritten_codesValid : s.closeWritten.codesValid = s.codesValid := rfl
@[simp] theorem State.closeWritten_errcode : s.closeWritten.errcode = s.errcode := rfl
@[simp] theorem State.closeWritten_resultLen : s.closeWritten.resultLen = s.resultLen := rfl
@[simp] theorem State.closeWritten_consumed : s.closeWritten.consumed = s.consumed := rfl
@[simp] theorem State.closeWritten_entryOffset : s.closeWritten.entryOffset = s.entryOffset := rfl
@[simp] theorem State.closeWritten_entrySize : s.closeWritten.entrySize = s.entrySize := rfl
@[simp] theorem State.closeWritten_version : s.closeWritten.version = 0#32 := rfl
@[simp] theorem State.closeWritten_arcLen : s.closeWritten.arcLen = BitVec.ofNat 32 (s.arcOffset.toNat + indexLen s.idx) := rfl
@[simp] theorem State.closeWritten_arcOffset : s.closeWritten.arcOffset = 0#32 := rfl
@[simp] theorem State.closeWritten_indexOff : s.closeWritten.indexOff = s.arcOffset := rfl
@[simp] theorem State.closeWritten_nodeCount : s.closeWritten.nodeCount = s.nodeCount := rfl
@[simp] theorem State.closeWritten_freq : s.closeWritten.freq = s.freq := rfl
@[simp] theorem State.closeWritten_tree : s.closeWritten.tree = s.tree := rfl
@[simp] theorem State.closeWritten_codes : s.closeWritten.codes = s.codes := rfl
@[simp] theorem State.closeWritten_idx : s.closeWritten.idx = [] := rfl
@[simp] theorem State.closeWritten_buf : s.closeWritten.buf = s.buf := rfl
@[simp] theorem State.closeWritten_arc : s.closeWritten.arc = (s.arc.writeBytes s.arcOffset.toNat (indexSerialize s.params s.idx s.version)).writeBytes 0 (le 8 s.arcOffset.toNat) := rfl
@[simp] theorem State.closeWritten_inReset : s.closeWritten.inReset = s.inReset := rfl
@[simp] theorem State.closeWritten_params : s.closeWritten.params = s.params := rfl
@[simp] theorem State.closeWritten_stepTag : s.closeWritten.stepTag = s.stepTag := rfl
@[simp] theorem State.closeWritten_sched : s.closeWritten.sched = s.sched := rfl
@[simp] theorem State.closeWritten_hostProg : s.closeWritten.hostProg = s.hostProg := rfl
@[simp] theorem State.closeWritten_hostPos : s.closeWritten.hostPos = s.hostPos := rfl
@[simp] theorem State.closeWritten_hostTemp : s.closeWritten.hostTemp = s.hostTemp := rfl

@[simp] theorem State.openForWriting_srcAddr : s.openForWriting.srcAddr = s.srcAddr := rfl
@[simp] theorem State.openForWriting_srcLen : s.openForWriting.srcLen = s.srcLen := rfl
@[simp] theorem State.openForWriting_dstAddr : s.openForWriting.dstAddr = s.dstAddr := rfl
@[simp] theorem State.openForWriting_dstCap : s.openForWriting.dstCap = s.dstCap := rfl
@[simp] theorem State.openForWriting_nameAddr : s.openForWriting.nameAddr = s.nameAddr := rfl
@[simp] theorem State.openForWriting_nameLen : s.openForWriting.nameLen = s.nameLen := rfl
@[simp] theorem State.openForWriting_entrySel : s.openForWriting.entrySel = s.entrySel := rfl
@[simp] theorem State.openForWriting_bitcountLo : s.openForWriting.bitcountLo = s.bitcountLo := rfl
@[simp] theorem State.openForWriting_bitcountHi : s.openForWriting.bitcountHi = s.bitcountHi := rfl
@[simp] theorem State.openForWriting_codeSel : s.openForWriting.codeSel = s.codeSel := rfl
@[simp] theorem State.openForWriting_pending : s.openForWriting.pending = s.pending := rfl
@[simp] theorem State.openForWriting_done : s.openForWriting.done = s.done := rfl
@[simp] theorem State.openForWriting_err : s.openForWriting.err = s.err := rfl
@[simp] theorem State.openForWriting_warn : s.openForWriting.warn = s.warn := rfl
@[simp] theorem State.openForWriting_errSticky : s.openForWriting.errSticky = s.errSticky := rfl
@[simp] theorem State.openForWriting_overrun : s.openForWriting.overrun = s.overrun := rfl
@[simp] theorem State.openForWriting_mode : s.openForWriting.mode = .writeOpen := rfl
@[simp] theorem State.openForWriting_treeValid : s.openForWriting.treeValid = s.treeValid := rfl
@[simp] theorem State.openForWriting_codesValid : s.openForWriting.codesValid = s.codesValid := rfl
@[simp] theorem State.openForWriting_errcode : s.openForWriting.errcode = s.errcode := rfl
@[simp] theorem State.openForWriting_resultLen : s.openForWriting.resultLen = s.resultLen := rfl
@[simp] theorem State.openForWriting_consumed : s.openForWriting.consumed = s.consumed := rfl
@[simp] theorem State.openForWriting_entryOffset : s.openForWriting.entryOffset = s.entryOffset := rfl
@[simp] theorem State.openForWriting_entrySize : s.openForWriting.entrySize = s.entrySize := rfl
@[simp] theorem State.openForWriting_version : s.openForWriting.version = 0#32 := rfl
@[simp] theorem State.openForWriting_arcLen : s.openForWriting.arcLen = 8#32 := rfl
@[simp] theorem State.openForWriting_arcOffset : s.openForWriting.arcOffset = 8#32 := rfl
@[simp] theorem State.openForWriting_indexOff : s.openForWriting.indexOff = 0#32 := rfl
@[simp] theorem State.openForWriting_nodeCount : s.openForWriting.nodeCount = s.nodeCount := rfl
@[simp] theorem State.openForWriting_freq : s.openForWriting.freq = s.freq := rfl
@[simp] theorem State.openForWriting_tree : s.openForWriting.tree = s.tree := rfl
@[simp] theorem State.openForWriting_codes : s.openForWriting.codes = s.codes := rfl
@[simp] theorem State.openForWriting_idx : s.openForWriting.idx = [] := rfl
@[simp] theorem State.openForWriting_buf : s.openForWriting.buf = s.buf := rfl
@[simp] theorem State.openForWriting_arc : s.openForWriting.arc = s.arc.writeBytes 0 (le 8 0) := rfl
@[simp] theorem State.openForWriting_inReset : s.openForWriting.inReset = s.inReset := rfl
@[simp] theorem State.openForWriting_params : s.openForWriting.params = s.params := rfl
@[simp] theorem State.openForWriting_stepTag : s.openForWriting.stepTag = s.stepTag := rfl
@[simp] theorem State.openForWriting_sched : s.openForWriting.sched = s.sched := rfl
@[simp] theorem State.openForWriting_hostProg : s.openForWriting.hostProg = s.hostProg := rfl
@[simp] theorem State.openForWriting_hostPos : s.openForWriting.hostPos = s.hostPos := rfl
@[simp] theorem State.openForWriting_hostTemp : s.openForWriting.hostTemp = s.hostTemp := rfl

@[simp] theorem State.openForReading_srcAddr (o : OpenedIndex) : (s.openForReading o).srcAddr = s.srcAddr := rfl
@[simp] theorem State.openForReading_srcLen (o : OpenedIndex) : (s.openForReading o).srcLen = s.srcLen := rfl
@[simp] theorem State.openForReading_dstAddr (o : OpenedIndex) : (s.openForReading o).dstAddr = s.dstAddr := rfl
@[simp] theorem State.openForReading_dstCap (o : OpenedIndex) : (s.openForReading o).dstCap = s.dstCap := rfl
@[simp] theorem State.openForReading_nameAddr (o : OpenedIndex) : (s.openForReading o).nameAddr = s.nameAddr := rfl
@[simp] theorem State.openForReading_nameLen (o : OpenedIndex) : (s.openForReading o).nameLen = s.nameLen := rfl
@[simp] theorem State.openForReading_entrySel (o : OpenedIndex) : (s.openForReading o).entrySel = s.entrySel := rfl
@[simp] theorem State.openForReading_bitcountLo (o : OpenedIndex) : (s.openForReading o).bitcountLo = s.bitcountLo := rfl
@[simp] theorem State.openForReading_bitcountHi (o : OpenedIndex) : (s.openForReading o).bitcountHi = s.bitcountHi := rfl
@[simp] theorem State.openForReading_codeSel (o : OpenedIndex) : (s.openForReading o).codeSel = s.codeSel := rfl
@[simp] theorem State.openForReading_pending (o : OpenedIndex) : (s.openForReading o).pending = s.pending := rfl
@[simp] theorem State.openForReading_done (o : OpenedIndex) : (s.openForReading o).done = s.done := rfl
@[simp] theorem State.openForReading_err (o : OpenedIndex) : (s.openForReading o).err = s.err := rfl
@[simp] theorem State.openForReading_warn (o : OpenedIndex) : (s.openForReading o).warn = s.warn := rfl
@[simp] theorem State.openForReading_errSticky (o : OpenedIndex) : (s.openForReading o).errSticky = s.errSticky := rfl
@[simp] theorem State.openForReading_overrun (o : OpenedIndex) : (s.openForReading o).overrun = s.overrun := rfl
@[simp] theorem State.openForReading_mode (o : OpenedIndex) : (s.openForReading o).mode = .readOpen := rfl
@[simp] theorem State.openForReading_treeValid (o : OpenedIndex) : (s.openForReading o).treeValid = s.treeValid := rfl
@[simp] theorem State.openForReading_codesValid (o : OpenedIndex) : (s.openForReading o).codesValid = s.codesValid := rfl
@[simp] theorem State.openForReading_errcode (o : OpenedIndex) : (s.openForReading o).errcode = s.errcode := rfl
@[simp] theorem State.openForReading_resultLen (o : OpenedIndex) : (s.openForReading o).resultLen = s.resultLen := rfl
@[simp] theorem State.openForReading_consumed (o : OpenedIndex) : (s.openForReading o).consumed = s.consumed := rfl
@[simp] theorem State.openForReading_entryOffset (o : OpenedIndex) : (s.openForReading o).entryOffset = s.entryOffset := rfl
@[simp] theorem State.openForReading_entrySize (o : OpenedIndex) : (s.openForReading o).entrySize = s.entrySize := rfl
@[simp] theorem State.openForReading_version (o : OpenedIndex) : (s.openForReading o).version = o.version := rfl
@[simp] theorem State.openForReading_arcLen (o : OpenedIndex) : (s.openForReading o).arcLen = s.arcLen := rfl
@[simp] theorem State.openForReading_arcOffset (o : OpenedIndex) : (s.openForReading o).arcOffset = 0#32 := rfl
@[simp] theorem State.openForReading_indexOff (o : OpenedIndex) : (s.openForReading o).indexOff = BitVec.ofNat 32 o.indexOff := rfl
@[simp] theorem State.openForReading_nodeCount (o : OpenedIndex) : (s.openForReading o).nodeCount = s.nodeCount := rfl
@[simp] theorem State.openForReading_freq (o : OpenedIndex) : (s.openForReading o).freq = s.freq := rfl
@[simp] theorem State.openForReading_tree (o : OpenedIndex) : (s.openForReading o).tree = s.tree := rfl
@[simp] theorem State.openForReading_codes (o : OpenedIndex) : (s.openForReading o).codes = s.codes := rfl
@[simp] theorem State.openForReading_idx (o : OpenedIndex) : (s.openForReading o).idx = o.idx := rfl
@[simp] theorem State.openForReading_buf (o : OpenedIndex) : (s.openForReading o).buf = s.buf := rfl
@[simp] theorem State.openForReading_arc (o : OpenedIndex) : (s.openForReading o).arc = s.arc := rfl
@[simp] theorem State.openForReading_inReset (o : OpenedIndex) : (s.openForReading o).inReset = s.inReset := rfl
@[simp] theorem State.openForReading_params (o : OpenedIndex) : (s.openForReading o).params = s.params := rfl
@[simp] theorem State.openForReading_stepTag (o : OpenedIndex) : (s.openForReading o).stepTag = s.stepTag := rfl
@[simp] theorem State.openForReading_sched (o : OpenedIndex) : (s.openForReading o).sched = s.sched := rfl
@[simp] theorem State.openForReading_hostProg (o : OpenedIndex) : (s.openForReading o).hostProg = s.hostProg := rfl
@[simp] theorem State.openForReading_hostPos (o : OpenedIndex) : (s.openForReading o).hostPos = s.hostPos := rfl
@[simp] theorem State.openForReading_hostTemp (o : OpenedIndex) : (s.openForReading o).hostTemp = s.hostTemp := rfl

@[simp] theorem State.openFailed_srcAddr : s.openFailed.srcAddr = s.srcAddr := rfl
@[simp] theorem State.openFailed_srcLen : s.openFailed.srcLen = s.srcLen := rfl
@[simp] theorem State.openFailed_dstAddr : s.openFailed.dstAddr = s.dstAddr := rfl
@[simp] theorem State.openFailed_dstCap : s.openFailed.dstCap = s.dstCap := rfl
@[simp] theorem State.openFailed_nameAddr : s.openFailed.nameAddr = s.nameAddr := rfl
@[simp] theorem State.openFailed_nameLen : s.openFailed.nameLen = s.nameLen := rfl
@[simp] theorem State.openFailed_entrySel : s.openFailed.entrySel = s.entrySel := rfl
@[simp] theorem State.openFailed_bitcountLo : s.openFailed.bitcountLo = s.bitcountLo := rfl
@[simp] theorem State.openFailed_bitcountHi : s.openFailed.bitcountHi = s.bitcountHi := rfl
@[simp] theorem State.openFailed_codeSel : s.openFailed.codeSel = s.codeSel := rfl
@[simp] theorem State.openFailed_pending : s.openFailed.pending = s.pending := rfl
@[simp] theorem State.openFailed_done : s.openFailed.done = s.done := rfl
@[simp] theorem State.openFailed_err : s.openFailed.err = s.err := rfl
@[simp] theorem State.openFailed_warn : s.openFailed.warn = s.warn := rfl
@[simp] theorem State.openFailed_errSticky : s.openFailed.errSticky = s.errSticky := rfl
@[simp] theorem State.openFailed_overrun : s.openFailed.overrun = s.overrun := rfl
@[simp] theorem State.openFailed_mode : s.openFailed.mode = .unset := rfl
@[simp] theorem State.openFailed_treeValid : s.openFailed.treeValid = s.treeValid := rfl
@[simp] theorem State.openFailed_codesValid : s.openFailed.codesValid = s.codesValid := rfl
@[simp] theorem State.openFailed_errcode : s.openFailed.errcode = s.errcode := rfl
@[simp] theorem State.openFailed_resultLen : s.openFailed.resultLen = s.resultLen := rfl
@[simp] theorem State.openFailed_consumed : s.openFailed.consumed = s.consumed := rfl
@[simp] theorem State.openFailed_entryOffset : s.openFailed.entryOffset = s.entryOffset := rfl
@[simp] theorem State.openFailed_entrySize : s.openFailed.entrySize = s.entrySize := rfl
@[simp] theorem State.openFailed_version : s.openFailed.version = 0#32 := rfl
@[simp] theorem State.openFailed_arcLen : s.openFailed.arcLen = s.arcLen := rfl
@[simp] theorem State.openFailed_arcOffset : s.openFailed.arcOffset = 0#32 := rfl
@[simp] theorem State.openFailed_indexOff : s.openFailed.indexOff = 0#32 := rfl
@[simp] theorem State.openFailed_nodeCount : s.openFailed.nodeCount = s.nodeCount := rfl
@[simp] theorem State.openFailed_freq : s.openFailed.freq = s.freq := rfl
@[simp] theorem State.openFailed_tree : s.openFailed.tree = s.tree := rfl
@[simp] theorem State.openFailed_codes : s.openFailed.codes = s.codes := rfl
@[simp] theorem State.openFailed_idx : s.openFailed.idx = [] := rfl
@[simp] theorem State.openFailed_buf : s.openFailed.buf = s.buf := rfl
@[simp] theorem State.openFailed_arc : s.openFailed.arc = s.arc := rfl
@[simp] theorem State.openFailed_inReset : s.openFailed.inReset = s.inReset := rfl
@[simp] theorem State.openFailed_params : s.openFailed.params = s.params := rfl
@[simp] theorem State.openFailed_stepTag : s.openFailed.stepTag = s.stepTag := rfl
@[simp] theorem State.openFailed_sched : s.openFailed.sched = s.sched := rfl
@[simp] theorem State.openFailed_hostProg : s.openFailed.hostProg = s.hostProg := rfl
@[simp] theorem State.openFailed_hostPos : s.openFailed.hostPos = s.hostPos := rfl
@[simp] theorem State.openFailed_hostTemp : s.openFailed.hostTemp = s.hostTemp := rfl

@[simp] theorem State.engineReset_srcAddr : s.engineReset.srcAddr = 0#32 := rfl
@[simp] theorem State.engineReset_srcLen : s.engineReset.srcLen = 0#32 := rfl
@[simp] theorem State.engineReset_dstAddr : s.engineReset.dstAddr = 0#32 := rfl
@[simp] theorem State.engineReset_dstCap : s.engineReset.dstCap = 0#32 := rfl
@[simp] theorem State.engineReset_nameAddr : s.engineReset.nameAddr = 0#32 := rfl
@[simp] theorem State.engineReset_nameLen : s.engineReset.nameLen = 0#32 := rfl
@[simp] theorem State.engineReset_entrySel : s.engineReset.entrySel = 0#32 := rfl
@[simp] theorem State.engineReset_bitcountLo : s.engineReset.bitcountLo = 0#32 := rfl
@[simp] theorem State.engineReset_bitcountHi : s.engineReset.bitcountHi = 0#32 := rfl
@[simp] theorem State.engineReset_codeSel : s.engineReset.codeSel = 0#8 := rfl
@[simp] theorem State.engineReset_pending : s.engineReset.pending = none := rfl
@[simp] theorem State.engineReset_done : s.engineReset.done = false := rfl
@[simp] theorem State.engineReset_err : s.engineReset.err = false := rfl
@[simp] theorem State.engineReset_warn : s.engineReset.warn = false := rfl
@[simp] theorem State.engineReset_errSticky : s.engineReset.errSticky = false := rfl
@[simp] theorem State.engineReset_overrun : s.engineReset.overrun = false := rfl
@[simp] theorem State.engineReset_mode : s.engineReset.mode = .unset := rfl
@[simp] theorem State.engineReset_treeValid : s.engineReset.treeValid = false := rfl
@[simp] theorem State.engineReset_codesValid : s.engineReset.codesValid = false := rfl
@[simp] theorem State.engineReset_errcode : s.engineReset.errcode = .ok := rfl
@[simp] theorem State.engineReset_resultLen : s.engineReset.resultLen = 0#32 := rfl
@[simp] theorem State.engineReset_consumed : s.engineReset.consumed = 0#32 := rfl
@[simp] theorem State.engineReset_entryOffset : s.engineReset.entryOffset = 0#32 := rfl
@[simp] theorem State.engineReset_entrySize : s.engineReset.entrySize = 0#32 := rfl
@[simp] theorem State.engineReset_version : s.engineReset.version = 0#32 := rfl
@[simp] theorem State.engineReset_arcLen : s.engineReset.arcLen = 0#32 := rfl
@[simp] theorem State.engineReset_arcOffset : s.engineReset.arcOffset = 0#32 := rfl
@[simp] theorem State.engineReset_indexOff : s.engineReset.indexOff = 0#32 := rfl
@[simp] theorem State.engineReset_nodeCount : s.engineReset.nodeCount = 0#32 := rfl
@[simp] theorem State.engineReset_freq : s.engineReset.freq = zeroFreq := rfl
@[simp] theorem State.engineReset_tree : s.engineReset.tree = none := rfl
@[simp] theorem State.engineReset_codes : s.engineReset.codes = emptyCodes := rfl
@[simp] theorem State.engineReset_idx : s.engineReset.idx = [] := rfl
@[simp] theorem State.engineReset_buf : s.engineReset.buf = s.buf := rfl
@[simp] theorem State.engineReset_arc : s.engineReset.arc = s.arc := rfl
@[simp] theorem State.engineReset_inReset : s.engineReset.inReset = s.inReset := rfl
@[simp] theorem State.engineReset_params : s.engineReset.params = s.params := rfl
@[simp] theorem State.engineReset_stepTag : s.engineReset.stepTag = s.stepTag := rfl
@[simp] theorem State.engineReset_sched : s.engineReset.sched = s.sched := rfl
@[simp] theorem State.engineReset_hostProg : s.engineReset.hostProg = s.hostProg := rfl
@[simp] theorem State.engineReset_hostPos : s.engineReset.hostPos = s.hostPos := rfl
@[simp] theorem State.engineReset_hostTemp : s.engineReset.hostTemp = s.hostTemp := rfl

@[simp] theorem State.advance_srcAddr : s.advance.srcAddr = s.srcAddr := rfl
@[simp] theorem State.advance_srcLen : s.advance.srcLen = s.srcLen := rfl
@[simp] theorem State.advance_dstAddr : s.advance.dstAddr = s.dstAddr := rfl
@[simp] theorem State.advance_dstCap : s.advance.dstCap = s.dstCap := rfl
@[simp] theorem State.advance_nameAddr : s.advance.nameAddr = s.nameAddr := rfl
@[simp] theorem State.advance_nameLen : s.advance.nameLen = s.nameLen := rfl
@[simp] theorem State.advance_entrySel : s.advance.entrySel = s.entrySel := rfl
@[simp] theorem State.advance_bitcountLo : s.advance.bitcountLo = s.bitcountLo := rfl
@[simp] theorem State.advance_bitcountHi : s.advance.bitcountHi = s.bitcountHi := rfl
@[simp] theorem State.advance_codeSel : s.advance.codeSel = s.codeSel := rfl
@[simp] theorem State.advance_pending : s.advance.pending = s.pending := rfl
@[simp] theorem State.advance_done : s.advance.done = s.done := rfl
@[simp] theorem State.advance_err : s.advance.err = s.err := rfl
@[simp] theorem State.advance_warn : s.advance.warn = s.warn := rfl
@[simp] theorem State.advance_errSticky : s.advance.errSticky = s.errSticky := rfl
@[simp] theorem State.advance_overrun : s.advance.overrun = s.overrun := rfl
@[simp] theorem State.advance_mode : s.advance.mode = s.mode := rfl
@[simp] theorem State.advance_treeValid : s.advance.treeValid = s.treeValid := rfl
@[simp] theorem State.advance_codesValid : s.advance.codesValid = s.codesValid := rfl
@[simp] theorem State.advance_errcode : s.advance.errcode = s.errcode := rfl
@[simp] theorem State.advance_resultLen : s.advance.resultLen = s.resultLen := rfl
@[simp] theorem State.advance_consumed : s.advance.consumed = s.consumed := rfl
@[simp] theorem State.advance_entryOffset : s.advance.entryOffset = s.entryOffset := rfl
@[simp] theorem State.advance_entrySize : s.advance.entrySize = s.entrySize := rfl
@[simp] theorem State.advance_version : s.advance.version = s.version := rfl
@[simp] theorem State.advance_arcLen : s.advance.arcLen = s.arcLen := rfl
@[simp] theorem State.advance_arcOffset : s.advance.arcOffset = s.arcOffset := rfl
@[simp] theorem State.advance_indexOff : s.advance.indexOff = s.indexOff := rfl
@[simp] theorem State.advance_nodeCount : s.advance.nodeCount = s.nodeCount := rfl
@[simp] theorem State.advance_freq : s.advance.freq = s.freq := rfl
@[simp] theorem State.advance_tree : s.advance.tree = s.tree := rfl
@[simp] theorem State.advance_codes : s.advance.codes = s.codes := rfl
@[simp] theorem State.advance_idx : s.advance.idx = s.idx := rfl
@[simp] theorem State.advance_buf : s.advance.buf = s.buf := rfl
@[simp] theorem State.advance_arc : s.advance.arc = s.arc := rfl
@[simp] theorem State.advance_inReset : s.advance.inReset = s.inReset := rfl
@[simp] theorem State.advance_params : s.advance.params = s.params := rfl
@[simp] theorem State.advance_stepTag : s.advance.stepTag = s.stepTag := rfl
@[simp] theorem State.advance_sched : s.advance.sched = s.sched := rfl
@[simp] theorem State.advance_hostProg : s.advance.hostProg = s.hostProg := rfl
@[simp] theorem State.advance_hostPos : s.advance.hostPos = s.hostPos + 1 := rfl
@[simp] theorem State.advance_hostTemp : s.advance.hostTemp = s.hostTemp := rfl

@[simp] theorem State.placeCommand_srcAddr (w : Word) : (s.placeCommand w).srcAddr = s.srcAddr := rfl
@[simp] theorem State.placeCommand_srcLen (w : Word) : (s.placeCommand w).srcLen = s.srcLen := rfl
@[simp] theorem State.placeCommand_dstAddr (w : Word) : (s.placeCommand w).dstAddr = s.dstAddr := rfl
@[simp] theorem State.placeCommand_dstCap (w : Word) : (s.placeCommand w).dstCap = s.dstCap := rfl
@[simp] theorem State.placeCommand_nameAddr (w : Word) : (s.placeCommand w).nameAddr = s.nameAddr := rfl
@[simp] theorem State.placeCommand_nameLen (w : Word) : (s.placeCommand w).nameLen = s.nameLen := rfl
@[simp] theorem State.placeCommand_entrySel (w : Word) : (s.placeCommand w).entrySel = s.entrySel := rfl
@[simp] theorem State.placeCommand_bitcountLo (w : Word) : (s.placeCommand w).bitcountLo = s.bitcountLo := rfl
@[simp] theorem State.placeCommand_bitcountHi (w : Word) : (s.placeCommand w).bitcountHi = s.bitcountHi := rfl
@[simp] theorem State.placeCommand_codeSel (w : Word) : (s.placeCommand w).codeSel = s.codeSel := rfl
@[simp] theorem State.placeCommand_pending (w : Word) : (s.placeCommand w).pending = some w := rfl
@[simp] theorem State.placeCommand_done (w : Word) : (s.placeCommand w).done = s.done := rfl
@[simp] theorem State.placeCommand_err (w : Word) : (s.placeCommand w).err = s.err := rfl
@[simp] theorem State.placeCommand_warn (w : Word) : (s.placeCommand w).warn = s.warn := rfl
@[simp] theorem State.placeCommand_errSticky (w : Word) : (s.placeCommand w).errSticky = s.errSticky := rfl
@[simp] theorem State.placeCommand_overrun (w : Word) : (s.placeCommand w).overrun = s.overrun := rfl
@[simp] theorem State.placeCommand_mode (w : Word) : (s.placeCommand w).mode = s.mode := rfl
@[simp] theorem State.placeCommand_treeValid (w : Word) : (s.placeCommand w).treeValid = s.treeValid := rfl
@[simp] theorem State.placeCommand_codesValid (w : Word) : (s.placeCommand w).codesValid = s.codesValid := rfl
@[simp] theorem State.placeCommand_errcode (w : Word) : (s.placeCommand w).errcode = s.errcode := rfl
@[simp] theorem State.placeCommand_resultLen (w : Word) : (s.placeCommand w).resultLen = s.resultLen := rfl
@[simp] theorem State.placeCommand_consumed (w : Word) : (s.placeCommand w).consumed = s.consumed := rfl
@[simp] theorem State.placeCommand_entryOffset (w : Word) : (s.placeCommand w).entryOffset = s.entryOffset := rfl
@[simp] theorem State.placeCommand_entrySize (w : Word) : (s.placeCommand w).entrySize = s.entrySize := rfl
@[simp] theorem State.placeCommand_version (w : Word) : (s.placeCommand w).version = s.version := rfl
@[simp] theorem State.placeCommand_arcLen (w : Word) : (s.placeCommand w).arcLen = s.arcLen := rfl
@[simp] theorem State.placeCommand_arcOffset (w : Word) : (s.placeCommand w).arcOffset = s.arcOffset := rfl
@[simp] theorem State.placeCommand_indexOff (w : Word) : (s.placeCommand w).indexOff = s.indexOff := rfl
@[simp] theorem State.placeCommand_nodeCount (w : Word) : (s.placeCommand w).nodeCount = s.nodeCount := rfl
@[simp] theorem State.placeCommand_freq (w : Word) : (s.placeCommand w).freq = s.freq := rfl
@[simp] theorem State.placeCommand_tree (w : Word) : (s.placeCommand w).tree = s.tree := rfl
@[simp] theorem State.placeCommand_codes (w : Word) : (s.placeCommand w).codes = s.codes := rfl
@[simp] theorem State.placeCommand_idx (w : Word) : (s.placeCommand w).idx = s.idx := rfl
@[simp] theorem State.placeCommand_buf (w : Word) : (s.placeCommand w).buf = s.buf := rfl
@[simp] theorem State.placeCommand_arc (w : Word) : (s.placeCommand w).arc = s.arc := rfl
@[simp] theorem State.placeCommand_inReset (w : Word) : (s.placeCommand w).inReset = false := rfl
@[simp] theorem State.placeCommand_params (w : Word) : (s.placeCommand w).params = s.params := rfl
@[simp] theorem State.placeCommand_stepTag (w : Word) : (s.placeCommand w).stepTag = s.stepTag := rfl
@[simp] theorem State.placeCommand_sched (w : Word) : (s.placeCommand w).sched = [] := rfl
@[simp] theorem State.placeCommand_hostProg (w : Word) : (s.placeCommand w).hostProg = s.hostProg := rfl
@[simp] theorem State.placeCommand_hostPos (w : Word) : (s.placeCommand w).hostPos = s.hostPos := rfl
@[simp] theorem State.placeCommand_hostTemp (w : Word) : (s.placeCommand w).hostTemp = s.hostTemp := rfl

end Sys2Proof.Machine
end

