-- ==== Sys2Proof/Laws/Ops.lean ====
section
/-! SUPPORT. What each shared operation of a command can do: the checks, the output, the completion and the failure.
-/

namespace Sys2Proof.Machine

/-! ### Checks -/

@[simp] theorem checked_bind_ok {α β : Type} (a : α) (f : α → Checked β) :
    ((Except.ok a : Checked α) >>= f) = f a := rfl

@[simp] theorem checked_bind_error {α β : Type} (e : Failure) (f : α → Checked β) :
    ((Except.error e : Checked α) >>= f) = .error e := rfl

/-- A bind that succeeds is two successes. -/
theorem checked_bind_eq_ok {α β : Type} {r : Checked α} {f : α → Checked β} {b : β} :
    (r >>= f) = .ok b ↔ ∃ a, r = .ok a ∧ f a = .ok b := by
  cases r <;> simp

/-- A bind that fails fails in its first or in its second part. -/
theorem checked_bind_eq_error {α β : Type} {r : Checked α} {f : α → Checked β} {e : Failure} :
    (r >>= f) = .error e ↔ r = .error e ∨ ∃ a, r = .ok a ∧ f a = .error e := by
  cases r <;> simp

@[simp] theorem require_true (c : ErrCode) : require true c = .ok () := rfl

@[simp] theorem require_false (c : ErrCode) : require false c = raise c := rfl

theorem require_eq_ok {p : Bool} {c : ErrCode} {u : Unit} : require p c = .ok u ↔ p = true := by
  cases p <;> simp [raise]

theorem require_eq_error {p : Bool} {c : ErrCode} {e : Failure} :
    require p c = .error e ↔ p = false ∧ e = { code := c } := by
  cases p <;> simp [raise, eq_comm]

theorem emit_eq_ok {cap : Nat} {bs out : ByteString} :
    emit cap bs = .ok out ↔ bs.length ≤ cap ∧ out = bs := by
  unfold emit
  split <;> simp_all [eq_comm]

theorem emit_eq_error {cap : Nat} {bs : ByteString} {e : Failure} :
    emit cap bs = .error e ↔ cap < bs.length ∧ e = { code := .dstFull, emitted := true } := by
  unfold emit
  split <;> simp_all [eq_comm]

theorem checkRange_eq_ok {s : State} {r : Region} {u : Unit} :
    s.checkRange r = .ok u ↔ r.1 + r.2 ≤ s.params.bufSize := by
  simp [State.checkRange, require_eq_ok, State.inRange]

theorem checkRange_eq_error {s : State} {r : Region} {e : Failure} :
    s.checkRange r = .error e ↔ s.params.bufSize < r.1 + r.2 ∧ e = { code := .range } := by
  simp [State.checkRange, require_eq_error, State.inRange]

theorem checkOverlap_eq_ok {s : State} {r : Region} {u : Unit} :
    s.checkOverlap r = .ok u ↔ overlaps r s.dstRegion = false := by
  simp [State.checkOverlap, require_eq_ok]

theorem checkOverlap_eq_error {s : State} {r : Region} {e : Failure} :
    s.checkOverlap r = .error e ↔ overlaps r s.dstRegion = true ∧ e = { code := .overlap } := by
  simp [State.checkOverlap, require_eq_error]

/-- The checks of a command that reads SRC and writes DST pass exactly when its operands are good. -/
theorem checkSrcDst_eq_ok {s : State} {u : Unit} : s.checkSrcDst = .ok u ↔ SrcDstGood s := by
  simp [State.checkSrcDst, checked_bind_eq_ok, checkRange_eq_ok, checkOverlap_eq_ok, SrcDstGood,
    State.srcRegion, State.dstRegion]

/-- The checks of a command that reads SRC and writes DST fail with RANGE or OVERLAP, before any output. -/
theorem checkSrcDst_eq_error {s : State} {e : Failure} (h : s.checkSrcDst = .error e) :
    e = { code := .range } ∨ e = { code := .overlap } := by
  simp only [State.checkSrcDst, checked_bind_eq_error, checkRange_eq_error, checkOverlap_eq_error] at h
  tauto

/-! ### Completion -/

@[simp] theorem conclude_ok (s t : State) : s.conclude (.ok t) = .next t.succeed := rfl

@[simp] theorem conclude_error (s : State) (f : Failure) : s.conclude (.error f) = .next (s.fail f) := rfl

/-- A concluded command answers a next state: the completed success or the completed failure. -/
theorem conclude_eq_next {s t : State} {r : Checked State} :
    s.conclude r = .next t ↔
      (∃ u, r = .ok u ∧ t = u.succeed) ∨ ∃ f, r = .error f ∧ t = s.fail f := by
  cases r <;> simp [eq_comm]

theorem succeed_eq_doneOk (s : State) : s.succeed = doneOk s := rfl

theorem succeedWarn_eq_doneWarn (s : State) (c : ErrCode) : s.succeedWarn c = doneWarn s c := rfl

theorem reportError_eq_doneErr (s : State) (c : ErrCode) : s.reportError c = doneErr s c := rfl

/-- A failure before any output changes nothing but the completion. -/
theorem fail_plain (s : State) (c : ErrCode) : s.fail { code := c } = doneErr s c := rfl

/-- Every failure: BUF and ARC aside, the state is the one before the command with the completion of a
failure. -/
theorem fail_eq (s : State) (f : Failure) :
    s.fail f = doneErr { s with
      buf := if f.emitted then s.buf.release s.dstAddr.toNat s.dstCap.toNat s.stepTag else s.buf
      arc := match f.arcFrom with
        | some o => s.arc.release o (s.params.arcCap - o) s.stepTag
        | none => s.arc } f.code := by
  obtain ⟨c, e, a⟩ := f
  cases e <;> cases a <;> rfl

/-- A failure leaves every BUF byte outside the DST window alone. -/
theorem fail_buf_outside (s : State) (f : Failure) :
    SameOutside s.buf (s.fail f).buf s.dstAddr.toNat s.dstCap.toNat := by
  intro x hx
  rw [fail_eq]
  simp only [doneErr]
  split
  · rw [read_release, if_neg (by omega)]
  · rfl

/-- A whole-output store leaves the output in place and every other byte alone. -/
theorem storesAt_writeBytes (m : Memory) (a : Nat) (bs : ByteString) :
    StoresAt m (m.writeBytes a bs) a bs :=
  ⟨readBytes_writeBytes m a bs, fun x hx => by rw [read_writeBytes, if_neg (by omega)]⟩

/-! ### The forms a proof rewrites with -/

theorem checkRange_of_le {s : State} {r : Region} (h : r.1 + r.2 ≤ s.params.bufSize) :
    s.checkRange r = .ok () :=
  checkRange_eq_ok.2 h

theorem checkRange_of_lt {s : State} {r : Region} (h : s.params.bufSize < r.1 + r.2) :
    s.checkRange r = .error { code := .range } :=
  checkRange_eq_error.2 ⟨h, rfl⟩

theorem checkSrcDst_of_good {s : State} (h : SrcDstGood s) : s.checkSrcDst = .ok () :=
  checkSrcDst_eq_ok.2 h

theorem checkSrcDst_of_range {s : State}
    (h : s.params.bufSize < s.srcAddr.toNat + s.srcLen.toNat ∨
      s.params.bufSize < s.dstAddr.toNat + s.dstCap.toNat) :
    s.checkSrcDst = .error { code := .range } := by
  unfold State.checkSrcDst
  rcases Nat.lt_or_ge s.params.bufSize (s.srcAddr.toNat + s.srcLen.toNat) with a | a
  · rw [checkRange_of_lt (r := s.srcRegion) a]; rfl
  · rw [checkRange_of_le (r := s.srcRegion) a, checkRange_of_lt (r := s.dstRegion)]
    · rfl
    · exact h.resolve_left (by omega)

theorem checkSrcDst_of_overlap {s : State} (hs : s.srcAddr.toNat + s.srcLen.toNat ≤ s.params.bufSize)
    (hd : s.dstAddr.toNat + s.dstCap.toNat ≤ s.params.bufSize)
    (ho : overlaps s.srcRegion s.dstRegion = true) : s.checkSrcDst = .error { code := .overlap } := by
  unfold State.checkSrcDst
  rw [checkRange_of_le (r := s.srcRegion) hs, checkRange_of_le (r := s.dstRegion) hd]
  exact checkOverlap_eq_error.2 ⟨ho, rfl⟩

/-- A command that fails with the failure of the checks on SRC and DST makes them before anything else. -/
theorem afterOperandChecks_of {i : Instr} {s : State} {P : Prop}
    (h1 : ∀ f, s.checkSrcDst = .error f → exec i s = .next (s.fail f)) (h2 : SrcDstGood s → P) :
    AfterOperandChecks i s P := by
  refine ⟨fun h => h1 _ (checkSrcDst_of_range h), fun a b c d e f => ?_, h2⟩
  refine h1 _ (checkSrcDst_of_overlap a b ?_)
  simp [overlaps, State.srcRegion, State.dstRegion, c, d, e, f]

theorem emit_of_le {cap : Nat} {bs : ByteString} (h : bs.length ≤ cap) : emit cap bs = .ok bs :=
  emit_eq_ok.2 ⟨h, rfl⟩

theorem emit_of_lt {cap : Nat} {bs : ByteString} (h : cap < bs.length) :
    emit cap bs = .error { code := .dstFull, emitted := true } :=
  emit_eq_error.2 ⟨h, rfl⟩

/-- A failure after output began opens the DST window and nothing else. -/
theorem fail_emitted (s : State) (c : ErrCode) : s.fail { code := c, emitted := true } =
    doneErr { s with buf := s.buf.release s.dstAddr.toNat s.dstCap.toNat s.stepTag } c := rfl

theorem sameOutside_release (m : Memory) (a n tag : Nat) : SameOutside m (m.release a n tag) a n :=
  fun x hx => by rw [read_release, if_neg (by omega)]

/-- Success results whose CONSUMED is a register's value. -/
theorem results_toNat (s : State) (n : Nat) (w : Word) :
    s.results n w.toNat = { s with resultLen := BitVec.ofNat 32 n, consumed := w } := by
  simp [State.results]

theorem ioFail_never {s : State} (h : s.params.ioFault = .never) (d : IoDraw) : s.ioFail d = false := by
  simp [State.ioFail, h]

/-- A command draws at one point (R21). -/
theorem drawsAt_once (s : State) : s.drawsAt .implicitClose = !s.drawsAt .command := by
  simp [State.drawsAt]

/-- The archive store fails at one point of a command at most (R21). -/
theorem ioFail_once (s : State) : (s.ioFail .implicitClose && s.ioFail .command) = false := by
  unfold State.ioFail
  split
  · rfl
  · simp only [drawsAt_once]; cases s.drawsAt .command <;> simp

end Sys2Proof.Machine
end

