-- ==== Sys2Proof/Laws/Data.lean ====
section
/-! SUPPORT. What the shared computations of the codec and of the path index can give. -/

namespace Sys2Proof.Machine

/-! ### 256-entry tables -/

@[simp] theorem length_symbols : symbols.length = 256 := by
  rw [symbols, List.length_map, List.length_range]

theorem getElem?_symbols {i : Nat} (h : i < 256) : symbols[i]? = some (BitVec.ofNat 8 i) := by
  rw [symbols, List.getElem?_map, List.getElem?_range h, Option.map_some]

/-- The entries of a table, in the order of the byte values. -/
theorem toList_eq_map {α : Type} (t : Vector α 256) : t.toList = symbols.map (entryAt t) := by
  apply List.ext_getElem?
  intro i
  rw [List.getElem?_map]
  rcases Nat.lt_or_ge i 256 with h | h
  · have e : (BitVec.ofNat 8 i).toNat = i := by rw [BitVec.toNat_ofNat]; omega
    rw [getElem?_symbols h, Option.map_some, entryAt]
    simp only [e]
    rw [List.getElem?_eq_getElem (by rwa [Vector.length_toList]), Vector.getElem_toList]
  · rw [List.getElem?_eq_none (by rwa [Vector.length_toList]), List.getElem?_eq_none (by rwa [length_symbols])]
    rfl

/-- The symbols that occur, as a filter (R46, R88). -/
theorem present_eq (f : FreqTable) : present f = symbols.filter fun v => entryAt f v != 0#32 := by
  have hz : ∀ (l : List Byte) (g : Byte → Word),
      ((l.zip (l.map g)).filter fun e => e.2 != 0#32).map Prod.fst = l.filter fun v => g v != 0#32 := by
    intro l g
    induction l with
    | nil => rfl
    | cons v l ih =>
      simp only [List.map_cons, List.zip_cons_cons, List.filter_cons]
      split <;> simp [ih]
  rw [present, toList_eq_map, hz]

@[simp] theorem mem_symbols (v : Byte) : v ∈ symbols := by revert v; decide +kernel

@[simp] theorem mem_present {f : FreqTable} {v : Byte} : v ∈ present f ↔ entryAt f v ≠ 0#32 := by
  simp [present_eq]

/-! ### Bit packer, codec, path index -/

theorem length_packBytes (n : Nat) (bits : BitString) : (packBytes n bits).length = n := by
  induction n generalizing bits with
  | zero => rfl
  | succ n ih => simp [packBytes, ih]

@[simp] theorem length_pack (bits : BitString) : (pack bits).length = (bits.length + 7) / 8 := by
  simp [pack, length_packBytes, ceilDiv8]

/-- The bytes a walk emits fit the capacity. -/
theorem length_walkFrom {root : Node} {cap p : Nat} {n : Node} {bits : BitString} {out : ByteString}
    (hp : p ≤ cap) (h : walkFrom root cap p n bits = .ok out) : p + out.length ≤ cap := by
  induction bits generalizing p n out with
  | nil =>
    simp only [walkFrom] at h
    split at h <;> simp_all [raiseAfter]
  | cons b bits ih =>
    simp only [walkFrom] at h
    split at h
    · split at h
      · split at h
        · rename_i hr
          cases h
          have := ih (by omega) hr
          simp only [List.length_cons]; omega
        · cases h
      · cases h
    · cases h
    · exact ih hp h
    · cases h

theorem length_walk {cap m : Nat} {t : Option Node} {b out : ByteString} (h : walk cap t b m = .ok out) :
    out.length ≤ cap := by
  unfold walk at h
  split at h
  · cases h; simp
  · split at h
    · cases h
    · have := length_walkFrom (Nat.zero_le cap) h; omega

theorem insertEntry_spec (e : Entry) (l : List Entry) (h : ∀ x ∈ l, x.path ≠ e.path) :
    (insertEntry e l).length = l.length + 1 ∧ ∀ x, x ∈ insertEntry e l ↔ x = e ∨ x ∈ l := by
  induction l with
  | nil => simp [insertEntry]
  | cons a l ih =>
    have h1 := h a (by simp)
    obtain ⟨ih1, ih2⟩ := ih (fun x hx => h x (by simp [hx]))
    simp only [insertEntry, if_neg (Ne.symm h1)]
    split
    · simp
    · refine ⟨by simp [ih1], fun x => ?_⟩
      simp only [List.mem_cons, ih2]; tauto

/-- The decoded bytes of a block fit the capacity. -/
theorem length_decodeBlock {p : TiePolicy} {cap : Nat} {b : ByteString} {d : Decoded}
    (h : decodeBlock p cap b = .ok d) : d.out.length ≤ cap := by
  simp only [decodeBlock, checked_bind_eq_ok] at h
  obtain ⟨⟨f, c⟩, -, h⟩ := h
  split at h
  · cases h; simp
  · simp only [checked_bind_eq_ok] at h
    obtain ⟨-, -, -, -, out, hw, h⟩ := h
    cases h
    exact length_walk hw

theorem findEntry_isNone {n : ByteString} {l : List Entry} :
    (findEntry n l).isNone = true ↔ ∀ e ∈ l, e.path ≠ n := by
  simp [findEntry]

/-- The state changes of AR_CLOSE, by mode and by what the archive store does. -/
theorem closeArchive_cases (s : State) (d : IoDraw) :
    (s.mode = .unset ∧ s.closeArchive d = (s.results 0 0, none)) ∨
    (s.mode = .readOpen ∧ s.closeArchive d =
      ({ s with idx := [], version := 0, mode := .unset }.results 0 0, none)) ∨
    (s.mode = .writeOpen ∧ s.params.arcCap < s.arcOffset.toNat + indexLen s.idx ∧
      s.closeArchive d = (s.closeFailed, some .io)) ∨
    (s.mode = .writeOpen ∧ s.arcOffset.toNat + indexLen s.idx ≤ s.params.arcCap ∧ s.ioFail d = true ∧
      s.closeArchive d = ((s.releaseArc (max 8 s.arcOffset.toNat)).closeFailed, some .io)) ∨
    (s.mode = .writeOpen ∧ s.arcOffset.toNat + indexLen s.idx ≤ s.params.arcCap ∧ s.ioFail d = false ∧
      s.closeArchive d = (s.closeWritten.results (indexLen s.idx) 0, none)) := by
  unfold State.closeArchive
  cases hm : s.mode with
  | unset => simp
  | readOpen => simp
  | writeOpen =>
    by_cases h : s.params.arcCap < s.arcOffset.toNat + indexLen s.idx
    · simp [h]
    · cases hi : s.ioFail d <;> simp [h] <;> omega

/-- A port write leaves the state alone, sets OVERRUN, or is the write of one register. -/
theorem portWrite_cases (s : State) (off : BitVec 12) (v : Word) :
    (s.inReset = true ∧ s.portWrite off v = s) ∨
    (s.inReset = false ∧ s.busy = true ∧ s.portWrite off v = { s with overrun := true }) ∨
    (s.inReset = false ∧ s.busy = false ∧ regAt off.toNat = none ∧ s.portWrite off v = s) ∨
    ∃ r, s.inReset = false ∧ s.busy = false ∧ regAt off.toNat = some r ∧
      s.portWrite off v = s.writeReg r v := by
  unfold State.portWrite
  cases hr : s.inReset <;> cases hb : s.busy <;> cases ho : regAt off.toNat <;> simp

/-- A step is a turn of the engine or of the host, with the turn taken off the schedule. -/
theorem step_cases (s : State) :
    (∃ turns, s.sched = .engine :: turns ∧ step s = engineMove { s with sched := turns }) ∨
    (∃ turns, s.sched = .host :: turns ∧ step s = hostMove { s with sched := turns }) ∨
    (s.sched = [] ∧ s.engineReady = true ∧ step s = engineMove s) ∨
    (s.sched = [] ∧ s.engineReady = false ∧ step s = hostMove s) := by
  unfold step takeTurn
  cases hs : s.sched with
  | nil => cases hr : s.engineReady <;> simp
  | cons a turns => cases a <;> simp

/-- A turn of the engine changes nothing, runs the latched command, or completes an illegal word. -/
theorem engineMove_cases (s : State) :
    (s.inReset = true ∨ s.pending = none) ∧ engineMove s = .next s ∨
    (∃ w i, s.inReset = false ∧ s.pending = some w ∧ decode w = .ok i ∧ engineMove s = exec i s) ∨
    ∃ w e, s.inReset = false ∧ s.pending = some w ∧ decode w = .error e ∧
      engineMove s = .next (doneErr s .illegalCmd) := by
  unfold engineMove
  cases hr : s.inReset with
  | true => simp
  | false =>
    cases hp : s.pending with
    | none => simp
    | some w =>
      cases hd : decode w with
      | ok i => simp [hd]
      | error e => simp [hd, State.illegal, fail_plain]

end Sys2Proof.Machine
end

