-- ==== Sys2Proof/Laws/PerInstr.lean ====
section
/-! SUPPORT. Per command: it is well formed, and its encoding is a legal word that holds its opcode. -/

namespace Sys2Proof.Laws.Encoding

/-- A command is well formed (R82), its encoding is a legal word (R84), and the two fields of the word are
its opcode and 0 (R80). -/
abbrev Statement (i : Instr) : Prop :=
  i.wellFormed = true ∧ wordLegal (encode i) = true ∧ opField (encode i) = opcode i ∧
    rsvField (encode i) = 0#24

theorem nop : Statement .nop := by decide

theorem freqCount : Statement .freqCount := by decide

theorem freqSer : Statement .freqSer := by decide

theorem freqDes : Statement .freqDes := by decide

theorem treeBuild : Statement .treeBuild := by decide

theorem codeGen : Statement .codeGen := by decide

theorem symEncode : Statement .symEncode := by decide

theorem symDecode : Statement .symDecode := by decide

theorem hufEncode : Statement .hufEncode := by decide

theorem hufDecode : Statement .hufDecode := by decide

theorem frame : Statement .frame := by decide

theorem unframe : Statement .unframe := by decide

theorem arOpenW : Statement .arOpenW := by decide

theorem arOpenR : Statement .arOpenR := by decide

theorem arAdd : Statement .arAdd := by decide

theorem arClose : Statement .arClose := by decide

theorem arGet : Statement .arGet := by decide

theorem arEnum : Statement .arEnum := by decide

theorem arSetver : Statement .arSetver := by decide

theorem arGetver : Statement .arGetver := by decide

theorem sreset : Statement .sreset := by decide

end Sys2Proof.Laws.Encoding
end

