-- ==== Sys2Proof/Tests/Slice0.lean ====
section
/-! SUPPORT. Tests of the model on small states (the expected values are those of spec/95_test_vectors.md unless a
comment says otherwise), ill-formed terms that the checks refuse, and for each statement with
hypotheses a state and operands that meet them. -/

namespace Sys2Proof.Tests

set_option Elab.async false

open Sys2Proof Sys2Proof.Machine

/-! ### Helpers -/

/-- The next state of an outcome, if it is one. -/
def next? : Outcome → Option State
  | .next t => some t
  | .fault _ => none
  | .refused _ => none

/-- After a command: STATUS, ERRCODE, RESULT_LEN and CONSUMED. -/
def report (i : Instr) (s : State) : Option (Nat × ErrCode × Nat × Nat) :=
  (next? (exec i s)).map fun t => (t.statusWord.toNat, t.errcode, t.resultLen.toNat, t.consumed.toNat)

/-- After a command: n bytes of BUF at 0x100. -/
def dst (i : Instr) (s : State) (n : Nat) : Option ByteString :=
  (next? (exec i s)).map fun t => t.buf.readBytes 0x100 n

/-- Reset, with bytes at BUF 0, SRC (0, n) and DST (0x100, c). -/
def base (bs : ByteString) (n c : Nat) : State :=
  { State.reset with
    buf := (Memory.empty .buf).writeBytes 0 bs, srcLen := BitVec.ofNat 32 n, dstAddr := 0x100#32
    dstCap := BitVec.ofNat 32 c }

/-- A state with the table, the tree and the codes of a byte string. -/
def coded (b : ByteString) (s : State) : State :=
  (({ s with freq := countFreq b }.setTree (countFreq b))).setCodes

/-- A write session with nothing in it (as AR_OPEN_W leaves it), and the name "data" at 0x010. -/
def writing (bs : ByteString) (n : Nat) : State :=
  let s := base bs n 0x10
  { s with
    buf := s.buf.writeBytes 0x10 [0x64, 0x61, 0x74, 0x61], nameAddr := 0x10#32, nameLen := 4#32
    mode := .writeOpen, arcLen := 8#32, arcOffset := 8#32 }

/-- The file of V-A1. -/
def fileA1 : ByteString :=
  [0x48, 0x00, 0x00, 0x00, 0x00, 0x00, 0x00, 0x00, 0x15, 0x7C, 0x4A, 0x7F, 0xB9, 0x79, 0x37, 0x9E] ++
  [0x06, 0x00, 0x00, 0x00, 0x00, 0x01, 0x00, 0x00, 0x00, 0x01, 0x01, 0x00, 0x00, 0x00, 0x02, 0x01] ++
  [0x00, 0x00, 0x00, 0x05, 0x01, 0x00, 0x00, 0x00, 0x20, 0x01, 0x00, 0x00, 0x00, 0x34, 0x01, 0x00] ++
  [0x00, 0x00, 0x10, 0x00, 0x00, 0x00, 0x00, 0x00, 0x00, 0x00, 0x7C, 0x36, 0x00, 0x00, 0x00, 0x00] ++
  [0x4F, 0xEB, 0xD4, 0x27, 0x3D, 0xAE, 0xB2, 0xC2, 0xF9, 0x79, 0x37, 0x9E, 0xB1, 0x67, 0x56, 0x16] ++
  [0x18, 0x00, 0x00, 0x00, 0x00, 0x00, 0x00, 0x00, 0x04, 0x00, 0x00, 0x00, 0x64, 0x61, 0x74, 0x61] ++
  [0x08, 0x00, 0x00, 0x00, 0x00, 0x00, 0x00, 0x00, 0x40, 0x00, 0x00, 0x00, 0x00, 0x00, 0x00, 0x00] ++
  [0x93, 0xFD, 0x59, 0x66, 0xB8, 0xFE, 0xE8, 0xD6]

/-- The file of V-A3. -/
def fileA3 : ByteString :=
  [0x08, 0x00, 0x00, 0x00, 0x00, 0x00, 0x00, 0x00, 0xF9, 0x79, 0x37, 0x9E, 0xB1, 0x67, 0x56, 0x16] ++
  [0x00, 0x00, 0x00, 0x00, 0x00, 0x00, 0x00, 0x00, 0x93, 0xFD, 0x59, 0x66, 0xB8, 0xFE, 0xE8, 0xD6]

/-- A closed handle with a file in ARC, and the name "data" at 0x010. -/
def loaded (f : ByteString) : State :=
  { writing [] 0 with
    arc := (Memory.empty .arc).writeBytes 0 f, arcLen := BitVec.ofNat 32 f.length, mode := .unset
    arcOffset := 0#32 }

/-- V-A1 opened for reading. -/
def reading : State :=
  { loaded fileA1 with
    mode := .readOpen, indexOff := 72#32
    idx := [{ path := [0x64, 0x61, 0x74, 0x61], offset := 8#32, size := 64#32 }] }

/-- The bytes of "abracadabra". -/
def abra : ByteString := [0x61, 0x62, 0x72, 0x61, 0x63, 0x61, 0x64, 0x61, 0x62, 0x72, 0x61]

/-! ### Decoding: every row's word, bit by bit (30_encoding.md R80, R83) -/

theorem test_decode_words_low :
    decode 0b00000000000000000000000000000000#32 = .ok .nop ∧
    decode 0b00000000000000000000000000000001#32 = .ok .freqCount ∧
    decode 0b00000000000000000000000000000010#32 = .ok .freqSer ∧
    decode 0b00000000000000000000000000000011#32 = .ok .freqDes ∧
    decode 0b00000000000000000000000000000100#32 = .ok .treeBuild ∧
    decode 0b00000000000000000000000000000101#32 = .ok .codeGen ∧
    decode 0b00000000000000000000000000000110#32 = .ok .symEncode ∧
    decode 0b00000000000000000000000000000111#32 = .ok .symDecode ∧
    decode 0b00000000000000000000000000001000#32 = .ok .hufEncode ∧
    decode 0b00000000000000000000000000001001#32 = .ok .hufDecode ∧
    decode 0b00000000000000000000000000001010#32 = .ok .frame ∧
    decode 0b00000000000000000000000000001011#32 = .ok .unframe := by decide

theorem test_decode_words_high :
    decode 0b00000000000000000000000000010000#32 = .ok .arOpenW ∧
    decode 0b00000000000000000000000000010001#32 = .ok .arOpenR ∧
    decode 0b00000000000000000000000000010010#32 = .ok .arAdd ∧
    decode 0b00000000000000000000000000010011#32 = .ok .arClose ∧
    decode 0b00000000000000000000000000010100#32 = .ok .arGet ∧
    decode 0b00000000000000000000000000010101#32 = .ok .arEnum ∧
    decode 0b00000000000000000000000000010110#32 = .ok .arSetver ∧
    decode 0b00000000000000000000000000010111#32 = .ok .arGetver ∧
    decode 0b00000000000000000000000000100000#32 = .ok .sreset := by decide

/-- The illegal words of R84, at the ends of its ranges, and one with a reserved bit set (V-E4). -/
theorem test_decode_refuses :
    decode 0x0C#32 = .error (.unassignedOpcode 0x0C#8) ∧
    decode 0x0F#32 = .error (.unassignedOpcode 0x0F#8) ∧
    decode 0x18#32 = .error (.unassignedOpcode 0x18#8) ∧
    decode 0x1F#32 = .error (.unassignedOpcode 0x1F#8) ∧
    decode 0x21#32 = .error (.unassignedOpcode 0x21#8) ∧
    decode 0xFF#32 = .error (.unassignedOpcode 0xFF#8) ∧
    decode 0x00000108#32 = .error .reservedNotZero ∧
    decode 0x80000000#32 = .error .reservedNotZero := by decide

/-- A step from reset fetches and runs the placed word. -/
theorem test_step_runs_placed_word :
    decodeTableWord 32 0x17 = some .arGetver ∧
    (next? (step (State.reset.withFetchWord 32 0x17))).map (fun t => (t.done, t.busy, t.errcode)) =
      some (true, false, .ok) := by decide

/-- Every row of the opcode map is decoded from its table word, and runs to completion as the first
command after reset. -/
theorem test_every_row_runs_after_reset :
    (opcodeMap.all fun r => decodeTableWord 32 r.1.toNat == some r.2 &&
      (next? (step (State.reset.withFetchWord 32 r.1.toNat))).map (fun t => (t.done, t.pending)) ==
        some (true, none)) = true := by decide +kernel

/-! ### Well-formedness: an ill-formed term for each check (R10, R11, R61, R84, R85) -/

theorem test_params_default_valid : Params.default.valid = true := by decide

theorem test_params_refused :
    ({ Params.default with bufSize := 0 }).valid = false ∧
    ({ Params.default with bufSize := 2 ^ 32 + 1 }).valid = false ∧
    ({ Params.default with arcCap := 31 }).valid = false ∧
    ({ Params.default with arcCap := 2 ^ 32 }).valid = false ∧
    ({ Params.default with maxEntries := 0 }).valid = false ∧
    ({ Params.default with maxNameLen := 0 }).valid = false ∧
    ({ Params.default with nameCap := 4095 }).valid = false ∧
    ({ Params.default with nameCap := 2 ^ 32 }).valid = false ∧
    ({ Params.default with indexTail := Params.default.streamHead }).valid = false := by decide

theorem test_word_refused :
    wordLegal 0x0C#32 = false ∧ wordLegal 0x18#32 = false ∧ wordLegal 0x21#32 = false ∧
    wordLegal 0x100#32 = false ∧ wordLegal 0x20#32 = true := by decide

theorem test_access_refused :
    accessWellFormed 8 0x004#12 = false ∧ accessWellFormed 32 0x006#12 = false ∧
    accessWellFormed 32 0x004#12 = true ∧
    next? (runLine State.reset (.portWrite 16 0x004#12 0#32)) = none := by decide

theorem test_program_refused :
    programWellFormed [.label 1, .label 1] = false ∧ programWellFormed [.jmp 2, .label 1] = false ∧
    programWellFormed [.portRead 8 0x000#12] = false ∧
    programWellFormed [.label 1, .beq (.field .busy) 1#32 1, .halt] = true := by decide

/-! ### Commands: one step each -/

/-- V-E6: NOP after a failure clears ERR and ERRCODE and leaves ERR_STICKY. -/
theorem test_nop : report .nop (doneErr State.reset .illegalCmd) = some (0x12, .ok, 0, 0) := by decide

/-- V-M1. -/
theorem test_freq_count :
    (next? (exec .freqCount (base [0x61, 0x61, 0x62] 3 0))).map (fun t =>
      (t.portRead 0x584#12, t.portRead 0x588#12, t.portRead 0x05C#12, t.statusWord, t.consumed)) =
      some (2#32, 1#32, 2#32, 2#32, 3#32) := by decide +kernel

/-- V-M15. -/
theorem test_freq_count_range :
    report .freqCount { State.reset with srcAddr := 0xFFFF#32, srcLen := 2#32 } =
      some (0x16, .range, 0, 0) := by decide +kernel

/-- V-M3. -/
theorem test_freq_ser :
    dst .freqSer (coded [0x61, 0x61, 0x62] (base [] 0 0x20)) 14 =
      some [0x02, 0, 0, 0, 0x61, 0x02, 0, 0, 0, 0x62, 0x01, 0, 0, 0] := by decide +kernel

/-- V-M5. -/
theorem test_freq_ser_full :
    report .freqSer { base [] 0 13 with freq := countFreq [0x61, 0x61, 0x62] } =
      some (0x16, .dstFull, 0, 0) := by decide +kernel

/-- V-M7: the trailing FF is ignored. -/
theorem test_freq_des :
    (next? (exec .freqDes (base [0x01, 0, 0, 0, 0x41, 0x04, 0, 0, 0, 0xFF] 10 0))).map (fun t =>
      (t.portRead 0x504#12, t.portRead 0x05C#12, t.consumed)) = some (4#32, 1#32, 9#32) := by
  decide +kernel

/-- V-M13: a zero count. -/
theorem test_freq_des_format :
    report .freqDes (base [0x01, 0, 0, 0, 0x41, 0, 0, 0, 0] 9 0) = some (0x16, .format, 0, 0) := by
  decide +kernel

/-- V-T3: the node count of "abracadabra". -/
theorem test_tree_build :
    (next? (exec .treeBuild { State.reset with freq := countFreq abra })).map
      (fun t => (t.nodeCount, t.statusWord)) = some (9#32, 0x102#32) := by decide +kernel

/-- V-T3: the codes of "abracadabra", under both policies. -/
theorem test_code_gen :
    (codesOf .highKeyFirst (countFreq abra))[0x64] = [true, true, true, false] ∧
    (codesOf .lowKeyFirst (countFreq abra))[0x64] = [true, true, true, true] ∧
    (next? (exec .codeGen (coded abra State.reset))).map (fun t => (t.portRead 0x064#12, t.statusWord)) =
      some (4#32, 0x302#32) := by decide +kernel

/-- V-T10. -/
theorem test_code_gen_state : report .codeGen State.reset = some (0x16, .state, 0, 0) := by decide

/-- V-P2. -/
theorem test_sym_encode :
    dst .symEncode (coded abra (base abra 11 8)) 3 = some [0x9A, 0x77, 0x1A] := by decide +kernel

/-- V-P12: a byte without a code. -/
theorem test_sym_encode_state :
    report .symEncode (coded [0x41, 0x42] (base [0x43] 1 8)) = some (0x316, .state, 0, 0) := by
  decide +kernel

/-- V-P5: the bits above BITCOUNT are ignored. -/
theorem test_sym_decode :
    dst .symDecode { coded [0x41, 0x42] (base [0xFD] 1 8) with bitcountLo := 3#32 } 3 =
      some [0x41, 0x42, 0x41] := by decide +kernel

/-- V-P8: bit 0 reaches the placeholder. -/
theorem test_sym_decode_corrupt :
    report .symDecode { coded [0x41] (base [0x00] 1 8) with bitcountLo := 1#32 } =
      some (0x316, .corrupt, 0, 0) := by decide +kernel

/-- V-C5b. -/
theorem test_huf_encode :
    dst .hufEncode (base [0x41, 0x42, 0x42] 3 0x40) 23 =
      some ([0x02, 0, 0, 0, 0x41, 0x01, 0, 0, 0, 0x42, 0x02, 0, 0, 0] ++
        [0x03, 0, 0, 0, 0, 0, 0, 0, 0x06]) := by decide +kernel

/-- V-C1. -/
theorem test_huf_encode_empty :
    report .hufEncode (base [] 0 0x40) = some (0x302, .ok, 12, 0) := by decide +kernel

/-- V-C10. -/
theorem test_huf_decode :
    dst .hufDecode (base ([0x02, 0, 0, 0, 0x41, 0x01, 0, 0, 0, 0x42, 0x01, 0, 0, 0] ++
      [0x03, 0, 0, 0, 0, 0, 0, 0, 0x05]) 23 0x10) 3 = some [0x41, 0x42, 0x41] := by decide +kernel

/-- V-C8. -/
theorem test_huf_decode_corrupt :
    report .hufDecode (base ([0x01, 0, 0, 0, 0x41, 0x01, 0, 0, 0] ++ [0x01, 0, 0, 0, 0, 0, 0, 0, 0x00]) 18 0x10) =
      some (0x16, .corrupt, 0, 0) := by decide +kernel

/-- V-F2 with one source byte: 7 bytes of padding (R117). -/
theorem test_frame :
    dst .frame (base [0xAA] 1 0x40) 24 =
      some ([0x15, 0x7C, 0x4A, 0x7F, 0xB9, 0x79, 0x37, 0x9E] ++ [0xAA, 0, 0, 0, 0, 0, 0, 0] ++
        [0x4F, 0xEB, 0xD4, 0x27, 0x3D, 0xAE, 0xB2, 0xC2]) := by decide +kernel

/-- R65: SRC (0, 0x10) and DST (0xF, 1) overlap. -/
theorem test_frame_overlap :
    report .frame { base [] 0x10 1 with dstAddr := 0xF#32 } = some (0x16, .overlap, 0, 0) := by
  decide +kernel

/-- V-F12: the padding is not checked. -/
theorem test_unframe :
    dst .unframe (base ([0x15, 0x7C, 0x4A, 0x7F, 0xB9, 0x79, 0x37, 0x9E] ++ [1, 0, 0, 0, 0, 0, 0, 0xFF] ++
      [0x4F, 0xEB, 0xD4, 0x27, 0x3D, 0xAE, 0xB2, 0xC2]) 24 0x10) 8 = some [1, 0, 0, 0, 0, 0, 0, 0xFF] := by
  decide +kernel

/-- V-F10: a wrong head sentinel. -/
theorem test_unframe_format :
    report .unframe (base ([0x14, 0x7C, 0x4A, 0x7F, 0xB9, 0x79, 0x37, 0x9E] ++
      [0x4F, 0xEB, 0xD4, 0x27, 0x3D, 0xAE, 0xB2, 0xC2]) 16 0x10) = some (0x16, .format, 0, 0) := by
  decide +kernel

/-- V-A1's first command, over bytes that were there before. -/
theorem test_ar_open_w :
    (next? (exec .arOpenW (loaded fileA3))).map (fun t =>
      (t.arc.readBytes 0 9, t.arcLen, t.arcOffset, t.mode, t.resultLen)) =
      some ([0, 0, 0, 0, 0, 0, 0, 0, 0xF9], 8#32, 8#32, .writeOpen, 8#32) := by decide +kernel

/-- V-A1's fourth command. -/
theorem test_ar_open_r :
    (next? (exec .arOpenR (loaded fileA1))).map (fun t => (t.mode, t.indexOff, t.version, t.idx)) =
      some (.readOpen, 72#32, 0#32,
        [{ path := [0x64, 0x61, 0x74, 0x61], offset := 8#32, size := 64#32 }]) := by decide +kernel

/-- V-A6. -/
theorem test_ar_open_r_format :
    report .arOpenR { State.reset with arcLen := 31#32 } = some (0x16, .format, 0, 0) := by decide +kernel

/-- V-A1's second command: the frame is bytes 8 to 71 of the file. -/
theorem test_ar_add :
    (next? (exec .arAdd (writing [0x01, 0x02, 0x05, 0x00, 0x20, 0x34] 6))).map (fun t =>
      (t.arc.readBytes 8 64, t.entryOffset, t.entrySize, t.arcLen, t.resultLen)) =
      some ((fileA1.drop 8).take 64, 8#32, 64#32, 72#32, 64#32) := by decide +kernel

/-- V-A23. -/
theorem test_ar_add_arg :
    report .arAdd { writing [] 0 with nameLen := 0#32 } = some (0x56, .arg, 0, 0) := by decide +kernel

/-- V-A1's third command: the index is bytes 72 to 119 of the file, and the header is patched. -/
theorem test_ar_close :
    (next? (exec .arClose { reading with mode := .writeOpen, arcOffset := 72#32, arc := Memory.empty .arc })).map
      (fun t => (t.arc.readBytes 0 8, t.arc.readBytes 72 48, t.arcLen, t.indexOff, t.resultLen)) =
      some (fileA1.take 8, fileA1.drop 72, 120#32, 72#32, 48#32) := by decide +kernel

/-- V-A26. -/
theorem test_ar_close_reading :
    (next? (exec .arClose reading)).map (fun t => (t.mode, t.idx, t.indexOff, t.arcLen)) =
      some (.unset, [], 72#32, 120#32) := by decide +kernel

/-- V-A1's fifth command. -/
theorem test_ar_get :
    dst .arGet reading 6 = some [0x01, 0x02, 0x05, 0x00, 0x20, 0x34] := by decide +kernel

/-- V-A16. -/
theorem test_ar_get_not_found :
    report .arGet { reading with nameLen := 3#32 } = some (0x96, .notFound, 0, 0) := by decide +kernel

/-- ENTRY_SEL 0 of V-A1 (R141). -/
theorem test_ar_enum : dst .arEnum reading 4 = some [0x64, 0x61, 0x74, 0x61] := by decide +kernel

/-- V-A20. -/
theorem test_ar_enum_mode : report .arEnum State.reset = some (0x16, .mode, 0, 0) := by decide

/-- V-V1. -/
theorem test_ar_setver :
    (next? (exec .arSetver (writing [0x33, 0x2E, 0x31, 0x34, 0x2E, 0x31] 6))).map (·.version) =
      some 0x00838E81#32 := by decide +kernel

/-- V-V7: "1.1." is a warning that leaves VERSION alone. -/
theorem test_ar_setver_warn :
    (next? (exec .arSetver { writing [0x31, 0x2E, 0x31, 0x2E] 4 with version := 0x80#32 })).map
      (fun t => (t.version, t.statusWord, t.errcode)) = some (0x80#32, 0x4A#32, .versionParse) := by
  decide +kernel

/-- V-V5. -/
theorem test_ar_getver :
    dst .arGetver { base [] 0 0x10 with version := 0x81828384#32 } 7 =
      some [0x31, 0x2E, 0x32, 0x2E, 0x33, 0x2E, 0x34] := by decide +kernel

/-- V-E10. -/
theorem test_sreset :
    (next? (exec .sreset reading)).map (fun t =>
      (t.statusWord, t.mode, t.arcLen, t.buf.readBytes 0x10 4, t.arc.readBytes 0 1)) =
      some (0x2#32, .unset, 0#32, [0x64, 0x61, 0x74, 0x61], [0x48]) := by decide +kernel

/-- V-T14 and V-T11: the code windows. -/
theorem test_code_windows :
    ({ coded abra State.reset with codeSel := 0x64#8 }).portRead 0xC00#12 = 0x7#32 ∧
    (coded abra State.reset).portRead 0x984#12 = 1#32 := by decide +kernel

/-- R56, R72: a line that reads ARC (log 25). -/
theorem test_expect_arc :
    (next? (runLine reading (.expectArc 0 [0x48]))).map (·.hostPos) = some 1 ∧
    next? (runLine reading (.expectArc 0 [0x49])) = none ∧
    next? (runLine reading (.expectArc 65536 [0x48])) = none := by decide +kernel

/-- R85: COPY of a STATUS field, in two turns of the host; INC of one adds to what the field reads. -/
theorem test_copy_status_field :
    let s := { writing [] 0 with hostProg := [.copy .srcLen (.field .mode), .inc (.field .mode)] }
    ((next? (step s)).bind fun t => next? (step t)).map (fun u => (u.srcLen, u.hostPos, u.hostTemp)) =
      some (1#32, 1, none) ∧
    (next? (runLine s (.inc (.field .mode)))).map (·.hostTemp) = some (some 1#32) := by decide +kernel

/-! ### Witnesses: for each statement with hypotheses, a state and operands that meet them -/

theorem witness_IllegalWordFails :
    State.reset.inReset = false ∧ State.reset.pending = none ∧
    ({ State.reset with pending := some 0x21#32 }).inReset = false ∧
    ({ State.reset with pending := some 0x21#32 }).sched = [] ∧
    decode 0x21#32 = .error (.unassignedOpcode 0x21#8) := by decide

theorem witness_StepRunsDecodedCommand :
    let s := { State.reset with pending := some 0x2#32 }
    s.inReset = false ∧ s.pending = some 0x2#32 ∧ decode 0x2#32 = .ok .freqSer ∧ s.sched = [] ∧
    ({ s with sched := [.engine, .host] }).sched = .engine :: [.host] := by decide

theorem witness_EngineStepAfterFiniteDelay :
    let s := { State.reset with pending := some 0x4#32, sched := [.host, .host] }
    s.inReset = false ∧ s.pending = some 0x4#32 ∧ decode 0x4#32 = .ok .treeBuild ∧
    s.hostProg[s.hostPos]? = none ∧ s.sched = List.replicate 2 .host := by decide

/-- An idle and a busy state. -/
theorem witness_RegisterWriteHandshake :
    State.reset.inReset = false ∧ State.reset.busy = false ∧
    ({ State.reset with pending := some 0x0#32 }).inReset = false ∧
    ({ State.reset with pending := some 0x0#32 }).busy = true := by decide

/-- An idle state, and the lowest reserved bit. -/
theorem witness_StatusLayoutAndClear :
    State.reset.inReset = false ∧ State.reset.busy = false ∧ 10 ≤ 10 := by decide

theorem witness_HostRegisterWrites : State.reset.inReset = false ∧ State.reset.busy = false := by decide

theorem witness_FreqWindowWrite :
    State.reset.inReset = false ∧ State.reset.busy = false ∧ (0x00 : Byte) ≠ 0xFF := by decide

/-- The first bit of the first word and the last bit of the last word. -/
theorem witness_CodeWordWindow :
    State.reset.inReset = false ∧ State.reset.busy = false ∧ (0 < 8 ∧ 0 < 32) ∧ (7 < 8 ∧ 31 < 32) := by
  decide

/-- Reserved offsets at the lower ends of the two ranges. -/
theorem witness_RegisterWindowLayout :
    (0x068#12).toNat % 4 = 0 ∧ (∀ r : Reg, r.offset ≠ 0x068#12) ∧
    (0xC20#12).toNat % 4 = 0 ∧ (∀ r : Reg, r.offset ≠ 0xC20#12) := by
  refine ⟨by decide, fun r => ?_, by decide, fun r => ?_⟩ <;>
  · cases r with
    | freq v => revert v; decide +kernel
    | codeLen v => revert v; decide +kernel
    | codeWord j => revert j; decide
    | _ => decide

theorem witness_CodeLengthRegisters :
    let s := coded [0x41, 0x42] State.reset
    s.inReset = false ∧ s.codesValid = true ∧ (∀ v, (entryAt s.codes v).length ≤ 255) ∧
    State.reset.codesValid = false := by decide +kernel

theorem witness_HardwareReset : ({ State.reset with inReset := true }).inReset = true := by decide

/-- The last byte of BUF, and the address after it. -/
theorem witness_HostReachesBufOnlyWhenIdle :
    ({ State.reset with pending := some 0x0#32 }).busy = true ∧ State.reset.busy = false ∧
    65535 + [(1 : Byte)].length ≤ State.reset.params.bufSize ∧
    State.reset.params.bufSize < 65536 + [(1 : Byte)].length := by decide

theorem witness_CountFreqCounts : [(0x61 : Byte)].length ≤ 2 ^ 32 - 1 := by decide

/-- SRC ends at BUF_SIZE, and one byte after it. -/
theorem witness_FreqCountResult :
    let s := { State.reset with srcAddr := 0xFFFF#32, srcLen := 1#32 }
    let t := { State.reset with srcAddr := 0xFFFF#32, srcLen := 2#32 }
    s.srcAddr.toNat + s.srcLen.toNat ≤ s.params.bufSize ∧
    t.params.bufSize < t.srcAddr.toNat + t.srcLen.toNat := by decide

theorem witness_FreqSerResult :
    let s := { State.reset with dstAddr := 0xFFFF#32, dstCap := 2#32 }
    let n := (occurring zeroFreq).length
    s.params.bufSize < s.dstAddr.toNat + s.dstCap.toNat ∧
    (base [] 0 4).dstAddr.toNat + (base [] 0 4).dstCap.toNat ≤ (base [] 0 4).params.bufSize ∧
    (base [] 0 4).freq = zeroFreq ∧ 4 + 5 * n ≤ (base [] 0 4).dstCap.toNat ∧
    (base [] 0 3).dstCap.toNat < 4 + 5 * n := by decide +kernel

theorem witness_FreqDesResult :
    let s := base [0, 0, 0, 0] 4 0
    let t := base [0, 0, 0] 3 0
    State.reset.params.bufSize <
      ({ State.reset with srcAddr := 0xFFFF#32, srcLen := 2#32 }).srcAddr.toNat + 2 ∧
    s.srcAddr.toNat + s.srcLen.toNat ≤ s.params.bufSize ∧
    freqParse (s.buf.readBytes s.srcAddr.toNat s.srcLen.toNat) = .ok (zeroFreq, 4) ∧
    freqParse (t.buf.readBytes t.srcAddr.toNat t.srcLen.toNat) = .error { code := .format } := by
  decide +kernel

/-- For each way R89 refuses a table, bytes that it refuses for that reason; and bytes of two entries that
are a table. -/
theorem witness_FreqDesResult_parse :
    let n := fun b : ByteString => (wordAt b 0).toNat
    let good : ByteString := [2, 0, 0, 0, 0x42, 1, 0, 0, 0, 0x41, 1, 0, 0, 0]
    let zero : ByteString := [1, 0, 0, 0, 0x41, 0, 0, 0, 0]
    let twice : ByteString := [2, 0, 0, 0, 0x41, 1, 0, 0, 0, 0x41, 1, 0, 0, 0]
    ([0, 0, 0] : ByteString).length < 4 ∧ 256 < n [1, 1, 0, 0] ∧
    ([1, 0, 0, 0, 0x41, 1, 0, 0] : ByteString).length < 4 + 5 * n [1, 0, 0, 0, 0x41, 1, 0, 0] ∧
    (0 < n zero ∧ wordAt zero 5 = 0#32) ∧
    (0 < 1 ∧ 1 < n twice ∧ twice.getD 4 0#8 = twice.getD 9 0#8) ∧
    (4 ≤ good.length ∧ n good = 2 ∧ 4 + 5 * n good = good.length ∧ wordAt good 5 ≠ 0#32 ∧
      wordAt good 10 ≠ 0#32 ∧ good.getD 4 0#8 ≠ good.getD 9 0#8) := by decide +kernel

theorem witness_CodeGenResult :
    (coded [] State.reset).treeValid = true ∧ State.reset.treeValid = false := by decide

/-- Keys that differ; and a forest of three in order, two of one weight, for the merge step. -/
theorem witness_ForestKeptInExtractionOrder :
    let l := [Node.placeholder, .leaf 0x42 1, .leaf 0x41 1]
    [Node.leaf 0x41 2, .placeholder, .leaf 0x42 1].Pairwise (fun a b => a.key ≠ b.key) ∧
    l.Pairwise (fun a b => a.key ≠ b.key) ∧
    l.Pairwise (fun a b => comesBefore .highKeyFirst a b = true ∧
      comesBefore .highKeyFirst b a = false) := by decide

theorem witness_TreeNodeCounts :
    (present (countFreq [])).length = 0 ∧ 1 ≤ (present (countFreq [0x41])).length := by decide +kernel

theorem witness_CodeTableProperties :
    (0x41 : Byte) ≠ 0x42 ∧ entryAt (countFreq [0x41, 0x42]) 0x41 ≠ 0#32 ∧
    entryAt (countFreq [0x41, 0x42]) 0x42 ≠ 0#32 ∧ present (countFreq [0x41]) = [0x41] := by
  decide +kernel

theorem witness_PackLayout : 0 < (pack [true]).length ∧ 7 < 8 := by decide

/-- The three cases of the checks on SRC and DST: SRC out of range by one byte, DST out of range by one byte,
an overlap of one byte; and operands that pass, with SRC ending where DST begins. -/
theorem witness_AfterOperandChecks :
    let a := { State.reset with srcAddr := 0x10000#32, srcLen := 1#32 }
    let b := { State.reset with dstAddr := 0x10000#32, dstCap := 1#32 }
    let c := { base [] 0x101 1 with dstAddr := 0x100#32 }
    a.params.bufSize < a.srcAddr.toNat + a.srcLen.toNat ∧
    b.params.bufSize < b.dstAddr.toNat + b.dstCap.toNat ∧
    (c.srcAddr.toNat + c.srcLen.toNat ≤ c.params.bufSize ∧
      c.dstAddr.toNat + c.dstCap.toNat ≤ c.params.bufSize ∧ 0 < c.srcLen.toNat ∧ 0 < c.dstCap.toNat ∧
      c.srcAddr.toNat < c.dstAddr.toNat + c.dstCap.toNat ∧
      c.dstAddr.toNat < c.srcAddr.toNat + c.srcLen.toNat) ∧
    SrcDstGood (base [] 0x100 1) := by decide

theorem witness_SymEncodeResult :
    let s := coded [0x41, 0x42] (base [0x41] 1 1)
    let t := coded [0x41, 0x42] (base [0x43] 1 1)
    let u := coded [0x41, 0x42] (base [0x41] 1 0)
    SrcDstGood (base [0x41] 1 1) ∧ (base [0x41] 1 1).codesValid = false ∧
    SrcDstGood t ∧ t.codesValid = true ∧
    (∃ v ∈ t.buf.readBytes t.srcAddr.toNat t.srcLen.toNat, entryAt t.codes v = []) ∧
    SrcDstGood s ∧ s.codesValid = true ∧
    (∀ v ∈ s.buf.readBytes s.srcAddr.toNat s.srcLen.toNat, entryAt s.codes v ≠ []) ∧
    ((codeStream s.codes [0x41]).length + 7) / 8 ≤ s.dstCap.toNat ∧
    SrcDstGood u ∧ u.dstCap.toNat < ((codeStream u.codes [0x41]).length + 7) / 8 := by decide +kernel

theorem witness_SymDecodeResult :
    let s := { coded [0x41, 0x42] (base [0x05] 1 3) with bitcountLo := 3#32 }
    let t := { coded [0x41] (base [0x00] 1 3) with bitcountLo := 1#32 }
    let u := { coded [0x41] (base [0x00] 1 3) with bitcountLo := 9#32 }
    SrcDstGood s ∧ s.treeValid = true ∧ 1 ≤ s.srcLen.toNat ∧
    walk s.dstCap.toNat s.tree (s.buf.readBytes s.srcAddr.toNat 1) 3 = .ok [0x41, 0x42, 0x41] ∧
    SrcDstGood t ∧ t.treeValid = true ∧
    walk t.dstCap.toNat t.tree (t.buf.readBytes t.srcAddr.toNat 1) 1 = .error { code := .corrupt } ∧
    SrcDstGood u ∧ u.treeValid = true ∧ u.srcLen.toNat < (9 + 7) / 8 ∧
    SrcDstGood (base [] 0 0) ∧ (base [] 0 0).treeValid = false := by decide +kernel

/-- A tree of "B" (1) and, below 0, the placeholder (00) and "A" (01): the bits 01 1 emit both symbols; 1 0
ends inside a path; 00 reaches the placeholder; 1 and 1 is one symbol too many for one byte of room. -/
theorem witness_SymDecodeResult_walk :
    let root := Node.internal 2 0x41 (.internal 1 0x41 .placeholder (.leaf 0x41 1)) (.leaf 0x42 1)
    let bits := fun (b : ByteString) (m : Nat) =>
      (List.range m).map fun i => (b.getD (i / 8) 0#8).getLsbD (i % 8)
    (0 < 1) ∧ 3 ≤ 8 * ([0x06] : ByteString).length ∧
    bits [0x06] 3 = [[false, true], [true]].flatten ++ [] ∧
    descend root [false, true] = some (.leaf 0x41 1) ∧ descend root [true] = some (.leaf 0x42 1) ∧
    ([0x41, 0x42] : ByteString).length ≤ 2 ∧
    bits [0x01] 2 = [[true]].flatten ++ [false] ∧
    descend root [false] = some (.internal 1 0x41 .placeholder (.leaf 0x41 1)) ∧
    bits [0x00] 2 = [].flatten ++ ([false, false] ++ []) ∧ descend root [false, false] = some .placeholder ∧
    bits [0x03] 2 = [[true]].flatten ++ ([true] ++ []) ∧ ([0x42] : ByteString).length = 1 := by decide

theorem witness_SymbolStreamRoundTrip :
    (∀ v ∈ [(0x41 : Byte), 0x42], entryAt (countFreq [0x41, 0x42]) v ≠ 0#32) ∧
    [(0x41 : Byte), 0x42].length ≤ 2 := by decide +kernel

/-- The 12 bytes of the empty block, with exactly 12 and with 11 bytes of room. -/
theorem witness_HufEncodeResult :
    let b := freqSerialize (countFreq []) ++
      le 8 (codeStream (genCodes (buildTree .highKeyFirst (countFreq [])).1) []).length
    SrcDstGood (base [] 0 12) ∧ SrcDstGood (base [] 0 11) ∧ b.length ≤ (base [] 0 12).dstCap.toNat ∧
    (base [] 0 11).dstCap.toNat < b.length := by decide +kernel

theorem witness_HufDecodeResult :
    let s := base [0, 0, 0, 0] 4 0
    let t := base [0, 0, 0] 3 0
    SrcDstGood s ∧ SrcDstGood t ∧
    decodeBlock s.params.tiePolicy s.dstCap.toNat (s.buf.readBytes s.srcAddr.toNat s.srcLen.toNat) =
      .ok { table := zeroFreq, bits := 0, out := [], used := 4 } ∧
    decodeBlock t.params.tiePolicy t.dstCap.toNat (t.buf.readBytes t.srcAddr.toNat t.srcLen.toNat) =
      .error { code := .format } := by decide +kernel

theorem witness_BlockRoundTrip :
    [(0x41 : Byte)].length ≤ 2 ^ 32 - 1 ∧ [(0x41 : Byte)].length ≤ 1 := by decide

/-- The 16 bytes of an empty frame, with exactly 16 and with 15 bytes of room. -/
theorem witness_FrameResult :
    SrcDstGood (base [] 0 16) ∧ SrcDstGood (base [] 0 15) ∧
    (frameOf Params.default []).length ≤ (base [] 0 16).dstCap.toNat ∧
    (base [] 0 15).dstCap.toNat < (frameOf Params.default []).length := by decide +kernel

/-- A frame of 24 bytes with 8 and with 7 bytes of room, and 15 bytes that are no frame. -/
theorem witness_UnframeResult :
    let f := frameOf Params.default [1]
    let s := base f 24 8
    let src := s.buf.readBytes s.srcAddr.toNat s.srcLen.toNat
    SrcDstGood s ∧ SrcDstGood (base f 24 7) ∧ SrcDstGood (base f 15 8) ∧
    (16 ≤ 24 ∧ 24 % 8 = 0 ∧ fromLe (src.take 8) = s.params.streamHead.toNat ∧
      fromLe (src.drop (24 - 8)) = s.params.streamTail.toNat) ∧
    24 - 16 ≤ s.dstCap.toNat ∧ (base f 24 7).dstCap.toNat < 24 - 16 ∧
    ¬ (16 ≤ (base f 15 8).srcLen.toNat) := by decide +kernel

theorem witness_SentinelChangeDetected :
    let f := frameOf Params.default []
    checkFrame Params.default f = .ok [] ∧ 7 < 8 ∧ f[7]? ≠ some 0 ∧
    (f.length - 8 ≤ 8 ∧ 8 < f.length) ∧ f[8]? ≠ some 0 := by decide +kernel

theorem witness_ArOpenWResult : State.reset.mode = .unset := by decide

theorem witness_OpenClosesFirst :
    (writing [] 0).mode ≠ .unset ∧ (writing [] 0).params.ioFault = .never ∧
    reading.mode ≠ .unset ∧ reading.params.ioFault = .never ∧
    ({ writing [] 0 with params := { Params.default with ioFault := .oracle } }).mode ≠ .unset := by
  decide +kernel

theorem test_index_good_empty : IndexGood Params.default [] :=
  ⟨by decide, by decide, by decide, by decide⟩

/-- The smallest file (V-A3), and a file with an entry (V-A1). -/
theorem witness_WellFormedArchiveOpens :
    let s := loaded fileA3
    IndexGood s.params [] ∧ IndexGood (loaded fileA1).params reading.idx ∧
    s.params.valid = true ∧ s.mode = .unset ∧ s.ioFail .command = false ∧ verValid 0#32 = true ∧
    8 % 8 = 0 ∧ 8 ≤ 8 ∧ s.arcLen.toNat = 8 + indexLen [] ∧ s.arcLen.toNat ≤ s.params.arcCap ∧
    s.arc.readBytes 0 8 = le 8 8 ∧ s.arc.readBytes 8 (indexLen []) = indexSerialize s.params [] 0#32 ∧
    (loaded fileA1).arcLen.toNat = 72 + indexLen reading.idx ∧
    (loaded fileA1).arc.readBytes 0 8 = le 8 72 ∧
    (loaded fileA1).arc.readBytes 72 (indexLen reading.idx) =
      indexSerialize Params.default reading.idx 0#32 := by
  refine ⟨test_index_good_empty, ⟨by decide, by decide, by decide, by decide⟩, ?_⟩
  decide +kernel

/-- A file of ARC_CAP + 1 bytes, and one of 31; and V-A1, whose checks before the entry list pass, with its
list accepted whole, and with a second entry that has no name. -/
theorem witness_BadLengthFailsOpen :
    let s := { State.reset with arcLen := 65537#32 }
    let t := { State.reset with arcLen := 31#32 }
    let u := loaded fileA1
    let n := u.arcLen.toNat
    s.mode = .unset ∧ s.params.arcCap < s.arcLen.toNat ∧
    t.mode = .unset ∧ t.arcLen.toNat ≤ t.params.arcCap ∧ t.arcLen.toNat < 32 ∧
    u.mode = .unset ∧ n ≤ u.params.arcCap ∧ u.ioFail .command = false ∧ 32 ≤ n ∧
    fromLe (u.arc.readBytes 0 8) = 72 ∧ 72 + 24 ≤ n ∧
    fromLe (u.arc.readBytes 72 8) = u.params.indexHead.toNat ∧
    fromLe (u.arc.readBytes (n - 8) 8) = u.params.indexTail.toNat ∧ (n - 72) % 8 = 0 ∧
    fromLe (u.arc.readBytes 80 4) = 24 ∧ verValid (BitVec.ofNat 32 (fromLe (u.arc.readBytes 84 4))) = true ∧
    72 + 24 + 24 ≤ n ∧ n ≤ 72 + 24 + 24 + 7 ∧
    u.arc.readBytes 88 24 = entryList reading.idx ++ [] ∧
    ((reading.idx.map Entry.path).Nodup ∧ (∀ e ∈ reading.idx, 1 ≤ e.path.length ∧
        e.path.length ≤ u.params.maxNameLen) ∧
      reading.idx.length ≤ u.params.maxEntries ∧ nameTotal reading.idx ≤ u.params.nameCap) ∧
    entryError u.params reading.idx [0, 0, 0, 0] = some .format ∧
    entryError u.params reading.idx [0, 0, 0] = some .format ∧
    entryError u.params [] (1 :: List.replicate 18 0) = some .format ∧
    entryError { u.params with maxNameLen := 3 } [] (entryList reading.idx) = some .capacity ∧
    entryError u.params reading.idx (entryList reading.idx) = some .format ∧
    entryError u.params [] ([1, 0, 0, 0, 0x61] ++ List.replicate 7 0 ++ [1] ++ List.replicate 8 0) =
      some .format ∧
    entryError { u.params with maxEntries := 0 } [] (entryList reading.idx) = some .capacity ∧
    entryError { u.params with nameCap := 3 } [] (entryList reading.idx) = some .capacity := by
  decide +kernel

/-- A file of 31 bytes (V-A6). -/
theorem witness_FailedOpenLeavesHandleClosed :
    ((next? (exec .arOpenR { State.reset with arcLen := 31#32 })).map (·.err)) = some true := by
  decide +kernel

/-- A fresh name whose frame ends exactly at ARC_CAP, and a name that is in the index. -/
theorem witness_ArAddResult :
    let s := { writing [] 0 with params := { Params.default with arcCap := 40 } }
    let t := { s with idx := reading.idx }
    let n := s.buf.readBytes s.nameAddr.toNat s.nameLen.toNat
    let f := frameOf s.params (encodeBlock s.params.tiePolicy [])
    s.mode = .writeOpen ∧ s.nameLen ≠ 0#32 ∧ s.srcAddr.toNat + s.srcLen.toNat ≤ s.params.bufSize ∧
    s.nameAddr.toNat + s.nameLen.toNat ≤ s.params.bufSize ∧ (∃ e ∈ t.idx, e.path = n) ∧
    (∀ e ∈ s.idx, e.path ≠ n) ∧ n.length ≤ s.params.maxNameLen ∧ s.idx.length < s.params.maxEntries ∧
    nameTotal s.idx + n.length ≤ s.params.nameCap ∧
    s.buf.readBytes s.srcAddr.toNat s.srcLen.toNat = [] ∧
    s.arcOffset.toNat + f.length = s.params.arcCap ∧ s.ioFail .command = false := by decide +kernel

/-- An index that ends exactly at ARC_CAP, and one byte past it. -/
theorem witness_ArCloseResult :
    let s := { writing [] 0 with params := { Params.default with arcCap := 32 } }
    let t := { writing [] 0 with params := { Params.default with arcCap := 31 } }
    State.reset.mode = .unset ∧ reading.mode = .readOpen ∧
    t.mode = .writeOpen ∧ t.params.arcCap < t.arcOffset.toNat + indexLen t.idx ∧
    s.mode = .writeOpen ∧ s.arcOffset.toNat + indexLen s.idx ≤ s.params.arcCap ∧
    s.ioFail .command = false ∧ 8 ≤ s.arcOffset.toNat := by decide +kernel

/-- The entry of V-A1, a name that is not there, and an entry whose frame would end past the index. -/
theorem witness_ArGetResult :
    let s := reading
    let t := { s with indexOff := 71#32 }
    let n := s.buf.readBytes s.nameAddr.toNat s.nameLen.toNat
    let e : Entry := { path := [0x64, 0x61, 0x74, 0x61], offset := 8#32, size := 64#32 }
    s.mode = .readOpen ∧ s.nameAddr.toNat + s.nameLen.toNat ≤ s.params.bufSize ∧
    s.dstAddr.toNat + s.dstCap.toNat ≤ s.params.bufSize ∧ overlaps s.nameRegion s.dstRegion = false ∧
    (∀ x ∈ ({ s with idx := [] }).idx, x.path ≠ n) ∧
    s.idx.find? (fun x => x.path == n) = some e ∧ ¬ (8 + 64 ≤ t.indexOff.toNat) ∧
    (16 ≤ 64 ∧ 64 % 8 = 0 ∧ 8 % 8 = 0 ∧ 8 ≤ 8 ∧ 8 + 64 ≤ s.indexOff.toNat) ∧
    s.ioFail .command = false ∧ 8 + 64 ≤ s.arcLen.toNat ∧ s.arcLen.toNat ≤ s.params.arcCap ∧
    (checkFrame s.params (s.arc.readBytes 8 64)).toOption = some ((fileA1.drop 16).take 48) ∧
    (decodeBlock .highKeyFirst s.dstCap.toNat ((fileA1.drop 16).take 48)).toOption.map (·.out) =
      some [0x01, 0x02, 0x05, 0x00, 0x20, 0x34] := by decide +kernel

/-- The first entry with exactly its 4 bytes of room and with 3, the number after the last, and each
check. -/
theorem witness_ArEnumResult :
    let s := { reading with dstCap := 4#32 }
    State.reset.mode = .unset ∧ s.mode ≠ .unset ∧
    ({ s with dstAddr := 0xFFFF#32 }).params.bufSize <
      ({ s with dstAddr := 0xFFFF#32 }).dstAddr.toNat + s.dstCap.toNat ∧
    s.dstAddr.toNat + s.dstCap.toNat ≤ s.params.bufSize ∧
    s.idx.length ≤ ({ s with entrySel := 1#32 }).entrySel.toNat ∧
    s.idx[s.entrySel.toNat]?.map (·.path.length) = some 4 ∧ 4 ≤ s.dstCap.toNat ∧
    ({ s with dstCap := 3#32 }).dstCap.toNat < 4 := by decide +kernel

theorem witness_ArSetverResult :
    let s := writing [0x30] 1
    let t := writing [0x2E] 1
    State.reset.mode ≠ .writeOpen ∧ s.mode = .writeOpen ∧
    ({ s with srcAddr := 0x10000#32 }).params.bufSize < 0x10000 + s.srcLen.toNat ∧
    s.srcAddr.toNat + s.srcLen.toNat ≤ s.params.bufSize ∧
    verParse (s.buf.readBytes s.srcAddr.toNat s.srcLen.toNat) = some 0x80#32 ∧
    t.mode = .writeOpen ∧ verParse (t.buf.readBytes t.srcAddr.toNat t.srcLen.toNat) = none := by
  decide +kernel

theorem witness_ArGetverResult :
    let s := { base [] 0 1 with version := 0x80#32 }
    State.reset.params.bufSize < 0x10000 + 1 ∧ s.dstAddr.toNat + s.dstCap.toNat ≤ s.params.bufSize ∧
    (verFormat s.version).length ≤ s.dstCap.toNat ∧
    ({ s with dstCap := 0#32 }).dstCap.toNat < (verFormat s.version).length := by decide +kernel

theorem witness_VersionFormatParse :
    verValid 0x00838E81#32 = true ∧ (0x00838E81#32 : Word) ≠ 0#32 ∧ verValid 0xE3E3E3E3#32 = true ∧
    verParse [0x39, 0x39, 0x2E, 0x30, 0x30, 0x37] = some 0xE387#32 ∧ verParse [0x31, 0x30, 0x30] = none := by
  decide

/-- A write session with nothing in it meets the invariant. -/
theorem test_inv_writing (bs : ByteString) (n : Nat) (h : bs.length ≤ 16) : Inv (writing bs n) where
  params := by show Params.default.valid = true; decide
  buf := by
    have hw : (Memory.empty .buf).wf := by decide
    have hb : (Memory.empty .buf).inBounds 65536 := by decide
    exact ⟨rfl, wf_writeBytes (wf_writeBytes hw 0 bs) 0x10 _,
      inBounds_writeBytes (inBounds_writeBytes hb (by omega)) (by decide)⟩
  arc := by
    show (Memory.empty .arc).store = .arc ∧ (Memory.empty .arc).wf ∧ (Memory.empty .arc).inBounds 65536
    decide
  busy := by intro h; cases h
  report := ⟨by intro h; (cases h), by intro h; (cases h), fun _ _ => rfl⟩
  reset := by intro h; cases h
  tree := by intro h; cases h
  noTree := fun _ => rfl
  codes := by intro h; cases h
  index := test_index_good_empty
  version := by show verValid 0#32 = true; decide
  unset := by intro h; cases h
  writing := fun _ => by
    show (8#32 : Word) = 8#32 ∧ (8#32 : Word).toNat % 8 = 0 ∧ 8 ≤ (8#32 : Word).toNat ∧
      (8#32 : Word).toNat ≤ 65536 ∧ (0#32 : Word) = 0#32
    decide
  reading := by intro h; cases h

theorem witness_CloseThenOpenRestoresIndex :
    let s := writing [] 0
    Inv s ∧ s.mode = .writeOpen ∧ s.params.ioFault = .never ∧
    s.arcOffset.toNat + indexLen s.idx ≤ s.params.arcCap :=
  ⟨test_inv_writing [] 0 (by decide), by decide⟩

theorem witness_ArchivedFileIsFetchedBack :
    let s := { writing [0x01, 0x02, 0x05, 0x00, 0x20, 0x34] 6 with dstCap := 6#32 }
    let n := s.buf.readBytes s.nameAddr.toNat s.nameLen.toNat
    let f := frameOf s.params (encodeBlock s.params.tiePolicy [0x01, 0x02, 0x05, 0x00, 0x20, 0x34])
    Inv s ∧ s.mode = .writeOpen ∧ s.params.ioFault = .never ∧ s.nameLen ≠ 0#32 ∧
    s.srcAddr.toNat + s.srcLen.toNat ≤ s.params.bufSize ∧
    s.nameAddr.toNat + s.nameLen.toNat ≤ s.params.bufSize ∧
    s.dstAddr.toNat + s.dstCap.toNat ≤ s.params.bufSize ∧ overlaps s.nameRegion s.dstRegion = false ∧
    s.srcLen.toNat ≤ s.dstCap.toNat ∧
    s.buf.readBytes s.srcAddr.toNat s.srcLen.toNat = [0x01, 0x02, 0x05, 0x00, 0x20, 0x34] ∧
    (∀ e ∈ s.idx, e.path ≠ n) ∧ n.length ≤ s.params.maxNameLen ∧ s.idx.length < s.params.maxEntries ∧
    nameTotal s.idx + n.length ≤ s.params.nameCap ∧
    s.arcOffset.toNat + f.length + (indexLen s.idx + 20 + n.length + 8) ≤ s.params.arcCap := by
  have h := test_inv_writing [0x01, 0x02, 0x05, 0x00, 0x20, 0x34] 6 (by decide)
  refine ⟨⟨h.params, h.buf, h.arc, h.busy, h.report, h.reset, h.tree, h.noTree, h.codes, h.index,
    h.version, h.unset, h.writing, h.reading⟩, ?_⟩
  decide +kernel

theorem witness_HandleModeTable :
    State.reset.mode ≠ .writeOpen ∧ State.reset.mode ≠ .readOpen ∧ State.reset.mode = .unset ∧
    (∃ t, exec .arGet State.reset = .next t ∧ t.errcode = .mode) ∧
    (∃ t, exec .arClose reading = .next t ∧ t.err = false ∧ t.mode ≠ reading.mode) := by
  refine ⟨by decide, by decide, by decide, ⟨_, rfl, rfl⟩, ⟨_, rfl, rfl, ?_⟩⟩
  decide

/-- A failure before any output, one after output began, and one of AR_ADD with IoFail false. -/
theorem witness_FailureEffects :
    (∃ t, exec .codeGen State.reset = .next t ∧ t.err = true ∧ t.errcode ≠ .dstFull ∧
      t.errcode ≠ .corrupt) ∧
    (∃ t, exec .freqSer (base [] 0 3) = .next t ∧ t.err = true) ∧
    (∃ t, exec .arAdd State.reset = .next t ∧ t.err = true) ∧ State.reset.ioFail .command = false := by
  refine ⟨⟨_, rfl, rfl, ?_, ?_⟩, ⟨_, rfl, ?_⟩, ⟨_, rfl, rfl⟩, ?_⟩ <;> decide +kernel

theorem witness_BufWritesStayInWindow : ∃ t, exec .frame State.reset = .next t := ⟨_, rfl⟩

theorem witness_ArgumentRegistersKept :
    Instr.nop ≠ .sreset ∧ Instr.nop ∉ [Instr.symEncode, .hufEncode, .hufDecode, .arGet, .arAdd] ∧
    ∃ t, exec .nop State.reset = .next t := ⟨by decide, by decide, ⟨_, rfl⟩⟩

theorem witness_StickyBitRecordsFailures :
    (∃ t, exec .codeGen State.reset = .next t) ∧ ∃ t, exec .sreset State.reset = .next t :=
  ⟨⟨_, rfl⟩, ⟨_, rfl⟩⟩

/-- An engine step in a state that meets the invariant. -/
theorem witness_StepKeepsInvariant :
    let s := { writing [] 0 with pending := some 0x0#32 }
    Inv s ∧ ∃ t, step s = .next t := by
  have h := test_inv_writing [] 0 (by decide)
  refine ⟨⟨h.params, h.buf, h.arc, fun _ => ⟨rfl, rfl, rfl, rfl⟩, h.report, ?_, h.tree, h.noTree, h.codes,
    h.index, h.version, h.unset, h.writing, h.reading⟩, ⟨_, rfl⟩⟩
  intro hr
  cases hr

end Sys2Proof.Tests
end

section
/-! PROOFS. The implicit close of an open (45_archive.md R134, R139) and O41. -/

namespace Sys2Proof.Machine

/-! ### The commands -/

theorem exec_arClose (s : State) : exec .arClose s = execArClose s := rfl

theorem exec_arOpenW (s : State) : exec .arOpenW s = execArOpenW s := rfl

theorem exec_arOpenR (s : State) : exec .arOpenR s = execArOpenR s := rfl

/-! ### The completion fields -/

/-- A state with the completion flags and the result registers of another state. An open sets each of these
fields itself, so it does not see what they were. -/
def State.withCompletion (s t : State) : State :=
  { s with
    pending := t.pending, done := t.done, err := t.err, warn := t.warn, errcode := t.errcode
    resultLen := t.resultLen, consumed := t.consumed }

/-! ### AR_CLOSE's effects -/

/-- The closed handle with a given ARC, ARC_LEN and INDEX_OFF: IDX empty, VERSION 0, MODE UNSET, and
ARC_OFFSET 0 but after a read session, which keeps it (R139). -/
def State.closedAs (s : State) (a : Memory) (n x : Word) : State :=
  { s with
    arc := a, arcLen := n, indexOff := x, idx := [], version := 0#32, mode := .unset
    arcOffset := if s.mode = .readOpen then s.arcOffset else 0#32 }

/-- The ARC, ARC_LEN and INDEX_OFF that R139 lets the close of an open handle leave, with `IoFail()` drawn at
a given place. -/
def State.CloseLeaves (s : State) (d : IoDraw) (a : Memory) (n x : Word) : Prop :=
  let h := s.arcOffset.toNat
  if s.mode = .readOpen then a = s.arc ∧ n = s.arcLen ∧ x = s.indexOff
  else if s.params.arcCap < h + indexLen s.idx then a = s.arc ∧ n = s.arcOffset ∧ x = 0#32
  else if s.ioFail d then n = s.arcOffset ∧ x = 0#32 ∧
    ∀ y, (y < max 8 h ∨ s.params.arcCap ≤ y) → a.read y = s.arc.read y
  else n = BitVec.ofNat 32 (h + indexLen s.idx) ∧ x = s.arcOffset ∧
    a = (s.arc.writeBytes h (indexSerialize s.params s.idx s.version)).writeBytes 0 (le 8 h)

/-- The close of an open handle, whatever its error code: the handle is closed, with the ARC, ARC_LEN and
INDEX_OFF of R139, and nothing beyond that changes but the completion fields. -/
theorem closeArchive_closes (s : State) (d : IoDraw) (hs : s.mode ≠ .unset) :
    ∃ a n x, s.CloseLeaves d a n x ∧
      (s.closeArchive d).1 = (s.closedAs a n x).withCompletion (s.closeArchive d).1 := by
  obtain ⟨hm, -⟩ | ⟨hm, hc⟩ | ⟨hm, hl, hc⟩ | ⟨hm, hl, hi, hc⟩ | ⟨hm, hl, hi, hc⟩ := closeArchive_cases s d
  · exact absurd hm hs
  · refine ⟨s.arc, s.arcLen, s.indexOff, by simp [State.CloseLeaves, hm], ?_⟩
    simp [hc, State.withCompletion, State.closedAs, hm, State.results]
  · refine ⟨s.arc, s.arcOffset, 0#32, by simp [State.CloseLeaves, hm, hl], ?_⟩
    simp [hc, State.withCompletion, State.closedAs, hm, State.closeFailed, State.closeHandle]
  · refine ⟨(s.releaseArc (max 8 s.arcOffset.toNat)).arc, s.arcOffset, 0#32, ?_, ?_⟩
    · rw [State.CloseLeaves, if_neg (by simp [hm]), if_neg (by omega), if_pos hi]
      exact ⟨rfl, rfl, fun y hy => sameOutside_release _ _ _ _ y (by omega)⟩
    · simp [hc, State.withCompletion, State.closedAs, hm, State.closeFailed, State.closeHandle,
        State.releaseArc]
  · refine ⟨s.closeWritten.arc, s.closeWritten.arcLen, s.arcOffset, ?_, ?_⟩
    · rw [State.CloseLeaves, if_neg (by simp [hm]), if_neg (by omega), if_neg (by simp [hi])]
      exact ⟨rfl, rfl, rfl⟩
    · simp [hc, State.withCompletion, State.closedAs, hm, State.closeWritten, State.results]

/-- The command AR_CLOSE leaves an open handle as the close does, and completes. -/
theorem exec_arClose_completes (s : State) (hs : s.mode ≠ .unset) :
    ∃ c, exec .arClose s = .next c ∧
      { c with stepTag := s.stepTag, errSticky := s.errSticky } =
        (s.closeArchive .command).1.withCompletion c := by
  obtain ⟨a, n, x, -, hu⟩ := closeArchive_closes s .command hs
  have htag : (s.closeArchive .command).1.stepTag = s.stepTag := by rw [hu]; rfl
  have hsticky : (s.closeArchive .command).1.errSticky = s.errSticky := by rw [hu]; rfl
  rw [exec_arClose, execArClose]
  cases hc : s.closeArchive .command with
  | mk u e =>
    rw [hc] at htag hsticky
    rw [← htag, ← hsticky]
    cases e with
    | none => exact ⟨u.succeed, rfl, rfl⟩
    | some code => exact ⟨u.reportError code, rfl, rfl⟩

/-- Where IoFail is never true, a close does the same at either point of a command (R21). -/
theorem closeArchive_of_never {s : State} (h : s.params.ioFault = .never) (d e : IoDraw) :
    s.closeArchive d = s.closeArchive e := by
  unfold State.closeArchive
  rw [ioFail_never h d, ioFail_never h e]

/-! ### The implicit close -/

theorem implicitClose_of_unset {s : State} (h : s.mode = .unset) : s.implicitClose = s := by
  simp [State.implicitClose, h]

theorem implicitClose_of_open {s : State} (h : s.mode ≠ .unset) :
    s.implicitClose = (s.closeArchive .implicitClose).1 := by
  unfold State.implicitClose
  cases hm : s.mode with
  | unset => exact absurd hm h
  | writeOpen => rfl
  | readOpen => rfl

/-- After the implicit close the handle is closed. -/
@[simp] theorem implicitClose_mode (s : State) : s.implicitClose.mode = .unset := by
  by_cases h : s.mode = .unset
  · rw [implicitClose_of_unset h, h]
  · obtain ⟨a, n, x, -, hu⟩ := closeArchive_closes s .implicitClose h
    rw [implicitClose_of_open h, hu]
    rfl

/-! ### The two opens -/

/-- AR_OPEN_W does what it does on the handle that the implicit close leaves (R134). -/
theorem exec_arOpenW_implicitClose (s : State) : exec .arOpenW s.implicitClose = exec .arOpenW s := by
  rw [exec_arOpenW, exec_arOpenW, execArOpenW, execArOpenW, implicitClose_of_unset (implicitClose_mode s)]

/-- AR_OPEN_R does what it does on the handle that the implicit close leaves (R134). -/
theorem exec_arOpenR_implicitClose (s : State) : exec .arOpenR s.implicitClose = exec .arOpenR s := by
  rw [exec_arOpenR, exec_arOpenR, execArOpenR, execArOpenR, implicitClose_of_unset (implicitClose_mode s)]

/-- AR_OPEN_W on a closed handle whose archive store fails (R136). -/
theorem exec_arOpenW_of_ioFail {s : State} (h : s.mode = .unset) (hi : s.ioFail .command = true) :
    exec .arOpenW s = .next (doneErr s .io) := by
  rw [exec_arOpenW, execArOpenW, implicitClose_of_unset h, if_pos hi, ← h]
  rfl

/-- AR_OPEN_W on a closed handle whose archive store works (R136). -/
theorem exec_arOpenW_of_not_ioFail {s : State} (h : s.mode = .unset) (hi : s.ioFail .command = false) :
    exec .arOpenW s = .next (doneOk (s.openForWriting.results 8 0)) := by
  rw [exec_arOpenW, execArOpenW, implicitClose_of_unset h, if_neg (by simp [hi])]
  rfl

/-- What the completion fields were does not matter to AR_OPEN_W. -/
theorem exec_arOpenW_withCompletion {s : State} (h : s.mode = .unset) (t : State) :
    exec .arOpenW (s.withCompletion t) = exec .arOpenW s := by
  have hm : (s.withCompletion t).mode = .unset := h
  have hio : (s.withCompletion t).ioFail .command = s.ioFail .command := rfl
  cases hi : s.ioFail .command with
  | true => rw [exec_arOpenW_of_ioFail hm (hio.trans hi), exec_arOpenW_of_ioFail h hi]; rfl
  | false => rw [exec_arOpenW_of_not_ioFail hm (hio.trans hi), exec_arOpenW_of_not_ioFail h hi]; rfl

/-- What the completion fields were does not matter to AR_OPEN_R. -/
theorem exec_arOpenR_withCompletion {s : State} (h : s.mode = .unset) (t : State) :
    exec .arOpenR (s.withCompletion t) = exec .arOpenR s := by
  have hm : (s.withCompletion t).mode = .unset := h
  have hr : (s.withCompletion t).readIndex = s.readIndex := rfl
  rw [exec_arOpenR, exec_arOpenR, execArOpenR, execArOpenR, implicitClose_of_unset hm, implicitClose_of_unset h]
  simp only [hr]
  cases s.readIndex with
  | ok o => rfl
  | error f => rfl

/-- The header that AR_OPEN_W stores on a closed handle is zero, and no other ARC byte changes (R136). -/
theorem openForWriting_storesAt (s : State) :
    StoresAt s.arc s.openForWriting.arc 0 (List.replicate 8 0#8) := by
  have hz : le 8 0 = List.replicate 8 0#8 := by decide
  rw [← hz]
  exact storesAt_writeBytes s.arc 0 (le 8 0)

/-- AR_OPEN_W on a closed handle, both outcomes (R136). -/
theorem exec_arOpenW_closedAs (s : State) (a : Memory) (n x : Word) :
    if s.ioFail .command then exec .arOpenW (s.closedAs a n x) = .next (doneErr (s.closedAs a n x) .io)
    else ∃ m,
      exec .arOpenW (s.closedAs a n x) = .next (doneOk { s.closedAs a n x with
        arc := m, arcLen := 8#32, arcOffset := 8#32, indexOff := 0#32, mode := .writeOpen
        resultLen := 8#32, consumed := 0#32 }) ∧
      StoresAt a m 0 (List.replicate 8 0#8) := by
  cases hi : s.ioFail .command with
  | true => exact exec_arOpenW_of_ioFail rfl hi
  | false =>
    exact ⟨_, exec_arOpenW_of_not_ioFail rfl hi, openForWriting_storesAt (s.closedAs a n x)⟩

/-! ### An open of an open handle -/

/-- Where IoFail is never true, an open does what it does after the command AR_CLOSE, whose completion it
does not see (R134). -/
theorem open_after_arClose (s : State) (hs : s.mode ≠ .unset) (hn : s.params.ioFault = .never) :
    ∃ c, exec .arClose s = .next c ∧
      let t := { c with stepTag := s.stepTag, errSticky := s.errSticky }
      t.mode = .unset ∧ exec .arOpenW s = exec .arOpenW t ∧ exec .arOpenR s = exec .arOpenR t := by
  obtain ⟨c, hc, ht⟩ := exec_arClose_completes s hs
  rw [closeArchive_of_never hn .command .implicitClose, ← implicitClose_of_open hs] at ht
  have hm := implicitClose_mode s
  refine ⟨c, hc, (congrArg State.mode ht).trans hm, ?_, ?_⟩
  · rw [ht, exec_arOpenW_withCompletion hm, exec_arOpenW_implicitClose]
  · rw [ht, exec_arOpenR_withCompletion hm, exec_arOpenR_implicitClose]

/-- Under either IoFail model, an open does what it does on a handle closed as R139 says. -/
theorem open_closedAs (s : State) (hs : s.mode ≠ .unset) :
    ∃ a n x, s.CloseLeaves .implicitClose a n x ∧
      exec .arOpenR s = exec .arOpenR (s.closedAs a n x) ∧
      exec .arOpenW s = exec .arOpenW (s.closedAs a n x) := by
  obtain ⟨a, n, x, hl, hu⟩ := closeArchive_closes s .implicitClose hs
  rw [← implicitClose_of_open hs] at hu
  have hm : (s.closedAs a n x).mode = .unset := rfl
  refine ⟨a, n, x, hl, ?_, ?_⟩
  · rw [← exec_arOpenR_implicitClose, hu, exec_arOpenR_withCompletion hm]
  · rw [← exec_arOpenW_implicitClose, hu, exec_arOpenW_withCompletion hm]

/-- Settles O41: the implicit close is AR_CLOSE's up to the completion fields, which an open overwrites; the
draw falls at one point (`ioFail_once`); and AR_OPEN_W then runs on the closed handle. -/
theorem openClosesFirst : Obligations.OpenClosesFirst := by
  refine ⟨open_after_arClose, ioFail_once, fun s hs => ?_⟩
  obtain ⟨a, n, x, hl, hr, hw⟩ := open_closedAs s hs
  refine ⟨a, n, x, hl, hr, hw, ?_⟩
  rw [hw]
  exact exec_arOpenW_closedAs s a n x

end Sys2Proof.Machine
end

section
/-! PROOFS. The register port (10_state.md R22 to R45): which register stands at an offset, what a read and a
write there do, and O8 to O15. -/

namespace Sys2Proof.Machine

/-! ### Where each register stands -/

theorem toNat_offset_freq (v : Byte) : (Reg.freq v).offset.toNat = 0x400 + 4 * v.toNat := by
  have hv : v.toNat < 256 := v.isLt
  rw [Reg.offset, BitVec.toNat_ofNat, Nat.mod_eq_of_lt (by omega)]

theorem toNat_offset_codeLen (v : Byte) : (Reg.codeLen v).offset.toNat = 0x800 + 4 * v.toNat := by
  have hv : v.toNat < 256 := v.isLt
  rw [Reg.offset, BitVec.toNat_ofNat, Nat.mod_eq_of_lt (by omega)]

theorem toNat_offset_codeWord (j : Fin 8) : (Reg.codeWord j).offset.toNat = 0xC00 + 4 * j.val := by
  rw [Reg.offset, BitVec.toNat_ofNat, Nat.mod_eq_of_lt (by omega)]

theorem regAt_freq (v : Byte) : regAt (0x400 + 4 * v.toNat) = some (.freq v) := by
  have hv : v.toNat < 256 := v.isLt
  have hd : (0x400 + 4 * v.toNat - 0x400) / 4 = v.toNat := by omega
  rw [regAt, if_neg (by omega), if_pos (by omega), hd, BitVec.ofNat_toNat, BitVec.setWidth_eq]

theorem regAt_codeLen (v : Byte) : regAt (0x800 + 4 * v.toNat) = some (.codeLen v) := by
  have hv : v.toNat < 256 := v.isLt
  have hd : (0x800 + 4 * v.toNat - 0x800) / 4 = v.toNat := by omega
  rw [regAt, if_neg (by omega), if_neg (by omega), if_pos (by omega), hd, BitVec.ofNat_toNat,
    BitVec.setWidth_eq]

theorem regAt_codeWord (j : Fin 8) : regAt (0xC00 + 4 * j.val) = some (.codeWord j) := by
  have hd : (0xC00 + 4 * j.val - 0xC00) / 4 = j.val := by omega
  rw [regAt, if_neg (by omega), if_neg (by omega), if_neg (by omega), dif_pos (by omega)]
  simp only [hd]

/-- The port finds every register at its own offset (R26). -/
theorem regAt_offset (r : Reg) : regAt r.offset.toNat = some r := by
  cases r with
  | freq v => rw [toNat_offset_freq, regAt_freq]
  | codeLen v => rw [toNat_offset_codeLen, regAt_codeLen]
  | codeWord j => rw [toNat_offset_codeWord, regAt_codeWord]
  | _ => rfl

theorem offset_aligned (r : Reg) : r.offset.toNat % 4 = 0 := by
  cases r with
  | freq v => rw [toNat_offset_freq]; omega
  | codeLen v => rw [toNat_offset_codeLen]; omega
  | codeWord j => rw [toNat_offset_codeWord]; omega
  | _ => rfl

/-- What the port finds at a multiple of 4 stands there. -/
theorem offset_of_regAt {n : Nat} {r : Reg} (h4 : n % 4 = 0) (h : regAt n = some r) :
    r.offset.toNat = n := by
  have hmap : ∀ e ∈ registerMap, e.2.offset.toNat = e.1 := by decide
  unfold regAt at h
  split at h
  · exact hmap _ (mem_of_find h)
  · split at h
    · cases h
      rw [toNat_offset_freq, BitVec.toNat_ofNat]; omega
    · split at h
      · cases h
        rw [toNat_offset_codeLen, BitVec.toNat_ofNat]; omega
      · split at h
        · cases h
          rw [toNat_offset_codeWord]; dsimp only; omega
        · cases h

/-- The reserved multiples of 4 (R26). -/
theorem reserved_of_regAt_eq_none {n : Nat} (h4 : n % 4 = 0) (h : regAt n = none) :
    (0x68 ≤ n ∧ n < 0x400) ∨ 0xC20 ≤ n := by
  have hmap : ∀ k, k < 26 → find (4 * k) registerMap ≠ none := by decide
  by_contra hn
  unfold regAt at h
  split at h
  · exact hmap (n / 4) (by omega) (by rwa [show 4 * (n / 4) = n by omega])
  · split at h
    · cases h
    · split at h
      · cases h
      · split at h
        · cases h
        · omega

/-! ### What an access does -/

theorem portRead_of_inReset {s : State} (h : s.inReset = true) (off : BitVec 12) : s.portRead off = 0 := by
  rw [State.portRead, if_pos h]

theorem portRead_offset {s : State} (h : s.inReset = false) (r : Reg) : s.portRead r.offset = s.readReg r := by
  simp only [State.portRead, h, regAt_offset, Bool.false_eq_true, if_false]

theorem portWrite_offset {s : State} (h : s.inReset = false) (hb : s.busy = false) (r : Reg) (v : Word) :
    s.portWrite r.offset v = s.writeReg r v := by
  simp only [State.portWrite, h, hb, regAt_offset, Bool.false_eq_true, if_false]

theorem portWrite_of_busy {s : State} (h : s.inReset = false) (hb : s.busy = true) (off : BitVec 12)
    (v : Word) : s.portWrite off v = { s with overrun := true } := by
  simp only [State.portWrite, h, hb, Bool.false_eq_true, if_false, if_true]

theorem portRead_reserved {off : BitVec 12} (h : regAt off.toNat = none) (s : State) :
    s.portRead off = 0 := by
  simp only [State.portRead, h, ite_self]

theorem portWrite_reserved {off : BitVec 12} (h : regAt off.toNat = none) {s : State}
    (hr : s.inReset = false) (hb : s.busy = false) (v : Word) : s.portWrite off v = s := by
  simp only [State.portWrite, h, hr, hb, Bool.false_eq_true, if_false]

/-! ### The tables behind the windows -/

theorem entryAt_setEntry_self {α : Type} (t : Vector α 256) (b : Byte) (v : α) :
    entryAt (setEntry t b v) b = v := by
  simp [entryAt, setEntry]

theorem entryAt_setEntry_ne {α : Type} (t : Vector α 256) {b c : Byte} (h : c ≠ b) (v : α) :
    entryAt (setEntry t b v) c = entryAt t c := by
  have hne : b.toNat ≠ c.toNat := fun e => h (BitVec.eq_of_toNat_eq e.symm)
  simp [entryAt, setEntry, Vector.getElem_set_ne, hne]

@[simp] theorem entryAt_replicate {α : Type} (a : α) (v : Byte) :
    entryAt (Vector.replicate 256 a) v = a := by
  simp [entryAt]

@[simp] theorem entryAt_emptyCodes (v : Byte) : entryAt emptyCodes v = [] := entryAt_replicate [] v

theorem shownCodes_of_valid {s : State} (h : s.codesValid = true) : s.shownCodes = s.codes := by
  rw [State.shownCodes, if_pos h]

theorem shownCodes_of_not_valid {s : State} (h : s.codesValid = false) : s.shownCodes = emptyCodes := by
  rw [State.shownCodes, if_neg (by simp [h])]

/-- Bit b of word j of the CODE_WORD window is bit 32j + b of the selected code (R45). -/
theorem getLsbD_codeWord (s : State) (j : Nat) {b : Nat} (h : b < 32) :
    (s.codeWord j).getLsbD b = (entryAt s.shownCodes s.codeSel).getD (32 * j + b) false := by
  rw [State.codeWord, BitVec.getLsbD_ofNat, testBit_bitsToNat]
  simp [List.getD_eq_getElem?_getD, h]

theorem entryAt_shownCodes (s : State) (v : Byte) :
    entryAt s.shownCodes v = if s.codesValid then entryAt s.codes v else [] := by
  cases h : s.codesValid with
  | true => rw [shownCodes_of_valid h]; rfl
  | false => rw [shownCodes_of_not_valid h, entryAt_emptyCodes]; rfl

theorem maxCodeLen_eq (s : State) :
    s.maxCodeLen = (symbols.map fun v => (entryAt s.shownCodes v).length).foldr max 0 := by
  rw [State.maxCodeLen, toList_eq_map, List.map_map]; rfl

/-- MAX_CODE_LEN bounds every code length (R42). -/
theorem length_le_maxCodeLen (s : State) (v : Byte) : (entryAt s.shownCodes v).length ≤ s.maxCodeLen := by
  rw [maxCodeLen_eq]
  exact List.le_max_of_le (List.mem_map_of_mem (mem_symbols v)) le_rfl

/-- MAX_CODE_LEN is the length of some code (R42). -/
theorem exists_length_eq_maxCodeLen (s : State) : ∃ v, (entryAt s.shownCodes v).length = s.maxCodeLen := by
  have hne : (symbols.map fun v => (entryAt s.shownCodes v).length) ≠ [] := by
    intro h
    have := congrArg List.length h
    simp at this
  obtain ⟨v, -, hv⟩ := List.mem_map.mp (List.maximum_mem (List.foldr_max_of_ne_nil hne).symm)
  exact ⟨v, hv.trans (maxCodeLen_eq s).symm⟩

/-! ### The fields of the registers, and the statements -/

/-- The one-bit fields of the STATUS word (R30). -/
theorem getLsbD_statusWord (s : State) :
    s.statusWord.getLsbD 0 = s.busy ∧ s.statusWord.getLsbD 1 = s.done ∧ s.statusWord.getLsbD 2 = s.err ∧
    s.statusWord.getLsbD 3 = s.warn ∧ s.statusWord.getLsbD 4 = s.errSticky ∧
    s.statusWord.getLsbD 5 = s.overrun ∧ s.statusWord.getLsbD 8 = s.treeValid ∧
    s.statusWord.getLsbD 9 = s.codesValid := by
  simp only [State.statusWord, flagBit, BitVec.getLsbD_setWidth, BitVec.getLsbD_append]
  simp

/-- The MODE field of the STATUS word (R30). -/
theorem extractLsb'_statusWord_mode (s : State) : s.statusWord.extractLsb' 6 2 = s.mode.bits := by
  apply BitVec.eq_of_getLsbD_eq
  intro i hi
  have h : i = 0 ∨ i = 1 := by omega
  simp only [State.statusWord, flagBit, BitVec.getLsbD_extractLsb', BitVec.getLsbD_setWidth,
    BitVec.getLsbD_append]
  rcases h with rfl | rfl <;> simp

theorem getLsbD_statusWord_of_le (s : State) {k : Nat} (h : 10 ≤ k) : s.statusWord.getLsbD k = false := by
  rw [State.statusWord, BitVec.getLsbD_setWidth, BitVec.getLsbD_of_ge _ _ h, Bool.and_false]

/-- Settles O9: a read of STATUS is the STATUS word, field by field, and a write is `clearSticky`. -/
theorem statusLayoutAndClear : Obligations.StatusLayoutAndClear := by
  refine ⟨fun s hr => ?_, fun s v hr hb => portWrite_offset hr hb .status v⟩
  have hread : s.portRead 0x008#12 = s.statusWord := portRead_offset hr .status
  obtain ⟨h0, h1, h2, h3, h4, h5, h8, h9⟩ := getLsbD_statusWord s
  simp only [hread]
  refine ⟨h0, h1, h2, h3, h4, h5, (extractLsb'_statusWord_mode s).trans ?_, h8, h9, fun k hk =>
    getLsbD_statusWord_of_le s hk⟩
  cases s.mode <;> rfl

/-- Settles O10: an offset that is no register's is one the port finds nothing at. -/
theorem registerWindowLayout : Obligations.RegisterWindowLayout := by
  refine ⟨fun r => ⟨regAt_offset r, offset_aligned r⟩, fun off h4 hne => ?_⟩
  have hnone : regAt off.toNat = none := by
    cases h : regAt off.toNat with
    | none => rfl
    | some r => exact absurd (BitVec.eq_of_toNat_eq (offset_of_regAt h4 h)) (hne r)
  exact ⟨reserved_of_regAt_eq_none h4 hnone, fun s =>
    ⟨portRead_reserved hnone s, fun v hr hb => portWrite_reserved hnone hr hb v⟩⟩

/-- Settles O12: the table after the write is the old one with one entry set. -/
theorem freqWindowWrite : Obligations.FreqWindowWrite := fun s b v hr =>
  ⟨portRead_offset hr (.freq b), fun hb => ⟨setEntry s.freq b v, portWrite_offset hr hb (.freq b) v,
    entryAt_setEntry_self s.freq b v, fun _ hc => entryAt_setEntry_ne s.freq hc v⟩⟩

/-- Settles O13: the word is cut out of the selected code at bit 32j. -/
theorem codeWordWindow : Obligations.CodeWordWindow := by
  intro s j b hr hj hb
  refine ⟨?_, fun hidle v => portWrite_offset hr hidle (.codeWord ⟨j, hj⟩) v⟩
  have hread : s.portRead (BitVec.ofNat 12 (0xC00 + 4 * j)) = s.codeWord j :=
    portRead_offset hr (.codeWord ⟨j, hj⟩)
  rw [hread, getLsbD_codeWord s j hb, entryAt_shownCodes]

/-- The CODE_LEN window while CODES_VALID = 1; a length of at most 255 fits its field (R44, R48). -/
theorem toNat_readReg_codeLen {s : State} {v : Byte} (h : (entryAt s.shownCodes v).length ≤ 255) :
    (s.readReg (.codeLen v)).toNat = (entryAt s.shownCodes v).length := by
  simp only [State.readReg, BitVec.toNat_setWidth, BitVec.toNat_ofNat]
  omega

theorem maxCodeLen_of_not_valid {s : State} (h : s.codesValid = false) : s.maxCodeLen = 0 := by
  obtain ⟨v, hv⟩ := exists_length_eq_maxCodeLen s
  rw [← hv, shownCodes_of_not_valid h, entryAt_emptyCodes, List.length_nil]

/-- Settles O14: the greatest length is one of the lengths, so it fits the register; without a valid table the
windows show 256 empty codes. -/
theorem codeLengthRegisters : Obligations.CodeLengthRegisters := by
  refine ⟨fun s hr hv hlen => ?_, fun s hv => ?_⟩
  · rw [← shownCodes_of_valid hv] at hlen ⊢
    obtain ⟨w, hw⟩ := exists_length_eq_maxCodeLen s
    have hmax : (s.portRead 0x064#12).toNat = s.maxCodeLen := by
      have hfit : s.maxCodeLen ≤ 255 := hw ▸ hlen w
      have hread : s.portRead 0x064#12 = BitVec.ofNat 32 s.maxCodeLen := portRead_offset hr .maxCodeLen
      rw [hread, BitVec.toNat_ofNat]
      omega
    rw [hmax]
    refine ⟨fun v => ?_, length_le_maxCodeLen s, w, hw⟩
    exact (congrArg BitVec.toNat (portRead_offset hr (.codeLen v))).trans (toNat_readReg_codeLen (hlen v))
  · cases hr : s.inReset with
    | true => exact ⟨portRead_of_inReset hr _, fun v => portRead_of_inReset hr _⟩
    | false =>
      refine ⟨(portRead_offset hr .maxCodeLen).trans ?_, fun v => (portRead_offset hr (.codeLen v)).trans ?_⟩
      · rw [State.readReg, maxCodeLen_of_not_valid hv]
      · rw [State.readReg, shownCodes_of_not_valid hv, entryAt_emptyCodes]; rfl

/-- Settles O8: the port tests the pin and BUSY before it looks at the offset. -/
theorem registerWriteHandshake : Obligations.RegisterWriteHandshake := by
  refine ⟨fun s w hr hb => ?_, fun s => ?_, fun s off v hr hb => portWrite_of_busy hr hb off v⟩
  · have hwrite : s.portWrite 0x004#12 w = s.accept w := portWrite_offset hr hb .cmd w
    rw [hwrite]
    exact ⟨rfl, rfl⟩
  · cases hr : s.inReset with
    | true => exact portRead_of_inReset hr _
    | false => exact portRead_offset hr .cmd

/-- The symbols that occur, written out (R46). -/
theorem present_eq_occurring (f : FreqTable) : present f = occurring f := present_eq f

/-- Registers outside the windows that ignore every write (R27). -/
def readOnlyRegs : List Reg :=
  [.id, .errcode, .resultLen, .consumed, .entryCount, .entryOffset, .entrySize, .version, .arcOffset,
    .indexOff, .nodeCount, .symCount, .maxCodeLen]

theorem writeReg_readOnly {r : Reg} (h : r ∈ readOnlyRegs) (s : State) (v : Word) : s.writeReg r v = s := by
  revert r
  simp [readOnlyRegs, State.writeReg]

/-- A byte shown in a 32-bit register. -/
theorem setWidth_byte (b : Byte) : b.setWidth 32 = 0#24 ++ b := by
  exact BitVec.setWidth_eq_append (by decide)

/-- Settles O11: each access is the one of the register that stands at the offset. -/
theorem hostRegisterWrites : Obligations.HostRegisterWrites := by
  refine ⟨fun s v hr hb => ?_, fun s hr => ?_, by decide, fun s v hr hb => ⟨?_, fun b =>
    portWrite_offset hr hb (.codeLen b) v⟩⟩
  · have hw := fun r => portWrite_offset hr hb r v
    have hsel : v.extractLsb' 0 8 = v.setWidth 8 := (BitVec.setWidth_eq_extractLsb' (by decide)).symm
    rw [hsel]
    exact ⟨hw .srcAddr, hw .srcLen, hw .dstAddr, hw .dstCap, hw .nameAddr, hw .nameLen, hw .entrySel,
      hw .bitcountLo, hw .bitcountHi, hw .codeSel, hw .arcLen⟩
  · have hread := fun r => portRead_offset hr r
    rw [← setWidth_byte, ← setWidth_byte, ← present_eq_occurring]
    exact ⟨hread .id, hread .errcode, hread .srcAddr, hread .srcLen, hread .dstAddr, hread .dstCap,
      hread .nameAddr, hread .nameLen, hread .resultLen, hread .consumed, hread .entrySel,
      hread .entryCount, hread .entryOffset, hread .entrySize, hread .bitcountLo, hread .bitcountHi,
      hread .version, hread .arcLen, hread .arcOffset, hread .indexOff, hread .nodeCount,
      hread .symCount, hread .codeSel⟩
  · have hro : ∀ r ∈ readOnlyRegs, s.portWrite r.offset v = s := fun r hmem =>
      (portWrite_offset hr hb r v).trans (writeReg_readOnly hmem s v)
    exact (List.forall_mem_map (P := fun off => s.portWrite off v = s)).2 hro

/-- Settles O15: a register but ID reads 0 because the element it shows is zero or empty. -/
theorem resetStateValues : Obligations.ResetStateValues := by
  refine ⟨rfl, rfl, fun r hr => (portRead_offset rfl r).trans ?_, fun v => entryAt_replicate 0#32 v,
    fun v => entryAt_replicate [] v⟩
  have hcodes : State.reset.shownCodes = emptyCodes := rfl
  have hpresent : present State.reset.freq = [] := by
    simp [present_eq, State.reset]
  cases r with
  | id => exact absurd rfl hr
  | symCount => rw [State.readReg, hpresent]; rfl
  | maxCodeLen => rw [State.readReg, maxCodeLen_of_not_valid rfl]
  | freq v => exact entryAt_replicate 0#32 v
  | codeLen v => rw [State.readReg, hcodes, entryAt_emptyCodes]; rfl
  | codeWord j => rw [State.readReg, State.codeWord, hcodes, entryAt_emptyCodes]; simp [bitsToNat]
  | _ => rfl

end Sys2Proof.Machine
end

section
/-! PROOFS. What a checked computation gives or fails with, as one rule per construct, and O57: the argument
registers that no command writes (10_state.md R23, R24; 46_control.md R145). -/

namespace Sys2Proof.Machine

/-! ### The outcome of a checked computation -/

/-- A checked computation gives a value that meets P or fails with a failure that meets E. -/
structure Meets {α : Type} (r : Checked α) (P : α → Prop) (E : Failure → Prop) : Prop where
  value : ∀ a, r = .ok a → P a
  failure : ∀ e, r = .error e → E e

section
variable {α β : Type} {P : α → Prop} {Q : β → Prop} {E : Failure → Prop}

theorem meets_ok {a : α} (h : P a) : Meets (.ok a) P E :=
  ⟨fun _ e => Except.ok.inj e ▸ h, fun _ e => (by cases e)⟩

theorem meets_error {e : Failure} (h : E e) : Meets (.error e : Checked α) P E :=
  ⟨fun _ e => (by cases e), fun _ he => Except.error.inj he ▸ h⟩

theorem Meets.bind {r : Checked α} {f : α → Checked β} (hr : Meets r P E)
    (hf : ∀ a, P a → Meets (f a) Q E) : Meets (r >>= f) Q E := by
  cases r with
  | ok a => exact hf a (hr.value a rfl)
  | error e => exact meets_error (hr.failure e rfl)

/-- What follows a computation of which nothing is said. -/
theorem meets_then {r : Checked α} {f : α → Checked β} (hf : ∀ a, Meets (f a) Q fun _ => True) :
    Meets (r >>= f) Q fun _ => True := by
  cases r with
  | ok a => exact hf a
  | error e => exact meets_error trivial

end

/-! ### The argument registers -/

/-- What the host alone writes, and the pin and the parameters (R23, R71, R165). -/
structure Arguments where
  srcAddr : Word
  srcLen : Word
  dstAddr : Word
  dstCap : Word
  nameAddr : Word
  nameLen : Word
  entrySel : Word
  codeSel : Byte
  overrun : Bool
  inReset : Bool
  params : Params

def State.arguments (s : State) : Arguments where
  srcAddr := s.srcAddr
  srcLen := s.srcLen
  dstAddr := s.dstAddr
  dstCap := s.dstCap
  nameAddr := s.nameAddr
  nameLen := s.nameLen
  entrySel := s.entrySel
  codeSel := s.codeSel
  overrun := s.overrun
  inReset := s.inReset
  params := s.params

/-- The two BITCOUNT registers (R24). -/
def State.bitcountRegs (s : State) : Word × Word := (s.bitcountLo, s.bitcountHi)

/-- The commands that write BITCOUNT (R24, R112; log 22). -/
def writesBitcount : Instr → Bool
  | .symEncode | .hufEncode | .hufDecode | .arGet | .arAdd => true
  | _ => false

/-- From s to t the arguments are kept, and BITCOUNT unless the command writes it. -/
structure ArgumentsKept (i : Instr) (s t : State) : Prop where
  arguments : t.arguments = s.arguments
  bitcount : writesBitcount i = false → t.bitcountRegs = s.bitcountRegs

variable {i : Instr} {s t : State}

/-- An update that changes no argument, after whatever kept them. -/
theorem ArgumentsKept.trans {u : State} (h : ArgumentsKept i s u)
    (ha : t.arguments = u.arguments := by simp [State.arguments])
    (hb : t.bitcountRegs = u.bitcountRegs := by simp [State.bitcountRegs]) : ArgumentsKept i s t :=
  ⟨ha.trans h.arguments, fun hi => hb.trans (h.bitcount hi)⟩

theorem argumentsKept_fail (f : Failure) : ArgumentsKept i s (s.fail f) := by
  rw [fail_eq]
  exact ⟨rfl, fun _ => rfl⟩

/-- A command that is concluded keeps the arguments when its success does: a failure always does. -/
theorem argumentsKept_of_conclude {r : Checked State} (h : s.conclude r = .next t)
    (hr : Meets r (ArgumentsKept i s) fun _ => True) : ArgumentsKept i s t := by
  cases r with
  | ok u => cases h; exact (hr.value u rfl).trans
  | error f => cases h; exact argumentsKept_fail f

/-- A success that changes no argument. -/
theorem meets_kept {u : State} (ha : u.arguments = s.arguments := by simp [State.arguments])
    (hb : u.bitcountRegs = s.bitcountRegs := by simp [State.bitcountRegs]) :
    Meets (.ok u) (ArgumentsKept i s) fun _ => True :=
  meets_ok ⟨ha, fun _ => hb⟩

/-- A success of a command that writes BITCOUNT and no other argument. -/
theorem meets_kept_but_bitcount {u : State} (hi : writesBitcount i = true)
    (ha : u.arguments = s.arguments := by simp [State.arguments]) :
    Meets (.ok u) (ArgumentsKept i s) fun _ => True :=
  meets_ok ⟨ha, fun hn => absurd hi (by simp [hn])⟩

theorem argumentsKept_closeArchive (s : State) (d : IoDraw) : ArgumentsKept i s (s.closeArchive d).1 := by
  by_cases hs : s.mode = .unset
  · simp only [State.closeArchive, hs]
    exact ⟨rfl, fun _ => rfl⟩
  · obtain ⟨a, n, x, -, hu⟩ := closeArchive_closes s d hs
    rw [hu]
    exact ⟨rfl, fun _ => rfl⟩

theorem argumentsKept_implicitClose (s : State) : ArgumentsKept i s s.implicitClose := by
  by_cases hs : s.mode = .unset
  · rw [implicitClose_of_unset hs]
    exact ⟨rfl, fun _ => rfl⟩
  · rw [implicitClose_of_open hs]
    exact argumentsKept_closeArchive s _

/-- AR_OPEN_W ends in one of two ways on the handle that the implicit close leaves (R136). -/
theorem exec_arOpenW_cases (s : State) :
    exec .arOpenW s = .next (s.implicitClose.reportError .io) ∨
    exec .arOpenW s = .next (s.implicitClose.openForWriting.results 8 0).succeed := by
  rw [← exec_arOpenW_implicitClose]
  cases hi : s.implicitClose.ioFail .command with
  | true => exact .inl (exec_arOpenW_of_ioFail (implicitClose_mode s) hi)
  | false => exact .inr (exec_arOpenW_of_not_ioFail (implicitClose_mode s) hi)

theorem argumentsKept_arOpenW (h : exec .arOpenW s = .next t) : ArgumentsKept i s t := by
  have hc : ArgumentsKept i s s.implicitClose := argumentsKept_implicitClose s
  obtain hu | hu := exec_arOpenW_cases s <;>
  · obtain rfl := Host.Outcome.next.inj (hu.symm.trans h)
    exact hc.trans

theorem argumentsKept_arOpenR (h : execArOpenR s = .next t) : ArgumentsKept i s t := by
  have hc : ArgumentsKept i s s.implicitClose := argumentsKept_implicitClose s
  unfold execArOpenR at h
  generalize s.implicitClose = u at h hc
  dsimp only at h
  split at h <;> (cases h; exact hc.trans)

theorem argumentsKept_arClose (h : execArClose s = .next t) : ArgumentsKept i s t := by
  have hc : ArgumentsKept i s (s.closeArchive .command).1 := argumentsKept_closeArchive s _
  unfold execArClose at h
  generalize s.closeArchive .command = r at h hc
  obtain ⟨u, e⟩ := r
  cases e <;> (cases h; exact hc.trans)

theorem argumentsKept_arGet (h : execArGet s = .next t) : ArgumentsKept .arGet s t := by
  refine argumentsKept_of_conclude h (meets_then fun _ => meets_then fun _ => meets_then fun _ =>
    meets_then fun _ => ?_)
  cases findEntry s.nameBytes s.idx with
  | none => exact meets_error trivial
  | some e =>
    exact meets_then fun _ => meets_then fun _ => meets_then fun _ => meets_then fun _ =>
      meets_then fun _ => meets_kept_but_bitcount rfl

theorem argumentsKept_arEnum (h : execArEnum s = .next t) : ArgumentsKept .arEnum s t := by
  refine argumentsKept_of_conclude h (meets_then fun _ => meets_then fun _ => ?_)
  cases s.idx[s.entrySel.toNat]? with
  | none => exact meets_error trivial
  | some e => exact meets_then fun _ => meets_kept

@[simp] theorem appendFrame_arguments (s : State) : s.appendFrame.arguments = s.arguments := by
  simp [State.arguments, State.appendFrame]

theorem argumentsKept_arAdd (h : execArAdd s = .next t) : ArgumentsKept .arAdd s t := by
  refine argumentsKept_of_conclude h (meets_then fun _ => meets_then fun _ => meets_then fun _ =>
    meets_then fun _ => meets_then fun _ => meets_then fun _ => meets_then fun _ => ?_)
  cases s.ioFail .command with
  | true => exact meets_error trivial
  | false => exact meets_kept_but_bitcount rfl (appendFrame_arguments s)

theorem argumentsKept_arSetver (h : execArSetver s = .next t) : ArgumentsKept i s t := by
  unfold execArSetver at h
  split at h
  · cases h; exact argumentsKept_fail _
  · dsimp only at h
    split at h <;> (cases h; exact ⟨rfl, fun _ => rfl⟩)

/-- Every command but SRESET keeps the arguments (R23, R24). -/
theorem argumentsKept_exec (hi : i ≠ .sreset) (h : exec i s = .next t) : ArgumentsKept i s t := by
  cases i with
  | nop => exact argumentsKept_of_conclude (r := .ok (s.results 0 0)) h (meets_kept)
  | freqCount => exact argumentsKept_of_conclude h (meets_then fun _ => meets_kept)
  | freqSer =>
    exact argumentsKept_of_conclude h (meets_then fun _ => meets_then fun _ => meets_kept)
  | freqDes =>
    exact argumentsKept_of_conclude h (meets_then fun _ => meets_then fun _ => meets_kept)
  | treeBuild => exact argumentsKept_of_conclude (r := .ok ((s.setTree s.freq).results 0 0)) h (meets_kept)
  | codeGen => exact argumentsKept_of_conclude h (meets_then fun _ => meets_kept)
  | symEncode =>
    exact argumentsKept_of_conclude h (meets_then fun _ => meets_then fun _ => meets_then fun _ =>
      meets_then fun _ => meets_kept_but_bitcount rfl)
  | symDecode =>
    exact argumentsKept_of_conclude h (meets_then fun _ => meets_then fun _ => meets_then fun _ =>
      meets_then fun _ => meets_kept)
  | hufEncode =>
    exact argumentsKept_of_conclude h (meets_then fun _ => meets_then fun _ =>
      meets_kept_but_bitcount rfl)
  | hufDecode =>
    exact argumentsKept_of_conclude h (meets_then fun _ => meets_then fun _ =>
      meets_kept_but_bitcount rfl)
  | frame =>
    exact argumentsKept_of_conclude h (meets_then fun _ => meets_then fun _ => meets_kept)
  | unframe =>
    exact argumentsKept_of_conclude h (meets_then fun _ => meets_then fun _ => meets_then fun _ =>
      meets_kept)
  | arOpenW => exact argumentsKept_arOpenW h
  | arOpenR => exact argumentsKept_arOpenR h
  | arAdd => exact argumentsKept_arAdd h
  | arClose => exact argumentsKept_arClose h
  | arGet => exact argumentsKept_arGet h
  | arEnum => exact argumentsKept_arEnum h
  | arSetver => exact argumentsKept_arSetver h
  | arGetver =>
    exact argumentsKept_of_conclude h (meets_then fun _ => meets_then fun _ => meets_kept)
  | sreset => exact absurd rfl hi

theorem writesBitcount_eq_false (h : i ∉ [Instr.symEncode, .hufEncode, .hufDecode, .arGet, .arAdd]) :
    writesBitcount i = false := by
  revert h
  cases i <;> decide

/-- Settles O57: the arguments as one value are the same after every command but SRESET. -/
theorem argumentRegistersKept : Obligations.ArgumentRegistersKept := by
  intro i s t hi h
  obtain ⟨ha, hb⟩ := argumentsKept_exec hi h
  simp only [State.arguments, Arguments.mk.injEq] at ha
  obtain ⟨h1, h2, h3, h4, h5, h6, h7, h8, h9, h10, h11⟩ := ha
  exact ⟨h1, h2, h3, h4, h5, h6, h7, h8, h9, h10, h11, fun hn =>
    Prod.mk.inj (hb (writesBitcount_eq_false hn))⟩

end Sys2Proof.Machine
end

section
/-! PROOFS. The order of the paths and the path index (45_archive.md R127, R50), and that a parsed version is
valid (R130, R132). -/

namespace Sys2Proof.Machine

/-! ### The order of the paths -/

/-- Path order is the lexicographic order of the byte values (R127). -/
theorem pathBefore_iff (a b : ByteString) :
    pathBefore a b = true ↔ a.map BitVec.toNat < b.map BitVec.toNat := by
  induction a generalizing b with
  | nil => cases b <;> simp [pathBefore]
  | cons x a ih =>
    cases b with
    | nil => simp [pathBefore]
    | cons y b => simp [pathBefore, ih, List.cons_lt_cons_iff, BitVec.toNat_inj]

theorem pathBefore_trans {a b c : ByteString} (hab : pathBefore a b = true) (hbc : pathBefore b c = true) :
    pathBefore a c = true := by
  rw [pathBefore_iff] at *
  exact lt_trans hab hbc

/-- Of two different paths one comes before the other. -/
theorem pathBefore_of_ne {a b : ByteString} (hne : a ≠ b) (h : pathBefore a b = false) :
    pathBefore b a = true := by
  have hinj : Function.Injective (List.map (BitVec.toNat (w := 8))) :=
    List.map_injective_iff.2 fun _ _ => BitVec.eq_of_toNat_eq
  have hnot : ¬ a.map BitVec.toNat < b.map BitVec.toNat := by rw [← pathBefore_iff, h]; simp
  rw [pathBefore_iff]
  exact lt_of_le_of_ne (not_lt.1 hnot) (hinj.ne hne.symm)

/-! ### The path index -/

/-- A new entry put into the index: the list has that entry and the old ones. -/
theorem insertEntry_perm (e : Entry) {l : List Entry} (h : ∀ x ∈ l, x.path ≠ e.path) :
    (insertEntry e l).Perm (e :: l) := by
  induction l with
  | nil => exact List.Perm.refl _
  | cons x l ih =>
    obtain ⟨hx, hl⟩ := List.forall_mem_cons.1 h
    rw [insertEntry, if_neg hx.symm]
    split
    · exact List.Perm.refl _
    · exact ((ih hl).cons x).trans (List.Perm.swap e x l)

theorem insertEntry_ascending (e : Entry) {l : List Entry} (h : ∀ x ∈ l, x.path ≠ e.path)
    (hl : l.Pairwise fun a b => pathBefore a.path b.path = true) :
    (insertEntry e l).Pairwise fun a b => pathBefore a.path b.path = true := by
  induction l with
  | nil => simp [insertEntry]
  | cons x l ih =>
    obtain ⟨hx, hne⟩ := List.forall_mem_cons.1 h
    obtain ⟨hxl, hll⟩ := List.pairwise_cons.1 hl
    rw [insertEntry, if_neg hx.symm]
    split
    · next hex =>
      exact List.pairwise_cons.2 ⟨List.forall_mem_cons.2 ⟨hex, fun y hy => pathBefore_trans hex (hxl y hy)⟩, hl⟩
    · next hex =>
      have hxe : pathBefore x.path e.path = true := pathBefore_of_ne hx.symm (by simpa using hex)
      refine List.pairwise_cons.2 ⟨fun y hy => ?_, ih hne hll⟩
      rcases List.mem_cons.1 ((insertEntry_perm e hne).mem_iff.1 hy) with rfl | hy
      · exact hxe
      · exact hxl y hy

theorem nameTotal_insertEntry (e : Entry) {l : List Entry} (h : ∀ x ∈ l, x.path ≠ e.path) :
    nameTotal (insertEntry e l) = nameTotal l + e.path.length := by
  have hsum := ((insertEntry_perm e h).map fun x => x.path.length).sum_eq
  rw [nameTotal, hsum, List.map_cons, List.sum_cons, nameTotal, Nat.add_comm]

theorem indexGood_nil (p : Params) : IndexGood p [] where
  ascending := List.Pairwise.nil
  lengths := by simp
  count := Nat.zero_le _
  names := Nat.zero_le _

/-- A new entry that passes the checks of AR_ADD or AR_OPEN_R keeps the index in order (R50, R137, R138). -/
theorem IndexGood.insert {p : Params} {l : List Entry} (h : IndexGood p l) {e : Entry}
    (hnew : (findEntry e.path l).isNone = true) (hpos : 1 ≤ e.path.length)
    (hlen : e.path.length ≤ p.maxNameLen) (hcount : l.length ≠ p.maxEntries)
    (hnames : nameTotal l + e.path.length ≤ p.nameCap) : IndexGood p (insertEntry e l) := by
  have hne := findEntry_isNone.1 hnew
  have hperm := insertEntry_perm e hne
  refine ⟨insertEntry_ascending e hne h.ascending, fun x hx => ?_, ?_, ?_⟩
  · rcases List.mem_cons.1 (hperm.mem_iff.1 hx) with rfl | hx
    · exact ⟨hpos, hlen⟩
    · exact h.lengths x hx
  · have hc := h.count
    rw [hperm.length_eq, List.length_cons]
    omega
  · rw [nameTotal_insertEntry e hne]
    exact hnames

/-! ### Versions -/

/-- The byte that a group of a version string becomes (R129). -/
def groupByte (g : Nat) : Byte := 0x80#8 ||| BitVec.ofNat 8 g

theorem setWidth_groupByte {g : Nat} (h : g ≤ 99) :
    0x80#32 ||| BitVec.ofNat 32 g = (groupByte g).setWidth 32 := by
  have hall : ∀ g, g < 100 → 0x80#32 ||| BitVec.ofNat 32 g = (groupByte g).setWidth 32 := by decide
  exact hall g (by omega)

theorem groupByte_valid {g : Nat} (h : g ≤ 99) :
    (groupByte g).getLsbD 7 = true ∧ (groupByte g).toNat % 128 ≤ 99 := by
  have hall : ∀ g, g < 100 → (groupByte g).getLsbD 7 = true ∧ (groupByte g).toNat % 128 ≤ 99 := by decide
  exact hall g (by omega)

/-- A byte above the lowest, after a byte has been shifted in from the right. -/
theorem extractLsb'_push_high (v : Word) (b : Byte) {i : Nat} (h : i ≤ 16) :
    ((v <<< 8) ||| b.setWidth 32).extractLsb' (8 + i) 8 = v.extractLsb' i 8 := by
  apply BitVec.eq_of_getLsbD_eq
  intro j hj
  have hin : 8 + i + j < 32 := by omega
  have hshift : 8 + i + j - 8 = i + j := by omega
  have hout : b.getLsbD (8 + i + j) = false := BitVec.getLsbD_of_ge b _ (by omega)
  have hge : ¬ 8 + i + j < 8 := by omega
  simp only [BitVec.getLsbD_extractLsb', BitVec.getLsbD_or, BitVec.getLsbD_shiftLeft,
    BitVec.getLsbD_setWidth, hout, hshift]
  simp only [hin, hge, decide_true, decide_false, Bool.not_false, Bool.true_and, Bool.and_false,
    Bool.or_false]

theorem extractLsb'_push_low (v : Word) (b : Byte) :
    ((v <<< 8) ||| b.setWidth 32).extractLsb' 0 8 = b := by
  ext j hj
  simp [hj, show j < 32 by omega]

/-- A byte shifted in from the right drops the top byte and comes last. -/
theorem verBytes_push (v : Word) (b : Byte) :
    verBytes ((v <<< 8) ||| b.setWidth 32) = (verBytes v).tail ++ [b] := by
  rw [verBytes, extractLsb'_push_high v b (i := 16) (by decide), extractLsb'_push_high v b (i := 8) (by decide),
    extractLsb'_push_high v b (i := 0) (by decide), extractLsb'_push_low]
  rfl

theorem verBytes_verPack {gs : List Nat} (hg : ∀ g ∈ gs, g ≤ 99) (hl : gs.length ≤ 4) :
    verBytes (verPack gs) = List.replicate (4 - gs.length) 0#8 ++ gs.map groupByte := by
  induction gs using List.reverseRecOn with
  | nil => decide
  | append_singleton gs g ih =>
    simp only [List.forall_mem_append, List.forall_mem_singleton, List.length_append,
      List.length_singleton] at hg hl
    have hk : 4 - gs.length = (4 - (gs.length + 1)) + 1 := by omega
    have hpack : verPack (gs ++ [g]) = (verPack gs <<< 8) ||| (groupByte g).setWidth 32 := by
      simp [verPack, ← setWidth_groupByte hg.2]
    rw [hpack, verBytes_push, ih hg.1 (by omega), hk, List.replicate_succ]
    simp

/-- A packed version of at most four groups of at most 99 is valid (R132). -/
theorem verValid_verPack {gs : List Nat} (hg : ∀ g ∈ gs, g ≤ 99) (hl : gs.length ≤ 4) :
    verValid (verPack gs) = true := by
  rw [verValid, verBytes_verPack hg hl, List.all_eq_true, List.dropWhile_append_of_pos (by simp)]
  intro b hb
  obtain ⟨g, hmem, rfl⟩ := List.mem_map.1 ((List.dropWhile_sublist _).mem hb)
  obtain ⟨hbit, hval⟩ := groupByte_valid (hg g hmem)
  simp [hbit, hval]

theorem groupValue_le {t : ByteString} {g : Nat} (h : groupValue t = some g) : g ≤ 99 := by
  unfold groupValue at h
  split at h
  · next hv => cases h; exact hv.2.2
  · cases h

/-- The groups of a valid version string: one value for each, at most 99 (R130). -/
theorem groupValues_spec {ts : List ByteString} {gs : List Nat} (h : groupValues ts = some gs) :
    gs.length = ts.length ∧ ∀ g ∈ gs, g ≤ 99 := by
  induction ts generalizing gs with
  | nil => cases h; simp
  | cons t ts ih =>
    unfold groupValues at h
    split at h
    · next g gs' hg hgs =>
      cases h
      obtain ⟨hlen, hle⟩ := ih hgs
      exact ⟨by simp [hlen], List.forall_mem_cons.2 ⟨groupValue_le hg, hle⟩⟩
    · cases h

/-- What VerParse returns is a valid version (R130, R132). -/
theorem verValid_of_verParse {str : ByteString} {v : Word} (h : verParse str = some v) :
    verValid v = true := by
  unfold verParse at h
  split at h
  · next hl =>
    obtain ⟨gs, hgs, rfl⟩ := Option.map_eq_some_iff.1 h
    obtain ⟨hlen, hle⟩ := groupValues_spec hgs
    exact verValid_verPack hle (hlen ▸ hl)
  · cases h

end Sys2Proof.Machine
end

section
/-! PROOFS. The invariant of the machine: O59, and O60 for every step of host and engine. The invariant speaks
of four groups of fields that share only the parameters; an operation is followed through each group on its
own. -/

namespace Sys2Proof.Machine

/-! ### The four groups of fields -/

/-- The two byte memories. -/
structure Stores where
  params : Params
  buf : Memory
  arc : Memory

/-- FREQ, TREE and CODE with their flags. -/
structure Coder where
  policy : TiePolicy
  freq : FreqTable
  tree : Option Node
  nodeCount : Word
  treeValid : Bool
  codes : CodeTable
  codesValid : Bool

/-- The archive handle. -/
structure Handle where
  params : Params
  idx : List Entry
  version : Word
  mode : Mode
  arcOffset : Word
  arcLen : Word
  indexOff : Word

/-- The handshake and the completion flags. -/
structure Handshake where
  pending : Option Word
  done : Bool
  err : Bool
  warn : Bool
  errcode : ErrCode
  inReset : Bool

def State.stores (s : State) : Stores := ⟨s.params, s.buf, s.arc⟩

def State.coder (s : State) : Coder :=
  ⟨s.params.tiePolicy, s.freq, s.tree, s.nodeCount, s.treeValid, s.codes, s.codesValid⟩

def State.handle (s : State) : Handle :=
  ⟨s.params, s.idx, s.version, s.mode, s.arcOffset, s.arcLen, s.indexOff⟩

def State.handshake (s : State) : Handshake := ⟨s.pending, s.done, s.err, s.warn, s.errcode, s.inReset⟩

structure Stores.Good (m : Stores) : Prop where
  params : m.params.valid = true
  buf : m.buf.store = .buf ∧ m.buf.wf ∧ m.buf.inBounds m.params.bufSize
  arc : m.arc.store = .arc ∧ m.arc.wf ∧ m.arc.inBounds m.params.arcCap

structure Coder.Good (c : Coder) : Prop where
  tree : c.treeValid = true → c.tree = (buildTree c.policy c.freq).1 ∧
    c.nodeCount = BitVec.ofNat 32 (buildTree c.policy c.freq).2
  noTree : c.treeValid = false → c.nodeCount = 0
  codes : c.codesValid = true → c.treeValid = true ∧ c.codes = genCodes c.tree

structure Handle.Good (h : Handle) : Prop where
  index : IndexGood h.params h.idx
  version : verValid h.version = true
  unset : h.mode = .unset → h.idx = [] ∧ h.version = 0 ∧ h.arcOffset = 0
  writing : h.mode = .writeOpen → h.arcOffset = h.arcLen ∧ h.arcOffset.toNat % 8 = 0 ∧
    8 ≤ h.arcOffset.toNat ∧ h.arcOffset.toNat ≤ h.params.arcCap ∧ h.indexOff = 0
  reading : h.mode = .readOpen → h.arcOffset = 0 ∧ h.indexOff.toNat % 8 = 0 ∧
    8 ≤ h.indexOff.toNat ∧ h.indexOff.toNat + 24 ≤ h.arcLen.toNat ∧ h.arcLen.toNat ≤ h.params.arcCap

structure Handshake.Good (k : Handshake) : Prop where
  busy : k.pending.isSome = true → k.done = false ∧ k.err = false ∧ k.warn = false ∧ k.errcode = .ok
  report : (k.err = true → k.warn = false ∧ k.errcode ≠ .ok ∧ k.errcode ≠ .versionParse) ∧
    (k.warn = true → k.errcode = .versionParse) ∧ (k.err = false → k.warn = false → k.errcode = .ok)
  reset : k.inReset = true → k.pending = none

/-- The part of the invariant that a command has to keep; its completion sets the rest. -/
structure State.Sound (s : State) : Prop where
  stores : s.stores.Good
  coder : s.coder.Good
  handle : s.handle.Good

/-- The invariant, group by group. -/
theorem inv_iff (s : State) : Inv s ↔ s.Sound ∧ s.handshake.Good := by
  constructor
  · intro h
    exact ⟨⟨⟨h.params, h.buf, h.arc⟩, ⟨h.tree, h.noTree, h.codes⟩,
      ⟨h.index, h.version, h.unset, h.writing, h.reading⟩⟩, ⟨h.busy, h.report, h.reset⟩⟩
  · rintro ⟨⟨⟨params, buf, arc⟩, ⟨tree, noTree, codes⟩, ⟨index, version, unset, writing, reading⟩⟩,
      ⟨busy, report, reset⟩⟩
    exact ⟨params, buf, arc, busy, report, reset, tree, noTree, codes, index, version, unset, writing,
      reading⟩

theorem Inv.sound {s : State} (h : Inv s) : s.Sound := ((inv_iff s).1 h).1

theorem Inv.handshake {s : State} (h : Inv s) : s.handshake.Good := ((inv_iff s).1 h).2

variable {s t u : State}

/-- An update that leaves the three groups alone. -/
theorem State.Sound.congr (h : s.Sound) (hs : t.stores = s.stores := by rfl)
    (hc : t.coder = s.coder := by rfl) (hh : t.handle = s.handle := by rfl) : t.Sound :=
  ⟨hs ▸ h.stores, hc ▸ h.coder, hh ▸ h.handle⟩

/-- An update that leaves all four groups alone. -/
theorem Inv.congr (h : Inv s) (hs : t.stores = s.stores := by rfl) (hc : t.coder = s.coder := by rfl)
    (hh : t.handle = s.handle := by rfl) (hk : t.handshake = s.handshake := by rfl) : Inv t :=
  (inv_iff t).2 ⟨h.sound.congr hs hc hh, hk ▸ h.handshake⟩

theorem arcCap_bounds {p : Params} (h : p.valid = true) : 32 ≤ p.arcCap ∧ p.arcCap < 2 ^ 32 := by
  simp only [Params.valid, Bool.and_eq_true, decide_eq_true_eq] at h
  omega

theorem State.Sound.arcCap_bounds (h : s.Sound) : 32 ≤ s.params.arcCap ∧ s.params.arcCap < 2 ^ 32 :=
  Machine.arcCap_bounds h.stores.params

/-! ### What changes one group -/

theorem Stores.Good.writeBuf {m : Stores} (h : m.Good) {a : Nat} {bs : ByteString}
    (hb : a + bs.length ≤ m.params.bufSize) : Stores.Good { m with buf := m.buf.writeBytes a bs } :=
  ⟨h.params, ⟨h.buf.1, wf_writeBytes h.buf.2.1 a bs, inBounds_writeBytes h.buf.2.2 hb⟩, h.arc⟩

theorem Stores.Good.writeArc {m : Stores} (h : m.Good) {o : Nat} {bs : ByteString}
    (hb : o + bs.length ≤ m.params.arcCap) : Stores.Good { m with arc := m.arc.writeBytes o bs } :=
  ⟨h.params, h.buf, ⟨h.arc.1, wf_writeBytes h.arc.2.1 o bs, inBounds_writeBytes h.arc.2.2 hb⟩⟩

theorem Stores.Good.releaseBuf {m : Stores} (h : m.Good) {a n : Nat} (tag : Nat)
    (hb : a + n ≤ m.params.bufSize) : Stores.Good { m with buf := m.buf.release a n tag } :=
  ⟨h.params, ⟨h.buf.1, wf_release h.buf.2.1 a n tag, inBounds_release h.buf.2.2 tag (.inr hb)⟩, h.arc⟩

theorem Stores.Good.releaseArc {m : Stores} (h : m.Good) (o tag : Nat) :
    Stores.Good { m with arc := m.arc.release o (m.params.arcCap - o) tag } :=
  ⟨h.params, h.buf, ⟨h.arc.1, wf_release h.arc.2.1 o _ tag, inBounds_release h.arc.2.2 tag (by omega)⟩⟩

/-- With both flags 0 nothing is asked of TREE and CODE. -/
theorem coder_good_of_not_valid {c : Coder} (ht : c.treeValid = false) (hc : c.codesValid = false)
    (hn : c.nodeCount = 0) : c.Good :=
  ⟨fun h => absurd h (by simp [ht]), fun _ => hn, fun h => absurd h (by simp [hc])⟩

/-- A tree just built is current (R49). -/
theorem coder_good_setTree {f : FreqTable} (h : s.freq = f) : (s.setTree f).coder.Good :=
  ⟨fun _ => by subst h; exact ⟨rfl, rfl⟩, fun h => (by cases h), fun h => (by cases h)⟩

/-- A code table made from a current tree is current (R49). -/
theorem coder_good_setCodes (h : s.coder.Good) (ht : s.treeValid = true) : s.setCodes.coder.Good :=
  ⟨h.tree, h.noTree, fun _ => ⟨ht, rfl⟩⟩

theorem verValid_zero : verValid 0#32 = true := by decide

theorem handle_good_closed (p : Params) (n x : Word) : Handle.Good ⟨p, [], 0, .unset, 0, n, x⟩ where
  index := indexGood_nil p
  version := verValid_zero
  unset := fun _ => ⟨rfl, rfl, rfl⟩
  writing := fun h => by cases h
  reading := fun h => by cases h

/-- A write session whose end `o` is a good one (R38, R39). -/
theorem handle_good_writing {p : Params} {l : List Entry} {v o : Word} (hi : IndexGood p l)
    (hv : verValid v = true) (hmod : o.toNat % 8 = 0) (hlow : 8 ≤ o.toNat) (hcap : o.toNat ≤ p.arcCap) :
    Handle.Good ⟨p, l, v, .writeOpen, o, o, 0⟩ where
  index := hi
  version := hv
  unset := fun h => by cases h
  writing := fun _ => ⟨rfl, hmod, hlow, hcap, rfl⟩
  reading := fun h => by cases h

/-! ### The operations of the commands -/

theorem State.Sound.results (h : s.Sound) (n k : Nat) : (s.results n k).Sound := h.congr

theorem State.Sound.setBitcount (h : s.Sound) (n : Nat) : (s.setBitcount n).Sound := h.congr

/-- An output that fits the DST window, which is in range (R64, R66). -/
theorem State.Sound.writeDst (h : s.Sound) (hd : s.dstAddr.toNat + s.dstCap.toNat ≤ s.params.bufSize)
    {out : ByteString} (ho : out.length ≤ s.dstCap.toNat) : (s.writeDst out).Sound :=
  ⟨h.stores.writeBuf (a := s.dstAddr.toNat) (bs := out) (show _ ≤ s.params.bufSize by omega), h.coder, h.handle⟩

theorem State.Sound.releaseDst (h : s.Sound) (hd : s.dstAddr.toNat + s.dstCap.toNat ≤ s.params.bufSize) :
    s.releaseDst.Sound :=
  ⟨h.stores.releaseBuf s.stepTag hd, h.coder, h.handle⟩

theorem State.Sound.releaseArc (h : s.Sound) (o : Nat) : (s.releaseArc o).Sound :=
  ⟨h.stores.releaseArc o s.stepTag, h.coder, h.handle⟩

theorem State.Sound.loadFreq (h : s.Sound) (f : FreqTable) : (s.loadFreq f).Sound :=
  ⟨h.stores, coder_good_of_not_valid rfl rfl rfl, h.handle⟩

theorem State.Sound.setTree (h : s.Sound) {f : FreqTable} (hf : s.freq = f) : (s.setTree f).Sound :=
  ⟨h.stores, coder_good_setTree hf, h.handle⟩

theorem State.Sound.setCodes (h : s.Sound) (ht : s.treeValid = true) : s.setCodes.Sound :=
  ⟨h.stores, coder_good_setCodes h.coder ht, h.handle⟩

/-- ENTRY_OFFSET and ENTRY_SIZE show an entry (R35). -/
theorem State.Sound.setEntry (h : s.Sound) (e : Entry) :
    ({ s with entryOffset := e.offset, entrySize := e.size } : State).Sound := h.congr

/-- A new table and its tree (R112, R113). -/
theorem State.Sound.loadTree (h : s.Sound) (f : FreqTable) : ({ s with freq := f }.setTree f).Sound :=
  ⟨h.stores, coder_good_setTree rfl, h.handle⟩

theorem State.Sound.afterEncode (h : s.Sound) (b : ByteString) : (s.afterEncode b).Sound :=
  ((h.loadTree (countFreq b)).setCodes rfl).setBitcount _

theorem State.Sound.afterDecode (h : s.Sound) (d : Decoded) : (s.afterDecode d).Sound :=
  (h.loadTree d.table).setBitcount _

theorem State.Sound.engineReset (h : s.Sound) : s.engineReset.Sound :=
  ⟨h.stores, coder_good_of_not_valid rfl rfl rfl, handle_good_closed s.params 0 0⟩

/-! ### The archive handle -/

theorem length_indexSerialize (p : Params) (l : List Entry) (v : Word) :
    (indexSerialize p l v).length = indexLen l := by
  simp only [indexSerialize, indexLen, List.length_append, length_le, length_zeros]
  omega

/-- A frame is a multiple of 8 bytes long (R117). -/
theorem length_frameOf_mod (p : Params) (b : ByteString) : (frameOf p b).length % 8 = 0 := by
  have hpad := add_padLen_mod b.length
  simp only [frameOf, List.length_append, length_le, length_zeros]
  omega

/-- The close of a handle, whatever its outcome, leaves a closed one (R139). -/
theorem State.Sound.closeArchive (h : s.Sound) (d : IoDraw) : (s.closeArchive d).1.Sound := by
  obtain ⟨hcap, -⟩ := h.arcCap_bounds
  obtain ⟨hm, hc⟩ | ⟨hm, hc⟩ | ⟨hm, hl, hc⟩ | ⟨hm, hl, hi, hc⟩ | ⟨hm, hl, hi, hc⟩ := closeArchive_cases s d <;>
    rw [hc]
  · exact h.results 0 0
  · obtain ⟨hoff, -⟩ := h.handle.reading hm
    have hclosed : Handle.Good ⟨s.params, [], 0, .unset, s.arcOffset, s.arcLen, s.indexOff⟩ :=
      (show s.arcOffset = 0 from hoff) ▸ handle_good_closed s.params s.arcLen s.indexOff
    exact ⟨h.stores, h.coder, hclosed⟩
  · exact ⟨h.stores, h.coder, handle_good_closed s.params s.arcOffset 0⟩
  · exact ⟨(h.releaseArc _).stores, h.coder, handle_good_closed s.params s.arcOffset 0⟩
  · have hidx : s.arcOffset.toNat + (indexSerialize s.params s.idx s.version).length ≤ s.params.arcCap := by
      rwa [length_indexSerialize]
    have hhdr : 0 + (le 8 s.arcOffset.toNat).length ≤ s.params.arcCap := by rw [length_le]; omega
    exact ⟨(h.stores.writeArc hidx).writeArc hhdr, h.coder, handle_good_closed s.params _ s.arcOffset⟩

theorem State.Sound.implicitClose (h : s.Sound) : s.implicitClose.Sound := by
  by_cases hm : s.mode = .unset
  · rwa [implicitClose_of_unset hm]
  · rw [implicitClose_of_open hm]
    exact h.closeArchive _

/-- A fresh write session (R136). -/
theorem State.Sound.openForWriting (h : s.Sound) : s.openForWriting.Sound := by
  obtain ⟨hcap, -⟩ := h.arcCap_bounds
  have hhdr : 0 + (le 8 0).length ≤ s.params.arcCap := by rw [length_le]; omega
  exact ⟨h.stores.writeArc hhdr, h.coder,
    handle_good_writing (o := 8) (indexGood_nil s.params) verValid_zero (by decide) (by decide)
      (show 8 ≤ s.params.arcCap by omega)⟩

/-- What the checks and the parse of AR_OPEN_R ensure (R137). -/
structure OpenedIndex.Good (s : State) (o : OpenedIndex) : Prop where
  aligned : o.indexOff % 8 = 0
  low : 8 ≤ o.indexOff
  inside : o.indexOff + 24 ≤ s.arcLen.toNat
  inArc : s.arcLen.toNat ≤ s.params.arcCap
  version : verValid o.version = true
  index : IndexGood s.params o.idx

theorem State.Sound.openForReading (h : s.Sound) {o : OpenedIndex} (ho : o.Good s) :
    (s.openForReading o).Sound := by
  have hfit : (BitVec.ofNat 32 o.indexOff).toNat = o.indexOff := by
    have := ho.inside
    have := s.arcLen.isLt
    rw [BitVec.toNat_ofNat]
    omega
  refine ⟨h.stores, h.coder, ho.index, ho.version, fun hm => (by cases hm), fun hm => (by cases hm),
    fun _ => ⟨rfl, ?_⟩⟩
  simp only [State.handle, State.openForReading_indexOff, State.openForReading_arcLen,
    State.openForReading_params, hfit]
  exact ⟨ho.aligned, ho.low, ho.inside, ho.inArc⟩

/-- A valid version set in a write session (R142). -/
theorem State.Sound.setVersion (h : s.Sound) (hm : s.mode = .writeOpen) {v : Word}
    (hv : verValid v = true) : ({ s with version := v } : State).Sound :=
  ⟨h.stores, h.coder, h.handle.index, hv, fun hu => absurd (hm.symm.trans hu) (by decide),
    h.handle.writing, h.handle.reading⟩

theorem State.Sound.openFailed (h : s.Sound) : s.openFailed.Sound :=
  ⟨h.stores, h.coder, handle_good_closed s.params s.arcLen 0⟩

/-- The index entry that AR_ADD makes (R138). -/
def State.addedEntry (s : State) : Entry where
  path := s.nameBytes
  offset := s.arcOffset
  size := BitVec.ofNat 32 s.addedFrame.length

/-- A frame appended to a write session, with its index entry (R138). -/
theorem State.Sound.appendFrame (h : s.Sound) (hm : s.mode = .writeOpen)
    (hfit : s.arcOffset.toNat + s.addedFrame.length ≤ s.params.arcCap)
    (hidx : IndexGood s.params (insertEntry s.addedEntry s.idx)) : s.appendFrame.Sound := by
  obtain ⟨-, hcap⟩ := h.arcCap_bounds
  obtain ⟨-, hmod, hlow, -, hoff⟩ :
      _ ∧ s.arcOffset.toNat % 8 = 0 ∧ 8 ≤ s.arcOffset.toNat ∧ _ ∧ s.indexOff = 0 := h.handle.writing hm
  have hframe : s.addedFrame.length % 8 = 0 := length_frameOf_mod _ _
  have hend : (BitVec.ofNat 32 (s.arcOffset.toNat + s.addedFrame.length)).toNat =
      s.arcOffset.toNat + s.addedFrame.length := by
    rw [BitVec.toNat_ofNat]; omega
  have hhandle : s.appendFrame.handle = ⟨s.params, insertEntry s.addedEntry s.idx, s.version, .writeOpen,
      BitVec.ofNat 32 (s.arcOffset.toNat + s.addedFrame.length),
      BitVec.ofNat 32 (s.arcOffset.toNat + s.addedFrame.length), 0⟩ := by
    simp [State.handle, State.appendFrame, State.addedEntry, hm, hoff]
  refine ⟨h.stores.writeArc hfit, (h.afterEncode s.srcBytes).coder, hhandle ▸ ?_⟩
  exact handle_good_writing hidx h.handle.version (by omega) (by omega) (by omega)

/-! ### Completion -/

theorem inv_succeed (h : s.Sound) : Inv s.succeed :=
  (inv_iff _).2 ⟨h.congr, fun hb => (by cases hb),
    ⟨fun he => (by cases he), fun hw => (by cases hw), fun _ _ => rfl⟩, fun _ => rfl⟩

theorem inv_succeedWarn (h : s.Sound) : Inv (s.succeedWarn .versionParse) :=
  (inv_iff _).2 ⟨h.congr, fun hb => (by cases hb),
    ⟨fun he => (by cases he), fun _ => rfl, fun _ hw => (by cases hw)⟩, fun _ => rfl⟩

theorem inv_reportError (h : s.Sound) {c : ErrCode} (hok : c ≠ .ok) (hwarn : c ≠ .versionParse) :
    Inv (s.reportError c) :=
  (inv_iff _).2 ⟨h.congr, fun hb => (by cases hb),
    ⟨fun _ => ⟨rfl, hok, hwarn⟩, fun hw => (by cases hw), fun he => (by cases he)⟩, fun _ => rfl⟩

/-- A failure that a command may raise: its code is an error's, and once output has begun there is room for
it, which is what the checks of R64 ensure. -/
structure Failure.Allowed (room : Prop) (f : Failure) : Prop where
  notOk : f.code ≠ .ok
  notWarning : f.code ≠ .versionParse
  room : f.emitted = true → room

/-- The DST window exists (R64). -/
def State.DstInRange (s : State) : Prop := s.dstAddr.toNat + s.dstCap.toNat ≤ s.params.bufSize

/-- Taking an allowed failure (R151). -/
theorem inv_fail (h : s.Sound) {f : Failure} (hf : f.Allowed s.DstInRange) : Inv (s.fail f) := by
  have hbuf : (if f.emitted then s.releaseDst else s).Sound := by
    split
    · next he => exact h.releaseDst (hf.room he)
    · exact h
  unfold State.fail
  refine inv_reportError ?_ hf.notOk hf.notWarning
  cases f.arcFrom with
  | none => exact hbuf
  | some o => exact hbuf.releaseArc o

/-- Every next state of an outcome meets the invariant. -/
def KeepsInv (o : Outcome) : Prop := ∀ t, o = .next t → Inv t

theorem keepsInv_next (h : Inv t) : KeepsInv (.next t) := fun _ e => Host.Outcome.next.inj e ▸ h

theorem keepsInv_refused (r : Refusal) : KeepsInv (.refused r) := fun _ e => by cases e

theorem keepsInv_fault (f : Fault) : KeepsInv (.fault f) := fun _ e => by cases e

theorem keepsInv_ite {c : Prop} [Decidable c] {o p : Outcome} (ho : c → KeepsInv o) (hp : ¬ c → KeepsInv p) :
    KeepsInv (if c then o else p) := by
  split
  · next hc => exact ho hc
  · next hc => exact hp hc

/-- A concluded command keeps the invariant when its success is sound and its failures are allowed. -/
theorem keepsInv_conclude (h : s.Sound) {r : Checked State}
    (hr : Meets r State.Sound (Failure.Allowed s.DstInRange)) : KeepsInv (s.conclude r) := by
  cases r with
  | ok u => exact keepsInv_next (inv_succeed (hr.value u rfl))
  | error f => exact keepsInv_next (inv_fail h (hr.failure f rfl))

/-! ### What the checks and the shared computations give -/

section
variable {room : Prop}

theorem allowed_plain {c : ErrCode} (hok : c ≠ .ok := by decide) (hwarn : c ≠ .versionParse := by decide) :
    Failure.Allowed room { code := c } :=
  ⟨hok, hwarn, fun h => (by cases h)⟩

theorem allowed_of_room (hroom : room) {c : ErrCode} {e : Bool} {o : Option Nat}
    (hok : c ≠ .ok := by decide) (hwarn : c ≠ .versionParse := by decide) :
    Failure.Allowed room ⟨c, e, o⟩ :=
  ⟨hok, hwarn, fun _ => hroom⟩

theorem meets_raise {α : Type} {P : α → Prop} {c : ErrCode} (hok : c ≠ .ok := by decide)
    (hwarn : c ≠ .versionParse := by decide) : Meets (raise c) P (Failure.Allowed room) :=
  meets_error (allowed_plain hok hwarn)

/-- A check, and what follows it when it passes. -/
theorem meets_require {α : Type} {Q : α → Prop} {p : Bool} {c : ErrCode} {f : Unit → Checked α}
    (hf : p = true → Meets (f ()) Q (Failure.Allowed room)) (hok : c ≠ .ok := by decide)
    (hwarn : c ≠ .versionParse := by decide) : Meets (require p c >>= f) Q (Failure.Allowed room) := by
  cases p with
  | true => exact hf rfl
  | false => exact meets_raise hok hwarn

theorem meets_checkRange (s : State) (r : Region) :
    Meets (s.checkRange r) (fun _ => r.1 + r.2 ≤ s.params.bufSize) (Failure.Allowed room) :=
  ⟨fun _ h => checkRange_eq_ok.1 h, fun _ h => (checkRange_eq_error.1 h).2 ▸ allowed_plain⟩

theorem meets_checkOverlap (s : State) (r : Region) :
    Meets (s.checkOverlap r) (fun _ => True) (Failure.Allowed room) :=
  ⟨fun _ _ => trivial, fun _ h => (checkOverlap_eq_error.1 h).2 ▸ allowed_plain⟩

theorem meets_checkSrcDst (s : State) :
    Meets s.checkSrcDst (fun _ => s.DstInRange) (Failure.Allowed room) := by
  refine ⟨fun _ h => (checkSrcDst_eq_ok.1 h).2.1, fun _ h => ?_⟩
  rcases checkSrcDst_eq_error h with rfl | rfl <;> exact allowed_plain

theorem meets_emit (hroom : room) (cap : Nat) (bs : ByteString) :
    Meets (emit cap bs) (fun out => out.length ≤ cap) (Failure.Allowed room) := by
  refine ⟨fun _ h => ?_, fun _ h => (emit_eq_error.1 h).2 ▸ allowed_of_room hroom⟩
  obtain ⟨hle, rfl⟩ := emit_eq_ok.1 h
  exact hle

theorem meets_parseFreqEntries (n : Nat) (b : ByteString) (f : FreqTable) :
    Meets (parseFreqEntries n b f) (fun _ => True) (Failure.Allowed room) := by
  induction n generalizing b f with
  | zero => exact meets_ok trivial
  | succ n ih =>
    unfold parseFreqEntries
    split
    · next => exact meets_ok trivial
    · dsimp only
      split
      · exact meets_raise
      · split
        · exact meets_raise
        · cases ‹_ + 1 = _ + 1›
          exact ih _ _
    · exact meets_raise

theorem meets_freqParse (b : ByteString) :
    Meets (freqParse b) (fun _ => True) (Failure.Allowed room) :=
  meets_require fun _ => meets_require fun _ => meets_require fun _ =>
    (meets_parseFreqEntries _ _ _).bind fun _ _ => meets_ok trivial

/-- A walk fails with CORRUPT or, at the end of the window, with DST_FULL (R107). -/
theorem meets_walkFrom (hroom : room) (root : Node) (cap p : Nat) (n : Node) (bits : BitString) :
    Meets (walkFrom root cap p n bits) (fun _ => True) (Failure.Allowed room) := by
  induction bits generalizing p n with
  | nil =>
    unfold walkFrom
    split
    · exact meets_ok trivial
    · exact meets_error (allowed_of_room hroom)
  | cons b bits ih =>
    unfold walkFrom
    split
    · split
      · have hrest := ih (p + 1) root
        split
        · exact meets_ok trivial
        · next he => exact meets_error (hrest.failure _ he)
      · exact meets_error (allowed_of_room hroom)
    · exact meets_error (allowed_of_room hroom)
    · exact ih p _
    · exact meets_error (allowed_of_room hroom)

theorem meets_walk (hroom : room) (cap : Nat) (t : Option Node) (b : ByteString) (m : Nat) :
    Meets (walk cap t b m) (fun out => out.length ≤ cap) (Failure.Allowed room) := by
  refine ⟨fun _ h => length_walk h, ?_⟩
  unfold walk
  split
  · intro e h; cases h
  · cases t with
    | none => exact Meets.failure (meets_raise (P := fun _ => True))
    | some root => exact (meets_walkFrom hroom root cap 0 root _).failure

theorem meets_decodeBlock (hroom : room) (p : TiePolicy) (cap : Nat) (b : ByteString) :
    Meets (decodeBlock p cap b) (fun d => d.out.length ≤ cap) (Failure.Allowed room) := by
  refine (meets_freqParse b).bind fun (f, c) _ => ?_
  dsimp only
  split
  · exact meets_ok (Nat.zero_le cap)
  · exact meets_require fun _ => meets_require fun _ => (meets_walk hroom _ _ _ _).bind fun _ _ =>
      meets_ok ‹_›

theorem meets_checkFrame (p : Params) (f : ByteString) :
    Meets (checkFrame p f) (fun _ => True) (Failure.Allowed room) :=
  meets_require fun _ => meets_require fun _ => meets_require fun _ => meets_require fun _ => meets_ok trivial

/-- The entry loop of AR_OPEN_R gives an index in order (R137). -/
theorem meets_parseEntries (p : Params) (n : Nat) (b : ByteString) {l : List Entry} (h : IndexGood p l) :
    Meets (parseEntries p n b l) (IndexGood p) (Failure.Allowed room) := by
  induction n generalizing b l with
  | zero =>
    cases b with
    | nil => exact meets_ok h
    | cons x b => exact meets_raise
  | succ n ih =>
    cases b with
    | nil => exact meets_ok h
    | cons x b =>
      refine meets_require fun _ => meets_require fun hpos => meets_require fun hfits =>
        meets_require fun hlen => meets_require fun hnew => meets_require fun _ =>
        meets_require fun hcap => ?_
      simp only [bne_iff_ne, decide_eq_true_eq, Bool.and_eq_true] at hpos hfits hlen hcap
      have hpath : (slice (x :: b) 4 (4 + fromLe (slice (x :: b) 0 4))).length =
          fromLe (slice (x :: b) 0 4) := by
        rw [length_slice]; omega
      refine ih _ (h.insert hnew ?_ ?_ hcap.1 ?_) <;> simp only [hpath]
      · omega
      · exact hlen
      · exact hcap.2

/-- The checks and the parse of AR_OPEN_R (R137). -/
theorem meets_readIndex (s : State) :
    Meets s.readIndex (OpenedIndex.Good s) (Failure.Allowed room) := by
  refine meets_require fun hcap => meets_require fun _ => meets_require fun _ =>
    meets_require fun hh => meets_require fun _ => meets_require fun _ => meets_require fun _ =>
    meets_require fun hv => meets_require fun _ => (meets_parseEntries _ _ _ (indexGood_nil _)).bind
    fun l hl => meets_ok ?_
  simp only [Bool.and_eq_true, decide_eq_true_eq, beq_iff_eq] at hcap hh
  obtain ⟨⟨hmod, hlow⟩, hin⟩ := hh
  exact ⟨hmod, hlow, hin, hcap, hv, hl⟩

end

/-! ### The commands -/

theorem keepsInv_nop (h : s.Sound) : KeepsInv (execNop s) :=
  keepsInv_conclude (r := .ok (s.results 0 0)) h (meets_ok (h.results 0 0))

theorem keepsInv_freqCount (h : s.Sound) : KeepsInv (execFreqCount s) :=
  keepsInv_conclude h <| (meets_checkRange s _).bind fun _ _ => meets_ok ((h.loadFreq _).results _ _)

theorem keepsInv_freqSer (h : s.Sound) : KeepsInv (execFreqSer s) :=
  keepsInv_conclude h <| (meets_checkRange s _).bind fun _ hd => (meets_emit hd _ _).bind fun _ ho =>
    meets_ok ((h.writeDst hd ho).results _ _)

theorem keepsInv_freqDes (h : s.Sound) : KeepsInv (execFreqDes s) :=
  keepsInv_conclude h <| (meets_checkRange s _).bind fun _ _ => (meets_freqParse _).bind fun (_, _) _ =>
    meets_ok ((h.loadFreq _).results _ _)

theorem keepsInv_treeBuild (h : s.Sound) : KeepsInv (execTreeBuild s) :=
  keepsInv_conclude (r := .ok ((s.setTree s.freq).results 0 0)) h (meets_ok ((h.setTree rfl).results 0 0))

theorem keepsInv_codeGen (h : s.Sound) : KeepsInv (execCodeGen s) :=
  keepsInv_conclude h <| meets_require fun ht => meets_ok ((h.setCodes ht).results 0 0)

theorem keepsInv_symEncode (h : s.Sound) : KeepsInv (execSymEncode s) :=
  keepsInv_conclude h <| (meets_checkSrcDst s).bind fun _ hd => meets_require fun _ => meets_require fun _ =>
    (meets_emit hd _ _).bind fun _ ho => meets_ok (((h.writeDst hd ho).setBitcount _).results _ _)

theorem keepsInv_symDecode (h : s.Sound) : KeepsInv (execSymDecode s) :=
  keepsInv_conclude h <| (meets_checkSrcDst s).bind fun _ hd => meets_require fun _ => meets_require fun _ =>
    (meets_walk hd _ _ _ _).bind fun _ ho => meets_ok ((h.writeDst hd ho).results _ _)

theorem keepsInv_hufEncode (h : s.Sound) : KeepsInv (execHufEncode s) :=
  keepsInv_conclude h <| (meets_checkSrcDst s).bind fun _ hd => (meets_emit hd _ _).bind fun _ ho =>
    meets_ok (((h.afterEncode _).writeDst hd ho).results _ _)

theorem keepsInv_hufDecode (h : s.Sound) : KeepsInv (execHufDecode s) :=
  keepsInv_conclude h <| (meets_checkSrcDst s).bind fun _ hd => (meets_decodeBlock hd _ _ _).bind fun d ho =>
    meets_ok (((h.afterDecode d).writeDst hd ho).results _ _)

theorem keepsInv_frame (h : s.Sound) : KeepsInv (execFrame s) :=
  keepsInv_conclude h <| (meets_checkSrcDst s).bind fun _ hd => (meets_emit hd _ _).bind fun _ ho =>
    meets_ok ((h.writeDst hd ho).results _ _)

theorem keepsInv_unframe (h : s.Sound) : KeepsInv (execUnframe s) :=
  keepsInv_conclude h <| (meets_checkSrcDst s).bind fun _ hd => (meets_checkFrame _ _).bind fun _ _ =>
    (meets_emit hd _ _).bind fun _ ho => meets_ok ((h.writeDst hd ho).results _ _)

theorem keepsInv_arOpenW (h : s.Sound) : KeepsInv (exec .arOpenW s) := by
  obtain hx | hx := exec_arOpenW_cases s <;> rw [hx]
  · exact keepsInv_next (inv_reportError h.implicitClose (by decide) (by decide))
  · exact keepsInv_next (inv_succeed (h.implicitClose.openForWriting.results 8 0))

theorem keepsInv_arOpenR (h : s.Sound) : KeepsInv (exec .arOpenR s) := by
  have hc := h.implicitClose
  have hread : Meets s.implicitClose.readIndex (OpenedIndex.Good s.implicitClose) (Failure.Allowed True) :=
    meets_readIndex _
  rw [exec_arOpenR]
  unfold execArOpenR
  generalize s.implicitClose = u at hc hread
  dsimp only
  split
  · next o ho => exact keepsInv_next (inv_succeed ((hc.openForReading (hread.value o ho)).results 0 0))
  · next f hf =>
    have hallowed := hread.failure f hf
    exact keepsInv_next (inv_reportError hc.openFailed hallowed.notOk hallowed.notWarning)

theorem keepsInv_arAdd (h : s.Sound) : KeepsInv (execArAdd s) := by
  refine keepsInv_conclude h <| meets_require fun hmode => meets_require fun hname =>
    (meets_checkRange s _).bind fun _ _ => (meets_checkRange s _).bind fun _ _ =>
    meets_require fun hnew => meets_require fun hcap => meets_require fun hfit => ?_
  simp only [beq_iff_eq, bne_iff_ne, Bool.and_eq_true, decide_eq_true_eq] at hmode hname hcap hfit
  obtain ⟨⟨hlen, hcount⟩, hnames⟩ := hcap
  have hpos : 1 ≤ s.nameBytes.length := by
    have hne : s.nameLen.toNat ≠ 0 := fun e => hname (BitVec.eq_of_toNat_eq e)
    rw [State.nameBytes, State.memRead, length_readBytes]
    omega
  have hidx : IndexGood s.params (insertEntry s.addedEntry s.idx) :=
    h.handle.index.insert (e := s.addedEntry) hnew hpos hlen hcount hnames
  cases s.ioFail .command with
  | true => exact meets_error ⟨nofun, nofun, nofun⟩
  | false => exact meets_ok ((h.appendFrame hmode hfit hidx).results _ _)

/-- AR_CLOSE completes what the close leaves, with a success or with IO (R139). -/
theorem execArClose_cases (s : State) :
    execArClose s = .next (s.closeArchive .command).1.succeed ∨
    execArClose s = .next ((s.closeArchive .command).1.reportError .io) := by
  obtain ⟨-, hc⟩ | ⟨-, hc⟩ | ⟨-, -, hc⟩ | ⟨-, -, -, hc⟩ | ⟨-, -, -, hc⟩ := closeArchive_cases s .command <;>
    simp [execArClose, hc]

theorem keepsInv_arClose (h : s.Sound) : KeepsInv (execArClose s) := by
  obtain hx | hx := execArClose_cases s <;> rw [hx]
  · exact keepsInv_next (inv_succeed (h.closeArchive .command))
  · exact keepsInv_next (inv_reportError (h.closeArchive .command) (by decide) (by decide))

theorem keepsInv_arGet (h : s.Sound) : KeepsInv (execArGet s) := by
  refine keepsInv_conclude h <| meets_require fun _ => (meets_checkRange s _).bind fun _ _ =>
    (meets_checkRange s _).bind fun _ hd => (meets_checkOverlap s _).bind fun _ _ => ?_
  cases findEntry s.nameBytes s.idx with
  | none => exact meets_raise
  | some e =>
    exact meets_require fun _ => meets_require fun _ => meets_require fun _ =>
      (meets_checkFrame _ _).bind fun _ _ => (meets_decodeBlock hd _ _ _).bind fun d ho =>
      meets_ok ((((h.afterDecode d).setEntry e).writeDst hd ho).results _ _)

theorem keepsInv_arEnum (h : s.Sound) : KeepsInv (execArEnum s) := by
  refine keepsInv_conclude h <| meets_require fun _ => (meets_checkRange s _).bind fun _ hd => ?_
  cases s.idx[s.entrySel.toNat]? with
  | none => exact meets_raise
  | some e =>
    exact (meets_emit hd _ _).bind fun _ ho => meets_ok (((h.setEntry e).writeDst hd ho).results _ _)

theorem keepsInv_arSetver (h : s.Sound) : KeepsInv (execArSetver s) := by
  have hchecks : Meets (require (s.mode == .writeOpen) .mode >>= fun _ => s.checkRange s.srcRegion)
      (fun _ => s.mode = .writeOpen) (Failure.Allowed s.DstInRange) :=
    meets_require fun hm => ⟨fun _ _ => by simpa using hm, (meets_checkRange s _).failure⟩
  unfold execArSetver
  split
  · next f hf => exact keepsInv_next (inv_fail h (hchecks.failure f hf))
  · next u hu =>
    dsimp only
    split
    · exact keepsInv_next (inv_succeedWarn (h.results 0 _))
    · next v hv =>
      exact keepsInv_next (inv_succeed
        ((h.results 0 _).setVersion (hchecks.value u hu) (verValid_of_verParse hv)))

theorem keepsInv_arGetver (h : s.Sound) : KeepsInv (execArGetver s) :=
  keepsInv_conclude h <| (meets_checkRange s _).bind fun _ hd => (meets_emit hd _ _).bind fun _ ho =>
    meets_ok ((h.writeDst hd ho).results _ _)

theorem keepsInv_sreset (h : s.Sound) : KeepsInv (execSreset s) :=
  keepsInv_conclude (r := .ok s.engineReset) h (meets_ok h.engineReset)

/-- Every command of a sound state keeps the invariant. -/
theorem keepsInv_exec (h : s.Sound) (i : Instr) : KeepsInv (exec i s) := by
  cases i with
  | nop => exact keepsInv_nop h
  | freqCount => exact keepsInv_freqCount h
  | freqSer => exact keepsInv_freqSer h
  | freqDes => exact keepsInv_freqDes h
  | treeBuild => exact keepsInv_treeBuild h
  | codeGen => exact keepsInv_codeGen h
  | symEncode => exact keepsInv_symEncode h
  | symDecode => exact keepsInv_symDecode h
  | hufEncode => exact keepsInv_hufEncode h
  | hufDecode => exact keepsInv_hufDecode h
  | frame => exact keepsInv_frame h
  | unframe => exact keepsInv_unframe h
  | arOpenW => exact keepsInv_arOpenW h
  | arOpenR => exact keepsInv_arOpenR h
  | arAdd => exact keepsInv_arAdd h
  | arClose => exact keepsInv_arClose h
  | arGet => exact keepsInv_arGet h
  | arEnum => exact keepsInv_arEnum h
  | arSetver => exact keepsInv_arSetver h
  | arGetver => exact keepsInv_arGetver h
  | sreset => exact keepsInv_sreset h

/-! ### The turn of the engine -/

theorem keepsInv_engineMove (h : Inv s) : KeepsInv (engineMove s) := by
  obtain ⟨-, he⟩ | ⟨_, i, -, -, -, he⟩ | ⟨_, _, -, -, -, he⟩ := engineMove_cases s <;> rw [he]
  · exact keepsInv_next h
  · exact keepsInv_exec h.sound i
  · exact keepsInv_next (inv_reportError h.sound (by decide) (by decide))

/-! ### The turn of the host -/

theorem inv_accept (h : Inv s) (hr : s.inReset = false) (w : Word) : Inv (s.accept w) :=
  (inv_iff _).2 ⟨h.sound.congr, fun _ => ⟨rfl, rfl, rfl, rfl⟩, ⟨nofun, nofun, fun _ _ => rfl⟩,
    fun hin => absurd (hr.symm.trans hin) (by decide)⟩

/-- A write of ARC_LEN on a closed handle, of which the invariant asks nothing (R37). -/
theorem inv_writeArcLen (h : Inv s) (hm : s.mode = .unset) (v : Word) : Inv { s with arcLen := v } :=
  (inv_iff _).2 ⟨⟨h.sound.stores, h.sound.coder, h.sound.handle.index, h.sound.handle.version,
    h.sound.handle.unset, fun hw => absurd (hm.symm.trans hw) (by decide),
    fun hr => absurd (hm.symm.trans hr) (by decide)⟩, h.handshake⟩

/-- A write through the FREQ window clears both flags (R43). -/
theorem inv_writeFreq (h : Inv s) (f : FreqTable) : Inv { s.invalidate with freq := f } :=
  (inv_iff _).2 ⟨⟨h.sound.stores, coder_good_of_not_valid rfl rfl rfl, h.sound.handle⟩, h.handshake⟩

theorem inv_writeReg (h : Inv s) (hr : s.inReset = false) (r : Reg) (v : Word) : Inv (s.writeReg r v) := by
  cases r with
  | cmd => exact inv_accept h hr v
  | freq b => exact inv_writeFreq h (setEntry s.freq b v)
  | arcLen =>
    simp only [State.writeReg]
    split
    · next hm => exact inv_writeArcLen h hm v
    · exact h
  | _ => exact h.congr

theorem inv_portWrite (h : Inv s) (off : BitVec 12) (v : Word) : Inv (s.portWrite off v) := by
  obtain ⟨-, he⟩ | ⟨-, -, he⟩ | ⟨-, -, -, he⟩ | ⟨r, hr, -, -, he⟩ := portWrite_cases s off v <;> rw [he]
  · exact h
  · exact h.congr
  · exact h
  · exact inv_writeReg h hr r v

theorem inv_advance (h : Inv s) : Inv s.advance := h.congr

/-- The access of a host line, and the host's next line. -/
theorem keepsInv_portWrite_advance (h : Inv s) (off : BitVec 12) (v : Word) :
    KeepsInv (.next (s.portWrite off v).advance) :=
  keepsInv_next (inv_advance (inv_portWrite h off v))

theorem keepsInv_jumpTo (h : Inv s) (l : Nat) : KeepsInv (s.jumpTo l) := by
  unfold State.jumpTo
  split
  · exact keepsInv_next h.congr
  · exact keepsInv_refused _

theorem inv_memWrite (h : Inv s) {a : Nat} {bs : ByteString} (hb : a + bs.length ≤ s.params.bufSize) :
    Inv (s.memWrite a bs) :=
  (inv_iff _).2 ⟨⟨h.sound.stores.writeBuf hb, h.sound.coder, h.sound.handle⟩, h.handshake⟩

theorem inv_arcWrite (h : Inv s) {o : Nat} {bs : ByteString} (hb : o + bs.length ≤ s.params.arcCap) :
    Inv (s.arcWrite o bs) :=
  (inv_iff _).2 ⟨⟨h.sound.stores.writeArc hb, h.sound.coder, h.sound.handle⟩, h.handshake⟩

theorem inv_engineReset (h : Inv s) (level : Bool) : Inv { s.engineReset with inReset := level } :=
  (inv_iff _).2 ⟨h.sound.engineReset.congr, nofun, ⟨nofun, nofun, fun _ _ => rfl⟩, fun _ => rfl⟩

theorem inv_drivePin (h : Inv s) (level : Bool) : Inv (s.drivePin level) := by
  unfold State.drivePin
  split
  · split
    · exact inv_engineReset h false
    · exact h
  · exact inv_engineReset h true

theorem inv_readThenWrite (h : Inv s) (src : RegRef) (dst : Reg) (f : Word → Word) :
    Inv (s.readThenWrite src dst f) := by
  unfold State.readThenWrite
  split
  · exact h.congr
  · next v _ => exact (inv_portWrite h dst.offset (f v)).congr

theorem keepsInv_runLine (h : Inv s) (line : HostLine) : KeepsInv (runLine s line) := by
  have hnext : KeepsInv (.next s.advance) := keepsInv_next (inv_advance h)
  cases line with
  | mov r v => exact keepsInv_portWrite_advance h _ v
  | cmd i => exact keepsInv_portWrite_advance h _ (encode i)
  | wait => exact keepsInv_ite (fun _ => hnext) fun _ => keepsInv_next h
  | poke a bs =>
    exact keepsInv_ite (fun _ => keepsInv_refused _) fun _ =>
      keepsInv_ite (fun hb => keepsInv_next (inv_advance (inv_memWrite h hb))) fun _ => keepsInv_fault _
  | pokeArc o bs =>
    exact keepsInv_ite (fun _ => keepsInv_refused _) fun _ =>
      keepsInv_ite (fun hb => keepsInv_next (inv_advance (inv_arcWrite h hb))) fun _ => keepsInv_fault _
  | expect r v => exact keepsInv_ite (fun _ => hnext) fun _ => keepsInv_fault _
  | expectBuf a bs =>
    exact keepsInv_ite (fun _ => keepsInv_refused _) fun _ =>
      keepsInv_ite (fun _ => keepsInv_ite (fun _ => hnext) fun _ => keepsInv_fault _) fun _ => keepsInv_fault _
  | label l => exact hnext
  | beq r v l => exact keepsInv_ite (fun _ => keepsInv_jumpTo h l) fun _ => hnext
  | bne r v l => exact keepsInv_ite (fun _ => hnext) fun _ => keepsInv_jumpTo h l
  | jmp l => exact keepsInv_jumpTo h l
  | copy a b => exact keepsInv_next (inv_readThenWrite h b a id)
  | inc r => exact keepsInv_next (inv_readThenWrite h r r.register _)
  | halt => exact keepsInv_next h
  | portWrite width off v =>
    exact keepsInv_ite (fun _ => keepsInv_portWrite_advance h off v) fun _ => keepsInv_refused _
  | portRead width off => exact keepsInv_ite (fun _ => hnext) fun _ => keepsInv_refused _
  | expectArc o bs =>
    exact keepsInv_ite (fun _ => keepsInv_refused _) fun _ =>
      keepsInv_ite (fun _ => keepsInv_ite (fun _ => hnext) fun _ => keepsInv_fault _) fun _ => keepsInv_fault _
  | rst level => exact keepsInv_next (inv_advance (inv_drivePin h level))

theorem keepsInv_hostMove (h : Inv s) : KeepsInv (hostMove s) := by
  unfold hostMove
  split
  · next line _ => exact keepsInv_runLine h line
  · exact keepsInv_next h

/-! ### The statements -/

/-- Settles O59: empty memories, both flags 0, a closed handle and no report. -/
theorem resetMeetsInvariant : Obligations.ResetMeetsInvariant :=
  (inv_iff _).2 ⟨⟨⟨by decide, ⟨rfl, wf_empty _, inBounds_empty _ _⟩, ⟨rfl, wf_empty _, inBounds_empty _ _⟩⟩,
    coder_good_of_not_valid rfl rfl rfl, handle_good_closed Params.default 0 0⟩,
    nofun, ⟨nofun, nofun, fun _ _ => rfl⟩, nofun⟩

/-- Settles O60: a step is a turn of the engine or of the host, and either keeps the invariant. -/
theorem stepKeepsInvariant : Obligations.StepKeepsInvariant := by
  intro s t h ht
  obtain ⟨_, -, he⟩ | ⟨_, -, he⟩ | ⟨-, -, he⟩ | ⟨-, -, he⟩ := step_cases s <;> rw [he] at ht
  · exact keepsInv_engineMove h.congr t ht
  · exact keepsInv_hostMove h.congr t ht
  · exact keepsInv_engineMove h t ht
  · exact keepsInv_hostMove h t ht

end Sys2Proof.Machine
end

section
/-! PROOFS. Who writes BUF, and where (20_memory.md R53, R66, R72): O56 for the commands, O17 for the host's
lines. -/

namespace Sys2Proof.Machine

variable {s t : State}

/-! ### The DST window -/

/-- From s to t no BUF byte outside the DST window of s changes (R66). -/
def DstWindowOnly (s t : State) : Prop := SameOutside s.buf t.buf s.dstAddr.toNat s.dstCap.toNat

/-- A store of at most n bytes stays inside the n addresses from its first. -/
theorem sameOutside_writeBytes (m : Memory) (a : Nat) {n : Nat} {bs : ByteString} (h : bs.length ≤ n) :
    SameOutside m (m.writeBytes a bs) a n :=
  fun x hx => (storesAt_writeBytes m a bs).2 x (by omega)

theorem dstWindowOnly_of_buf_eq (h : t.buf = s.buf := by simp) : DstWindowOnly s t :=
  fun _ _ => by rw [h]

/-- An output that fits DST_CAP, stored at DST_ADDR. -/
theorem dstWindowOnly_of_buf_eq_writeBytes {out : ByteString} (hlen : out.length ≤ s.dstCap.toNat)
    (h : t.buf = s.buf.writeBytes s.dstAddr.toNat out := by simp) : DstWindowOnly s t := by
  rw [DstWindowOnly, h]
  exact sameOutside_writeBytes s.buf _ hlen

/-- A concluded command writes in the window when its success does: a failure opens the window at most. -/
theorem dstWindowOnly_of_conclude {r : Checked State} (h : s.conclude r = .next t)
    (hr : Meets r (DstWindowOnly s) fun _ => True) : DstWindowOnly s t := by
  cases r with
  | ok u => cases h; exact hr.value u rfl
  | error f => cases h; exact fail_buf_outside s f

/-! ### Successes -/

/-- What follows a computation, with the success of that computation kept. -/
theorem meets_then_of_eq_ok {α β : Type} {Q : β → Prop} {r : Checked α} {f : α → Checked β}
    (hf : ∀ a, r = .ok a → Meets (f a) Q fun _ => True) : Meets (r >>= f) Q fun _ => True := by
  cases r with
  | ok a => exact hf a rfl
  | error e => exact meets_error trivial

theorem meets_buf_kept {u : State} (h : u.buf = s.buf := by simp) :
    Meets (.ok u) (DstWindowOnly s) fun _ => True :=
  meets_ok (dstWindowOnly_of_buf_eq h)

theorem length_of_emit {cap : Nat} {bs out : ByteString} (h : emit cap bs = .ok out) : out.length ≤ cap := by
  obtain ⟨hlen, rfl⟩ := emit_eq_ok.1 h
  exact hlen

/-- The end of a command with an output: a computation whose output fits DST_CAP, and the store of it. -/
theorem meets_store {α : Type} {r : Checked α} {out : α → ByteString} {k : α → State}
    (hlen : ∀ {a}, r = .ok a → (out a).length ≤ s.dstCap.toNat)
    (h : ∀ a, (k a).buf = s.buf.writeBytes s.dstAddr.toNat (out a) := by simp) :
    Meets (r >>= fun a => .ok (k a)) (DstWindowOnly s) fun _ => True :=
  meets_then_of_eq_ok fun a ha => meets_ok (dstWindowOnly_of_buf_eq_writeBytes (hlen ha) (h a))

/-! ### The archive handle -/

@[simp] theorem closeArchive_buf (s : State) (d : IoDraw) : (s.closeArchive d).1.buf = s.buf := by
  obtain ⟨-, hc⟩ | ⟨-, hc⟩ | ⟨-, -, hc⟩ | ⟨-, -, -, hc⟩ | ⟨-, -, -, hc⟩ := closeArchive_cases s d <;>
    simp [hc]

@[simp] theorem implicitClose_buf (s : State) : s.implicitClose.buf = s.buf := by
  by_cases hs : s.mode = .unset
  · rw [implicitClose_of_unset hs]
  · rw [implicitClose_of_open hs, closeArchive_buf]

@[simp] theorem appendFrame_buf (s : State) : s.appendFrame.buf = s.buf := by simp [State.appendFrame]

/-! ### The commands of the archive -/

theorem dstWindowOnly_arOpenW (h : exec .arOpenW s = .next t) : DstWindowOnly s t := by
  obtain hu | hu := exec_arOpenW_cases s <;>
  · obtain rfl := Host.Outcome.next.inj (hu.symm.trans h)
    exact dstWindowOnly_of_buf_eq

/-- AR_OPEN_R ends in one of two ways on the handle that the implicit close leaves (R137). -/
theorem execArOpenR_cases (s : State) :
    (∃ o, execArOpenR s = .next ((s.implicitClose.openForReading o).results 0 0).succeed) ∨
    ∃ c, execArOpenR s = .next (s.implicitClose.openFailed.reportError c) := by
  unfold execArOpenR
  dsimp only
  cases s.implicitClose.readIndex with
  | ok o => exact .inl ⟨o, rfl⟩
  | error f => exact .inr ⟨f.code, rfl⟩

theorem dstWindowOnly_arOpenR (h : execArOpenR s = .next t) : DstWindowOnly s t := by
  obtain ⟨_, hu⟩ | ⟨_, hu⟩ := execArOpenR_cases s <;>
  · obtain rfl := Host.Outcome.next.inj (hu.symm.trans h)
    exact dstWindowOnly_of_buf_eq

theorem dstWindowOnly_arClose (h : execArClose s = .next t) : DstWindowOnly s t := by
  obtain hu | hu := execArClose_cases s <;>
  · obtain rfl := Host.Outcome.next.inj (hu.symm.trans h)
    exact dstWindowOnly_of_buf_eq

theorem dstWindowOnly_arAdd (h : execArAdd s = .next t) : DstWindowOnly s t := by
  refine dstWindowOnly_of_conclude h (meets_then fun _ => meets_then fun _ => meets_then fun _ =>
    meets_then fun _ => meets_then fun _ => meets_then fun _ => meets_then fun _ => ?_)
  cases s.ioFail .command with
  | true => exact meets_error trivial
  | false => exact meets_buf_kept

theorem dstWindowOnly_arGet (h : execArGet s = .next t) : DstWindowOnly s t := by
  refine dstWindowOnly_of_conclude h (meets_then fun _ => meets_then fun _ => meets_then fun _ =>
    meets_then fun _ => ?_)
  cases findEntry s.nameBytes s.idx with
  | none => exact meets_error trivial
  | some e =>
    exact meets_then fun _ => meets_then fun _ => meets_then fun _ => meets_then fun _ =>
      meets_store length_decodeBlock

theorem dstWindowOnly_arEnum (h : execArEnum s = .next t) : DstWindowOnly s t := by
  refine dstWindowOnly_of_conclude h (meets_then fun _ => meets_then fun _ => ?_)
  cases s.idx[s.entrySel.toNat]? with
  | none => exact meets_error trivial
  | some e => exact meets_store length_of_emit

theorem dstWindowOnly_arSetver (h : execArSetver s = .next t) : DstWindowOnly s t := by
  unfold execArSetver at h
  split at h
  · next f _ => cases h; exact fail_buf_outside s f
  · dsimp only at h
    split at h <;> (cases h; exact dstWindowOnly_of_buf_eq)

/-! ### Every command -/

/-- Every command writes BUF in the DST window only, whatever its outcome. -/
theorem dstWindowOnly_exec {i : Instr} (h : exec i s = .next t) : DstWindowOnly s t := by
  cases i with
  | nop => exact dstWindowOnly_of_conclude (r := .ok (s.results 0 0)) h meets_buf_kept
  | freqCount => exact dstWindowOnly_of_conclude h (meets_then fun _ => meets_buf_kept)
  | freqSer => exact dstWindowOnly_of_conclude h (meets_then fun _ => meets_store length_of_emit)
  | freqDes =>
    exact dstWindowOnly_of_conclude h (meets_then fun _ => meets_then fun _ => meets_buf_kept)
  | treeBuild =>
    exact dstWindowOnly_of_conclude (r := .ok ((s.setTree s.freq).results 0 0)) h meets_buf_kept
  | codeGen => exact dstWindowOnly_of_conclude h (meets_then fun _ => meets_buf_kept)
  | symEncode =>
    exact dstWindowOnly_of_conclude h (meets_then fun _ => meets_then fun _ => meets_then fun _ =>
      meets_store length_of_emit)
  | symDecode =>
    exact dstWindowOnly_of_conclude h (meets_then fun _ => meets_then fun _ => meets_then fun _ =>
      meets_store length_walk)
  | hufEncode => exact dstWindowOnly_of_conclude h (meets_then fun _ => meets_store length_of_emit)
  | hufDecode => exact dstWindowOnly_of_conclude h (meets_then fun _ => meets_store length_decodeBlock)
  | frame => exact dstWindowOnly_of_conclude h (meets_then fun _ => meets_store length_of_emit)
  | unframe =>
    exact dstWindowOnly_of_conclude h (meets_then fun _ => meets_then fun _ => meets_store length_of_emit)
  | arOpenW => exact dstWindowOnly_arOpenW h
  | arOpenR => exact dstWindowOnly_arOpenR h
  | arAdd => exact dstWindowOnly_arAdd h
  | arClose => exact dstWindowOnly_arClose h
  | arGet => exact dstWindowOnly_arGet h
  | arEnum => exact dstWindowOnly_arEnum h
  | arSetver => exact dstWindowOnly_arSetver h
  | arGetver => exact dstWindowOnly_of_conclude h (meets_then fun _ => meets_store length_of_emit)
  | sreset => exact dstWindowOnly_of_conclude (r := .ok s.engineReset) h meets_buf_kept

/-! ### The host's lines -/

/-- POKE, POKEARC and EXPECTBUF are refused while BUSY = 1 (R72; log 15). -/
theorem runLine_of_busy (hb : s.busy = true) (a : Nat) (bs : ByteString) :
    runLine s (.poke a bs) = .refused .hostAccessWhileBusy ∧
    runLine s (.pokeArc a bs) = .refused .hostAccessWhileBusy ∧
    runLine s (.expectBuf a bs) = .refused .hostAccessWhileBusy :=
  ⟨if_pos hb, if_pos hb, if_pos hb⟩

/-- POKE inside BUF while BUSY = 0: the store, and the host's next line (R85). -/
theorem runLine_poke (hb : s.busy = false) {a : Nat} {bs : ByteString}
    (h : a + bs.length ≤ s.params.bufSize) : runLine s (.poke a bs) = .next (s.memWrite a bs).advance := by
  rw [runLine, if_neg (by simp [hb]), if_pos h]

/-- POKE past BUF_SIZE while BUSY = 0 (R53; log 15). -/
theorem runLine_poke_absent (hb : s.busy = false) {a : Nat} {bs : ByteString}
    (h : s.params.bufSize < a + bs.length) : runLine s (.poke a bs) = .fault .bufAddressAbsent := by
  rw [runLine, if_neg (by simp [hb]), if_neg (by omega)]

/-! ### The statements -/

/-- Settles O56: a success stores at most DST_CAP bytes at DST_ADDR or leaves BUF alone, and a failure opens
the DST window at most. -/
theorem bufWritesStayInWindow : Obligations.BufWritesStayInWindow :=
  fun _ _ _ h => dstWindowOnly_exec h

/-- Settles O17: BUSY decides before the bound of BUF, and a POKE's store is `Memory.writeBytes`. -/
theorem hostReachesBufOnlyWhenIdle : Obligations.HostReachesBufOnlyWhenIdle :=
  fun s a bs => ⟨fun hb => runLine_of_busy hb a bs,
    fun hb h => ⟨s.buf.writeBytes a bs, runLine_poke hb h, storesAt_writeBytes s.buf a bs⟩,
    fun hb h => runLine_poke_absent hb h⟩

end Sys2Proof.Machine
end

section
/-! PROOFS. The command word (30_encoding.md R80 to R84): the opcode map is the graph of the encoder, which words
are legal, what the engine does with an illegal one, and O1 to O4. -/

namespace Sys2Proof

/-! ### The opcode map -/

/-- In a map that gives each word one row at most, looking a word up finds its row and no other. -/
theorem findRow_eq_some {w : Word} {i : Instr} {rows : List (Word × Instr)}
    (h : (rows.map Prod.fst).Nodup) : findRow w rows = some i ↔ (w, i) ∈ rows := by
  induction rows with
  | nil => simp [findRow]
  | cons r rows ih =>
    obtain ⟨m, j⟩ := r
    obtain ⟨hm, hrows⟩ := List.nodup_cons.1 h
    rw [findRow, List.mem_cons, Prod.mk.injEq]
    split
    · next hw =>
      have hout : (w, i) ∉ rows := fun hi => hm (List.mem_map.2 ⟨(w, i), hi, hw.symm⟩)
      simp [hw, hout, eq_comm]
    · next hw => simp [ih hrows, Ne.symm hw]

theorem encode_mem_opcodeMap (i : Instr) : (encode i, i) ∈ opcodeMap := by
  cases i <;> decide

/-- The rows of the opcode map are the commands with their encodings (R80, R83). -/
theorem mem_opcodeMap {w : Word} {i : Instr} : (w, i) ∈ opcodeMap ↔ encode i = w := by
  have hrows : ∀ r ∈ opcodeMap, encode r.2 = r.1 := by decide
  exact ⟨fun h => hrows (w, i) h, fun h => h ▸ encode_mem_opcodeMap i⟩

/-! ### The decoder -/

theorem decode_eq_ok_iff_mem {w : Word} {i : Instr} : decode w = .ok i ↔ (w, i) ∈ opcodeMap := by
  have hnodup : (opcodeMap.map Prod.fst).Nodup := by decide
  rw [← findRow_eq_some hnodup, decode]
  cases findRow w opcodeMap <;> simp

theorem decode_eq_ok {w : Word} {i : Instr} : decode w = .ok i ↔ encode i = w :=
  decode_eq_ok_iff_mem.trans mem_opcodeMap

@[simp] theorem decode_encode (i : Instr) : decode (encode i) = .ok i := decode_eq_ok.2 rfl

/-- The decoder refuses the words that encode no command. -/
theorem decode_fails_iff {w : Word} : (∃ e, decode w = .error e) ↔ ∀ i, encode i ≠ w := by
  simp only [ne_eq, ← decode_eq_ok]
  cases decode w <;> simp

/-! ### Legal words -/

/-- The laws of the commands (Laws/PerInstr), as one statement over all of them. -/
theorem encoding_statement (i : Instr) : Laws.Encoding.Statement i := by
  cases i with
  | nop => exact Laws.Encoding.nop
  | freqCount => exact Laws.Encoding.freqCount
  | freqSer => exact Laws.Encoding.freqSer
  | freqDes => exact Laws.Encoding.freqDes
  | treeBuild => exact Laws.Encoding.treeBuild
  | codeGen => exact Laws.Encoding.codeGen
  | symEncode => exact Laws.Encoding.symEncode
  | symDecode => exact Laws.Encoding.symDecode
  | hufEncode => exact Laws.Encoding.hufEncode
  | hufDecode => exact Laws.Encoding.hufDecode
  | frame => exact Laws.Encoding.frame
  | unframe => exact Laws.Encoding.unframe
  | arOpenW => exact Laws.Encoding.arOpenW
  | arOpenR => exact Laws.Encoding.arOpenR
  | arAdd => exact Laws.Encoding.arAdd
  | arClose => exact Laws.Encoding.arClose
  | arGet => exact Laws.Encoding.arGet
  | arEnum => exact Laws.Encoding.arEnum
  | arSetver => exact Laws.Encoding.arSetver
  | arGetver => exact Laws.Encoding.arGetver
  | sreset => exact Laws.Encoding.sreset

theorem wellFormed_eq_true (i : Instr) : i.wellFormed = true := (encoding_statement i).1

theorem wordLegal_encode (i : Instr) : wordLegal (encode i) = true := (encoding_statement i).2.1

/-- An OP value that R84 does not list has a row of the opcode map. -/
theorem exists_row_of_opIllegal_eq_false {n : Nat} (hn : n < 256) (h : opIllegal n = false) :
    ∃ r ∈ opcodeMap, r.1.toNat = n := by
  have hle : n < 0x21 := by
    simp only [opIllegal, Bool.or_eq_false_iff, Bool.and_eq_false_iff, decide_eq_false_iff_not] at h
    omega
  have hrows : ∀ n < 0x21, opIllegal n = false → ∃ r ∈ opcodeMap, r.1.toNat = n := by decide
  exact hrows n hle h

/-- A word whose RSV field is 0 has the value of its OP field (R80). -/
theorem toNat_eq_of_rsv_eq_zero {w : Word} (h : w.extractLsb' 8 24 = 0#24) :
    (w.extractLsb' 0 8).toNat = w.toNat := by
  have hrsv := congrArg BitVec.toNat h
  simp only [BitVec.extractLsb'_toNat, BitVec.toNat_ofNat, Nat.shiftRight_eq_div_pow] at hrsv ⊢
  have hw := w.isLt
  omega

/-- The legal words of R84 are the encodings of the commands. -/
theorem wordLegal_iff {w : Word} : wordLegal w = true ↔ ∃ i, encode i = w := by
  constructor
  · intro h
    obtain ⟨hrsv, hop⟩ : w.extractLsb' 8 24 = 0#24 ∧ opIllegal (w.extractLsb' 0 8).toNat = false := by
      simpa [wordLegal] using h
    obtain ⟨⟨m, i⟩, hmem, hm⟩ := exists_row_of_opIllegal_eq_false (w.extractLsb' 0 8).isLt hop
    have hmw : m = w := BitVec.eq_of_toNat_eq (hm.trans (toNat_eq_of_rsv_eq_zero hrsv))
    exact ⟨i, mem_opcodeMap.1 (hmw ▸ hmem)⟩
  · rintro ⟨i, rfl⟩
    exact wordLegal_encode i

theorem decode_fails_iff_not_legal {w : Word} : (∃ e, decode w = .error e) ↔ wordLegal w = false := by
  rw [decode_fails_iff, ← Bool.not_eq_true, wordLegal_iff, not_exists]

/-- The illegal words, written out (R84). -/
theorem wordLegal_eq_false {w : Word} : wordLegal w = false ↔
    (w.extractLsb' 8 24 ≠ 0#24 ∨
      (let op := (w.extractLsb' 0 8).toNat
       (0x0C ≤ op ∧ op ≤ 0x0F) ∨ (0x18 ≤ op ∧ op ≤ 0x1F) ∨ (0x21 ≤ op ∧ op ≤ 0xFF))) := by
  simp only [wordLegal, opIllegal, Bool.and_eq_false_iff, beq_eq_false_iff_ne, Bool.not_eq_false',
    Bool.or_eq_true, Bool.and_eq_true, decide_eq_true_eq, or_assoc]

end Sys2Proof

namespace Sys2Proof.Machine

variable {s : State}

/-! ### The engine's turn -/

/-- With no turn left in the schedule, the step of a state with a latched command is the engine's (R148). -/
theorem step_of_pending {w : Word} (hr : s.inReset = false) (hs : s.sched = []) (hp : s.pending = some w) :
    step s = engineMove s := by
  have hready : s.engineReady = true := by simp [State.engineReady, State.busy, hp, hr]
  obtain ⟨_, hsched, -⟩ | ⟨_, hsched, -⟩ | ⟨-, -, he⟩ | ⟨-, hidle, -⟩ := step_cases s
  · simp [hs] at hsched
  · simp [hs] at hsched
  · exact he
  · simp [hready] at hidle

/-- The engine completes a latched word that is no command with ILLEGAL_CMD (R84). -/
theorem engineMove_of_illegal {w : Word} {e : DecodeError} (hr : s.inReset = false) (hp : s.pending = some w)
    (hd : decode w = .error e) : engineMove s = .next (doneErr s .illegalCmd) := by
  obtain ⟨hidle, -⟩ | ⟨w', i, -, hp', hd', -⟩ | ⟨_, _, -, -, -, he⟩ := engineMove_cases s
  · simp [hr, hp] at hidle
  · obtain rfl : w = w' := Option.some.inj (hp.symm.trans hp')
    simp [hd] at hd'
  · exact he

/-! ### The statements -/

/-- Settles O4: a word is refused exactly when it is not legal, CMD takes any word, and the engine's turn
completes a refused one. -/
theorem illegalWordFails : Obligations.IllegalWordFails := by
  refine ⟨fun w => decode_fails_iff_not_legal.trans wordLegal_eq_false, fun s w hr hp => ?_,
    fun s w e hr hs hp hd => ⟨?_, rfl⟩⟩
  · have hidle : s.busy = false := by simp [State.busy, hp]
    exact portWrite_offset hr hidle .cmd w
  · rw [step_of_pending hr hs hp, engineMove_of_illegal hr hp hd]

/-- Settles O1: each of the eight words is the encoding of its command. -/
theorem opcodeWordsDecode : Obligations.OpcodeWordsDecode :=
  ⟨decode_encode .nop, decode_encode .freqSer, decode_encode .treeBuild, decode_encode .symDecode,
    decode_encode .hufEncode, decode_encode .unframe, decode_encode .arGet, decode_encode .sreset⟩

/-- Settles O2: the decoder looks the whole word up in the opcode map, where no word has two rows. -/
theorem decodeSelectsExactWord : Obligations.DecodeSelectsExactWord :=
  fun _ _ => decode_eq_ok_iff_mem

/-- Settles O3: a word decodes to a command exactly when it is the command's encoding. -/
theorem decodeEncodeAgree : Obligations.DecodeEncodeAgree :=
  ⟨fun i => ⟨wellFormed_eq_true i, decode_encode i⟩, fun _ _ => decode_eq_ok.1⟩

end Sys2Proof.Machine
end

section
/-! PROOFS. The table of counts and its bytes (40_freq_model.md R87 to R90, 00_scope.md R17): O19 and O23. A
serialised table is a header and a list of records; one lemma says what the parser does with any records, and
every byte string that is long enough is a header, the records it declares and a rest. -/

namespace Sys2Proof.Machine

/-! ### Byte order -/

/-- Byte i of `le_N(v)` is `(v >> 8i) & 0xFF` (R17). -/
theorem getD_le {n v i : Nat} (h : i < n) : (le n v).getD i 0#8 = BitVec.ofNat 8 (v / 2 ^ (8 * i)) := by
  induction n generalizing v i with
  | zero => omega
  | succ n ih =>
    cases i with
    | zero => simp [le]
    | succ i =>
      rw [le, List.getD_cons_succ, ih (by omega), Nat.div_div_eq_div_mul]
      congr 2
      rw [Nat.mul_succ, Nat.pow_add, Nat.mul_comm]

/-- `from_le(s)` is the sum of `s[i] * 2^(8i)` (R17). -/
theorem fromLe_eq_sum (b : ByteString) :
    fromLe b = ((List.range b.length).map fun i => (b.getD i 0#8).toNat * 2 ^ (8 * i)).sum := by
  induction b with
  | nil => rfl
  | cons x b ih =>
    have hshift : ∀ i, ((x :: b).getD (i + 1) 0#8).toNat * 2 ^ (8 * (i + 1)) =
        256 * ((b.getD i 0#8).toNat * 2 ^ (8 * i)) := fun i => by
      rw [List.getD_cons_succ]
      ring
    rw [fromLe, ih, List.length_cons, List.range_succ_eq_map, List.map_cons, List.sum_cons, List.map_map,
      ← List.sum_map_mul_left]
    simp only [Function.comp_def, hshift, List.getD_cons_zero, Nat.mul_zero, Nat.pow_zero, Nat.mul_one]

@[simp] theorem length_wordBytes (w : Word) : (wordBytes w).length = 4 := rfl

/-- `le_4`, written out. -/
theorem le_four (v : Nat) : le 4 v = wordBytes (BitVec.ofNat 32 v) := by
  have hbyte : ∀ k, k ≤ 24 → BitVec.ofNat 8 (v / 2 ^ k) = (BitVec.ofNat 32 v).extractLsb' k 8 := by
    intro k hk
    apply BitVec.eq_of_getLsbD_eq
    intro i hi
    simp only [BitVec.getLsbD_extractLsb', BitVec.getLsbD_ofNat, Nat.testBit_div_two_pow, hi, Nat.add_comm i k,
      show k + i < 32 by omega, decide_true, Bool.true_and]
  rw [wordBytes, ← hbyte 0 (by decide), ← hbyte 8 (by decide), ← hbyte 16 (by decide), ← hbyte 24 (by decide)]
  simp [le, Nat.div_div_eq_div_mul]

theorem le_four_toNat (w : Word) : le 4 w.toNat = wordBytes w := by
  rw [le_four, BitVec.ofNat_toNat, BitVec.setWidth_eq]

@[simp] theorem fromLe_wordBytes (w : Word) : fromLe (wordBytes w) = w.toNat := by
  rw [← le_four_toNat, fromLe_le w.isLt]

theorem toNat_append_byte {w : Nat} (x : BitVec w) (b : Byte) : (x ++ b).toNat = b.toNat + 256 * x.toNat := by
  rw [BitVec.toNat_append, ← Nat.shiftLeft_add_eq_or_of_lt b.isLt, Nat.shiftLeft_eq]
  omega

theorem wordBytes_append (a b c d : Byte) : wordBytes (d ++ c ++ b ++ a) = [a, b, c, d] := by
  have hval : (d ++ c ++ b ++ a).toNat = fromLe [a, b, c, d] := by
    simp only [toNat_append_byte, fromLe, Nat.mul_zero, Nat.add_zero]
  rw [← le_four_toNat, hval]
  exact le_fromLe [a, b, c, d]

/-- From an index on, a byte string is the 4-byte field at the index and the rest. -/
theorem drop_eq_wordBytes_append {b : ByteString} {i : Nat} (h : i + 4 ≤ b.length) :
    b.drop i = wordBytes (wordAt b i) ++ b.drop (i + 4) := by
  rw [wordAt, wordBytes_append, List.drop_eq_getElem_cons (by omega), List.drop_eq_getElem_cons (by omega),
    List.drop_eq_getElem_cons (by omega), List.drop_eq_getElem_cons (by omega)]
  simp [List.getD_eq_getElem?_getD, List.getElem?_eq_getElem (show i < b.length by omega),
    List.getElem?_eq_getElem (show i + 1 < b.length by omega),
    List.getElem?_eq_getElem (show i + 2 < b.length by omega),
    List.getElem?_eq_getElem (show i + 3 < b.length by omega)]

/-! ### 256-entry tables -/

theorem entryAt_tabulate {α : Type} (g : Byte → α) (v : Byte) : entryAt (tabulate g) v = g v := by
  simp [entryAt, tabulate, symbols]

@[simp] theorem entryAt_zeroFreq (v : Byte) : entryAt zeroFreq v = 0#32 := entryAt_replicate 0#32 v

theorem table_ext {α : Type} {t u : Vector α 256} (h : ∀ v, entryAt t v = entryAt u v) : t = u := by
  rw [← Vector.toList_inj, toList_eq_map, toList_eq_map, funext h]

theorem nodup_symbols : symbols.Nodup := by
  refine List.Nodup.map_on (fun i hi j hj h => ?_) List.nodup_range
  have hmod : i % 2 ^ 8 = j % 2 ^ 8 := by simpa only [BitVec.toNat_ofNat] using congrArg BitVec.toNat h
  rw [List.mem_range] at hi hj
  omega

theorem nodup_present (f : FreqTable) : (present f).Nodup := by
  rw [present_eq]
  exact nodup_symbols.filter _

theorem length_present_le (f : FreqTable) : (present f).length ≤ 256 := by
  rw [present_eq, ← length_symbols]
  exact List.length_filter_le _ _

/-! ### The records of a table -/

/-- One record of a serialised table: a symbol and its count (R88). -/
abbrev FreqRecord := Byte × Word

/-- The 5 bytes of a record (R88). -/
def recordBytes (e : FreqRecord) : ByteString := e.1 :: wordBytes e.2

/-- A table with the counts of some records entered. -/
def loadRecords (l : List FreqRecord) (f : FreqTable) : FreqTable :=
  l.foldl (fun f e => setEntry f e.1 e.2) f

/-- The records that R89 admits on top of a table: no count is zero, and no symbol has a count in the table or
in an earlier record. -/
abbrev RecordsFresh (l : List FreqRecord) (f : FreqTable) : Prop :=
  (∀ e ∈ l, e.2 ≠ 0#32 ∧ entryAt f e.1 = 0#32) ∧ (l.map Prod.fst).Nodup

/-- The records of a table, symbols ascending (R88). -/
def recordsOf (f : FreqTable) : List FreqRecord := (present f).map fun v => (v, entryAt f v)

theorem length_flatMap_recordBytes (l : List FreqRecord) : (l.flatMap recordBytes).length = 5 * l.length := by
  induction l with
  | nil => rfl
  | cons e l ih =>
    simp only [List.flatMap_cons, List.length_append, List.length_cons, recordBytes, length_wordBytes, ih]
    omega

/-- The record by record form of R89's condition. -/
theorem recordsFresh_cons {v : Byte} {k : Word} {l : List FreqRecord} {f : FreqTable} :
    RecordsFresh ((v, k) :: l) f ↔ k ≠ 0#32 ∧ entryAt f v = 0#32 ∧ RecordsFresh l (setEntry f v k) := by
  have hset : k ≠ 0#32 → ∀ u, entryAt (setEntry f v k) u = 0#32 ↔ u ≠ v ∧ entryAt f u = 0#32 := by
    intro hk u
    by_cases hu : u = v
    · simp [hu, entryAt_setEntry_self, hk]
    · simp [hu, entryAt_setEntry_ne f hu]
  simp only [RecordsFresh, List.forall_mem_cons, List.map_cons, List.nodup_cons, List.mem_map]
  constructor
  · rintro ⟨⟨⟨hk, hv⟩, hl⟩, hnew, hnodup⟩
    exact ⟨hk, hv, fun e he => ⟨(hl e he).1, (hset hk e.1).2 ⟨fun h => hnew ⟨e, he, h⟩, (hl e he).2⟩⟩, hnodup⟩
  · rintro ⟨hk, hv, hl, hnodup⟩
    refine ⟨⟨⟨hk, hv⟩, fun e he => ⟨(hl e he).1, ((hset hk e.1).1 (hl e he).2).2⟩⟩, ?_, hnodup⟩
    rintro ⟨e, he, h⟩
    exact ((hset hk e.1).1 (hl e he).2).1 h

theorem loadRecords_cons (e : FreqRecord) (l : List FreqRecord) (f : FreqTable) :
    loadRecords (e :: l) f = loadRecords l (setEntry f e.1 e.2) := rfl

/-- A symbol that no record names keeps its count. -/
theorem entryAt_loadRecords_of_not_mem {l : List FreqRecord} {f : FreqTable} {v : Byte}
    (h : ∀ e ∈ l, e.1 ≠ v) : entryAt (loadRecords l f) v = entryAt f v := by
  induction l generalizing f with
  | nil => rfl
  | cons e l ih =>
    obtain ⟨hne, hl⟩ := List.forall_mem_cons.1 h
    rw [loadRecords_cons, ih hl, entryAt_setEntry_ne f hne.symm]

/-- A symbol that a record names gets the record's count, the symbols of the records being distinct. -/
theorem entryAt_loadRecords_of_mem {l : List FreqRecord} {f : FreqTable} (hd : (l.map Prod.fst).Nodup)
    {e : FreqRecord} (h : e ∈ l) : entryAt (loadRecords l f) e.1 = e.2 := by
  induction l generalizing f with
  | nil => cases h
  | cons a l ih =>
    rw [List.map_cons, List.nodup_cons] at hd
    obtain ⟨hnew, hd⟩ := hd
    rw [loadRecords_cons]
    obtain rfl | h := List.mem_cons.1 h
    · rw [entryAt_loadRecords_of_not_mem fun x hx hxe => hnew (List.mem_map.2 ⟨x, hx, hxe⟩),
        entryAt_setEntry_self]
    · exact ih hd h

theorem recordsFresh_recordsOf (f : FreqTable) : RecordsFresh (recordsOf f) zeroFreq := by
  constructor
  · intro e he
    obtain ⟨v, hv, rfl⟩ := List.mem_map.1 he
    exact ⟨mem_present.1 hv, entryAt_zeroFreq v⟩
  · rw [recordsOf, List.map_map]
    exact (List.map_id (present f)).symm ▸ nodup_present f

/-- The records of a table give back the table. -/
theorem loadRecords_recordsOf (f : FreqTable) : loadRecords (recordsOf f) zeroFreq = f := by
  apply table_ext
  intro v
  by_cases hv : entryAt f v = 0#32
  · rw [entryAt_loadRecords_of_not_mem, entryAt_zeroFreq, hv]
    intro e he hev
    obtain ⟨u, hu, rfl⟩ := List.mem_map.1 he
    obtain rfl : u = v := hev
    exact mem_present.1 hu hv
  · exact entryAt_loadRecords_of_mem (e := (v, entryAt f v)) (recordsFresh_recordsOf f).2
      (List.mem_map.2 ⟨v, mem_present.2 hv, rfl⟩)

@[simp] theorem length_recordsOf (f : FreqTable) : (recordsOf f).length = (present f).length :=
  List.length_map _

/-- A serialised table is the number of its records and their bytes (R88). -/
theorem freqSerialize_eq_records (f : FreqTable) : freqSerialize f =
    wordBytes (BitVec.ofNat 32 (recordsOf f).length) ++ (recordsOf f).flatMap recordBytes := by
  have hentry : freqEntry f = fun v => recordBytes (v, entryAt f v) :=
    funext fun v => by rw [freqEntry, le_four_toNat, recordBytes]
  rw [freqSerialize, le_four, length_recordsOf, recordsOf, List.flatMap_map, hentry]

/-! ### The parser -/

/-- One turn of the parser's loop (R89). -/
theorem parseFreqEntries_recordBytes (n : Nat) (v : Byte) (k : Word) (rest : ByteString) (f : FreqTable) :
    parseFreqEntries (n + 1) (recordBytes (v, k) ++ rest) f =
      if k = 0#32 ∨ entryAt f v ≠ 0#32 then raise .format
      else parseFreqEntries n rest (setEntry f v k) := by
  have hstep : parseFreqEntries (n + 1) (recordBytes (v, k) ++ rest) f =
      if fromLe (wordBytes k) = 0 then raise .format
      else if entryAt f v ≠ 0#32 then raise .format
      else parseFreqEntries n rest (setEntry f v (BitVec.ofNat 32 (fromLe (wordBytes k)))) := rfl
  have hzero : k.toNat = 0 ↔ k = 0#32 := by rw [← BitVec.toNat_inj]; rfl
  rw [hstep, fromLe_wordBytes, BitVec.ofNat_toNat, BitVec.setWidth_eq, ite_or]
  simp only [hzero]

/-- The parser's loop on the bytes of some records, whatever follows them (R89). -/
theorem parseFreqEntries_records (l : List FreqRecord) (rest : ByteString) (f : FreqTable) :
    parseFreqEntries l.length (l.flatMap recordBytes ++ rest) f =
      if RecordsFresh l f then .ok (loadRecords l f) else raise .format := by
  induction l generalizing f with
  | nil => simp [parseFreqEntries, loadRecords]
  | cons e l ih =>
    obtain ⟨v, k⟩ := e
    rw [List.length_cons, List.flatMap_cons, List.append_assoc, parseFreqEntries_recordBytes, ih]
    simp only [recordsFresh_cons]
    by_cases hk : k = 0#32
    · simp [hk]
    · by_cases hv : entryAt f v = 0#32
      · simp [hk, hv, loadRecords_cons]
      · simp [hk, hv]

theorem freqParse_of_short {b : ByteString} (h : b.length < 4) : freqParse b = raise .format := by
  rw [freqParse, decide_eq_false (by omega)]
  rfl

/-- The parser after a header (R89). -/
theorem freqParse_header (w : Word) (r : ByteString) : freqParse (wordBytes w ++ r) =
    if w.toNat ≤ 256 ∧ 5 * w.toNat ≤ r.length then do
      let f ← parseFreqEntries w.toNat r zeroFreq
      .ok (f, 4 + 5 * w.toNat)
    else raise .format := by
  have hslice : slice (wordBytes w ++ r) 0 4 = wordBytes w := rfl
  have hdrop : (wordBytes w ++ r).drop 4 = r := rfl
  have hlen : (wordBytes w ++ r).length = 4 + r.length := by
    rw [List.length_append, length_wordBytes]
  rw [freqParse, hslice, hdrop, hlen, fromLe_wordBytes, decide_eq_true (by omega), require_true,
    checked_bind_ok]
  by_cases hn : w.toNat ≤ 256
  · by_cases hr : 5 * w.toNat ≤ r.length
    · simp [hn, hr]
    · simp [hn, hr, raise]
  · simp [hn, raise]

/-- The parser on a header that declares the records that follow it, whatever follows those (R89). -/
theorem freqParse_records {l : List FreqRecord} (hl : l.length ≤ 256) (rest : ByteString) :
    freqParse (wordBytes (BitVec.ofNat 32 l.length) ++ l.flatMap recordBytes ++ rest) =
      if RecordsFresh l zeroFreq then .ok (loadRecords l zeroFreq, 4 + 5 * l.length) else raise .format := by
  have hw : (BitVec.ofNat 32 l.length).toNat = l.length := by rw [BitVec.toNat_ofNat]; omega
  have hroom : 5 * l.length ≤ (l.flatMap recordBytes ++ rest).length := by
    rw [List.length_append, length_flatMap_recordBytes]; omega
  rw [List.append_assoc, freqParse_header, hw, if_pos ⟨hl, hroom⟩, parseFreqEntries_records]
  split <;> rfl

/-! ### The statements -/

/-- Settles O19: no count passes the length of the string, so it fits 32 bits. -/
theorem countFreqCounts : Obligations.CountFreqCounts := by
  intro s v hs
  have hcount : s.count v ≤ s.length := List.count_le_length
  rw [countFreq, entryAt_tabulate, BitVec.toNat_ofNat, Nat.mod_eq_of_lt (by omega)]

/-- Settles O23: the parser gives back the records of the table, and they give back the table. -/
theorem freqTableRoundTrip : Obligations.FreqTableRoundTrip := by
  refine ⟨fun f t => ?_, fun n v i => ⟨length_le n v, getD_le⟩, fromLe_eq_sum⟩
  rw [freqSerialize_eq_records, freqParse_records (by simpa using length_present_le f),
    if_pos (recordsFresh_recordsOf f), loadRecords_recordsOf, length_recordsOf]

end Sys2Proof.Machine
end

section
/-! PROOFS. The commands FREQ_COUNT, FREQ_SER and FREQ_DES (40_freq_model.md R88, R89, R91 to R93): O20, O21 and
O22. -/

namespace Sys2Proof.Machine

/-! ### Which byte strings are tables -/

/-- The number of records that a byte string declares (R89). -/
def declared (b : ByteString) : Nat := (wordAt b 0).toNat

/-- The first n records after the header of a byte string. -/
def recordsAt (b : ByteString) (n : Nat) : List FreqRecord :=
  (List.range n).map fun i => (b.getD (4 + 5 * i) 0#8, wordAt b (5 + 5 * i))

@[simp] theorem length_recordsAt (b : ByteString) (n : Nat) : (recordsAt b n).length = n := by
  simp [recordsAt]

theorem mem_recordsAt {b : ByteString} {n : Nat} {e : FreqRecord} :
    e ∈ recordsAt b n ↔ ∃ i < n, (b.getD (4 + 5 * i) 0#8, wordAt b (5 + 5 * i)) = e := by
  simp [recordsAt]

/-- After the header, a byte string is the bytes of its records and the rest. -/
theorem drop_eq_records_append {b : ByteString} {n : Nat} (h : 4 + 5 * n ≤ b.length) :
    b.drop 4 = (recordsAt b n).flatMap recordBytes ++ b.drop (4 + 5 * n) := by
  induction n with
  | zero => rfl
  | succ n ih =>
    have hrecord : b.drop (4 + 5 * n) =
        recordBytes (b.getD (4 + 5 * n) 0#8, wordAt b (5 + 5 * n)) ++ b.drop (4 + 5 * (n + 1)) := by
      rw [List.drop_eq_getElem_cons (by omega), show 4 + 5 * n + 1 = 5 + 5 * n by omega,
        drop_eq_wordBytes_append (by omega), show 5 + 5 * n + 4 = 4 + 5 * (n + 1) by omega,
        List.getD_eq_getElem _ _ (by omega)]
      rfl
    rw [ih (by omega), hrecord, recordsAt, recordsAt, List.range_succ, List.map_append, List.flatMap_append,
      List.append_assoc]
    simp

/-- R89's condition on the records of a byte string, index by index. -/
theorem recordsFresh_recordsAt {b : ByteString} {n : Nat} :
    RecordsFresh (recordsAt b n) zeroFreq ↔ (∀ i, i < n → wordAt b (5 + 5 * i) ≠ 0#32) ∧
      ∀ i j, j < i → i < n → b.getD (4 + 5 * j) 0#8 ≠ b.getD (4 + 5 * i) 0#8 := by
  have hnodup : ((recordsAt b n).map Prod.fst).Nodup ↔
      ∀ i j, j < i → i < n → b.getD (4 + 5 * j) 0#8 ≠ b.getD (4 + 5 * i) 0#8 := by
    simp only [List.Nodup, List.pairwise_iff_getElem, recordsAt, List.map_map, List.getElem_map,
      List.getElem_range, List.length_map, List.length_range, Function.comp_apply]
    exact ⟨fun h i j hji hi => h j i (by omega) hi hji, fun h i j _ hj hij => h j i hij hj⟩
  rw [RecordsFresh, hnodup]
  simp [recordsAt]

/-- The byte strings that are tables (R89). -/
abbrev HoldsTable (b : ByteString) : Prop :=
  4 ≤ b.length ∧ declared b ≤ 256 ∧ 4 + 5 * declared b ≤ b.length ∧
    RecordsFresh (recordsAt b (declared b)) zeroFreq

/-- What FreqParse does with any byte string (R89). -/
theorem freqParse_eq (b : ByteString) : freqParse b =
    if HoldsTable b then .ok (loadRecords (recordsAt b (declared b)) zeroFreq, 4 + 5 * declared b)
    else raise .format := by
  by_cases h4 : 4 ≤ b.length
  · have hb : b = wordBytes (wordAt b 0) ++ b.drop 4 := drop_eq_wordBytes_append (i := 0) (by omega)
    by_cases hn : declared b ≤ 256 ∧ 4 + 5 * declared b ≤ b.length
    · obtain ⟨hn, hlen⟩ := hn
      have hw : wordAt b 0 = BitVec.ofNat 32 (recordsAt b (declared b)).length := by
        rw [length_recordsAt, declared, BitVec.ofNat_toNat, BitVec.setWidth_eq]
      have hparse := freqParse_records (l := recordsAt b (declared b)) (by simpa using hn)
        (b.drop (4 + 5 * declared b))
      rw [List.append_assoc, ← drop_eq_records_append hlen, ← hw, ← hb, length_recordsAt] at hparse
      rw [hparse]
      simp only [HoldsTable, h4, hn, hlen, true_and]
    · have hbad : ¬ ((wordAt b 0).toNat ≤ 256 ∧ 5 * (wordAt b 0).toNat ≤ (b.drop 4).length) := by
        rw [List.length_drop]
        simp only [declared] at hn
        omega
      rw [if_neg fun h => hn ⟨h.2.1, h.2.2.1⟩, hb, freqParse_header, if_neg hbad]
  · rw [freqParse_of_short (by omega), if_neg fun h => h4 h.1]

theorem freqParse_of_holdsTable {b : ByteString} (h : HoldsTable b) :
    freqParse b = .ok (loadRecords (recordsAt b (declared b)) zeroFreq, 4 + 5 * declared b) := by
  rw [freqParse_eq, if_pos h]

theorem freqParse_of_not_holdsTable {b : ByteString} (h : ¬ HoldsTable b) :
    freqParse b = .error { code := .format } := by
  rw [freqParse_eq, if_neg h]
  rfl

theorem eq_format_of_freqParse {b : ByteString} {e : Failure} (h : freqParse b = .error e) :
    e = { code := .format } := by
  by_cases hb : HoldsTable b
  · rw [freqParse_of_holdsTable hb] at h
    cases h
  · rw [freqParse_of_not_holdsTable hb] at h
    exact (Except.error.inj h).symm

/-! ### The commands -/

theorem exec_freqCount (s : State) : exec .freqCount s = execFreqCount s := rfl

theorem exec_freqSer (s : State) : exec .freqSer s = execFreqSer s := rfl

theorem exec_freqDes (s : State) : exec .freqDes s = execFreqDes s := rfl

variable {s : State}

/-- A command whose first check is the range check of a region fails with RANGE when the region is not in
range. -/
theorem conclude_checkRange_of_lt {r : Region} {k : Unit → Checked State}
    (h : s.params.bufSize < r.1 + r.2) : s.conclude (s.checkRange r >>= k) = .next (doneErr s .range) := by
  rw [checkRange_of_lt h, checked_bind_error, conclude_error, fail_plain]

/-- FREQ_SER past its range check (R92). -/
theorem execFreqSer_of_le (h : s.dstAddr.toNat + s.dstCap.toNat ≤ s.params.bufSize) :
    execFreqSer s = s.conclude (emit s.dstCap.toNat (freqSerialize s.freq) >>= fun out =>
      .ok ((s.writeDst out).results out.length 0)) := by
  rw [execFreqSer, checkRange_of_le (r := s.dstRegion) h, checked_bind_ok]

/-- FREQ_DES past its range check (R93). -/
theorem execFreqDes_of_le (h : s.srcAddr.toNat + s.srcLen.toNat ≤ s.params.bufSize) :
    execFreqDes s = s.conclude (freqParse s.srcBytes >>= fun (f, c) => .ok ((s.loadFreq f).results 0 c)) := by
  rw [execFreqDes, checkRange_of_le (r := s.srcRegion) h, checked_bind_ok]

/-- The layout of R88 over the symbols that occur, and its length. -/
theorem freqSerialize_eq_occurring (f : FreqTable) :
    freqSerialize f = wordBytes (BitVec.ofNat 32 (occurring f).length) ++
      (occurring f).flatMap fun v => v :: wordBytes (entryAt f v) := by
  rw [freqSerialize_eq_records, length_recordsOf, recordsOf, List.flatMap_map, present_eq_occurring]
  rfl

theorem length_freqSerialize (f : FreqTable) : (freqSerialize f).length = 4 + 5 * (occurring f).length := by
  rw [freqSerialize_eq_records, List.length_append, length_wordBytes, length_flatMap_recordBytes,
    length_recordsOf, present_eq_occurring]

/-! ### The statements -/

/-- Settles O20: the range check, then the new FREQ. -/
theorem freqCountResult : Obligations.FreqCountResult := by
  intro s
  refine ⟨fun h => ?_, fun h => conclude_checkRange_of_lt (r := s.srcRegion) h⟩
  rw [exec_freqCount, execFreqCount, checkRange_of_le (r := s.srcRegion) h, checked_bind_ok, conclude_ok,
    results_toNat, succeed_eq_doneOk]
  rfl

/-- Settles O21: the range check, then the output, which fits DST_CAP or leaves the DST window open. -/
theorem freqSerResult : Obligations.FreqSerResult := by
  intro s p n bytes
  have hbytes : freqSerialize s.freq = bytes := freqSerialize_eq_occurring s.freq
  have hlen : bytes.length = 4 + 5 * n := hbytes ▸ length_freqSerialize s.freq
  refine ⟨hbytes, hlen, fun h => conclude_checkRange_of_lt (r := s.dstRegion) h, fun h hfits => ?_,
    fun h hfull => ?_⟩
  · refine ⟨s.buf.writeBytes s.dstAddr.toNat bytes, ?_, storesAt_writeBytes _ _ _⟩
    rw [exec_freqSer, execFreqSer_of_le h, hbytes, emit_of_le (by omega), checked_bind_ok, hlen, conclude_ok,
      succeed_eq_doneOk]
    rfl
  · refine ⟨s.buf.release s.dstAddr.toNat s.dstCap.toNat s.stepTag, ?_, sameOutside_release _ _ _ _⟩
    rw [exec_freqSer, execFreqSer_of_le h, hbytes, emit_of_lt (by omega), checked_bind_error, conclude_error,
      fail_emitted]

/-- Settles O22: the parser decides on the records of the bytes, and the command loads what it gives. -/
theorem freqDesResult : Obligations.FreqDesResult := by
  constructor
  · intro b n sym cnt
    refine ⟨fun hbad => freqParse_of_not_holdsTable ?_, fun h4 hn hlen hcnt hsym => ?_⟩
    · rintro ⟨h4, hn, hlen, hfresh⟩
      obtain ⟨hcnt, hsym⟩ := recordsFresh_recordsAt.1 hfresh
      obtain h | h | h | ⟨i, hi, h⟩ | ⟨i, j, hji, hi, h⟩ := hbad
      · exact absurd h4 (by omega)
      · exact absurd hn (Nat.not_le.2 h)
      · exact absurd hlen (Nat.not_le.2 h)
      · exact hcnt i hi h
      · exact hsym i j hji hi h
    · have hfresh : RecordsFresh (recordsAt b n) zeroFreq := recordsFresh_recordsAt.2 ⟨hcnt, hsym⟩
      refine ⟨loadRecords (recordsAt b n) zeroFreq, freqParse_of_holdsTable ⟨h4, hn, hlen, hfresh⟩, ?_, ?_⟩
      · intro i hi
        exact entryAt_loadRecords_of_mem (e := (sym i, cnt i)) hfresh.2 (mem_recordsAt.2 ⟨i, hi, rfl⟩)
      · intro v hv
        rw [entryAt_loadRecords_of_not_mem, entryAt_zeroFreq]
        intro e he
        obtain ⟨i, hi, rfl⟩ := mem_recordsAt.1 he
        exact hv i hi
  · intro s b
    have hsrc : s.srcBytes = b := rfl
    refine ⟨fun h => conclude_checkRange_of_lt (r := s.srcRegion) h, fun f c h hp => ?_, fun e h hp => ?_⟩
    · rw [exec_freqDes, execFreqDes_of_le h, hsrc, hp, checked_bind_ok, conclude_ok, succeed_eq_doneOk]
      rfl
    · rw [exec_freqDes, execFreqDes_of_le h, hsrc, hp, checked_bind_error, conclude_error,
        eq_format_of_freqParse hp, fail_plain]

end Sys2Proof.Machine
end

section
/-! PROOFS. The Huffman tree builder (41_tree_and_codes.md R94 to R98) and TREE_BUILD (R102): O25, O26 and O24. The
forest is a list in extraction order; a merge step takes its head and keeps what the later proofs need of it
(the number of nodes, the weight, the leaves), so that the loop hands these from the leaves to the root. -/

namespace Sys2Proof.Machine

/-! ### The extraction order -/

/-- The key of a node as the tie policy ranks it: of two nodes of one weight, the one of the lower rank comes
first (R96). -/
def keyRank (p : TiePolicy) (a : Node) : Int :=
  match p with
  | .highKeyFirst => -a.key
  | .lowKeyFirst => a.key

theorem keyRank_inj {p : TiePolicy} {a b : Node} : keyRank p a = keyRank p b ↔ a.key = b.key := by
  cases p <;> simp [keyRank]

/-- The extraction order compares weight and rank, one after the other. -/
theorem comesBefore_iff {p : TiePolicy} {a b : Node} : comesBefore p a b = true ↔
    a.weight < b.weight ∨ (a.weight = b.weight ∧ keyRank p a < keyRank p b) := by
  cases p <;> simp [comesBefore, keyTest, keyRank]

theorem comesBefore_asymm {p : TiePolicy} {a b : Node} (h : comesBefore p a b = true) :
    comesBefore p b a = false := by
  rw [← Bool.not_eq_true, comesBefore_iff]
  rw [comesBefore_iff] at h
  omega

theorem comesBefore_trans {p : TiePolicy} {a b c : Node} (hab : comesBefore p a b = true)
    (hbc : comesBefore p b c = true) : comesBefore p a c = true := by
  rw [comesBefore_iff] at *
  omega

/-- Of two nodes whose keys differ, one comes before the other (R96). -/
theorem comesBefore_of_not {p : TiePolicy} {a b : Node} (hkey : a.key ≠ b.key)
    (h : ¬ comesBefore p a b = true) : comesBefore p b a = true := by
  have hrank : keyRank p a ≠ keyRank p b := fun hr => hkey (keyRank_inj.1 hr)
  rw [comesBefore_iff] at *
  omega

/-! ### Forests in extraction order -/

/-- The keys of a forest differ (R95). -/
abbrev DistinctKeys (f : List Node) : Prop := f.Pairwise fun a b => a.key ≠ b.key

/-- Every node of a forest comes before every later one (R96). -/
abbrev InOrder (p : TiePolicy) (f : List Node) : Prop :=
  f.Pairwise fun a b => comesBefore p a b = true ∧ comesBefore p b a = false

theorem inOrder_iff {p : TiePolicy} {f : List Node} :
    InOrder p f ↔ f.Pairwise fun a b => comesBefore p a b = true :=
  ⟨fun h => h.imp And.left, fun h => h.imp fun hab => ⟨hab, comesBefore_asymm hab⟩⟩

theorem distinctKeys_of_perm {f g : List Node} (h : f.Perm g) (hg : DistinctKeys g) : DistinctKeys f :=
  h.symm.pairwise hg fun hab => hab.symm

theorem insertNode_perm (p : TiePolicy) (a : Node) (f : List Node) : (insertNode p a f).Perm (a :: f) := by
  induction f with
  | nil => rfl
  | cons b f ih =>
    rw [insertNode]
    split
    · rfl
    · exact (ih.cons b).trans (.swap a b f)

theorem inOrder_insertNode {p : TiePolicy} {a : Node} {f : List Node} (hkeys : DistinctKeys (a :: f))
    (hf : InOrder p f) : InOrder p (insertNode p a f) := by
  rw [inOrder_iff] at *
  induction f with
  | nil => exact List.pairwise_singleton _ a
  | cons b f ih =>
    obtain ⟨hb, hrest⟩ := List.pairwise_cons.1 hf
    obtain ⟨ha, hbf⟩ := List.pairwise_cons.1 hkeys
    obtain ⟨hab, haf⟩ := List.forall_mem_cons.1 ha
    rw [insertNode]
    split
    next hlt =>
      exact List.pairwise_cons.2
        ⟨List.forall_mem_cons.2 ⟨hlt, fun x hx => comesBefore_trans hlt (hb x hx)⟩, hf⟩
    next hlt =>
      refine List.pairwise_cons.2 ⟨fun x hx => ?_, ih (List.pairwise_cons.2 ⟨haf, hbf.tail⟩) hrest⟩
      obtain rfl | hx := List.mem_cons.1 ((insertNode_perm p a f).mem_iff.1 hx)
      · exact comesBefore_of_not hab hlt
      · exact hb x hx

theorem orderForest_perm (p : TiePolicy) (f : List Node) : (orderForest p f).Perm f := by
  induction f with
  | nil => rfl
  | cons a f ih => exact (insertNode_perm p a _).trans (ih.cons a)

theorem inOrder_orderForest {p : TiePolicy} {f : List Node} (h : DistinctKeys f) :
    InOrder p (orderForest p f) := by
  induction f with
  | nil => exact List.Pairwise.nil
  | cons a f ih =>
    exact inOrder_insertNode (distinctKeys_of_perm ((orderForest_perm p f).cons a) h) (ih h.tail)

/-! ### The initial forest -/

/-- The placeholder stands beside a single leaf (R94). -/
theorem initialForest_eq (f : FreqTable) :
    initialForest f = leavesOf f ++ if (leavesOf f).length = 1 then [.placeholder] else [] := by
  rw [initialForest]
  split
  next a h => simp [h]
  next h =>
    have hlen : (leavesOf f).length ≠ 1 := fun h1 =>
      (List.length_eq_one_iff.1 h1).elim fun a ha => h a ha
    rw [if_neg hlen, List.append_nil]

@[simp] theorem length_leavesOf (f : FreqTable) : (leavesOf f).length = (present f).length :=
  List.length_map _

theorem distinctKeys_leavesOf (f : FreqTable) : DistinctKeys (leavesOf f) :=
  List.pairwise_map.2 ((nodup_present f).imp fun huv h => huv (BitVec.eq_of_toNat_eq h))

/-- The placeholder's key is no byte value (R95). -/
theorem distinctKeys_initialForest (f : FreqTable) : DistinctKeys (initialForest f) := by
  rw [initialForest_eq]
  refine List.pairwise_append.2 ⟨distinctKeys_leavesOf f, ?_, ?_⟩
  · split <;> simp
  · intro a ha b hb
    obtain ⟨v, -, rfl⟩ := List.mem_map.1 ha
    have hbp : b = .placeholder := by
      split at hb
      · exact List.mem_singleton.1 hb
      · cases hb
    subst hbp
    exact Nat.ne_of_lt v.isLt

/-- The number of nodes of the initial forest (R94). -/
theorem length_initialForest (f : FreqTable) :
    (initialForest f).length = if (present f).length = 1 then 2 else (present f).length := by
  rw [initialForest_eq, List.length_append, length_leavesOf]
  split <;> simp [*]

theorem sum_size_initialForest (f : FreqTable) :
    ((initialForest f).map Node.size).sum = (initialForest f).length := by
  have hone : ∀ a ∈ initialForest f, a.size = 1 := by
    intro a ha
    rw [initialForest_eq, List.mem_append] at ha
    obtain ha | ha := ha
    · obtain ⟨v, -, rfl⟩ := List.mem_map.1 ha
      rfl
    · split at ha
      · rw [List.mem_singleton.1 ha]
        rfl
      · cases ha
  rw [List.map_congr_left hone, List.map_const', List.sum_replicate, smul_eq_mul, Nat.mul_one]

/-- The placeholder weighs nothing (R94). -/
theorem sum_weight_initialForest (f : FreqTable) :
    ((initialForest f).map Node.weight).sum = ((present f).map fun v => (entryAt f v).toNat).sum := by
  have hleaves : (leavesOf f).map Node.weight = (present f).map fun v => (entryAt f v).toNat := by
    rw [leavesOf, List.map_map]
    rfl
  rw [initialForest_eq, List.map_append, List.sum_append, hleaves]
  split <;> simp [Node.weight]

/-! ### The leaves of a tree -/

/-- The symbols of the leaves of a tree with their counts, from left to right. -/
def Node.leaves : Node → List (Byte × Nat)
  | .leaf v w => [(v, w)]
  | .placeholder => []
  | .internal _ _ l r => l.leaves ++ r.leaves

theorem leaves_initialForest (f : FreqTable) :
    (initialForest f).flatMap Node.leaves = (present f).map fun v => (v, (entryAt f v).toNat) := by
  have hleaves : (leavesOf f).flatMap Node.leaves = (present f).map fun v => (v, (entryAt f v).toNat) := by
    rw [leavesOf, List.flatMap_map, List.map_eq_flatMap]
    rfl
  rw [initialForest_eq, List.flatMap_append, hleaves]
  split <;> simp [Node.leaves]

/-! ### Merging -/

/-- The merged node takes the key of one of the two nodes (R95), so that its key differs from the others. -/
theorem distinctKeys_mergeNodes {a b : Node} {f : List Node} (h : DistinctKeys (a :: b :: f)) :
    DistinctKeys (mergeNodes a b :: f) := by
  obtain ⟨ha, hbf⟩ := List.pairwise_cons.1 h
  obtain ⟨hb, hf⟩ := List.pairwise_cons.1 hbf
  refine List.pairwise_cons.2 ⟨fun x hx => ?_, hf⟩
  have hax := ha x (List.mem_cons_of_mem b hx)
  have hbx := hb x hx
  have hkey : (mergeNodes a b).key = min a.key b.key := rfl
  omega

theorem mergeLoop_cons_cons (p : TiePolicy) (n k : Nat) (a b : Node) (f : List Node) :
    mergeLoop p (n + 1) (a :: b :: f) k = mergeLoop p n (insertNode p (mergeNodes a b) f) (k + 1) := rfl

@[simp] theorem mergeLoop_nil (p : TiePolicy) (n k : Nat) : mergeLoop p n [] k = (none, k) := by
  cases n <;> rfl

@[simp] theorem mergeLoop_singleton (p : TiePolicy) (n k : Nat) (t : Node) :
    mergeLoop p n [t] k = (some t, k) := by
  cases n <;> rfl

/-- The loop ends with one node after a step for each other node, and what every merge step keeps, in
whatever order the forest then stands, holds of the root. -/
theorem mergeLoop_keeps {P : List Node → Prop} (p : TiePolicy)
    (hmerge : ∀ a b f f', P (a :: b :: f) → f'.Perm (mergeNodes a b :: f) → P f') {n : Nat} (k : Nat)
    {f : List Node} (hne : f ≠ []) (hn : f.length ≤ n + 1) (hf : P f) :
    ∃ t, mergeLoop p n f k = (some t, k + (f.length - 1)) ∧ P [t] := by
  induction n generalizing k f with
  | zero =>
    obtain ⟨t, rfl⟩ : ∃ t, f = [t] := List.length_eq_one_iff.1 (by
      have := List.length_pos_iff.2 hne
      omega)
    exact ⟨t, rfl, hf⟩
  | succ n ih =>
    match f with
    | [] => exact absurd rfl hne
    | [t] => exact ⟨t, rfl, hf⟩
    | a :: b :: f =>
      have hperm := insertNode_perm p (mergeNodes a b) f
      have hlen : (insertNode p (mergeNodes a b) f).length = f.length + 1 := hperm.length_eq
      obtain ⟨t, ht, hroot⟩ := ih (k + 1) (List.length_pos_iff.1 (by omega))
        (by simp only [List.length_cons] at hn; omega) (hmerge a b f _ hf hperm)
      refine ⟨t, ?_, hroot⟩
      rw [mergeLoop_cons_cons, ht, hlen, List.length_cons, List.length_cons]
      congr 1
      omega

/-- What merging keeps of a forest l: each merge step adds one node to the trees and takes one tree from the
forest, and the weights and the leaves are those of l. -/
structure MergedFrom (l f : List Node) : Prop where
  size : (f.map Node.size).sum + f.length = (l.map Node.size).sum + l.length
  weight : (f.map Node.weight).sum = (l.map Node.weight).sum
  leaves : (f.flatMap Node.leaves).Perm (l.flatMap Node.leaves)

theorem mergedFrom_of_perm {l f : List Node} (h : f.Perm l) : MergedFrom l f where
  size := by rw [(h.map _).sum_eq, h.length_eq]
  weight := (h.map _).sum_eq
  leaves := h.flatMap_right _

theorem MergedFrom.trans {l f g : List Node} (hf : MergedFrom l f) (hg : MergedFrom f g) : MergedFrom l g where
  size := hg.size.trans hf.size
  weight := hg.weight.trans hf.weight
  leaves := hg.leaves.trans hf.leaves

theorem mergedFrom_mergeNodes (a b : Node) (f : List Node) :
    MergedFrom (a :: b :: f) (mergeNodes a b :: f) where
  size := by
    simp only [List.map_cons, List.sum_cons, List.length_cons, mergeNodes, Node.size]
    omega
  weight := by
    simp only [List.map_cons, List.sum_cons, mergeNodes, Node.weight]
    omega
  leaves := by simp [mergeNodes, Node.leaves]

/-- The tree of a table in which a symbol occurs (R98). -/
theorem exists_buildTree (p : TiePolicy) {f : FreqTable} (h : present f ≠ []) :
    ∃ t, buildTree p f = (some t, 2 * (initialForest f).length - 1) ∧ MergedFrom (initialForest f) [t] := by
  have hord := orderForest_perm p (initialForest f)
  have hpos : 0 < (initialForest f).length := by
    rw [length_initialForest]
    have := List.length_pos_iff.2 h
    split <;> omega
  obtain ⟨t, ht, hroot⟩ := mergeLoop_keeps (P := MergedFrom (initialForest f)) p
    (n := (initialForest f).length) (f := orderForest p (initialForest f))
    (fun a b g g' hg hg' => (hg.trans (mergedFrom_mergeNodes a b g)).trans (mergedFrom_of_perm hg'))
    (initialForest f).length (List.length_pos_iff.1 (hord.length_eq ▸ hpos)) (by rw [hord.length_eq]; omega)
    (mergedFrom_of_perm hord)
  refine ⟨t, ?_, hroot⟩
  rw [buildTree, ht, hord.length_eq]
  congr 1
  omega

theorem buildTree_of_present_eq_nil (p : TiePolicy) {f : FreqTable} (h : present f = []) :
    buildTree p f = (none, 0) := by
  have hforest : initialForest f = [] := by simp [initialForest_eq, leavesOf, h]
  rw [buildTree, hforest]
  rfl

theorem MergedFrom.size_root {f : FreqTable} {t : Node} (h : MergedFrom (initialForest f) [t]) :
    t.size = 2 * (initialForest f).length - 1 := by
  have hsize := h.size
  rw [sum_size_initialForest] at hsize
  simp only [List.map_cons, List.map_nil, List.sum_cons, List.sum_nil, List.length_cons, List.length_nil] at hsize
  omega

theorem MergedFrom.weight_root {f : FreqTable} {t : Node} (h : MergedFrom (initialForest f) [t]) :
    t.weight = ((present f).map fun v => (entryAt f v).toNat).sum := by
  simpa [sum_weight_initialForest] using h.weight

theorem MergedFrom.leaves_root {f : FreqTable} {t : Node} (h : MergedFrom (initialForest f) [t]) :
    t.leaves.Perm ((present f).map fun v => (v, (entryAt f v).toNat)) := by
  simpa [leaves_initialForest] using h.leaves

/-! ### The statements -/

/-- Settles O25: inserting keeps a forest in order, and the builder only inserts. -/
theorem forestKeptInExtractionOrder : Obligations.ForestKeptInExtractionOrder := by
  refine ⟨fun p a b => ?_, fun p l hl => ⟨orderForest_perm p l, inOrder_orderForest hl⟩, fun p f => ?_,
    fun p n k a b f hkeys hord => ?_, fun p n k t => ⟨mergeLoop_nil p n k, mergeLoop_singleton p n k t⟩⟩
  · cases p <;> simp [comesBefore_iff, keyRank]
  · intro leaves forest
    have hforest : forest = initialForest f := by
      have hleaves : leaves = leavesOf f := by rw [leavesOf, present_eq_occurring]
      rw [initialForest_eq, ← hleaves]
      simp only [forest]
      split <;> simp
    exact hforest ▸ ⟨distinctKeys_initialForest f, rfl⟩
  · have hmerged := distinctKeys_mergeNodes hkeys
    have hperm := insertNode_perm p (mergeNodes a b) f
    exact ⟨_, mergeLoop_cons_cons p n k a b f, hperm, distinctKeys_of_perm hperm hmerged,
      inOrder_insertNode hmerged hord.tail.tail⟩

/-- Settles O26: what merging keeps, read at the root. -/
theorem treeNodeCounts : Obligations.TreeNodeCounts := by
  intro p f n
  refine ⟨fun hn => buildTree_of_present_eq_nil p (List.length_eq_zero_iff.1 hn), fun hn => ?_⟩
  obtain ⟨t, ht, hroot⟩ := exists_buildTree p (List.length_pos_iff.1 hn)
  have hcount : 2 * (initialForest f).length - 1 = if n = 1 then 3 else 2 * n - 1 := by
    rw [length_initialForest]
    split <;> rfl
  exact ⟨t, hcount ▸ ht, hcount ▸ hroot.size_root, hroot.weight_root⟩

theorem exec_treeBuild (s : State) : exec .treeBuild s = execTreeBuild s := rfl

/-- Settles O24: the command stores what the builder answers. -/
theorem treeBuildResult : Obligations.TreeBuildResult := by
  intro s
  rw [exec_treeBuild, execTreeBuild, conclude_ok, succeed_eq_doneOk]
  rfl

end Sys2Proof.Machine
end

section
/-! PROOFS. The code table of a tree (41_tree_and_codes.md R100, R101) and CODE_GEN (R103): O28 and O27. The walk
enters each leaf's path, whatever the order of the queue, because no two leaves share a symbol; the properties
of R101 are then facts about paths in a tree. -/

namespace Sys2Proof.Machine

/-! ### Paths -/

@[simp] theorem descend_nil (t : Node) : descend t [] = some t := by cases t <;> rfl

theorem descend_leaf_cons (v : Byte) (w : Nat) (b : Bool) (d : BitString) :
    descend (.leaf v w) (b :: d) = none := rfl

theorem descend_internal_cons (w k : Nat) (l r : Node) (b : Bool) (d : BitString) :
    descend (.internal w k l r) (b :: d) = descend (if b then r else l) d := rfl

theorem descend_append (t : Node) (c d : BitString) :
    descend t (c ++ d) = (descend t c).bind fun m => descend m d := by
  induction c generalizing t with
  | nil => rw [List.nil_append, descend_nil, Option.bind_some]
  | cons b c ih =>
    cases t with
    | leaf v w => rfl
    | placeholder => rfl
    | internal w k l r => exact ih _

/-- Only the empty path leads on from a leaf. -/
theorem descend_leaf_eq_some {v : Byte} {w : Nat} {d : BitString} {m : Node} :
    descend (.leaf v w) d = some m ↔ d = [] ∧ m = .leaf v w := by
  cases d with
  | nil => simp [eq_comm]
  | cons b d => simp [descend_leaf_cons]

/-- The leaves of a tree are the leaves its paths lead to. -/
theorem mem_leaves {t : Node} {v : Byte} {w : Nat} :
    (v, w) ∈ t.leaves ↔ ∃ d, descend t d = some (.leaf v w) := by
  induction t with
  | leaf u x => simp [Node.leaves, descend_leaf_eq_some]
  | placeholder =>
    constructor
    · intro h
      cases h
    · rintro ⟨_ | ⟨b, d⟩, hd⟩ <;> cases hd
  | internal x k l r ihl ihr =>
    rw [Node.leaves, List.mem_append, ihl, ihr]
    constructor
    · rintro (⟨d, hd⟩ | ⟨d, hd⟩)
      · exact ⟨false :: d, hd⟩
      · exact ⟨true :: d, hd⟩
    · rintro ⟨_ | ⟨b, d⟩, hd⟩
      · cases hd
      · cases b with
        | false => exact .inl ⟨d, hd⟩
        | true => exact .inr ⟨d, hd⟩

theorem size_pos (t : Node) : 0 < t.size := by
  cases t <;> simp only [Node.size] <;> omega

/-- Beside each node of a path hangs another tree, so that a tree has two nodes for each step of a path. -/
theorem length_path_le {t m : Node} {d : BitString} (h : descend t d = some m) :
    2 * d.length + m.size ≤ t.size := by
  induction d generalizing t with
  | nil =>
    cases (descend_nil t).symm.trans h
    simp
  | cons b d ih =>
    cases t with
    | leaf v w => cases h
    | placeholder => cases h
    | internal w k l r =>
      rw [descend_internal_cons] at h
      have hchild := ih h
      have hl := size_pos l
      have hr := size_pos r
      rw [List.length_cons, Node.size]
      cases b <;> simp only [Bool.false_eq_true, if_false, if_true] at hchild <;> omega

/-! ### The walk -/

/-- A queue of the walk: trees, each with the path that leads to it (R100). -/
abbrev CodeQueue := List (Node × BitString)

/-- The symbols of the leaves under a queue. -/
def queueSymbols (q : CodeQueue) : List Byte := q.flatMap fun e => e.1.leaves.map Prod.fst

/-- The number of nodes under a queue. -/
def queueSize (q : CodeQueue) : Nat := (q.map fun e => e.1.size).sum

/-- What the children of an internal node become at the end of the queue. -/
def expand (l r : Node) (c : BitString) (q : CodeQueue) : CodeQueue := q ++ [(l, c ++ [false]), (r, c ++ [true])]

theorem codeWalk_internal (n w k : Nat) (l r : Node) (c : BitString) (q : CodeQueue) (t : CodeTable) :
    codeWalk (n + 1) ((.internal w k l r, c) :: q) t = codeWalk n (expand l r c q) t := rfl

theorem codeWalk_leaf (n w : Nat) (v : Byte) (c : BitString) (q : CodeQueue) (t : CodeTable) :
    codeWalk (n + 1) ((.leaf v w, c) :: q) t = codeWalk n q (setEntry t v c) := rfl

theorem codeWalk_placeholder (n : Nat) (c : BitString) (q : CodeQueue) (t : CodeTable) :
    codeWalk (n + 1) ((.placeholder, c) :: q) t = codeWalk n q t := rfl

@[simp] theorem codeWalk_nil (n : Nat) (t : CodeTable) : codeWalk n [] t = t := by cases n <;> rfl

theorem codeWalk_zero (q : CodeQueue) (t : CodeTable) : codeWalk 0 q t = t := rfl

theorem queueSymbols_leaf (v : Byte) (w : Nat) (c : BitString) (q : CodeQueue) :
    queueSymbols ((.leaf v w, c) :: q) = v :: queueSymbols q := rfl

theorem queueSize_cons (m : Node) (c : BitString) (q : CodeQueue) :
    queueSize ((m, c) :: q) = m.size + queueSize q := rfl

theorem mem_expand_of_mem {l r : Node} {c : BitString} {q : CodeQueue} {e : Node × BitString} (h : e ∈ q) :
    e ∈ expand l r c q := List.mem_append_left _ h

theorem child_mem_expand (l r : Node) (c : BitString) (q : CodeQueue) (b : Bool) :
    ((if b then r else l), c ++ [b]) ∈ expand l r c q := by
  cases b <;> simp [expand]

theorem queueSymbols_expand (w k : Nat) (l r : Node) (c : BitString) (q : CodeQueue) :
    (queueSymbols (expand l r c q)).Perm (queueSymbols ((.internal w k l r, c) :: q)) := by
  have hswap : queueSymbols (expand l r c q) =
      queueSymbols q ++ (l.leaves.map Prod.fst ++ r.leaves.map Prod.fst) := by
    simp [queueSymbols, expand]
  have hhead : queueSymbols ((.internal w k l r, c) :: q) =
      l.leaves.map Prod.fst ++ r.leaves.map Prod.fst ++ queueSymbols q := by
    simp [queueSymbols, Node.leaves]
  rw [hswap, hhead]
  exact List.perm_append_comm

theorem queueSize_expand (w k : Nat) (l r : Node) (c : BitString) (q : CodeQueue) :
    queueSize (expand l r c q) + 1 = queueSize ((.internal w k l r, c) :: q) := by
  simp only [queueSize, expand, List.map_append, List.map_cons, List.map_nil, List.sum_append, List.sum_cons,
    List.sum_nil, Node.size]
  omega

/-- The walk leaves the entry of a symbol that no leaf has. -/
theorem entryAt_codeWalk_of_not_mem {n : Nat} {q : CodeQueue} {t : CodeTable} {v : Byte}
    (h : v ∉ queueSymbols q) : entryAt (codeWalk n q t) v = entryAt t v := by
  induction n generalizing q t with
  | zero => rw [codeWalk_zero]
  | succ n ih =>
    match q with
    | [] => rw [codeWalk_nil]
    | (.internal w k l r, c) :: q =>
      rw [codeWalk_internal, ih ((queueSymbols_expand w k l r c q).mem_iff.not.2 h)]
    | (.placeholder, c) :: q =>
      rw [codeWalk_placeholder]
      exact ih h
    | (.leaf u w, c) :: q =>
      obtain ⟨hne, hq⟩ := not_or.1 (List.mem_cons.not.1 h)
      rw [codeWalk_leaf, ih hq, entryAt_setEntry_ne t hne]

/-- The walk enters each leaf's path from the root when no two leaves share a symbol (R100, R101). -/
theorem entryAt_codeWalk_of_path {n : Nat} {q : CodeQueue} {t : CodeTable} {v : Byte} {w : Nat} {m : Node}
    {c d : BitString} (hn : queueSize q ≤ n) (hq : (queueSymbols q).Nodup) (hm : (m, c) ∈ q)
    (hd : descend m d = some (.leaf v w)) : entryAt (codeWalk n q t) v = c ++ d := by
  induction n generalizing q t m c d with
  | zero =>
    have hpos := size_pos m
    have hle : m.size ≤ queueSize q := List.single_le_sum (by simp) _ (List.mem_map_of_mem hm)
    omega
  | succ n ih =>
    match q with
    | [] => cases hm
    | (.placeholder, a) :: q =>
      rw [queueSize_cons, Node.size] at hn
      rw [codeWalk_placeholder]
      obtain hhead | hm := List.mem_cons.1 hm
      · cases hhead
        cases d <;> cases hd
      · exact ih (by omega) hq hm hd
    | (.leaf u x, a) :: q =>
      rw [queueSize_cons, Node.size] at hn
      obtain ⟨hu, hq⟩ := List.nodup_cons.1 (queueSymbols_leaf u x a q ▸ hq)
      rw [codeWalk_leaf]
      obtain hhead | hm := List.mem_cons.1 hm
      · cases hhead
        obtain ⟨rfl, hleaf⟩ := descend_leaf_eq_some.1 hd
        cases hleaf
        rw [entryAt_codeWalk_of_not_mem hu, entryAt_setEntry_self, List.append_nil]
      · exact ih (by omega) hq hm hd
    | (.internal x k l r, a) :: q =>
      have hsize := queueSize_expand x k l r a q
      have hq := (queueSymbols_expand x k l r a q).nodup_iff.2 hq
      rw [codeWalk_internal]
      obtain hhead | hm := List.mem_cons.1 hm
      · cases hhead
        obtain _ | ⟨b, d⟩ := d
        · cases hd
        · rw [ih (by omega) hq (child_mem_expand l r _ q b) hd, List.append_assoc, List.singleton_append]
      · exact ih (by omega) hq (mem_expand_of_mem hm) hd

/-! ### The code table of a tree -/

theorem genCodes_none : genCodes none = emptyCodes := rfl

/-- No two leaves of a tree share a symbol. -/
abbrev DistinctSymbols (t : Node) : Prop := (t.leaves.map Prod.fst).Nodup

theorem queueSymbols_singleton (t : Node) (c : BitString) : queueSymbols [(t, c)] = t.leaves.map Prod.fst := by
  simp [queueSymbols]

/-- A symbol that no leaf has gets no code. -/
theorem entryAt_genCodes_of_not_mem {t : Node} {v : Byte} (h : ∀ w, (v, w) ∉ t.leaves) :
    entryAt (genCodes (some t)) v = [] := by
  have hv : v ∉ queueSymbols [(t, [])] := by simpa [queueSymbols] using h
  rw [genCodes, entryAt_codeWalk_of_not_mem hv, entryAt_emptyCodes]

/-- The code of a leaf's symbol is the leaf's path (R101). -/
theorem entryAt_genCodes_of_path {t : Node} (ht : DistinctSymbols t) {v : Byte} {w : Nat} {d : BitString}
    (hd : descend t d = some (.leaf v w)) : entryAt (genCodes (some t)) v = d := by
  have hsize : queueSize [(t, [])] ≤ t.size := Nat.le_refl _
  rw [genCodes, entryAt_codeWalk_of_path hsize (queueSymbols_singleton t [] ▸ ht) (List.mem_singleton_self _) hd,
    List.nil_append]

/-- The code of a leaf's symbol leads to the leaf (R101). -/
theorem descend_genCodes {t : Node} (ht : DistinctSymbols t) {v : Byte} {w : Nat} (h : (v, w) ∈ t.leaves) :
    descend t (entryAt (genCodes (some t)) v) = some (.leaf v w) := by
  obtain ⟨d, hd⟩ := mem_leaves.1 h
  rw [entryAt_genCodes_of_path ht hd, hd]

/-- A path to a leaf does not begin a path to a leaf of another symbol (R101). -/
theorem not_isPrefix_of_descend {t : Node} {u v : Byte} {x y : Nat} {c d : BitString} (huv : u ≠ v)
    (hc : descend t c = some (.leaf u x)) (hd : descend t d = some (.leaf v y)) : ¬ c <+: d := by
  rintro ⟨e, rfl⟩
  rw [descend_append, hc, Option.bind_some] at hd
  obtain ⟨-, hleaf⟩ := descend_leaf_eq_some.1 hd
  cases hleaf
  exact huv rfl

/-! ### The code table of a built tree -/

section
variable {f : FreqTable} {t : Node}

theorem MergedFrom.mem_leaves_root (h : MergedFrom (initialForest f) [t]) {v : Byte} {w : Nat} :
    (v, w) ∈ t.leaves ↔ entryAt f v ≠ 0#32 ∧ w = (entryAt f v).toNat := by
  rw [h.leaves_root.mem_iff, List.mem_map]
  constructor
  · rintro ⟨u, hu, heq⟩
    cases heq
    exact ⟨mem_present.1 hu, rfl⟩
  · rintro ⟨hv, rfl⟩
    exact ⟨v, mem_present.2 hv, rfl⟩

theorem MergedFrom.distinctSymbols_root (h : MergedFrom (initialForest f) [t]) : DistinctSymbols t := by
  rw [DistinctSymbols, (h.leaves_root.map Prod.fst).nodup_iff, List.map_map]
  exact (List.map_id (present f)).symm ▸ nodup_present f

/-- Each symbol that occurs has its leaf's path for a code. -/
theorem MergedFrom.descend_code (h : MergedFrom (initialForest f) [t]) {v : Byte} (hv : entryAt f v ≠ 0#32) :
    descend t (entryAt (genCodes (some t)) v) = some (.leaf v (entryAt f v).toNat) :=
  descend_genCodes h.distinctSymbols_root (h.mem_leaves_root.2 ⟨hv, rfl⟩)

theorem MergedFrom.code_eq_nil (h : MergedFrom (initialForest f) [t]) {v : Byte} (hv : entryAt f v = 0#32) :
    entryAt (genCodes (some t)) v = [] :=
  entryAt_genCodes_of_not_mem fun _ hw => (h.mem_leaves_root.1 hw).1 hv

/-- The root of a built tree is no leaf: its forest had the placeholder beside a single leaf. -/
theorem MergedFrom.code_ne_nil (h : MergedFrom (initialForest f) [t]) {v : Byte} (hv : entryAt f v ≠ 0#32) :
    entryAt (genCodes (some t)) v ≠ [] := by
  intro hnil
  have hroot := h.descend_code hv
  rw [hnil, descend_nil, Option.some.injEq] at hroot
  have hsize := h.size_root
  have hpos := List.length_pos_of_mem (mem_present.2 hv)
  rw [hroot, Node.size, length_initialForest] at hsize
  split at hsize <;> omega

/-- 256 leaves and 255 internal nodes leave a path 255 steps at most (R101). -/
theorem MergedFrom.length_code_le (h : MergedFrom (initialForest f) [t]) (v : Byte) :
    (entryAt (genCodes (some t)) v).length ≤ 255 := by
  by_cases hv : entryAt f v = 0#32
  · rw [h.code_eq_nil hv]
    exact Nat.zero_le _
  · have hpath := length_path_le (h.descend_code hv)
    have hle := length_present_le f
    rw [h.size_root, length_initialForest, Node.size] at hpath
    split at hpath <;> omega

/-- The tree of a single symbol: the placeholder, of weight 0, comes first and is the left child (R101). -/
theorem buildTree_of_present_eq_singleton (p : TiePolicy) {v : Byte} (h : present f = [v]) :
    (buildTree p f).1 = some (mergeNodes .placeholder (.leaf v (entryAt f v).toNat)) := by
  have hforest : initialForest f = [.leaf v (entryAt f v).toNat, .placeholder] := by
    simp [initialForest_eq, leavesOf, h]
  have hv : (entryAt f v).toNat ≠ 0 := fun h0 =>
    mem_present.1 (h ▸ List.mem_singleton_self v) (BitVec.eq_of_toNat_eq h0)
  have hlast : ¬ comesBefore p (.leaf v (entryAt f v).toNat) .placeholder = true := by
    simp [comesBefore_iff, Node.weight, hv]
  have hord : orderForest p (initialForest f) = [.placeholder, .leaf v (entryAt f v).toNat] := by
    rw [hforest, orderForest, orderForest, orderForest, insertNode, insertNode, if_neg hlast, insertNode]
  rw [buildTree, hord, hforest]
  rfl

end

/-! ### The statements -/

/-- Settles O28: facts about the paths of the root that merging leaves. -/
theorem codeTableProperties : Obligations.CodeTableProperties := by
  intro p f c
  by_cases hf : present f = []
  · have hcode : ∀ v, entryAt c v = [] := fun v => by
      rw [← entryAt_emptyCodes v, ← genCodes_none]
      simp only [c, buildTree_of_present_eq_nil p hf]
    have hzero : ∀ v, entryAt f v = 0#32 := fun v =>
      not_not.1 fun hv => List.ne_nil_of_mem (mem_present.2 hv) hf
    simp [hcode, hzero, hf]
  · obtain ⟨t, ht, hroot⟩ := exists_buildTree p hf
    have hc : c = genCodes (some t) := by simp only [c, ht]
    have htree : (buildTree p f).1 = some t := by rw [ht]
    rw [hc]
    refine ⟨fun v => ⟨fun hv h0 => hv (hroot.code_eq_nil h0), hroot.code_ne_nil⟩, fun u v huv hu hv =>
      not_isPrefix_of_descend huv (hroot.descend_code hu) (hroot.descend_code hv), fun v hv => ?_,
      hroot.length_code_le, fun v hv => ⟨t, htree, hroot.descend_code hv⟩⟩
    have hpath : descend t [true] = some (.leaf v (entryAt f v).toNat) := by
      rw [buildTree_of_present_eq_singleton p hv, Option.some.injEq] at htree
      rw [← htree]
      rfl
    exact entryAt_genCodes_of_path hroot.distinctSymbols_root hpath

theorem exec_codeGen (s : State) : exec .codeGen s = execCodeGen s := rfl

/-- CODE_GEN past its check (R103). -/
theorem execCodeGen_of_treeValid {s : State} (h : s.treeValid = true) :
    execCodeGen s = s.conclude (.ok (s.setCodes.results 0 0)) := by
  rw [execCodeGen, h, require_true, checked_bind_ok]

theorem execCodeGen_of_not_treeValid {s : State} (h : s.treeValid = false) :
    execCodeGen s = s.conclude (.error { code := .state }) := by
  rw [execCodeGen, h, require_false, raise, checked_bind_error]

/-- Settles O27: the command stores what the generator answers, past its one check. -/
theorem codeGenResult : Obligations.CodeGenResult := by
  refine fun s => ⟨fun hvalid => ?_, fun hvalid => ?_⟩
  · rw [exec_codeGen, execCodeGen_of_treeValid hvalid, conclude_ok, succeed_eq_doneOk]
    rfl
  · rw [exec_codeGen, execCodeGen_of_not_treeValid hvalid, conclude_error, fail_plain]

end Sys2Proof.Machine
end

section
/-! PROOFS. The bit packer and the bit unpacker (42_bit_packer.md R104 to R108): O32 and O29. A walk is told by the
paths it follows: bits that lead from a node to another make it arrive there, and paths to leaves emit their
symbols. -/

namespace Sys2Proof.Machine

/-! ### Packed bytes -/

theorem getLsbD_packByte (bits : BitString) {k : Nat} (hk : k < 8) :
    (packByte bits).getLsbD k = bits.getD k false := by
  rw [packByte, BitVec.getLsbD_ofNat, testBit_bitsToNat, decide_eq_true hk, Bool.true_and]

/-- Bit k of packed byte j is bit 8j + k of the string (R104). -/
theorem getLsbD_packBytes {n j k : Nat} (bits : BitString) (hj : j < n) (hk : k < 8) :
    ((packBytes n bits).getD j 0#8).getLsbD k = bits.getD (8 * j + k) false := by
  induction n generalizing j bits with
  | zero => omega
  | succ n ih =>
    cases j with
    | zero =>
      rw [packBytes, List.getD_cons_zero, getLsbD_packByte _ hk]
      simp [List.getD_eq_getElem?_getD, hk]
    | succ j =>
      rw [packBytes, List.getD_cons_succ, ih _ (by omega)]
      simp only [List.getD_eq_getElem?_getD, List.getElem?_drop]
      congr 2
      omega

theorem getLsbD_pack {j k : Nat} {bits : BitString} (hj : j < (pack bits).length) (hk : k < 8) :
    ((pack bits).getD j 0#8).getLsbD k = bits.getD (8 * j + k) false :=
  getLsbD_packBytes bits (by simpa [ceilDiv8] using hj) hk

/-- Settles O29: the lengths of the loop, and the bits of one byte at a time. -/
theorem packLayout : Obligations.PackLayout := fun bits =>
  ⟨length_pack bits, fun _ _ hj hk => getLsbD_pack hj hk⟩

/-! ### Streams of bits -/

@[simp] theorem length_byteBits (b : Byte) : (byteBits b).length = 8 := by
  rw [byteBits, List.length_map, List.length_range]

theorem getD_byteBits (b : Byte) {i : Nat} (h : i < 8) : (byteBits b).getD i false = b.getLsbD i := by
  simp [byteBits, List.getD_eq_getElem?_getD, h]

@[simp] theorem length_flatMap_byteBits (b : ByteString) : (b.flatMap byteBits).length = 8 * b.length := by
  induction b with
  | nil => rfl
  | cons x b ih =>
    rw [List.flatMap_cons, List.length_append, length_byteBits, ih, List.length_cons]
    omega

/-- The bits of a byte string, one byte after the other, are its stream bits (R105). -/
theorem getD_flatMap_byteBits (b : ByteString) (i : Nat) :
    (b.flatMap byteBits).getD i false = streamBit b i := by
  induction b generalizing i with
  | nil => simp [streamBit]
  | cons x b ih =>
    rw [List.flatMap_cons, streamBit]
    obtain hi | hi := Nat.lt_or_ge i 8
    · rw [List.getD_append _ _ _ _ (by simpa using hi), getD_byteBits x hi, Nat.div_eq_of_lt hi,
        Nat.mod_eq_of_lt hi, List.getD_cons_zero]
    · have hdiv : i / 8 = (i - 8) / 8 + 1 := by omega
      have hmod : i % 8 = (i - 8) % 8 := by omega
      rw [List.getD_append_right _ _ _ _ (by simpa using hi), length_byteBits, ih, streamBit, hdiv, hmod,
        List.getD_cons_succ]

/-- The first m bits of a byte string that holds them (R105, R107). -/
theorem streamBits_eq_map {b : ByteString} {m : Nat} (h : m ≤ 8 * b.length) :
    streamBits b m = (List.range m).map (streamBit b) := by
  have hlen : (streamBits b m).length = m := by
    rw [streamBits, List.length_take, length_flatMap_byteBits, Nat.min_eq_left h]
  apply List.ext_getElem (by rw [hlen, List.length_map, List.length_range])
  intro i hi _
  rw [List.getElem_map, List.getElem_range, ← getD_flatMap_byteBits, ← List.getD_eq_getElem _ false,
    streamBits]
  simp only [List.getD_eq_getElem?_getD, List.getElem?_take_of_lt (hlen ▸ hi)]

theorem streamBit_pack_append {bits : BitString} {i : Nat} (h : i < bits.length) (t : ByteString) :
    streamBit (pack bits ++ t) i = bits[i] := by
  have hbyte : i / 8 < (pack bits).length := by
    rw [length_pack]
    omega
  rw [streamBit, List.getD_append _ _ _ _ hbyte, getLsbD_pack hbyte (Nat.mod_lt i (by omega)),
    Nat.div_add_mod, List.getD_eq_getElem _ _ h]

/-- The packed bits of a string read back as the string, whatever bytes follow (R104, R105). -/
theorem streamBits_pack_append (bits : BitString) (t : ByteString) :
    streamBits (pack bits ++ t) bits.length = bits := by
  have hlen : bits.length ≤ 8 * (pack bits ++ t).length := by
    rw [List.length_append, length_pack]
    omega
  rw [streamBits_eq_map hlen]
  apply List.ext_getElem (by simp)
  intro i _ hi
  rw [List.getElem_map, List.getElem_range, streamBit_pack_append hi]

/-! ### One step of the walk -/

/-- What the walk does when it arrives at a node, after p bytes have been emitted (R107). -/
def walkAt (root : Node) (cap p : Nat) (n : Node) (bits : BitString) : Checked ByteString :=
  match n with
  | .leaf v _ =>
    if p + 1 ≤ cap then (walkFrom root cap (p + 1) root bits).map (v :: ·)
    else .error { code := .dstFull, emitted := true }
  | .placeholder => raiseAfter p .corrupt
  | .internal w k l r => walkFrom root cap p (.internal w k l r) bits

section
variable {root n m : Node} {cap p w k : Nat} {l r : Node} {v : Byte} {bits d : BitString}

theorem walkAt_leaf_of_le (h : p + 1 ≤ cap) :
    walkAt root cap p (.leaf v w) bits = (walkFrom root cap (p + 1) root bits).map (v :: ·) := if_pos h

theorem walkAt_leaf_of_full (h : cap ≤ p) :
    walkAt root cap p (.leaf v w) bits = .error { code := .dstFull, emitted := true } :=
  if_neg (Nat.not_le.2 (Nat.lt_succ_of_le h))

theorem walkAt_placeholder : walkAt root cap p .placeholder bits = raiseAfter p .corrupt := rfl

theorem walkAt_internal :
    walkAt root cap p (.internal w k l r) bits = walkFrom root cap p (.internal w k l r) bits := rfl

@[simp] theorem walkFrom_root_nil : walkFrom root cap p root [] = .ok [] := if_pos rfl

theorem walkFrom_nil_of_ne (h : n ≠ root) : walkFrom root cap p n [] = raiseAfter p .corrupt := if_neg h

/-- A bit with an edge takes the walk to the child (R107). -/
theorem walkFrom_cons_of_child {b : Bool} (h : n.child b = some m) :
    walkFrom root cap p n (b :: bits) = walkAt root cap p m bits := by
  rw [walkFrom, h]
  cases m with
  | placeholder => rfl
  | internal w k l r => rfl
  | leaf v w =>
    dsimp only [walkAt]
    congr 1
    cases walkFrom root cap (p + 1) root bits <;> rfl

theorem walkFrom_cons_of_no_child {b : Bool} (h : n.child b = none) :
    walkFrom root cap p n (b :: bits) = raiseAfter p .corrupt := by
  rw [walkFrom, h]

/-! ### Walks along paths -/

theorem descend_cons_eq_some {b : Bool} :
    descend n (b :: d) = some m ↔ ∃ c, n.child b = some c ∧ descend c d = some m := by
  cases n <;> simp [descend, Node.child]

/-- Only an internal node has a path of one bit and more. -/
theorem internal_of_descend_cons {b : Bool} (h : descend n (b :: d) = some m) :
    ∃ w k l r, n = .internal w k l r := by
  cases n with
  | leaf v w => cases h
  | placeholder => cases h
  | internal w k l r => exact ⟨w, k, l, r, rfl⟩

theorem path_ne_nil (h : descend n d = some m) (hne : n ≠ m) : d ≠ [] := by
  rintro rfl
  exact hne (Option.some.inj ((descend_nil n).symm.trans h))

/-- The bits of a path take the walk to the path's end (R100, R107). -/
theorem walkFrom_path_append (hd : d ≠ []) (h : descend n d = some m) :
    walkFrom root cap p n (d ++ bits) = walkAt root cap p m bits := by
  induction d generalizing n with
  | nil => exact absurd rfl hd
  | cons b d ih =>
    obtain ⟨c, hc, hrest⟩ := descend_cons_eq_some.1 h
    rw [List.cons_append, walkFrom_cons_of_child hc]
    cases d with
    | nil =>
      rw [descend_nil, Option.some.injEq] at hrest
      rw [hrest, List.nil_append]
    | cons b' d =>
      obtain ⟨w, k, l, r, rfl⟩ := internal_of_descend_cons hrest
      rw [walkAt_internal, ih (List.cons_ne_nil b' d) hrest]

/-- A path that leads to a leaf of a symbol, from a root that is no leaf. -/
abbrev EmitsSymbol (root : Node) (v : Byte) (c : BitString) : Prop :=
  c ≠ [] ∧ ∃ w, descend root c = some (.leaf v w)

/-- Paths to leaves emit their symbols and leave the walk at the root (R107). -/
theorem walkFrom_paths_append {out : ByteString} {paths : List BitString}
    (h : List.Forall₂ (EmitsSymbol root) out paths) (hcap : p + out.length ≤ cap) :
    walkFrom root cap p root (paths.flatten ++ bits) =
      (walkFrom root cap (p + out.length) root bits).map (out ++ ·) := by
  induction h generalizing p with
  | nil =>
    rw [List.flatten_nil, List.nil_append, List.length_nil, Nat.add_zero]
    cases walkFrom root cap p root bits <;> rfl
  | @cons v c out paths hv _ ih =>
    obtain ⟨hc, w, hleaf⟩ := hv
    rw [List.length_cons] at hcap ⊢
    rw [List.flatten_cons, List.append_assoc, walkFrom_path_append hc hleaf, walkAt_leaf_of_le (by omega),
      ih (by omega), show p + 1 + out.length = p + (out.length + 1) by omega]
    cases walkFrom root cap (p + (out.length + 1)) root bits <;> rfl

/-- Bits that end inside a path are CORRUPT: a node below the root is smaller than the root (R107). -/
theorem walkFrom_of_unfinished (hd : d ≠ []) (h : descend root d = some (.internal w k l r)) :
    walkFrom root cap p root d = raiseAfter p .corrupt := by
  have hne : Node.internal w k l r ≠ root := by
    rintro rfl
    have hsize := length_path_le h
    have hpos := List.length_pos_iff.2 hd
    omega
  have hpath := walkFrom_path_append (root := root) (cap := cap) (p := p) (bits := []) hd h
  rw [← List.append_nil d, hpath, walkAt_internal, walkFrom_nil_of_ne hne]

end

/-! ### The walk of a byte string -/

@[simp] theorem walk_zero (cap : Nat) (t : Option Node) (b : ByteString) : walk cap t b 0 = .ok [] := rfl

theorem walk_none_of_pos (cap : Nat) (b : ByteString) {m : Nat} (h : 0 < m) :
    walk cap none b m = .error { code := .corrupt } := if_neg (Nat.ne_of_gt h)

/-- Also for no bits: the walk then ends at the root it begins at. -/
theorem walk_some (cap : Nat) (root : Node) (b : ByteString) (m : Nat) :
    walk cap (some root) b m = walkFrom root cap 0 root (streamBits b m) := by
  cases m with
  | zero => exact walkFrom_root_nil.symm
  | succ m => rfl

/-- The walk over bits that begin with paths to leaves emits their symbols and goes on with the other bits
(R107). -/
theorem walk_of_paths {root : Node} {cap m : Nat} {b out : ByteString} {paths : List BitString}
    {rest : BitString} (hbits : streamBits b m = paths.flatten ++ rest)
    (hpaths : List.Forall₂ (EmitsSymbol root) out paths) (hcap : out.length ≤ cap) :
    walk cap (some root) b m = (walkFrom root cap out.length root rest).map (out ++ ·) := by
  rw [walk_some, hbits, walkFrom_paths_append hpaths (by omega), Nat.zero_add]

/-- Settles O32: each code is its leaf's path, so that the walk emits a symbol for each code. -/
theorem symbolStreamRoundTrip : Obligations.SymbolStreamRoundTrip := by
  intro p f s t cap hs hcap tree bits
  by_cases hf : present f = []
  · obtain rfl : s = [] := List.eq_nil_iff_forall_not_mem.2 fun v hv =>
      List.ne_nil_of_mem (mem_present.2 (hs v hv)) hf
    exact walk_zero _ _ _
  · obtain ⟨root, hbuild, hroot⟩ := exists_buildTree p hf
    have htree : tree = some root := by simp only [tree, hbuild]
    have hpaths : List.Forall₂ (EmitsSymbol root) s (s.map (entryAt (genCodes (some root)))) :=
      List.forall₂_map_right_iff.2 (List.forall₂_same.2 fun v hv =>
        ⟨hroot.code_ne_nil (hs v hv), _, hroot.descend_code (hs v hv)⟩)
    have hbits : bits = (s.map (entryAt (genCodes (some root)))).flatten ++ [] := by
      rw [List.append_nil, ← List.flatMap_def, ← htree]
      rfl
    rw [htree, walk_of_paths ((streamBits_pack_append bits t).trans hbits) hpaths hcap, walkFrom_root_nil,
      Except.map, List.append_nil]

end Sys2Proof.Machine
end

section
/-! PROOFS. The commands SYM_ENCODE and SYM_DECODE (42_bit_packer.md R107, R109, R110; 60_exceptions.md R151): O30
and O31. -/

namespace Sys2Proof.Machine

variable {s : State}

/-! ### Commands that check SRC and DST -/

theorem conclude_checkSrcDst_of_error {f : Failure} {k : Unit → Checked State}
    (h : s.checkSrcDst = .error f) : s.conclude (s.checkSrcDst >>= k) = .next (s.fail f) := by
  rw [h, checked_bind_error, conclude_error]

theorem conclude_checkSrcDst_of_good {k : Unit → Checked State} (h : SrcDstGood s) :
    s.conclude (s.checkSrcDst >>= k) = s.conclude (k ()) := by
  rw [checkSrcDst_of_good h, checked_bind_ok]

theorem conclude_require_of_eq_true {p : Bool} {c : ErrCode} {k : Unit → Checked State} (h : p = true) :
    s.conclude (require p c >>= k) = s.conclude (k ()) := by
  rw [h, require_true, checked_bind_ok]

theorem conclude_require_of_eq_false {p : Bool} {c : ErrCode} {k : Unit → Checked State} (h : p = false) :
    s.conclude (require p c >>= k) = .next (doneErr s c) := by
  rw [h, require_false, raise, checked_bind_error, conclude_error, fail_plain]

/-! ### SYM_ENCODE -/

theorem exec_symEncode (s : State) : exec .symEncode s = execSymEncode s := rfl

theorem all_code_ne_nil {t : CodeTable} {b : ByteString} :
    (b.all fun v => entryAt t v != []) = true ↔ ∀ v ∈ b, entryAt t v ≠ [] := by simp

/-- SYM_ENCODE past the check of the code table (R109). -/
theorem execSymEncode_of_valid (hgood : SrcDstGood s) (hvalid : s.codesValid = true) :
    execSymEncode s = s.conclude (require (s.srcBytes.all fun v => entryAt s.codes v != []) .state >>= fun _ =>
      emit s.dstCap.toNat (pack (codeStream s.codes s.srcBytes)) >>= fun out =>
        .ok (((s.writeDst out).setBitcount (codeStream s.codes s.srcBytes).length).results out.length
          s.srcLen.toNat)) := by
  rw [execSymEncode, conclude_checkSrcDst_of_good hgood, conclude_require_of_eq_true hvalid]

/-- SYM_ENCODE past all its checks (R109). -/
theorem execSymEncode_of_codes (hgood : SrcDstGood s) (hvalid : s.codesValid = true)
    (hcodes : ∀ v ∈ s.srcBytes, entryAt s.codes v ≠ []) :
    execSymEncode s = s.conclude (emit s.dstCap.toNat (pack (codeStream s.codes s.srcBytes)) >>= fun out =>
      .ok (((s.writeDst out).setBitcount (codeStream s.codes s.srcBytes).length).results out.length
        s.srcLen.toNat)) := by
  rw [execSymEncode_of_valid hgood hvalid, conclude_require_of_eq_true (all_code_ne_nil.2 hcodes)]

/-- Settles O30: the checks in their order, then the output, which fits DST_CAP or leaves the DST window open. -/
theorem symEncodeResult : Obligations.SymEncodeResult := by
  refine fun s => afterOperandChecks_of (fun f hf => conclude_checkSrcDst_of_error hf) fun hgood => ?_
  intro src bits nb
  have hsrc : s.srcBytes = src := rfl
  have hlen : (pack bits).length = nb := length_pack bits
  refine ⟨fun hvalid => ?_, fun hvalid hmissing => ?_, fun hvalid hcodes hfits => ?_,
    fun hvalid hcodes hfull => ?_⟩
  · rw [exec_symEncode, execSymEncode, conclude_checkSrcDst_of_good hgood, conclude_require_of_eq_false hvalid]
  · obtain ⟨v, hv, hnil⟩ := hmissing
    have hall : ¬ (s.srcBytes.all fun v => entryAt s.codes v != []) = true := fun h =>
      all_code_ne_nil.1 h v hv hnil
    rw [exec_symEncode, execSymEncode_of_valid hgood hvalid,
      conclude_require_of_eq_false (Bool.eq_false_of_not_eq_true hall)]
  · refine ⟨s.buf.writeBytes s.dstAddr.toNat (pack bits), ?_, storesAt_writeBytes _ _ _⟩
    rw [exec_symEncode, execSymEncode_of_codes hgood hvalid hcodes, hsrc, emit_of_le (hlen.trans_le hfits),
      checked_bind_ok, hlen, conclude_ok, results_toNat, succeed_eq_doneOk]
    rfl
  · refine ⟨s.buf.release s.dstAddr.toNat s.dstCap.toNat s.stepTag, ?_, sameOutside_release _ _ _ _⟩
    rw [exec_symEncode, execSymEncode_of_codes hgood hvalid hcodes, hsrc, emit_of_lt (hlen ▸ hfull),
      checked_bind_error, conclude_error, fail_emitted]

/-! ### SYM_DECODE -/

theorem exec_symDecode (s : State) : exec .symDecode s = execSymDecode s := rfl

/-- The walk that SYM_DECODE takes (R110). -/
def State.symWalk (s : State) : Checked ByteString :=
  walk s.dstCap.toNat s.tree (s.memRead s.srcAddr.toNat (ceilDiv8 s.bitcount)) s.bitcount

/-- SYM_DECODE past the check of the tree (R110). -/
theorem execSymDecode_of_valid (hgood : SrcDstGood s) (hvalid : s.treeValid = true) :
    execSymDecode s = s.conclude (require (decide (ceilDiv8 s.bitcount ≤ s.srcLen.toNat)) .format >>= fun _ =>
      s.symWalk >>= fun out => .ok ((s.writeDst out).results out.length (ceilDiv8 s.bitcount))) := by
  rw [execSymDecode, conclude_checkSrcDst_of_good hgood, conclude_require_of_eq_true hvalid]
  rfl

/-- SYM_DECODE past all its checks (R110). -/
theorem execSymDecode_of_bits (hgood : SrcDstGood s) (hvalid : s.treeValid = true)
    (hbits : ceilDiv8 s.bitcount ≤ s.srcLen.toNat) :
    execSymDecode s = s.conclude (s.symWalk >>= fun out =>
      .ok ((s.writeDst out).results out.length (ceilDiv8 s.bitcount))) := by
  rw [execSymDecode_of_valid hgood hvalid, conclude_require_of_eq_true (decide_eq_true hbits)]

/-- The failures of a walk, which never touch ARC (R107, R151). -/
abbrev WalkFailure (e : Failure) : Prop := (e.code = .corrupt ∨ e.code = .dstFull) ∧ e.arcFrom = none

theorem meets_walkFrom_failure (root : Node) (cap p : Nat) (n : Node) (bits : BitString) :
    Meets (walkFrom root cap p n bits) (fun _ => True) WalkFailure := by
  have hcorrupt : ∀ p, Meets (raiseAfter p .corrupt : Checked ByteString) (fun _ => True) WalkFailure :=
    fun p => meets_error ⟨.inl rfl, rfl⟩
  induction bits generalizing p n with
  | nil =>
    by_cases h : n = root
    · subst h
      rw [walkFrom_root_nil]
      exact meets_ok trivial
    · rw [walkFrom_nil_of_ne h]
      exact hcorrupt p
  | cons b bits ih =>
    cases hchild : n.child b with
    | none =>
      rw [walkFrom_cons_of_no_child hchild]
      exact hcorrupt p
    | some m =>
      rw [walkFrom_cons_of_child hchild]
      cases m with
      | placeholder => exact hcorrupt p
      | internal w k l r => exact ih p _
      | leaf v w =>
        by_cases hcap : p + 1 ≤ cap
        · rw [walkAt_leaf_of_le hcap]
          have hrest := ih (p + 1) root
          cases hwalk : walkFrom root cap (p + 1) root bits with
          | ok out => exact meets_ok trivial
          | error e => exact meets_error (hrest.failure e hwalk)
        · rw [walkAt_leaf_of_full (by omega)]
          exact meets_error ⟨.inr rfl, rfl⟩

theorem walkFailure_of_walk {cap m : Nat} {t : Option Node} {b : ByteString} {e : Failure}
    (h : walk cap t b m = .error e) : WalkFailure e := by
  cases t with
  | some root => exact (meets_walkFrom_failure root cap 0 root _).failure e (walk_some cap root b m ▸ h)
  | none =>
    obtain rfl | hm := Nat.eq_zero_or_pos m
    · cases h
    · rw [walk_none_of_pos cap b hm] at h
      cases h
      exact ⟨.inl rfl, rfl⟩

/-- A failure that leaves ARC alone changes no byte outside the DST window, and no byte at all before any output
(R151 item 3). -/
theorem exists_fail_eq_doneErr {f : Failure} (h : f.arcFrom = none) : ∃ b,
    s.fail f = doneErr { s with buf := b } f.code ∧ (f.emitted = false → b = s.buf) ∧
      SameOutside s.buf b s.dstAddr.toNat s.dstCap.toNat := by
  obtain ⟨c, e, a⟩ := f
  obtain rfl : a = none := h
  cases e with
  | false => exact ⟨s.buf, fail_plain s c, fun _ => rfl, fun _ _ => rfl⟩
  | true => exact ⟨_, fail_emitted s c, nofun, sameOutside_release _ _ _ _⟩

/-- Settles O31: a walk is its paths and what follows them, and the command stores what the walk emits. -/
theorem symDecodeResult : Obligations.SymDecodeResult := by
  refine ⟨walk_zero, fun cap src m hm => walk_none_of_pos cap src hm, ?_, fun s => ?_⟩
  · intro cap w k l r src m out paths rest root failed hm hbits hpaths hcap
    have hwalk : walk cap (some root) src m = (walkFrom root cap out.length root rest).map (out ++ ·) :=
      walk_of_paths ((streamBits_eq_map hm).trans hbits)
        (hpaths.imp fun _ _ ⟨n, h⟩ => ⟨path_ne_nil h nofun, n, h⟩) hcap
    refine ⟨?_, ?_, ?_, ?_⟩
    · rintro rfl
      rw [hwalk, walkFrom_root_nil, Except.map, List.append_nil]
    · rintro hrest ⟨w', k', l', r', hinside⟩
      exact hwalk.trans (by rw [walkFrom_of_unfinished hrest hinside]; rfl)
    · rintro c more rfl hc
      exact hwalk.trans (by rw [walkFrom_path_append (path_ne_nil hc nofun) hc, walkAt_placeholder]; rfl)
    · rintro c more v n rfl hc hfull
      exact hwalk.trans (by
        rw [walkFrom_path_append (path_ne_nil hc nofun) hc, walkAt_leaf_of_full (by omega)]; rfl)
  · refine afterOperandChecks_of (fun f hf => conclude_checkSrcDst_of_error hf) fun hgood => ?_
    intro m nb w
    have hw : s.symWalk = w := rfl
    have hnb : ceilDiv8 s.bitcount = nb := rfl
    refine ⟨fun hvalid => ?_, fun hvalid hshort => ?_, fun hvalid hbits out hout => ?_,
      fun hvalid hbits e he => ?_⟩
    · rw [exec_symDecode, execSymDecode, conclude_checkSrcDst_of_good hgood,
        conclude_require_of_eq_false hvalid]
    · rw [exec_symDecode, execSymDecode_of_valid hgood hvalid, hnb,
        conclude_require_of_eq_false (decide_eq_false (Nat.not_le.2 hshort))]
    · refine ⟨s.buf.writeBytes s.dstAddr.toNat out, ?_, storesAt_writeBytes _ _ _⟩
      rw [exec_symDecode, execSymDecode_of_bits hgood hvalid hbits, hw, hout, checked_bind_ok, conclude_ok,
        succeed_eq_doneOk]
      rfl
    · obtain ⟨hcode, harc⟩ := walkFailure_of_walk he
      obtain ⟨b, hfail, hkept, houtside⟩ := exists_fail_eq_doneErr (s := s) harc
      refine ⟨b, ?_, hcode, hkept, houtside⟩
      rw [exec_symDecode, execSymDecode_of_bits hgood hvalid hbits, hw, he, checked_bind_error, conclude_error,
        hfail]

end Sys2Proof.Machine
end

section
/-! PROOFS. Encoded blocks (43_codec.md R111 to R114): O35. A block is a table and, unless the table is empty, a
bit count and packed bits; one lemma for each way a byte string can end says what the decoder does with it. -/

namespace Sys2Proof.Machine

/-! ### The parts of a block -/

/-- `s[i..i+n)` (R17). -/
theorem slice_add (s : ByteString) (i n : Nat) : slice s i (i + n) = (s.drop i).take n := by
  rw [slice, Nat.add_sub_cancel_left]

/-- The bit count of a block whose table takes c bytes (R113). -/
def blockBits (b : ByteString) (c : Nat) : Nat := fromLe ((b.drop c).take 8)

/-- How many packed bytes that bit count needs (R113). -/
def blockPacked (b : ByteString) (c : Nat) : Nat := (blockBits b c + 7) / 8

/-- The walk over the packed bits of a block (R113). -/
def blockWalk (p : TiePolicy) (cap : Nat) (b : ByteString) (f : FreqTable) (c : Nat) : Checked ByteString :=
  walk cap (buildTree p f).1 ((b.drop (c + 8)).take (blockPacked b c)) (blockBits b c)

/-! ### The decoder -/

section
variable {p : TiePolicy} {cap c : Nat} {b : ByteString} {f : FreqTable}

theorem decodeBlock_of_parse_error {e : Failure} (h : freqParse b = .error e) :
    decodeBlock p cap b = .error { code := .format } := by
  rw [decodeBlock, h, checked_bind_error, eq_format_of_freqParse h]

/-- The empty table ends its block (R113). -/
theorem decodeBlock_of_empty_table (h : freqParse b = .ok (f, c)) (hf : present f = []) :
    decodeBlock p cap b = .ok { table := f, bits := 0, out := [], used := c } := by
  rw [decodeBlock, h, checked_bind_ok]
  exact if_pos hf

/-- What the decoder does after a table with a symbol (R113). -/
theorem decodeBlock_of_symbols (h : freqParse b = .ok (f, c)) (hf : present f ≠ []) :
    decodeBlock p cap b = (do
      require (decide (c + 8 ≤ b.length)) .format
      require (decide (c + 8 + blockPacked b c ≤ b.length)) .format
      let out ← blockWalk p cap b f c
      .ok { table := f, bits := blockBits b c, out := out, used := c + 8 + blockPacked b c }) := by
  rw [decodeBlock, h, checked_bind_ok]
  dsimp only
  rw [if_neg hf]
  simp only [slice_add, ceilDiv8]
  rfl

theorem decodeBlock_of_cut_short (h : freqParse b = .ok (f, c)) (hf : present f ≠ [])
    (hcut : b.length < c + 8 ∨ b.length < c + 8 + blockPacked b c) :
    decodeBlock p cap b = .error { code := .format } := by
  have hpacked : ¬ c + 8 + blockPacked b c ≤ b.length := by omega
  rw [decodeBlock_of_symbols h hf, decide_eq_false hpacked]
  by_cases hcount : c + 8 ≤ b.length
  · rw [decide_eq_true hcount]
    rfl
  · rw [decide_eq_false hcount]
    rfl

/-- A block with all its bytes stands or falls with the walk (R113). -/
theorem decodeBlock_of_whole (h : freqParse b = .ok (f, c)) (hf : present f ≠ [])
    (hwhole : c + 8 + blockPacked b c ≤ b.length) :
    decodeBlock p cap b = (blockWalk p cap b f c >>= fun out =>
      .ok { table := f, bits := blockBits b c, out := out, used := c + 8 + blockPacked b c }) := by
  have hcount : c + 8 ≤ b.length := by omega
  rw [decodeBlock_of_symbols h hf, decide_eq_true hcount, decide_eq_true hwhole]
  rfl

end

/-- The decoder on a table with a symbol, a bit count and the packed bytes it needs, whatever follows them
(R113). -/
theorem decodeBlock_parts (p : TiePolicy) (cap : Nat) {f : FreqTable} (hf : present f ≠ []) {m : Nat}
    (hm : m < 2 ^ 64) {packed : ByteString} (hpacked : packed.length = (m + 7) / 8) (t : ByteString) :
    decodeBlock p cap (freqSerialize f ++ le 8 m ++ packed ++ t) =
      (walk cap (buildTree p f).1 packed m >>= fun out => .ok
        { table := f, bits := m, out := out, used := (freqSerialize f ++ le 8 m ++ packed).length }) := by
  obtain ⟨hparse, -, -⟩ := freqTableRoundTrip
  have htable : freqParse (freqSerialize f ++ le 8 m ++ packed ++ t) = .ok (f, (freqSerialize f).length) := by
    rw [List.append_assoc, List.append_assoc, hparse, length_freqSerialize, present_eq_occurring]
  have hbits : blockBits (freqSerialize f ++ le 8 m ++ packed ++ t) (freqSerialize f).length = m := by
    rw [blockBits, List.append_assoc, List.append_assoc, List.drop_left, List.take_left' (length_le 8 m),
      fromLe_le hm]
  have hneed : blockPacked (freqSerialize f ++ le 8 m ++ packed ++ t) (freqSerialize f).length =
      packed.length := by
    rw [blockPacked, hbits, hpacked]
  have hrest : ((freqSerialize f ++ le 8 m ++ packed ++ t).drop ((freqSerialize f).length + 8)).take
      packed.length = packed := by
    rw [List.append_assoc, List.drop_left' (by rw [List.length_append, length_le]), List.take_left]
  have hused : (freqSerialize f ++ le 8 m ++ packed).length =
      (freqSerialize f).length + 8 + packed.length := by
    rw [List.length_append, List.length_append, length_le]
  have hwhole : (freqSerialize f).length + 8 + packed.length ≤
      (freqSerialize f ++ le 8 m ++ packed ++ t).length := by
    rw [List.length_append, hused]
    omega
  rw [decodeBlock_of_whole htable hf (hneed.symm ▸ hwhole), blockWalk, hneed, hbits, hrest, hused]

/-! ### The encoder -/

/-- A byte of a string that 32-bit counts can tell has a count (R87). -/
theorem entryAt_countFreq_ne_zero {b : ByteString} (hb : b.length ≤ 2 ^ 32 - 1) {v : Byte} :
    entryAt (countFreq b) v ≠ 0#32 ↔ v ∈ b := by
  have hcount : (entryAt (countFreq b) v).toNat = b.count v := countFreqCounts b v hb
  have hzero : entryAt (countFreq b) v = 0#32 ↔ b.count v = 0 := by
    rw [← hcount, ← BitVec.toNat_inj, BitVec.toNat_ofNat, Nat.zero_mod]
  rw [ne_eq, hzero, List.count_eq_zero, not_not]

theorem present_countFreq_eq_nil {b : ByteString} (hb : b.length ≤ 2 ^ 32 - 1) :
    present (countFreq b) = [] ↔ b = [] := by
  simp only [List.eq_nil_iff_forall_not_mem, mem_present, entryAt_countFreq_ne_zero hb]

theorem length_codeStream_le {t : CodeTable} {n : Nat} (h : ∀ v, (entryAt t v).length ≤ n) (b : ByteString) :
    (codeStream t b).length ≤ n * b.length := by
  rw [codeStream, List.length_flatMap, Nat.mul_comm]
  simpa using List.sum_le_card_nsmul (b.map fun v => (entryAt t v).length) n (by simpa using fun v _ => h v)

/-- The bit count of a block fits its 8 bytes: no code is longer than 255 bits (R101, R112). -/
theorem length_encodedBits_lt (p : TiePolicy) {b : ByteString} (hb : b.length ≤ 2 ^ 32 - 1) :
    (encodedBits p b).length < 2 ^ 64 := by
  obtain ⟨-, -, -, hcode, -⟩ := codeTableProperties p (countFreq b)
  have hbits : (encodedBits p b).length ≤ 255 * b.length := length_codeStream_le hcode b
  omega

/-- Walking the tree of a string's counts over the packed bits of its block emits the string (R108, R114). -/
theorem walk_encodedBits (p : TiePolicy) {b : ByteString} {cap : Nat} (hb : b.length ≤ 2 ^ 32 - 1)
    (hcap : b.length ≤ cap) :
    walk cap (buildTree p (countFreq b)).1 (pack (encodedBits p b)) (encodedBits p b).length = .ok b := by
  have hwalk : walk cap (buildTree p (countFreq b)).1 (pack (encodedBits p b) ++ []) (encodedBits p b).length =
      .ok b :=
    symbolStreamRoundTrip p (countFreq b) b [] cap (fun v hv => (entryAt_countFreq_ne_zero hb).2 hv) hcap
  rwa [List.append_nil] at hwalk

/-- The block of the empty string begins with the 4 bytes of the empty table, where its decoding ends (R113,
log 21). -/
theorem decodeBlock_encodeBlock_nil (p : TiePolicy) (cap : Nat) (t : ByteString) :
    decodeBlock p cap (encodeBlock p [] ++ t) =
      .ok { table := countFreq [], bits := 0, out := [], used := 4 } := by
  obtain ⟨hparse, -, -⟩ := freqTableRoundTrip
  have hnone : present (countFreq []) = [] := (present_countFreq_eq_nil (by decide)).2 rfl
  refine decodeBlock_of_empty_table ?_ hnone
  rw [encodeBlock, List.append_assoc, List.append_assoc, hparse, hnone]
  rfl

theorem decodeBlock_encodeBlock_of_ne_nil (p : TiePolicy) {b : ByteString} {cap : Nat} (hne : b ≠ [])
    (hb : b.length ≤ 2 ^ 32 - 1) (hcap : b.length ≤ cap) (t : ByteString) :
    decodeBlock p cap (encodeBlock p b ++ t) = .ok
      { table := countFreq b, bits := (encodedBits p b).length, out := b, used := (encodeBlock p b).length } := by
  have hsome : present (countFreq b) ≠ [] := mt (present_countFreq_eq_nil hb).1 hne
  rw [encodeBlock, decodeBlock_parts p cap hsome (length_encodedBits_lt p hb) (length_pack _),
    walk_encodedBits p hb hcap, checked_bind_ok]

/-- Settles O35: the parser gives back the table and its length, and the walk over the bits that follow emits
the string. -/
theorem blockRoundTrip : Obligations.BlockRoundTrip := by
  intro p b t cap hb hcap
  by_cases hne : b = []
  · subst hne
    exact ⟨_, decodeBlock_encodeBlock_nil p cap t, rfl, rfl, rfl, rfl⟩
  · exact ⟨_, decodeBlock_encodeBlock_of_ne_nil p hne hb hcap t, rfl, rfl, rfl, (if_neg hne).symm⟩

end Sys2Proof.Machine
end

section
/-! PROOFS. The commands HUF_ENCODE and HUF_DECODE (43_codec.md R113, R115, R116; 60_exceptions.md R151): O33 and
O34. -/

namespace Sys2Proof.Machine

variable {s : State}

/-! ### HUF_ENCODE -/

theorem exec_hufEncode (s : State) : exec .hufEncode s = execHufEncode s := rfl

/-- What EncodeBlock leaves, register by register (R112). -/
theorem afterEncode_eq (s : State) (b : ByteString) : s.afterEncode b = { s with
    freq := countFreq b
    tree := (buildTree s.params.tiePolicy (countFreq b)).1
    nodeCount := BitVec.ofNat 32 (buildTree s.params.tiePolicy (countFreq b)).2
    treeValid := true
    codes := codesOf s.params.tiePolicy (countFreq b)
    codesValid := true
    bitcountLo := BitVec.ofNat 32 (encodedBits s.params.tiePolicy b).length
    bitcountHi := BitVec.ofNat 32 ((encodedBits s.params.tiePolicy b).length / 2 ^ 32) } := rfl

/-- HUF_ENCODE past its operand checks (R115). -/
theorem execHufEncode_of_good (hgood : SrcDstGood s) :
    execHufEncode s = s.conclude (emit s.dstCap.toNat (encodeBlock s.params.tiePolicy s.srcBytes) >>= fun out =>
      .ok (((s.afterEncode s.srcBytes).writeDst out).results out.length s.srcLen.toNat)) := by
  rw [execHufEncode, conclude_checkSrcDst_of_good hgood]

/-- Settles O33: the block fits DST_CAP or leaves the DST window open. -/
theorem hufEncodeResult : Obligations.HufEncodeResult := by
  refine fun s => afterOperandChecks_of (fun f hf => conclude_checkSrcDst_of_error hf) fun hgood => ?_
  intro src f tree bits blk
  have hblk : encodeBlock s.params.tiePolicy s.srcBytes = blk := rfl
  refine ⟨fun hfits => ?_, fun hfull => ?_⟩
  · refine ⟨s.buf.writeBytes s.dstAddr.toNat blk, ?_, storesAt_writeBytes _ _ _⟩
    rw [exec_hufEncode, execHufEncode_of_good hgood, hblk, emit_of_le hfits, checked_bind_ok, conclude_ok,
      results_toNat, succeed_eq_doneOk, afterEncode_eq]
    rfl
  · refine ⟨s.buf.release s.dstAddr.toNat s.dstCap.toNat s.stepTag, ?_, sameOutside_release _ _ _ _⟩
    rw [exec_hufEncode, execHufEncode_of_good hgood, hblk, emit_of_lt hfull, checked_bind_error, conclude_error,
      fail_emitted]

/-! ### HUF_DECODE -/

theorem exec_hufDecode (s : State) : exec .hufDecode s = execHufDecode s := rfl

/-- HUF_DECODE past its operand checks (R116). -/
theorem execHufDecode_of_good (hgood : SrcDstGood s) :
    execHufDecode s = s.conclude (decodeBlock s.params.tiePolicy s.dstCap.toNat s.srcBytes >>= fun d =>
      .ok (((s.afterDecode d).writeDst d.out).results d.out.length d.used)) := by
  rw [execHufDecode, conclude_checkSrcDst_of_good hgood]

/-- The failures of the block decoder, which never touch ARC (R113, R151). -/
abbrev BlockFailure (e : Failure) : Prop :=
  (e.code = .format ∨ e.code = .corrupt ∨ e.code = .dstFull) ∧ e.arcFrom = none

theorem meets_decodeBlock_failure (p : TiePolicy) (cap : Nat) (b : ByteString) :
    Meets (decodeBlock p cap b) (fun _ => True) BlockFailure := by
  have hformat : Meets (.error { code := .format } : Checked Decoded) (fun _ => True) BlockFailure :=
    meets_error ⟨.inl rfl, rfl⟩
  cases hparse : freqParse b with
  | error e => exact decodeBlock_of_parse_error hparse ▸ hformat
  | ok fc =>
    obtain ⟨f, c⟩ := fc
    by_cases hf : present f = []
    · rw [decodeBlock_of_empty_table hparse hf]
      exact meets_ok trivial
    · by_cases hwhole : c + 8 + blockPacked b c ≤ b.length
      · have hwalk : Meets (blockWalk p cap b f c) (fun _ => True) BlockFailure :=
          ⟨fun _ _ => trivial, fun e he => (walkFailure_of_walk he).imp_left .inr⟩
        rw [decodeBlock_of_whole hparse hf hwhole]
        exact hwalk.bind fun _ _ => meets_ok trivial
      · rw [decodeBlock_of_cut_short hparse hf (.inr (Nat.lt_of_not_le hwhole))]
        exact hformat

/-- Settles O34: the decoder part by part, and the command stores what it gives. -/
theorem hufDecodeResult : Obligations.HufDecodeResult := by
  refine ⟨fun p cap b => ⟨fun e he => decodeBlock_of_parse_error he, fun f c hparse => ?_⟩, fun s => ?_⟩
  · intro m nb
    split_ifs with hf hcut
    · exact decodeBlock_of_empty_table hparse hf
    · exact decodeBlock_of_cut_short hparse hf hcut
    · have hwhole : c + 8 + nb ≤ b.length := by omega
      have hblock : decodeBlock p cap b = (walk cap (buildTree p f).1 ((b.drop (c + 8)).take nb) m >>= fun out =>
          .ok { table := f, bits := m, out := out, used := c + 8 + nb }) :=
        decodeBlock_of_whole hparse hf hwhole
      refine ⟨fun out hout => ?_, fun e he => ?_⟩
      · rw [hblock, hout, checked_bind_ok]
      · rw [hblock, he, checked_bind_error]
  · refine afterOperandChecks_of (fun f hf => conclude_checkSrcDst_of_error hf) fun hgood => ?_
    intro r
    have hr : decodeBlock s.params.tiePolicy s.dstCap.toNat s.srcBytes = r := rfl
    refine ⟨fun d hd => ?_, fun e he => ?_⟩
    · refine ⟨s.buf.writeBytes s.dstAddr.toNat d.out, ?_, storesAt_writeBytes _ _ _⟩
      rw [exec_hufDecode, execHufDecode_of_good hgood, hr, hd, checked_bind_ok, conclude_ok, succeed_eq_doneOk]
      rfl
    · obtain ⟨hcode, harc⟩ := (meets_decodeBlock_failure _ _ _).failure e he
      obtain ⟨m, hfail, hkept, houtside⟩ := exists_fail_eq_doneErr (s := s) harc
      refine ⟨m, ?_, hcode, hkept, houtside⟩
      rw [exec_hufDecode, execHufDecode_of_good hgood, hr, he, checked_bind_error, conclude_error, hfail]

end Sys2Proof.Machine
end

section
/-! PROOFS. Stream frames and the commands FRAME and UNFRAME (44_framing.md R117 to R122): O36 to O39. CheckFrame
takes the byte strings with the form of a frame and refuses all others with one error, so that each statement
about it turns on that form. -/

namespace Sys2Proof.Machine

/-! ### Frames -/

/-- The form that CheckFrame asks of a byte string: room for two sentinels, whole groups of 8 bytes, and the
sentinels in their places (R118). -/
abbrev FrameForm (p : Params) (f : ByteString) : Prop :=
  16 ≤ f.length ∧ f.length % 8 = 0 ∧ fromLe (f.take 8) = p.streamHead.toNat ∧
    fromLe (f.drop (f.length - 8)) = p.streamTail.toNat

theorem require_then {α : Type} (b : Bool) (c : ErrCode) (r : Checked α) :
    (require b c >>= fun _ => r) = if b = true then r else .error { code := c } := by
  cases b <;> rfl

/-- What CheckFrame does with any byte string (R118). -/
theorem checkFrame_eq (p : Params) (f : ByteString) : checkFrame p f =
    if FrameForm p f then .ok ((f.drop 8).take (f.length - 16)) else .error { code := .format } := by
  have hhead : slice f 0 8 = f.take 8 := rfl
  have htail : slice f (f.length - 8) f.length = f.drop (f.length - 8) :=
    List.take_of_length_le (by rw [List.length_drop])
  have hbody : slice f 8 (f.length - 8) = (f.drop 8).take (f.length - 16) := by
    rw [slice, Nat.sub_sub]
  rw [checkFrame, hhead, htail, hbody]
  simp only [require_then, decide_eq_true_eq, beq_iff_eq, ite_and]

theorem checkFrame_of_form {p : Params} {f : ByteString} (h : FrameForm p f) :
    checkFrame p f = .ok ((f.drop 8).take (f.length - 16)) := by
  rw [checkFrame_eq, if_pos h]

theorem checkFrame_of_not_form {p : Params} {f : ByteString} (h : ¬ FrameForm p f) :
    checkFrame p f = .error { code := .format } := by
  rw [checkFrame_eq, if_neg h]

theorem form_of_checkFrame {p : Params} {f pl : ByteString} (h : checkFrame p f = .ok pl) : FrameForm p f := by
  by_contra hform
  rw [checkFrame_of_not_form hform] at h
  cases h

theorem length_frameOf (p : Params) (b : ByteString) :
    (frameOf p b).length = 16 + b.length + padLen b.length := by
  simp only [frameOf, List.length_append, length_le, length_zeros]
  omega

theorem take_frameOf (p : Params) (b : ByteString) : (frameOf p b).take 8 = le 8 p.streamHead.toNat := by
  rw [frameOf, List.append_assoc, List.append_assoc, List.take_left' (length_le 8 _)]

theorem drop_frameOf (p : Params) (b : ByteString) :
    (frameOf p b).drop ((frameOf p b).length - 8) = le 8 p.streamTail.toNat :=
  List.drop_left' (by rw [length_frameOf]; simp only [List.length_append, length_le, length_zeros]; omega)

theorem frameOf_form (p : Params) (b : ByteString) : FrameForm p (frameOf p b) := by
  refine ⟨by rw [length_frameOf]; omega, length_frameOf_mod p b, ?_, ?_⟩
  · rw [take_frameOf, fromLe_le p.streamHead.isLt]
  · rw [drop_frameOf, fromLe_le p.streamTail.isLt]

/-- Between the sentinels of a frame stand the block and its padding (R117). -/
theorem body_frameOf (p : Params) (b : ByteString) :
    ((frameOf p b).drop 8).take ((frameOf p b).length - 16) = b ++ zeros (padLen b.length) := by
  have hlen : (frameOf p b).length - 16 = (b ++ zeros (padLen b.length)).length := by
    rw [length_frameOf, List.length_append, length_zeros]
    omega
  rw [hlen, frameOf, List.append_assoc (le 8 _), List.append_assoc (le 8 _), List.drop_left' (length_le 8 _),
    List.take_left]

/-- Settles O38: a frame has the form of one, and its body is the block and its padding. -/
theorem frameRoundTrip : Obligations.FrameRoundTrip := fun p b =>
  ⟨(checkFrame_of_form (frameOf_form p b)).trans (congrArg Except.ok (body_frameOf p b)),
    length_frameOf p b, length_frameOf_mod p b⟩

/-! ### Sentinels -/

section
variable {p : Params} {f g : ByteString}

/-- The head sentinel fixes the first 8 bytes of a frame (R120). -/
theorem FrameForm.head_eq (hf : FrameForm p f) (hg : FrameForm p g) : f.take 8 = g.take 8 := by
  obtain ⟨hflen, -, hfhead, -⟩ := hf
  obtain ⟨hglen, -, hghead, -⟩ := hg
  refine fromLe_inj ?_ (hfhead.trans hghead.symm)
  rw [List.length_take, List.length_take]
  omega

/-- The tail sentinel fixes the last 8 bytes of a frame (R120). -/
theorem FrameForm.tail_eq (hf : FrameForm p f) (hg : FrameForm p g) :
    f.drop (f.length - 8) = g.drop (g.length - 8) := by
  obtain ⟨hflen, -, -, hftail⟩ := hf
  obtain ⟨hglen, -, -, hgtail⟩ := hg
  refine fromLe_inj ?_ (hftail.trans hgtail.symm)
  rw [List.length_drop, List.length_drop]
  omega

/-- Frames of one length agree on every byte of the sentinels (R120). -/
theorem FrameForm.getElem?_eq (hf : FrameForm p f) (hg : FrameForm p g) (hlen : f.length = g.length) {i : Nat}
    (hi : i < 8 ∨ f.length - 8 ≤ i) : f[i]? = g[i]? := by
  obtain hi | hi := hi
  · rw [← List.getElem?_take_of_lt hi, hf.head_eq hg, List.getElem?_take_of_lt hi]
  · have hdrop : f.drop (f.length - 8) = g.drop (f.length - 8) := by rw [hf.tail_eq hg, hlen]
    rw [← Nat.add_sub_cancel' hi, ← List.getElem?_drop, hdrop, List.getElem?_drop]

end

/-- Settles O39: were the changed byte string still a frame, its sentinels would be those of the frame. -/
theorem sentinelChangeDetected : Obligations.SentinelChangeDetected := by
  intro p f pl i v hok hi hne
  have hf : FrameForm p f := form_of_checkFrame hok
  refine checkFrame_of_not_form fun hset => hne ?_
  have h16 : 16 ≤ f.length := hf.1
  have hlt : i < f.length := by omega
  rw [hf.getElem?_eq hset List.length_set.symm (hi.imp_right And.left), List.getElem?_set_self hlt]

/-! ### FRAME -/

variable {s : State}

theorem exec_frame (s : State) : exec .frame s = execFrame s := rfl

/-- FRAME past its operand checks (R121). -/
theorem execFrame_of_good (hgood : SrcDstGood s) :
    execFrame s = s.conclude (emit s.dstCap.toNat (frameOf s.params s.srcBytes) >>= fun out =>
      .ok ((s.writeDst out).results out.length s.srcLen.toNat)) := by
  rw [execFrame, conclude_checkSrcDst_of_good hgood]

/-- Settles O36: the frame fits DST_CAP or leaves the DST window open. -/
theorem frameResult : Obligations.FrameResult := by
  refine fun s => afterOperandChecks_of (fun f hf => conclude_checkSrcDst_of_error hf) fun hgood => ?_
  intro src pad f
  have hframe : frameOf s.params s.srcBytes = f := rfl
  have hsrc : src.length = s.srcLen.toNat := length_readBytes _ _ _
  have hlen : f.length = 16 + s.srcLen.toNat + pad := hsrc ▸ length_frameOf s.params src
  refine ⟨fun hfits => ?_, fun hfull => ?_⟩
  · refine ⟨s.buf.writeBytes s.dstAddr.toNat f, ?_, storesAt_writeBytes _ _ _⟩
    rw [exec_frame, execFrame_of_good hgood, hframe, emit_of_le hfits, checked_bind_ok, hlen, conclude_ok,
      results_toNat, succeed_eq_doneOk]
    rfl
  · refine ⟨s.buf.release s.dstAddr.toNat s.dstCap.toNat s.stepTag, ?_, sameOutside_release _ _ _ _⟩
    rw [exec_frame, execFrame_of_good hgood, hframe, emit_of_lt hfull, checked_bind_error, conclude_error,
      fail_emitted]

/-! ### UNFRAME -/

theorem exec_unframe (s : State) : exec .unframe s = execUnframe s := rfl

/-- UNFRAME past its operand checks (R122). -/
theorem execUnframe_of_good (hgood : SrcDstGood s) :
    execUnframe s = s.conclude (checkFrame s.params s.srcBytes >>= fun pl =>
      emit s.dstCap.toNat pl >>= fun out =>
        .ok ((s.writeDst out).results out.length s.srcLen.toNat)) := by
  rw [execUnframe, conclude_checkSrcDst_of_good hgood]

/-- UNFRAME past all its checks (R122). -/
theorem execUnframe_of_form (hgood : SrcDstGood s) (hform : FrameForm s.params s.srcBytes) :
    execUnframe s = s.conclude
      (emit s.dstCap.toNat ((s.srcBytes.drop 8).take (s.srcBytes.length - 16)) >>= fun out =>
        .ok ((s.writeDst out).results out.length s.srcLen.toNat)) := by
  rw [execUnframe_of_good hgood, checkFrame_of_form hform, checked_bind_ok]

/-- Settles O37: the source has the form of a frame or not, and then its body fits DST_CAP or leaves the DST
window open. -/
theorem unframeResult : Obligations.UnframeResult := by
  refine fun s => afterOperandChecks_of (fun f hf => conclude_checkSrcDst_of_error hf) fun hgood => ?_
  intro src n good pl
  have hn : s.srcBytes.length = n := length_readBytes _ _ _
  have hform : FrameForm s.params s.srcBytes ↔ good := by rw [FrameForm, hn]; rfl
  have hpl : (s.srcBytes.drop 8).take (s.srcBytes.length - 16) = pl := by rw [hn]; rfl
  have hlen : pl.length = n - 16 := by
    rw [← hpl, List.length_take, List.length_drop, hn]
    omega
  refine ⟨fun hbad => ?_, fun hframe hfits => ?_, fun hframe hfull => ?_⟩
  · rw [exec_unframe, execUnframe_of_good hgood, checkFrame_of_not_form (mt hform.1 hbad), checked_bind_error,
      conclude_error, fail_plain]
  · refine ⟨s.buf.writeBytes s.dstAddr.toNat pl, ?_, storesAt_writeBytes _ _ _⟩
    rw [exec_unframe, execUnframe_of_form hgood (hform.2 hframe), hpl, emit_of_le (hlen.trans_le hfits),
      checked_bind_ok, hlen, conclude_ok, results_toNat, succeed_eq_doneOk]
    rfl
  · refine ⟨s.buf.release s.dstAddr.toNat s.dstCap.toNat s.stepTag, ?_, sameOutside_release _ _ _ _⟩
    rw [exec_unframe, execUnframe_of_form hgood (hform.2 hframe), hpl, emit_of_lt (hlen.symm ▸ hfull),
      checked_bind_error, conclude_error, fail_emitted]

end Sys2Proof.Machine
end

section
/-! PROOFS. The entry list of an archive file (45_archive.md R125, R126, R137). One round of the parser is one look at
`entryError`, which sees the entries before only up to their order; so the parser reads accepted entries in the
order of the file while it keeps them in path order. -/

namespace Sys2Proof.Machine

/-! ### The first entry of a byte string -/

/-- The declared length of the first path (R125). -/
def pathLen (b : ByteString) : Nat := fromLe (b.take 4)

/-- The entry that a byte string begins with (R125). -/
def firstEntry (b : ByteString) : Entry where
  path := (b.drop 4).take (pathLen b)
  offset := BitVec.ofNat 32 (fromLe ((b.drop (4 + pathLen b)).take 8))
  size := BitVec.ofNat 32 (fromLe ((b.drop (12 + pathLen b)).take 8))

/-- A computation that goes on unless there is an error to raise. -/
def unlessError {α : Type} (r : Checked α) : Option ErrCode → Checked α
  | some c => .error { code := c }
  | none => r

@[simp] theorem unlessError_some {α : Type} (r : Checked α) (c : ErrCode) :
    unlessError r (some c) = .error { code := c } := rfl

@[simp] theorem unlessError_none {α : Type} (r : Checked α) : unlessError r none = r := rfl

theorem unlessError_ite {α : Type} (r : Checked α) (P : Prop) [Decidable P] (o o' : Option ErrCode) :
    unlessError r (if P then o else o') = if P then unlessError r o else unlessError r o' := by
  split <;> rfl

@[simp] theorem parseEntries_nil (p : Params) (n : Nat) (l : List Entry) : parseEntries p n [] l = .ok l := by
  cases n <;> rfl

@[simp] theorem entryError_nil (p : Params) (l : List Entry) : entryError p l [] = none := by
  rw [entryError, if_pos rfl]

theorem findEntry_isNone_iff_not_exists {n : ByteString} {l : List Entry} :
    (findEntry n l).isNone = true ↔ ¬ ∃ e ∈ l, e.path = n := by
  rw [findEntry_isNone, not_exists]
  simp

/-- One round of the entry loop (R137): the first check that fails, or the entry and the bytes after it. -/
theorem parseEntries_of_ne_nil (p : Params) (n : Nat) {b : ByteString} (hb : b ≠ []) (l : List Entry) :
    parseEntries p (n + 1) b l =
      unlessError (parseEntries p n (b.drop (20 + pathLen b)) (insertEntry (firstEntry b) l))
        (entryError p l b) := by
  have hpath : slice b 4 (4 + pathLen b) = (b.drop 4).take (pathLen b) := slice_add b 4 _
  have hoff : slice b (4 + pathLen b) (12 + pathLen b) = (b.drop (4 + pathLen b)).take 8 := by
    rw [show 12 + pathLen b = 4 + pathLen b + 8 by omega, slice_add]
  have hsize : slice b (12 + pathLen b) (20 + pathLen b) = (b.drop (12 + pathLen b)).take 8 := by
    rw [show 20 + pathLen b = 12 + pathLen b + 8 by omega, slice_add]
  have hlen : slice b 0 4 = b.take 4 := rfl
  cases b with
  | nil => exact absurd rfl hb
  | cons x b =>
    simp only [pathLen] at hpath hoff hsize
    simp only [parseEntries, entryError, firstEntry, pathLen, hlen, hpath, hoff, hsize, require_then,
      findEntry_isNone_iff_not_exists, if_neg hb, unlessError_ite, Bool.and_eq_true, bne_iff_ne, ne_eq,
      decide_eq_true_eq, ite_and, ← Nat.not_le, ite_not, unlessError_some, unlessError_none]

/-! ### The entry list -/

@[simp] theorem length_entryBytes (e : Entry) : (entryBytes e).length = 20 + e.path.length := by
  simp only [entryBytes, List.length_append, length_le]
  omega

@[simp] theorem entryList_cons (e : Entry) (l : List Entry) : entryList (e :: l) = entryBytes e ++ entryList l := rfl

theorem length_entryList (l : List Entry) : (entryList l).length = 20 * l.length + nameTotal l := by
  induction l with
  | nil => rfl
  | cons e l ih =>
    simp only [entryList_cons, List.length_append, length_entryBytes, ih, nameTotal, List.map_cons, List.sum_cons,
      List.length_cons]
    omega

/-- The fields of a serialised entry, each where the parser looks for it (R125). -/
theorem entryBytes_fields (e : Entry) (t : ByteString) :
    ((entryBytes e ++ t).drop 4).take e.path.length = e.path ∧
    fromLe (((entryBytes e ++ t).drop (4 + e.path.length)).take 8) = e.offset.toNat ∧
    fromLe (((entryBytes e ++ t).drop (12 + e.path.length)).take 8) = e.size.toNat := by
  have hlen : (le 4 e.path.length ++ e.path).length = 4 + e.path.length := by rw [List.length_append, length_le]
  have hall : entryBytes e ++ t =
      le 4 e.path.length ++ e.path ++ (le 8 e.offset.toNat ++ (le 8 e.size.toNat ++ t)) := by
    rw [entryBytes, List.append_assoc, List.append_assoc]
  rw [hall]
  refine ⟨?_, ?_, ?_⟩
  · rw [List.append_assoc, List.drop_left' (length_le 4 _), List.take_left]
  · rw [List.drop_left' hlen, List.take_left' (length_le 8 _), fromLe_le (by have := e.offset.isLt; omega)]
  · rw [← List.append_assoc, List.drop_left' (by rw [List.length_append, hlen, length_le]; omega),
      List.take_left' (length_le 8 _), fromLe_le (by have := e.size.isLt; omega)]

section
variable {e : Entry} (he : e.path.length < 2 ^ 32) (t : ByteString)
include he

theorem pathLen_entryBytes_append : pathLen (entryBytes e ++ t) = e.path.length := by
  simp only [pathLen, entryBytes, List.append_assoc]
  rw [List.take_left' (length_le 4 _), fromLe_le he]

theorem drop_entryBytes_append : (entryBytes e ++ t).drop (20 + pathLen (entryBytes e ++ t)) = t := by
  rw [pathLen_entryBytes_append he, List.drop_left' (length_entryBytes e)]

theorem firstEntry_entryBytes_append : firstEntry (entryBytes e ++ t) = e := by
  obtain ⟨hpath, hoff, hsize⟩ := entryBytes_fields e t
  rw [firstEntry, pathLen_entryBytes_append he, hpath, hoff, hsize]
  simp

end

/-! ### The entries the parser has read -/

/-- The path index after some entries have been put into it, in the order of the file (R137). -/
def loadEntries (acc l : List Entry) : List Entry := l.foldl (fun acc e => insertEntry e acc) acc

@[simp] theorem loadEntries_nil (acc : List Entry) : loadEntries acc [] = acc := rfl

theorem loadEntries_cons (acc : List Entry) (e : Entry) (l : List Entry) :
    loadEntries acc (e :: l) = loadEntries (insertEntry e acc) l := rfl

/-- No two entries share a path. -/
abbrev DistinctPaths (l : List Entry) : Prop := (l.map Entry.path).Nodup

theorem DistinctPaths.ne {l m : List Entry} {e : Entry} (h : DistinctPaths (l ++ e :: m)) :
    ∀ x ∈ l, x.path ≠ e.path := by
  rw [DistinctPaths, List.map_append, List.nodup_append] at h
  exact fun x hx => h.2.2 _ (List.mem_map_of_mem hx) _ (by simp)

theorem insertEntry_perm_append {acc l0 l : List Entry} {e : Entry} (hacc : acc.Perm l0)
    (h : DistinctPaths (l0 ++ e :: l)) : (insertEntry e acc).Perm (l0 ++ [e]) :=
  (insertEntry_perm e fun x hx => h.ne x (hacc.mem_iff.1 hx)).trans
    ((hacc.cons e).trans (List.perm_append_singleton e l0).symm)

theorem loadEntries_perm {acc l0 l : List Entry} (hacc : acc.Perm l0) (h : DistinctPaths (l0 ++ l)) :
    (loadEntries acc l).Perm (l0 ++ l) := by
  induction l generalizing acc l0 with
  | nil => simpa using hacc
  | cons e l ih =>
    have hperm := insertEntry_perm_append hacc h
    rw [List.append_cons] at h ⊢
    exact ih hperm h

theorem loadEntries_ascending {acc l0 l : List Entry} (hacc : acc.Perm l0) (h : DistinctPaths (l0 ++ l))
    (hasc : acc.Pairwise fun a b => pathBefore a.path b.path = true) :
    (loadEntries acc l).Pairwise fun a b => pathBefore a.path b.path = true := by
  induction l generalizing acc l0 with
  | nil => exact hasc
  | cons e l ih =>
    have hnew : ∀ x ∈ acc, x.path ≠ e.path := fun x hx => h.ne x (hacc.mem_iff.1 hx)
    refine ih (insertEntry_perm_append hacc h) ?_ (insertEntry_ascending e hnew hasc)
    rwa [← List.append_cons]

theorem pathBefore_irrefl (a : ByteString) : pathBefore a a = false := by
  rw [Bool.eq_false_iff, ne_eq, pathBefore_iff]
  exact lt_irrefl _

/-- An index in path order has no path twice. -/
theorem distinctPaths_of_ascending {l : List Entry}
    (h : l.Pairwise fun a b => pathBefore a.path b.path = true) : DistinctPaths l := by
  rw [DistinctPaths, List.Nodup, List.pairwise_map]
  refine h.imp fun {a b} hab heq => ?_
  rw [heq, pathBefore_irrefl] at hab
  cases hab

/-- Entries read in path order are the index (R127). -/
theorem loadEntries_of_ascending {l : List Entry}
    (h : l.Pairwise fun a b => pathBefore a.path b.path = true) : loadEntries [] l = l := by
  have hd : DistinctPaths ([] ++ l) := distinctPaths_of_ascending h
  refine List.Perm.eq_of_pairwise (fun a b _ _ hab hba => ?_)
    (loadEntries_ascending (List.Perm.refl _) hd List.Pairwise.nil) h (loadEntries_perm (List.Perm.refl _) hd)
  have haa := pathBefore_trans hab hba
  rw [pathBefore_irrefl] at haa
  cases haa

/-! ### The parser on a list of entries -/

theorem nameTotal_perm {l m : List Entry} (h : l.Perm m) : nameTotal l = nameTotal m :=
  (h.map fun e : Entry => e.path.length).sum_eq

theorem nameTotal_append (l m : List Entry) : nameTotal (l ++ m) = nameTotal l + nameTotal m := by
  simp [nameTotal]

@[simp] theorem nameTotal_cons (e : Entry) (l : List Entry) : nameTotal (e :: l) = e.path.length + nameTotal l := by
  simp [nameTotal]

/-- The order of the entries before does not matter to the checks on the next one. -/
theorem entryError_perm (p : Params) {l m : List Entry} (h : l.Perm m) (b : ByteString) :
    entryError p l b = entryError p m b := by
  simp only [entryError, h.mem_iff, h.length_eq, nameTotal_perm h]

/-- An entry that is accepted after those before it passes every check (R137). -/
theorem entryError_entryBytes_append {p : Params} {l m : List Entry} {e : Entry}
    (h : EntriesAccepted p (l ++ e :: m)) (he : e.path.length < 2 ^ 32) (t : ByteString) :
    entryError p l (entryBytes e ++ t) = none := by
  obtain ⟨hdistinct, hlens, hcount, hnames⟩ := h
  obtain ⟨hpath, hoff, hsize⟩ := entryBytes_fields e t
  have hlen : fromLe ((entryBytes e ++ t).take 4) = e.path.length := pathLen_entryBytes_append he t
  have htotal : (entryBytes e ++ t).length = 20 + e.path.length + t.length := by
    rw [List.length_append, length_entryBytes]
  have hne : entryBytes e ++ t ≠ [] := List.ne_nil_of_length_pos (by omega)
  obtain ⟨hpos, hmax⟩ := hlens e (by simp)
  have hnew : ¬ ∃ x ∈ l, x.path = e.path := fun ⟨x, hx, heq⟩ => DistinctPaths.ne hdistinct x hx heq
  have ho := e.offset.isLt
  have hz := e.size.isLt
  rw [List.length_append, List.length_cons] at hcount
  rw [nameTotal_append, nameTotal_cons] at hnames
  simp only [entryError, hlen, hpath, hoff, hsize, htotal]
  rw [if_neg hne, if_neg (by omega), if_neg (by omega), if_neg (by omega), if_neg (by omega), if_neg hnew,
    if_neg (by omega), if_neg (by omega), if_neg (by omega), if_neg (by omega)]

/-- The parser reads accepted entries one by one and goes on with the bytes after them (R137). -/
theorem parseEntries_entryList_append {p : Params} {n : Nat} {acc l0 l : List Entry} {rest : ByteString}
    (hacc : acc.Perm l0) (h : EntriesAccepted p (l0 ++ l)) (hlt : ∀ e ∈ l, e.path.length < 2 ^ 32)
    (hn : (entryList l ++ rest).length ≤ n) :
    ∃ k, rest.length ≤ k ∧
      parseEntries p n (entryList l ++ rest) acc = parseEntries p k rest (loadEntries acc l) := by
  induction l generalizing n acc l0 with
  | nil => exact ⟨n, hn, rfl⟩
  | cons e l ih =>
    obtain ⟨he, hlt⟩ := List.forall_mem_cons.1 hlt
    rw [entryList_cons, List.append_assoc, List.length_append, length_entryBytes] at hn
    obtain ⟨n, rfl⟩ : ∃ k, n = k + 1 := ⟨n - 1, by omega⟩
    have hperm := insertEntry_perm_append hacc h.1
    obtain ⟨k, hk, hrest⟩ := ih hperm (List.append_cons .. ▸ h) hlt (n := n) (by omega)
    refine ⟨k, hk, ?_⟩
    have hne : entryBytes e ++ (entryList l ++ rest) ≠ [] :=
      List.ne_nil_of_length_pos (by rw [List.length_append, length_entryBytes]; omega)
    rw [entryList_cons, List.append_assoc, parseEntries_of_ne_nil p n hne, entryError_perm p hacc,
      entryError_entryBytes_append h he, unlessError_none, drop_entryBytes_append he,
      firstEntry_entryBytes_append he, hrest, loadEntries_cons]

section
variable {p : Params} {n : Nat} {l : List Entry} {rest : ByteString} (h : EntriesAccepted p l)
  (hlt : ∀ e ∈ l, e.path.length < 2 ^ 32) (hn : (entryList l ++ rest).length ≤ n)
include h hlt hn

/-- The parse ends with the first entry that is refused (R137). -/
theorem parseEntries_of_entryError {c : ErrCode} (hc : entryError p l rest = some c) :
    parseEntries p n (entryList l ++ rest) [] = .error { code := c } := by
  obtain ⟨k, hk, hparse⟩ := parseEntries_entryList_append (List.Perm.refl []) h hlt hn
  have hne : rest ≠ [] := by
    rintro rfl
    rw [entryError_nil] at hc
    cases hc
  have hpos := List.length_pos_iff.2 hne
  obtain ⟨k, rfl⟩ : ∃ j, k = j + 1 := ⟨k - 1, by omega⟩
  rw [hparse, parseEntries_of_ne_nil p k hne,
    entryError_perm p (loadEntries_perm (List.Perm.refl []) h.1), List.nil_append, hc, unlessError_some]

theorem parseEntries_of_accepted (hrest : rest = []) :
    parseEntries p n (entryList l ++ rest) [] = .ok (loadEntries [] l) := by
  obtain ⟨k, -, hparse⟩ := parseEntries_entryList_append (List.Perm.refl []) h hlt hn
  rw [hparse, hrest, parseEntries_nil]

end

/-- An entry list that fits 32 bits holds paths that do. -/
theorem path_length_lt_of_entryList {l : List Entry} {n : Nat} (h : (entryList l).length < n) :
    ∀ e ∈ l, e.path.length < n := by
  intro e he
  have hle : e.path.length ≤ nameTotal l := List.single_le_sum (by simp) _ (List.mem_map_of_mem he)
  rw [length_entryList] at h
  omega

end Sys2Proof.Machine
end

section
/-! PROOFS. AR_OPEN_R (45_archive.md R137): O43, O44 and O42. The checks on the file are one chain, and what follows
the chain is the parse of the entry list. -/

namespace Sys2Proof.Machine

variable {s : State}

/-! ### The checks on the file -/

/-- INDEX_OFF as the header of the file gives it (R124). -/
def State.fileIndexOff (s : State) : Nat := fromLe (s.arc.readBytes 0 8)

/-- The declared length of the entry list (R126). -/
def State.fileListLen (s : State) : Nat := fromLe (s.arc.readBytes (s.fileIndexOff + 8) 4)

/-- The version the file records (R126). -/
def State.fileVersion (s : State) : Word := BitVec.ofNat 32 (fromLe (s.arc.readBytes (s.fileIndexOff + 12) 4))

/-- The bytes of the entry list (R126). -/
def State.fileList (s : State) : ByteString := s.arc.readBytes (s.fileIndexOff + 16) s.fileListLen

/-- The first check of R137 that the file fails, before its entries are looked at. -/
def State.fileError (s : State) : Option ErrCode :=
  let n := s.arcLen.toNat
  let h := s.fileIndexOff
  if s.params.arcCap < n then some .io
  else if s.ioFail .command then some .io
  else if n < 32 then some .format
  else if h % 8 ≠ 0 ∨ h < 8 ∨ n < h + 24 then some .format
  else if fromLe (s.arc.readBytes h 8) ≠ s.params.indexHead.toNat then some .format
  else if fromLe (s.arc.readBytes (n - 8) 8) ≠ s.params.indexTail.toNat then some .format
  else if (n - h) % 8 ≠ 0 then some .format
  else if verValid s.fileVersion = false then some .format
  else if n < h + 24 + s.fileListLen ∨ h + 24 + s.fileListLen + 7 < n then some .format
  else none

/-- AR_OPEN_R reads the file: its checks, then the parse of its entries (R137). -/
theorem readIndex_eq (s : State) : s.readIndex =
    unlessError (parseEntries s.params s.fileListLen s.fileList [] >>= fun l =>
      .ok { indexOff := s.fileIndexOff, version := s.fileVersion, idx := l }) s.fileError := by
  have hheader (h n : Nat) : (h % 8 == 0 && decide (8 ≤ h) && decide (h + 24 ≤ n)) = true ↔
      ¬ (h % 8 ≠ 0 ∨ h < 8 ∨ n < h + 24) := by
    simp only [Bool.and_eq_true, beq_iff_eq, decide_eq_true_eq]
    omega
  have hspan (h n k : Nat) : (decide (24 + k ≤ n - h) && decide (n - h - 24 - k ≤ 7)) = true ↔
      ¬ (n < h + 24 + k ∨ h + 24 + k + 7 < n) := by
    simp only [Bool.and_eq_true, decide_eq_true_eq]
    omega
  simp only [State.readIndex, State.fileError, require_then, unlessError_ite, unlessError_some, unlessError_none,
    hheader, hspan, decide_eq_true_eq, beq_iff_eq, ite_not, Bool.not_eq_eq_eq_not, Bool.not_true,
    Bool.eq_false_iff, ← Nat.not_le, ne_eq]
  rfl

theorem readIndex_of_fileError {c : ErrCode} (h : s.fileError = some c) : s.readIndex = .error { code := c } := by
  rw [readIndex_eq, h, unlessError_some]

theorem readIndex_of_parse_error {f : Failure} (h : s.fileError = none)
    (hf : parseEntries s.params s.fileListLen s.fileList [] = .error f) : s.readIndex = .error f := by
  rw [readIndex_eq, h, unlessError_none, hf, checked_bind_error]

theorem readIndex_of_parse {l : List Entry} (h : s.fileError = none)
    (hl : parseEntries s.params s.fileListLen s.fileList [] = .ok l) :
    s.readIndex = .ok { indexOff := s.fileIndexOff, version := s.fileVersion, idx := l } := by
  rw [readIndex_eq, h, unlessError_none, hl, checked_bind_ok]

@[simp] theorem length_fileList (s : State) : s.fileList.length = s.fileListLen := length_readBytes _ _ _

/-- The declared length is a field of 4 bytes (R126). -/
theorem fileListLen_lt (s : State) : s.fileListLen < 2 ^ 32 := by
  have h := fromLe_lt (s.arc.readBytes (s.fileIndexOff + 8) 4)
  rw [length_readBytes] at h
  exact h

/-! ### The command -/

/-- What AR_OPEN_R leaves when it fails on a closed handle (R137). -/
theorem exec_arOpenR_of_error {f : Failure} (hm : s.mode = .unset) (h : s.readIndex = .error f) :
    exec .arOpenR s = .next (doneErr s.openFailed f.code) := by
  rw [exec_arOpenR, execArOpenR, implicitClose_of_unset hm]
  simp only [h]
  rfl

/-- What AR_OPEN_R leaves when it succeeds on a closed handle (R137). -/
theorem exec_arOpenR_of_ok {o : OpenedIndex} (hm : s.mode = .unset) (h : s.readIndex = .ok o) :
    exec .arOpenR s = .next (doneOk ((s.openForReading o).results 0 0)) := by
  rw [exec_arOpenR, execArOpenR, implicitClose_of_unset hm]
  simp only [h]
  rfl

/-- A statement by cases on the first error of a chain. -/
theorem elim_of_cases {o : Option ErrCode} {P : Prop} {fails : ErrCode → Prop} (hfails : ∀ c, o = some c → fails c)
    (hnone : o = none → P) : o.elim P fails := by
  cases o with
  | none => exact hnone rfl
  | some c => exact hfails c rfl

theorem elim_ite {P Q : Prop} [Decidable P] {o o' : Option ErrCode} {f : ErrCode → Prop} :
    (if P then o else o').elim Q f = if P then o.elim Q f else o'.elim Q f :=
  apply_ite (fun o => o.elim Q f) P o o'

/-- Settles O43: the checks of R137 are one chain, after which the entries accepted so far and the bytes after
them say how the parse goes on. -/
theorem badLengthFailsOpen : Obligations.BadLengthFailsOpen := by
  intro s hm n h len v fails
  have hfails {f : Failure} (hf : s.readIndex = .error f) : fails f.code := exec_arOpenR_of_error hm hf
  have hh : s.fileIndexOff = h := rfl
  have hlen : s.fileListLen = len := rfl
  have hv : s.fileVersion = v := rfl
  obtain ⟨first, hfirst⟩ : ∃ c, s.fileError = c := ⟨_, rfl⟩
  have hchain (P : Prop) (hP : first = none → P) : s.fileError.elim P fails :=
    elim_of_cases (fun c hc => hfails (readIndex_of_fileError hc)) (hfirst ▸ hP)
  simp only [State.fileError, hh, hlen, hv, elim_ite, Option.elim_some, Option.elim_none] at hchain
  refine hchain _ ?_
  rintro rfl l rest hlist haccepted
  have hlist : s.fileList = entryList l ++ rest := hlist
  have hall : (entryList l ++ rest).length = s.fileListLen := by rw [← hlist, length_fileList]
  have hlt := fileListLen_lt s
  have hpaths : ∀ e ∈ l, e.path.length < 2 ^ 32 :=
    path_length_lt_of_entryList (by rw [List.length_append] at hall; omega)
  refine ⟨fun c hc => ?_, fun hrest => ⟨loadEntries [] l, ?_, ?_, ?_⟩⟩
  · refine hfails (f := { code := c }) (readIndex_of_parse_error hfirst ?_)
    rw [hlist]
    exact parseEntries_of_entryError haccepted hpaths hall.le hc
  · exact loadEntries_perm (List.Perm.refl []) haccepted.1
  · exact loadEntries_ascending (List.Perm.refl []) haccepted.1 List.Pairwise.nil
  · have hparse : parseEntries s.params s.fileListLen s.fileList [] = .ok (loadEntries [] l) :=
      hlist ▸ parseEntries_of_accepted haccepted hpaths hall.le hrest
    have hread := readIndex_of_parse hfirst hparse
    rw [hh, hv] at hread
    -- from here the file's fields are only names: the unifier need not unfold them
    clear_value v len h
    exact exec_arOpenR_of_ok hm hread

/-! ### The fields of a serialised index -/

/-- A field of a stored byte string. -/
theorem readBytes_field {m : Memory} {a n : Nat} {b : ByteString} (h : m.readBytes a n = b) (i k : Nat)
    (hn : i + k ≤ n) : m.readBytes (a + i) k = slice b i (i + k) := by
  obtain ⟨r, rfl⟩ := Nat.exists_eq_add_of_le hn
  rw [← h, readBytes_append, readBytes_append, slice_append (by simp) (by simp)]

section
variable (p : Params) (l : List Entry) (v : Word)

theorem indexSerialize_head : slice (indexSerialize p l v) 0 8 = le 8 p.indexHead.toNat := by
  rw [indexSerialize, List.append_assoc, List.append_assoc, List.append_assoc, List.append_assoc]
  exact slice_append (a := []) rfl (by simp)

theorem indexSerialize_listLen : slice (indexSerialize p l v) 8 (8 + 4) = le 4 (entryList l).length := by
  rw [indexSerialize, List.append_assoc, List.append_assoc, List.append_assoc]
  exact slice_append (by simp) (by simp)

theorem indexSerialize_version : slice (indexSerialize p l v) 12 (12 + 4) = le 4 v.toNat := by
  rw [indexSerialize, List.append_assoc, List.append_assoc]
  exact slice_append (by simp) (by simp)

theorem indexSerialize_list :
    slice (indexSerialize p l v) 16 (16 + (entryList l).length) = entryList l := by
  rw [indexSerialize, List.append_assoc]
  exact slice_append (by simp) (by simp)

theorem indexSerialize_tail :
    slice (indexSerialize p l v) (indexLen l - 8) (indexLen l - 8 + 8) = le 8 p.indexTail.toNat := by
  rw [indexSerialize, ← List.append_nil (_ ++ le 8 p.indexTail.toNat)]
  exact slice_append (by simp [indexLen]; omega) (by simp [indexLen]; omega)

end

theorem indexLen_mod (l : List Entry) : indexLen l % 8 = 0 := by
  have h := add_padLen_mod (16 + (entryList l).length)
  simp only [indexLen]
  omega

/-- An index the engine can hold is accepted entry by entry (R50, R137). -/
theorem IndexGood.accepted {p : Params} {l : List Entry} (h : IndexGood p l) : EntriesAccepted p l :=
  ⟨distinctPaths_of_ascending h.ascending, h.lengths, h.count, h.names⟩

/-- An ARC whose header is h and whose bytes from h to ARC_LEN are a serialised index (R124, R126). -/
structure State.HoldsIndex (s : State) (h : Nat) (l : List Entry) (v : Word) : Prop where
  aligned : h % 8 = 0
  low : 8 ≤ h
  arcLen : s.arcLen.toNat = h + indexLen l
  fits : s.arcLen.toNat ≤ s.params.arcCap
  header : s.arc.readBytes 0 8 = le 8 h
  index : s.arc.readBytes h (indexLen l) = indexSerialize s.params l v

section
variable {h : Nat} {l : List Entry} {v : Word} (hs : s.HoldsIndex h l v)
include hs

theorem State.HoldsIndex.length_entryList_lt : (entryList l).length < 2 ^ 32 := by
  have hn := hs.arcLen
  have hlt := s.arcLen.isLt
  rw [indexLen] at hn
  omega

theorem State.HoldsIndex.fileIndexOff_eq : s.fileIndexOff = h := by
  have hn := hs.arcLen
  have hlt := s.arcLen.isLt
  rw [State.fileIndexOff, hs.header, fromLe_le (by omega)]

theorem State.HoldsIndex.fileListLen_eq : s.fileListLen = (entryList l).length := by
  rw [State.fileListLen, hs.fileIndexOff_eq, readBytes_field hs.index 8 4 (by rw [indexLen]; omega),
    indexSerialize_listLen, fromLe_le hs.length_entryList_lt]

theorem State.HoldsIndex.fileVersion_eq : s.fileVersion = v := by
  rw [State.fileVersion, hs.fileIndexOff_eq, readBytes_field hs.index 12 4 (by rw [indexLen]; omega),
    indexSerialize_version, fromLe_le v.isLt, BitVec.ofNat_toNat, BitVec.setWidth_eq]

theorem State.HoldsIndex.fileList_eq : s.fileList = entryList l := by
  rw [State.fileList, hs.fileIndexOff_eq, hs.fileListLen_eq,
    readBytes_field hs.index 16 _ (by rw [indexLen]; omega), indexSerialize_list]

/-- Every check of R137 on the file passes. -/
theorem State.HoldsIndex.fileError_eq (hio : s.ioFail .command = false) (hv : verValid v = true) :
    s.fileError = none := by
  have hhead : fromLe (s.arc.readBytes h 8) = s.params.indexHead.toNat := by
    have hfield := readBytes_field hs.index 0 8 (by rw [indexLen]; omega)
    rw [Nat.add_zero, Nat.zero_add, indexSerialize_head] at hfield
    rw [hfield, fromLe_le s.params.indexHead.isLt]
  have htail : fromLe (s.arc.readBytes (h + indexLen l - 8) 8) = s.params.indexTail.toNat := by
    have hpos : 8 ≤ indexLen l := by rw [indexLen]; omega
    rw [Nat.add_sub_assoc hpos, readBytes_field hs.index _ 8 (by omega), indexSerialize_tail,
      fromLe_le s.params.indexTail.isLt]
  have hmod := indexLen_mod l
  have hpad := padLen_lt (16 + (entryList l).length)
  have hlen : indexLen l = 24 + (entryList l).length + padLen (16 + (entryList l).length) := rfl
  have hfits := hs.fits
  have hlow := hs.low
  have haligned := hs.aligned
  rw [hs.arcLen] at hfits
  simp only [State.fileError, hs.fileIndexOff_eq, hs.fileListLen_eq, hs.fileVersion_eq, hs.arcLen, hio, hv]
  rw [if_neg (by omega), if_neg Bool.false_ne_true, if_neg (by omega), if_neg (by omega), if_neg (not_not.2 hhead),
    if_neg (not_not.2 htail), if_neg (by omega), if_neg nofun, if_neg (by omega)]

theorem State.HoldsIndex.readIndex_eq (hio : s.ioFail .command = false) (hv : verValid v = true)
    (hl : IndexGood s.params l) : s.readIndex = .ok { indexOff := h, version := v, idx := l } := by
  have hparse : parseEntries s.params s.fileListLen s.fileList [] = .ok l := by
    have hpaths := path_length_lt_of_entryList hs.length_entryList_lt
    have hall := parseEntries_of_accepted hl.accepted hpaths (n := s.fileListLen) (rest := [])
      (by rw [List.append_nil, hs.fileListLen_eq]) rfl
    rwa [List.append_nil, loadEntries_of_ascending hl.ascending, ← hs.fileList_eq] at hall
  rw [readIndex_of_parse (hs.fileError_eq hio hv) hparse, hs.fileIndexOff_eq, hs.fileVersion_eq]

end

/-- Settles O42: each field of the serialised index passes its check, and entries read in path order are the
index. -/
theorem wellFormedArchiveOpens : Obligations.WellFormedArchiveOpens := by
  intro s l v h _ hm hio hl hv haligned hlow hlen hfits hheader hindex
  exact exec_arOpenR_of_ok hm
    (State.HoldsIndex.readIndex_eq ⟨haligned, hlow, hlen, hfits, hheader, hindex⟩ hio hv hl)

/-! ### The failures -/

/-- The errors that R137 lists. -/
abbrev OpenErrorCode (c : ErrCode) : Prop := c = .io ∨ c = .format ∨ c = .capacity

/-- A chain of checks whose errors R137 lists. -/
def OpenErrors (o : Option ErrCode) : Prop := ∀ c, o = some c → OpenErrorCode c

theorem openErrors_none : OpenErrors none := nofun

theorem openErrors_ite {P : Prop} [Decidable P] {c : ErrCode} {o : Option ErrCode} (hc : OpenErrorCode c)
    (ho : OpenErrors o) : OpenErrors (if P then some c else o) := by
  split
  · rintro _ ⟨⟩
    exact hc
  · exact ho

theorem openErrors_entryError (p : Params) (l : List Entry) (b : ByteString) : OpenErrors (entryError p l b) := by
  by_cases hb : b = []
  · rw [hb, entryError_nil]
    exact openErrors_none
  · rw [entryError, if_neg hb]
    iterate 9 refine openErrors_ite (by decide) ?_
    exact openErrors_none

theorem openErrors_fileError (s : State) : OpenErrors s.fileError := by
  rw [State.fileError]
  iterate 9 refine openErrors_ite (by decide) ?_
  exact openErrors_none

theorem openErrorCode_of_parseEntries {p : Params} {n : Nat} {b : ByteString} {l : List Entry} {f : Failure}
    (h : parseEntries p n b l = .error f) : OpenErrorCode f.code := by
  induction n generalizing b l with
  | zero =>
    cases b with
    | nil => cases h
    | cons x b => cases h; decide
  | succ n ih =>
    by_cases hb : b = []
    · subst hb
      cases h
    · rw [parseEntries_of_ne_nil p n hb] at h
      cases herr : entryError p l b with
      | none => rw [herr] at h; exact ih h
      | some c => rw [herr] at h; cases h; exact openErrors_entryError p l b c herr

theorem openErrorCode_of_readIndex {f : Failure} (h : s.readIndex = .error f) : OpenErrorCode f.code := by
  cases herr : s.fileError with
  | some c =>
    rw [readIndex_of_fileError herr] at h
    cases h
    exact openErrors_fileError s c herr
  | none =>
    cases hparse : parseEntries s.params s.fileListLen s.fileList [] with
    | error g =>
      rw [readIndex_of_parse_error herr hparse] at h
      cases h
      exact openErrorCode_of_parseEntries hparse
    | ok l =>
      rw [readIndex_of_parse herr hparse] at h
      cases h

/-- The failures of AR_OPEN_R on a closed handle (R137). -/
theorem exec_arOpenR_failed {t : State} (hm : s.mode = .unset) (h : exec .arOpenR s = .next t)
    (ht : t.err = true) : t = doneErr s.openFailed t.errcode ∧ OpenErrorCode t.errcode := by
  cases hread : s.readIndex with
  | ok o =>
    rw [exec_arOpenR_of_ok hm hread] at h
    cases h
    cases ht
  | error f =>
    rw [exec_arOpenR_of_error hm hread] at h
    cases h
    exact ⟨rfl, openErrorCode_of_readIndex hread⟩

/-- Settles O44: the open runs on the closed handle that R139 leaves. -/
theorem failedOpenLeavesHandleClosed : Obligations.FailedOpenLeavesHandleClosed := by
  intro s t h ht
  by_cases hm : s.mode = .unset
  · obtain ⟨hdone, hcode⟩ := exec_arOpenR_failed hm h ht
    refine ⟨s.arc, s.arcLen, hdone, hcode, ?_⟩
    exact (if_pos (by rw [hm]; decide)).mpr ⟨rfl, rfl⟩
  · obtain ⟨a, n, x, hleaves, hopen, -⟩ := open_closedAs s hm
    obtain ⟨hdone, hcode⟩ := exec_arOpenR_failed rfl (hopen ▸ h) ht
    refine ⟨a, n, hdone, hcode, ?_⟩
    intro h
    cases hmode : s.mode with
    | unset => exact absurd hmode hm
    | readOpen =>
      rw [State.CloseLeaves, if_pos hmode] at hleaves
      obtain ⟨harc, hlen, -⟩ := hleaves
      exact (if_pos nofun).mpr ⟨harc, hlen⟩
    | writeOpen =>
      rw [State.CloseLeaves, if_neg (by rw [hmode]; nofun)] at hleaves
      rw [if_neg (not_not.2 rfl)]
      split_ifs at hleaves ⊢
      · exact ⟨hleaves.1, hleaves.2.1⟩
      · exact ⟨hleaves.1, hleaves.2.2⟩
      · exact ⟨hleaves.1, hleaves.2.2⟩

end Sys2Proof.Machine
end

section
/-! PROOFS. AR_CLOSE (45_archive.md R139; 60_exceptions.md R151) and what an AR_OPEN_R after it finds: O46 and O52. -/

namespace Sys2Proof.Machine

variable {s : State}

/-! ### The command -/

theorem exec_arClose_of_ok {t : State} (h : s.closeArchive .command = (t, none)) :
    exec .arClose s = .next (doneOk t) := by
  rw [exec_arClose, execArClose, h]
  rfl

theorem exec_arClose_of_error {t : State} {c : ErrCode} (h : s.closeArchive .command = (t, some c)) :
    exec .arClose s = .next (doneErr t c) := by
  rw [exec_arClose, execArClose, h]
  rfl

section
variable {d : IoDraw}

theorem closeArchive_of_unset (hm : s.mode = .unset) : s.closeArchive d = (s.results 0 0, none) := by
  simp [State.closeArchive, hm]

theorem closeArchive_of_readOpen (hm : s.mode = .readOpen) :
    s.closeArchive d = ({ s with idx := [], version := 0, mode := .unset }.results 0 0, none) := by
  simp [State.closeArchive, hm]

theorem closeArchive_of_overflow (hm : s.mode = .writeOpen)
    (hfull : s.params.arcCap < s.arcOffset.toNat + indexLen s.idx) :
    s.closeArchive d = (s.closeFailed, some .io) := by
  simp [State.closeArchive, hm, hfull]

theorem closeArchive_of_ioFail (hm : s.mode = .writeOpen)
    (hfits : s.arcOffset.toNat + indexLen s.idx ≤ s.params.arcCap) (hio : s.ioFail d = true) :
    s.closeArchive d = ((s.releaseArc (max 8 s.arcOffset.toNat)).closeFailed, some .io) := by
  simp [State.closeArchive, hm, Nat.not_lt.2 hfits, hio]

theorem closeArchive_of_fits (hm : s.mode = .writeOpen)
    (hfits : s.arcOffset.toNat + indexLen s.idx ≤ s.params.arcCap) (hio : s.ioFail d = false) :
    s.closeArchive d = (s.closeWritten.results (indexLen s.idx) 0, none) := by
  simp [State.closeArchive, hm, Nat.not_lt.2 hfits, hio]

end

/-! ### The bytes of the closed file -/

/-- A store leaves the bytes of a range that it does not meet alone. -/
theorem readBytes_writeBytes_of_disjoint (m : Memory) {a b n : Nat} {bs : ByteString}
    (h : b + n ≤ a ∨ a + bs.length ≤ b) : (m.writeBytes a bs).readBytes b n = m.readBytes b n :=
  readBytes_congr fun x _ _ => by rw [read_writeBytes, if_neg (by omega)]

theorem closeWritten_header (s : State) : s.closeWritten.arc.readBytes 0 8 = le 8 s.arcOffset.toNat := by
  have h := readBytes_writeBytes (s.arc.writeBytes s.arcOffset.toNat (indexSerialize s.params s.idx s.version)) 0
    (le 8 s.arcOffset.toNat)
  rwa [length_le] at h

theorem closeWritten_index (h8 : 8 ≤ s.arcOffset.toNat) :
    s.closeWritten.arc.readBytes s.arcOffset.toNat (indexLen s.idx) = indexSerialize s.params s.idx s.version := by
  have h := readBytes_writeBytes s.arc s.arcOffset.toNat (indexSerialize s.params s.idx s.version)
  rw [length_indexSerialize] at h
  rw [State.closeWritten, readBytes_writeBytes_of_disjoint _ (by rw [length_le]; omega), h]

/-- Between the header and the index, and past the index, the file keeps its bytes. -/
theorem closeWritten_read (s : State) {x : Nat} (h8 : 8 ≤ x)
    (hx : x < s.arcOffset.toNat ∨ s.arcOffset.toNat + indexLen s.idx ≤ x) :
    s.closeWritten.arc.read x = s.arc.read x := by
  rw [State.closeWritten, read_writeBytes, if_neg (by rw [length_le]; omega), read_writeBytes,
    if_neg (by rw [length_indexSerialize]; omega)]

/-- Settles O46: the close of each mode completes, and the header patch does not meet the index. -/
theorem arCloseResult : Obligations.ArCloseResult := by
  intro s h n e
  refine ⟨fun hm => ?_, fun hm => ?_, fun hm hfull => ?_, fun hm hfits h8 => ?_⟩
  · exact exec_arClose_of_ok (closeArchive_of_unset hm)
  · exact exec_arClose_of_ok (closeArchive_of_readOpen hm)
  · exact exec_arClose_of_error (closeArchive_of_overflow hm hfull)
  · cases hio : s.ioFail .command with
    | true =>
      have hclose := closeArchive_of_ioFail hm hfits hio
      rw [max_eq_right h8] at hclose
      exact ⟨_, exec_arClose_of_error hclose, sameOutside_release _ _ _ _⟩
    | false =>
      exact ⟨_, exec_arClose_of_ok (closeArchive_of_fits hm hfits hio), closeWritten_header s, closeWritten_index h8,
        fun x => closeWritten_read s⟩

/-! ### Closing and opening -/

/-- What AR_OPEN_R finds after the close of a write session, and what it leaves (R137, R139). -/
theorem exec_arOpenR_after_close (hs : Inv s) (hm : s.mode = .writeOpen) (hn : s.params.ioFault = .never)
    (hfits : s.arcOffset.toNat + indexLen s.idx ≤ s.params.arcCap) :
    let c := doneOk (s.closeWritten.results (indexLen s.idx) 0)
    exec .arClose s = .next c ∧ exec .arOpenR c = .next (doneOk { c with
      idx := s.idx, version := s.version, indexOff := s.arcOffset, arcOffset := 0#32, mode := .readOpen
      resultLen := 0#32, consumed := 0#32 }) := by
  intro c
  obtain ⟨-, hmod, h8, -, -⟩ := hs.writing hm
  obtain ⟨-, hcap⟩ := arcCap_bounds hs.params
  have hlen : (BitVec.ofNat 32 (s.arcOffset.toNat + indexLen s.idx)).toNat =
      s.arcOffset.toNat + indexLen s.idx := by
    rw [BitVec.toNat_ofNat]
    omega
  have hholds : c.HoldsIndex s.arcOffset.toNat s.idx s.version :=
    ⟨hmod, h8, hlen, hlen.trans_le hfits, closeWritten_header s, closeWritten_index h8⟩
  have hread := hholds.readIndex_eq (ioFail_never (s := c) hn _) hs.version hs.index
  refine ⟨exec_arClose_of_ok (closeArchive_of_fits hm hfits (ioFail_never hn _)), ?_⟩
  rw [exec_arOpenR_of_ok rfl hread, State.openForReading, BitVec.ofNat_toNat, BitVec.setWidth_eq]
  rfl

/-- Settles O52: the file that the close leaves holds the index of the session. -/
theorem closeThenOpenRestoresIndex : Obligations.CloseThenOpenRestoresIndex := by
  intro s hs hm hn hfits
  obtain ⟨hclose, hopen⟩ := exec_arOpenR_after_close hs hm hn hfits
  exact ⟨_, _, hclose, hopen, rfl, rfl, rfl, rfl, rfl, rfl⟩

end Sys2Proof.Machine
end

section
/-! PROOFS. AR_ADD and AR_GET (45_archive.md R138, R140): O45, O47 and O53. The checks of each command are one chain of
errors in the order of R150. -/

namespace Sys2Proof.Machine

variable {s : State}

theorem conclude_unlessError_some (r : Checked State) (c : ErrCode) :
    s.conclude (unlessError r (some c)) = .next (doneErr s c) := by
  rw [unlessError_some, conclude_error, fail_plain]

theorem checkRange_then {α : Type} (s : State) (r : Region) (k : Checked α) :
    (s.checkRange r >>= fun _ => k) =
      if s.params.bufSize < r.1 + r.2 then .error { code := .range } else k := by
  split
  · next h => rw [checkRange_of_lt h, checked_bind_error]
  · next h => rw [checkRange_of_le (Nat.le_of_not_lt h), checked_bind_ok]

/-! ### AR_ADD -/

theorem exec_arAdd (s : State) : exec .arAdd s = execArAdd s := rfl

/-- The first check of AR_ADD that fails (R138, R150). -/
def State.addError (s : State) : Option ErrCode :=
  if s.mode ≠ .writeOpen then some .mode
  else if s.nameLen = 0#32 then some .arg
  else if s.params.bufSize < s.srcAddr.toNat + s.srcLen.toNat then some .range
  else if s.params.bufSize < s.nameAddr.toNat + s.nameLen.toNat then some .range
  else if ∃ e ∈ s.idx, e.path = s.nameBytes then some .conflict
  else if s.params.maxNameLen < s.nameBytes.length ∨ s.idx.length = s.params.maxEntries ∨
    s.params.nameCap < nameTotal s.idx + s.nameBytes.length then some .capacity
  else if s.params.arcCap < s.arcOffset.toNat + s.addedFrame.length then some .io
  else none

/-- What AR_ADD does past its checks (R138). -/
def State.addFrame (s : State) : Checked State :=
  if s.ioFail .command then .error { code := .io, arcFrom := some s.arcOffset.toNat }
  else .ok (s.appendFrame.results s.addedFrame.length s.srcLen.toNat)

theorem execArAdd_eq (s : State) : execArAdd s = s.conclude (unlessError s.addFrame s.addError) := by
  have hroom (n m k : Nat) : (decide (n ≤ s.params.maxNameLen) && m != s.params.maxEntries &&
      decide (k ≤ s.params.nameCap)) = true ↔
      ¬ (s.params.maxNameLen < n ∨ m = s.params.maxEntries ∨ s.params.nameCap < k) := by
    simp only [Bool.and_eq_true, decide_eq_true_eq, bne_iff_ne]
    omega
  simp only [execArAdd, State.addError, require_then, checkRange_then, unlessError_ite, unlessError_some,
    unlessError_none, findEntry_isNone_iff_not_exists, hroom, beq_iff_eq, bne_iff_ne, decide_eq_true_eq, ne_eq,
    ite_not, ← Nat.not_le]
  rfl

theorem exec_arAdd_of_error {c : ErrCode} (h : s.addError = some c) : exec .arAdd s = .next (doneErr s c) := by
  rw [exec_arAdd, execArAdd_eq, h, conclude_unlessError_some]

/-- AR_ADD past its checks, when the archive store fails (R138, R151 item 4). -/
theorem exec_arAdd_of_ioFail (h : s.addError = none) (hio : s.ioFail .command = true) :
    exec .arAdd s = .next (doneErr (s.releaseArc s.arcOffset.toNat) .io) := by
  rw [exec_arAdd, execArAdd_eq, h, unlessError_none, State.addFrame, if_pos hio, conclude_error]
  rfl

/-- AR_ADD past its checks, when the archive store works (R138). -/
theorem exec_arAdd_of_ok (h : s.addError = none) (hio : s.ioFail .command = false) :
    exec .arAdd s = .next (doneOk (s.appendFrame.results s.addedFrame.length s.srcLen.toNat)) := by
  rw [exec_arAdd, execArAdd_eq, h, unlessError_none, State.addFrame, if_neg (by simp [hio]), conclude_ok]
  rfl

theorem not_exists_path_of_addError (h : s.addError = none) : ∀ x ∈ s.idx, x.path ≠ s.nameBytes := by
  intro x hx heq
  have hex : ∃ e ∈ s.idx, e.path = s.nameBytes := ⟨x, hx, heq⟩
  simp only [State.addError, if_pos hex] at h
  split_ifs at h

/-- What AR_ADD leaves, register by register (R138). -/
theorem appendFrame_eq (s : State) : s.appendFrame = { s with
    arc := s.arc.writeBytes s.arcOffset.toNat s.addedFrame
    idx := insertEntry s.addedEntry s.idx
    freq := countFreq s.srcBytes
    tree := (buildTree s.params.tiePolicy (countFreq s.srcBytes)).1
    nodeCount := BitVec.ofNat 32 (buildTree s.params.tiePolicy (countFreq s.srcBytes)).2
    treeValid := true
    codes := codesOf s.params.tiePolicy (countFreq s.srcBytes)
    codesValid := true
    bitcountLo := BitVec.ofNat 32 (encodedBits s.params.tiePolicy s.srcBytes).length
    bitcountHi := BitVec.ofNat 32 ((encodedBits s.params.tiePolicy s.srcBytes).length / 2 ^ 32)
    entryOffset := s.arcOffset
    entrySize := BitVec.ofNat 32 s.addedFrame.length
    arcOffset := BitVec.ofNat 32 (s.arcOffset.toNat + s.addedFrame.length)
    arcLen := BitVec.ofNat 32 (s.arcOffset.toNat + s.addedFrame.length) } := by
  rw [State.appendFrame, afterEncode_eq, State.addedEntry]

/-- Settles O45: the chain of checks, and the new entry goes into the index in path order. -/
theorem arAddResult : Obligations.ArAddResult := by
  intro s n src c tree bits f o fails
  obtain ⟨first, hfirst⟩ : ∃ c, s.addError = c := ⟨_, rfl⟩
  have hchain (P : Prop) (hP : first = none → P) : s.addError.elim P fails :=
    elim_of_cases (fun c => exec_arAdd_of_error) (hfirst ▸ hP)
  have hn : s.nameBytes = n := rfl
  have hf : s.addedFrame = f := rfl
  simp only [State.addError, hn, hf, elim_ite, Option.elim_some, Option.elim_none] at hchain
  refine hchain _ ?_
  rintro rfl
  have hnew : ∀ x ∈ s.idx, x.path ≠ s.addedEntry.path := not_exists_path_of_addError hfirst
  have hperm := insertEntry_perm s.addedEntry hnew
  cases hio : s.ioFail .command with
  | true => exact ⟨_, exec_arAdd_of_ioFail hfirst hio, sameOutside_release _ _ _ _⟩
  | false =>
    refine ⟨s.arc.writeBytes o f, insertEntry s.addedEntry s.idx, ?_, storesAt_writeBytes _ _ _, ?_, fun e => ?_, ?_⟩
    · rw [exec_arAdd_of_ok hfirst hio, results_toNat, appendFrame_eq, hf]
      rfl
    · rw [hperm.length_eq, List.length_cons]
    · rw [hperm.mem_iff, List.mem_cons, State.addedEntry, hn, hf]
    · exact insertEntry_ascending s.addedEntry hnew

/-! ### AR_GET -/

theorem exec_arGet (s : State) : exec .arGet s = execArGet s := rfl

/-- The first check of AR_GET on its operands that fails (R140, R150). -/
def State.getError (s : State) : Option ErrCode :=
  if s.mode ≠ .readOpen then some .mode
  else if s.params.bufSize < s.nameAddr.toNat + s.nameLen.toNat then some .range
  else if s.params.bufSize < s.dstAddr.toNat + s.dstCap.toNat then some .range
  else if 0 < s.nameLen.toNat ∧ 0 < s.dstCap.toNat ∧ s.nameAddr.toNat < s.dstAddr.toNat + s.dstCap.toNat ∧
    s.dstAddr.toNat < s.nameAddr.toNat + s.nameLen.toNat then some .overlap
  else none

/-- The first check of AR_GET on the entry and its frame that fails (R118, R140). -/
def State.frameError (s : State) (e : Entry) : Option ErrCode :=
  let o := e.offset.toNat
  let z := e.size.toNat
  if z < 16 ∨ z % 8 ≠ 0 ∨ o % 8 ≠ 0 ∨ o < 8 ∨ s.indexOff.toNat < o + z then some .format
  else if s.ioFail .command then some .io
  else if s.arcLen.toNat < o + z ∨ s.params.arcCap < s.arcLen.toNat then some .format
  else if fromLe (s.arc.readBytes o 8) ≠ s.params.streamHead.toNat ∨
    fromLe (s.arc.readBytes (o + z - 8) 8) ≠ s.params.streamTail.toNat then some .format
  else none

/-- The block in the frame of an entry, with the padding after it (R118). -/
def State.framedBlock (s : State) (e : Entry) : ByteString :=
  ((s.arc.readBytes e.offset.toNat e.size.toNat).drop 8).take (e.size.toNat - 16)

/-- What AR_GET leaves after a block that decodes (R140). -/
def State.fetched (s : State) (e : Entry) (d : Decoded) : State :=
  ({ s.afterDecode d with entryOffset := e.offset, entrySize := e.size }.writeDst d.out).results d.out.length
    e.size.toNat

theorem overlaps_eq_true_iff (s : State) (r : Region) : overlaps r s.dstRegion = true ↔
    0 < r.2 ∧ 0 < s.dstCap.toNat ∧ r.1 < s.dstAddr.toNat + s.dstCap.toNat ∧ s.dstAddr.toNat < r.1 + r.2 := by
  simp only [overlaps, Bool.and_eq_true, decide_eq_true_eq, and_assoc]
  rfl

theorem checkOverlap_then {α : Type} (s : State) (r : Region) (k : Checked α) :
    (s.checkOverlap r >>= fun _ => k) =
      if 0 < r.2 ∧ 0 < s.dstCap.toNat ∧ r.1 < s.dstAddr.toNat + s.dstCap.toNat ∧ s.dstAddr.toNat < r.1 + r.2
      then .error { code := .overlap } else k := by
  simp only [State.checkOverlap, require_then, ← overlaps_eq_true_iff]
  cases overlaps r s.dstRegion <;> rfl

/-- The sentinels of a frame with room for them, where AR_GET reads them (R118). -/
theorem frameForm_readBytes_iff (p : Params) (m : Memory) {o z : Nat} (h16 : 16 ≤ z) (hmod : z % 8 = 0) :
    FrameForm p (m.readBytes o z) ↔ ¬ (fromLe (m.readBytes o 8) ≠ p.streamHead.toNat ∨
      fromLe (m.readBytes (o + z - 8) 8) ≠ p.streamTail.toNat) := by
  have hhead : (m.readBytes o z).take 8 = m.readBytes o 8 := by
    have hfield := readBytes_field (m := m) (a := o) (n := z) rfl 0 8 (by omega)
    exact hfield.symm
  have htail : (m.readBytes o z).drop (z - 8) = m.readBytes (o + z - 8) 8 := by
    have hfield := readBytes_field (m := m) (a := o) (n := z) rfl (z - 8) 8 (by omega)
    rw [Nat.add_sub_assoc (by omega), hfield, slice_add, List.take_of_length_le (by simp; omega)]
  rw [FrameForm, length_readBytes, hhead, htail, not_or, not_not, not_not]
  exact ⟨fun h => h.2.2, fun h => ⟨h16, hmod, h⟩⟩

theorem frameInRegion_iff (o z i : Nat) :
    frameInRegion o z i = true ↔ ¬ (z < 16 ∨ z % 8 ≠ 0 ∨ o % 8 ≠ 0 ∨ o < 8 ∨ i < o + z) := by
  simp only [frameInRegion, Bool.and_eq_true, decide_eq_true_eq, beq_iff_eq]
  omega

theorem arcReadable_iff (s : State) (o z : Nat) :
    s.arcReadable o z = true ↔ ¬ (s.arcLen.toNat < o + z ∨ s.params.arcCap < s.arcLen.toNat) := by
  simp only [State.arcReadable, Bool.and_eq_true, decide_eq_true_eq]
  omega

/-- What follows the checks of AR_GET on its operands (R140). -/
theorem getChecks_then (s : State) (k : Checked State) : (do
    require (s.mode == .readOpen) .mode
    s.checkRange s.nameRegion
    s.checkRange s.dstRegion
    s.checkOverlap s.nameRegion
    k) = unlessError k s.getError := by
  simp only [State.getError, require_then, checkRange_then, checkOverlap_then, unlessError_ite, unlessError_some,
    unlessError_none, beq_iff_eq, ne_eq, ite_not]
  rfl

theorem checkFrame_then {α : Type} (p : Params) (f : ByteString) (k : ByteString → Checked α) :
    (checkFrame p f >>= k) =
      if FrameForm p f then k ((f.drop 8).take (f.length - 16)) else .error { code := .format } := by
  rw [checkFrame_eq]
  split <;> rfl

/-- What follows the checks of AR_GET on the entry and its frame (R140). -/
theorem frameChecks_then (s : State) (e : Entry) (k : ByteString → Checked State) : (do
    require (frameInRegion e.offset.toNat e.size.toNat s.indexOff.toNat) .format
    require (!s.ioFail .command) .io
    require (s.arcReadable e.offset.toNat e.size.toNat) .format
    let pl ← checkFrame s.params (s.arcRead e.offset.toNat e.size.toNat)
    k pl) = unlessError (k (s.framedBlock e)) (s.frameError e) := by
  simp only [State.frameError, require_then, frameInRegion_iff, arcReadable_iff, unlessError_ite,
    unlessError_some, unlessError_none, ite_not]
  split
  · rfl
  · next hregion =>
    have hform := frameForm_readBytes_iff s.params s.arc (o := e.offset.toNat) (z := e.size.toNat) (by omega)
      (by omega)
    simp only [State.arcRead, checkFrame_then, hform, ite_not, length_readBytes, Bool.not_eq_eq_eq_not, Bool.not_true,
      Bool.eq_false_iff, ne_eq]
    rfl

theorem exec_arGet_of_error {c : ErrCode} (h : s.getError = some c) : exec .arGet s = .next (doneErr s c) := by
  rw [exec_arGet, execArGet, getChecks_then, h, conclude_unlessError_some]

theorem exec_arGet_of_missing (h : s.getError = none) (hmissing : ∀ e ∈ s.idx, e.path ≠ s.nameBytes) :
    exec .arGet s = .next (doneErr s .notFound) := by
  have hnone : findEntry s.nameBytes s.idx = none := Option.isNone_iff_eq_none.1 (findEntry_isNone.2 hmissing)
  rw [exec_arGet, execArGet, getChecks_then, h, hnone]
  rfl

section
variable (h : s.getError = none) {e : Entry} (he : findEntry s.nameBytes s.idx = some e)
include h he

/-- AR_GET with the entry of its path (R140). -/
theorem exec_arGet_of_entry : exec .arGet s = s.conclude (unlessError
    (decodeBlock s.params.tiePolicy s.dstCap.toNat (s.framedBlock e) >>= fun d =>
      .ok (s.fetched e d)) (s.frameError e)) := by
  rw [exec_arGet, execArGet, getChecks_then, h, unlessError_none, he]
  exact congrArg s.conclude (frameChecks_then s e _)

theorem exec_arGet_of_frameError {c : ErrCode} (hc : s.frameError e = some c) :
    exec .arGet s = .next (doneErr s c) := by
  rw [exec_arGet_of_entry h he, hc, conclude_unlessError_some]

/-- AR_GET when the block decodes (R140). -/
theorem exec_arGet_of_decoded (hframe : s.frameError e = none) {d : Decoded}
    (hd : decodeBlock s.params.tiePolicy s.dstCap.toNat (s.framedBlock e) = .ok d) :
    exec .arGet s = .next (doneOk (s.fetched e d)) := by
  rw [exec_arGet_of_entry h he, hframe, unlessError_none, hd, checked_bind_ok, conclude_ok, succeed_eq_doneOk]

/-- AR_GET when the block does not decode (R140). -/
theorem exec_arGet_of_decode_error (hframe : s.frameError e = none) {f : Failure}
    (hf : decodeBlock s.params.tiePolicy s.dstCap.toNat (s.framedBlock e) = .error f) :
    exec .arGet s = .next (s.fail f) := by
  rw [exec_arGet_of_entry h he, hframe, unlessError_none, hf, checked_bind_error, conclude_error]

end

/-- Settles O47: the chain on the operands, the look-up, the chain on the frame, and the block decoder. -/
theorem arGetResult : Obligations.ArGetResult := by
  intro s n fails
  obtain ⟨first, hfirst⟩ : ∃ c, s.getError = c := ⟨_, rfl⟩
  have hchain (P : Prop) (hP : first = none → P) : s.getError.elim P fails :=
    elim_of_cases (fun c => exec_arGet_of_error) (hfirst ▸ hP)
  simp only [State.getError, elim_ite, Option.elim_some, Option.elim_none] at hchain
  refine hchain _ ?_
  rintro rfl
  refine ⟨fun hmissing => exec_arGet_of_missing hfirst hmissing, ?_⟩
  intro e he o z pl
  obtain ⟨second, hsecond⟩ : ∃ c, s.frameError e = c := ⟨_, rfl⟩
  have hframe (P : Prop) (hP : second = none → P) : (s.frameError e).elim P fails :=
    elim_of_cases (fun c => exec_arGet_of_frameError hfirst he) (hsecond ▸ hP)
  simp only [State.frameError, elim_ite, Option.elim_some, Option.elim_none] at hframe
  refine hframe _ ?_
  rintro rfl
  refine ⟨fun d hd => ?_, fun f hf => ?_⟩
  · refine ⟨s.buf.writeBytes s.dstAddr.toNat d.out, ?_, storesAt_writeBytes _ _ _⟩
    rw [exec_arGet_of_decoded hfirst he hsecond hd, State.fetched, results_toNat]
    rfl
  · obtain ⟨-, harc⟩ := (meets_decodeBlock_failure _ _ _).failure f hf
    obtain ⟨m, hfail, hkept, houtside⟩ := exists_fail_eq_doneErr (s := s) harc
    exact ⟨m, (exec_arGet_of_decode_error hfirst he hsecond hf).trans (congrArg _ hfail), hkept, houtside⟩

end Sys2Proof.Machine
end

section
/-! PROOFS. A file that is added, closed over, opened and fetched (45_archive.md R138 to R140; 43_codec.md R114): O53.
The frame of the file lies between the header and the index, where the close leaves it alone. -/

namespace Sys2Proof.Machine

variable {s : State}

/-! ### The new entry -/

theorem findEntry_insertEntry (e : Entry) (l : List Entry) (h : ∀ x ∈ l, x.path ≠ e.path) :
    findEntry e.path (insertEntry e l) = some e := by
  induction l with
  | nil => simp [insertEntry, findEntry]
  | cons x l ih =>
    obtain ⟨hx, hl⟩ := List.forall_mem_cons.1 h
    rw [insertEntry, if_neg hx.symm]
    split
    · simp [findEntry]
    · rw [findEntry, List.find?_cons_of_neg (by simpa using hx)]
      exact ih hl

/-- A new entry makes the serialised index longer by its fields and at most 8 bytes of padding (R126). -/
theorem indexLen_insertEntry_le (e : Entry) {l : List Entry} (h : ∀ x ∈ l, x.path ≠ e.path) :
    indexLen (insertEntry e l) ≤ indexLen l + (20 + e.path.length + 8) := by
  have hlen := (insertEntry_perm e h).length_eq
  have hnames := nameTotal_insertEntry e h
  have hpad := padLen_lt (16 + (entryList (insertEntry e l)).length)
  rw [List.length_cons] at hlen
  simp only [indexLen, length_entryList] at hpad ⊢
  rw [hlen, hnames] at hpad ⊢
  omega

/-! ### A frame in ARC -/

/-- An entry whose frame, of a block b, lies in the frame region of a readable file (R138, R140). -/
structure State.HoldsFrame (s : State) (e : Entry) (b : ByteString) : Prop where
  aligned : e.offset.toNat % 8 = 0
  low : 8 ≤ e.offset.toNat
  belowIndex : e.offset.toNat + e.size.toNat ≤ s.indexOff.toNat
  inFile : s.indexOff.toNat ≤ s.arcLen.toNat
  inArc : s.arcLen.toNat ≤ s.params.arcCap
  frame : s.arc.readBytes e.offset.toNat e.size.toNat = frameOf s.params b

section
variable {e : Entry} {b : ByteString} (h : s.HoldsFrame e b)
include h

theorem State.HoldsFrame.size_eq : e.size.toNat = (frameOf s.params b).length := by
  rw [← h.frame, length_readBytes]

theorem State.HoldsFrame.framedBlock_eq : s.framedBlock e = b ++ zeros (padLen b.length) := by
  rw [State.framedBlock, h.frame, h.size_eq, body_frameOf]

/-- The frame passes the checks of AR_GET (R118, R119). -/
theorem State.HoldsFrame.frameError_eq (hio : s.ioFail .command = false) : s.frameError e = none := by
  have hsize := h.size_eq
  obtain ⟨h16, hmod, hform⟩ := frameOf_form s.params b
  have hsentinels := (frameForm_readBytes_iff s.params s.arc (o := e.offset.toNat) (z := e.size.toNat)
    (by omega) (by omega)).1 (h.frame ▸ frameOf_form s.params b)
  have haligned := h.aligned
  have hlow := h.low
  have hbelow := h.belowIndex
  have hfile := h.inFile
  have harc := h.inArc
  rw [State.frameError, if_neg (by omega), if_neg (by simp [hio]), if_neg (by omega), if_neg hsentinels]

end

/-! ### The scenario -/

/-- What O53 asks of the state before AR_ADD: the operands are in range, NAME and DST do not overlap, the path is
new, the entry has room in the index, and frame and index have room in the file. -/
structure State.CanArchive (s : State) : Prop where
  inv : Inv s
  writing : s.mode = .writeOpen
  never : s.params.ioFault = .never
  named : s.nameLen ≠ 0#32
  src : s.srcAddr.toNat + s.srcLen.toNat ≤ s.params.bufSize
  name : s.nameAddr.toNat + s.nameLen.toNat ≤ s.params.bufSize
  dst : s.dstAddr.toNat + s.dstCap.toNat ≤ s.params.bufSize
  apart : overlaps s.nameRegion s.dstRegion = false
  fitsDst : s.srcLen.toNat ≤ s.dstCap.toNat
  new : ∀ e ∈ s.idx, e.path ≠ s.nameBytes
  nameLen : s.nameBytes.length ≤ s.params.maxNameLen
  count : s.idx.length < s.params.maxEntries
  names : nameTotal s.idx + s.nameBytes.length ≤ s.params.nameCap
  fitsArc : s.arcOffset.toNat + s.addedFrame.length + (indexLen s.idx + 20 + s.nameBytes.length + 8) ≤
    s.params.arcCap

/-- What AR_ADD leaves of the file, in the state a (R138). -/
structure State.AddedAs (s a : State) : Prop where
  exec : exec .arAdd s = .next a
  errcode : a.errcode = .ok
  mode : a.mode = .writeOpen
  arguments : a.arguments = s.arguments
  idx : a.idx = insertEntry s.addedEntry s.idx
  arcOffset : a.arcOffset.toNat = s.arcOffset.toNat + s.addedFrame.length
  arc : a.arc = s.arc.writeBytes s.arcOffset.toNat s.addedFrame
  buf : a.buf = s.buf

/-- What AR_CLOSE and AR_OPEN_R leave of a write session, in the state o (R137, R139). -/
structure State.ReopenedAs (a o : State) : Prop where
  errcode : o.errcode = .ok
  mode : o.mode = .readOpen
  arguments : o.arguments = a.arguments
  idx : o.idx = a.idx
  indexOff : o.indexOff = a.arcOffset
  arcLen : o.arcLen.toNat = a.arcOffset.toNat + indexLen a.idx
  arc : ∀ x, 8 ≤ x → x < a.arcOffset.toNat → o.arc.read x = a.arc.read x
  buf : o.buf = a.buf

/-- A write session, closed and opened (R139). -/
theorem exists_reopenedAs {a : State} (hs : Inv a) (hm : a.mode = .writeOpen) (hn : a.params.ioFault = .never)
    (hfits : a.arcOffset.toNat + indexLen a.idx ≤ a.params.arcCap) :
    ∃ c o, exec .arClose a = .next c ∧ exec .arOpenR c = .next o ∧ c.errcode = .ok ∧ a.ReopenedAs o := by
  obtain ⟨hclose, hopen⟩ := exec_arOpenR_after_close hs hm hn hfits
  obtain ⟨-, hcap⟩ := arcCap_bounds hs.params
  have hlen : (BitVec.ofNat 32 (a.arcOffset.toNat + indexLen a.idx)).toNat =
      a.arcOffset.toNat + indexLen a.idx := by
    rw [BitVec.toNat_ofNat]
    omega
  have hclosed := argumentsKept_exec (by decide) hclose
  have hopened := argumentsKept_exec (by decide) hopen
  exact ⟨_, _, hclose, hopen, rfl, rfl, rfl, hopened.arguments.trans hclosed.arguments, rfl, rfl, hlen,
    fun x h8 hx => closeWritten_read a h8 (.inl hx), rfl⟩

theorem nameBytes_of_reopenedAs {a o : State} (ha : s.AddedAs a) (ho : a.ReopenedAs o) : o.nameBytes = s.nameBytes := by
  have hargs := ho.arguments.trans ha.arguments
  have haddr : o.nameAddr = s.nameAddr := congrArg Arguments.nameAddr hargs
  have hlen : o.nameLen = s.nameLen := congrArg Arguments.nameLen hargs
  rw [State.nameBytes, State.memRead, ho.buf, ha.buf, haddr, hlen]
  rfl

section
variable {a o : State} (h : s.CanArchive)
include h

theorem State.CanArchive.addError_eq : s.addError = none := by
  have hnew : ¬ ∃ e ∈ s.idx, e.path = s.nameBytes := fun ⟨e, he, heq⟩ => h.new e he heq
  have hsrc := h.src
  have hname := h.name
  have hlen := h.nameLen
  have hcount := h.count
  have hnames := h.names
  have hfits := h.fitsArc
  rw [State.addError, if_neg (not_not.2 h.writing), if_neg h.named, if_neg (by omega), if_neg (by omega), if_neg hnew,
    if_neg (by omega), if_neg (by omega)]

theorem State.CanArchive.exists_addedAs : ∃ a, s.AddedAs a := by
  have hfits := h.fitsArc
  obtain ⟨-, hcap⟩ := arcCap_bounds h.inv.params
  have hend : (BitVec.ofNat 32 (s.arcOffset.toNat + s.addedFrame.length)).toNat =
      s.arcOffset.toNat + s.addedFrame.length := by
    rw [BitVec.toNat_ofNat]
    omega
  have hrun := exec_arAdd_of_ok h.addError_eq (ioFail_never h.never _)
  rw [appendFrame_eq] at hrun
  have hkept := argumentsKept_exec (by decide) hrun
  exact ⟨_, hrun, rfl, h.writing, hkept.arguments, rfl, hend, rfl, rfl⟩

theorem State.CanArchive.size_addedEntry : s.addedEntry.size.toNat = s.addedFrame.length := by
  have hfits := h.fitsArc
  obtain ⟨-, hcap⟩ := arcCap_bounds h.inv.params
  rw [State.addedEntry, BitVec.toNat_ofNat]
  omega

/-- After the new frame the index with its entry still fits (R139). -/
theorem State.CanArchive.index_fits (ha : s.AddedAs a) :
    a.arcOffset.toNat + indexLen a.idx ≤ s.params.arcCap := by
  have hindex : indexLen (insertEntry s.addedEntry s.idx) ≤ indexLen s.idx + (20 + s.nameBytes.length + 8) :=
    indexLen_insertEntry_le s.addedEntry h.new
  have hfits := h.fitsArc
  rw [ha.arcOffset, ha.idx]
  omega

/-- The session with the new frame can be closed and opened. -/
theorem State.CanArchive.exists_reopenedAs (ha : s.AddedAs a) :
    ∃ c o, exec .arClose a = .next c ∧ exec .arOpenR c = .next o ∧ c.errcode = .ok ∧ a.ReopenedAs o := by
  have hparams : a.params = s.params := congrArg Arguments.params ha.arguments
  exact Machine.exists_reopenedAs (keepsInv_exec h.inv.sound .arAdd a ha.exec) ha.mode (hparams ▸ h.never)
    (hparams ▸ h.index_fits ha)

/-- The frame as AR_ADD stored it is still in the reopened file. -/
theorem State.CanArchive.holdsFrame (ha : s.AddedAs a) (ho : a.ReopenedAs o) :
    o.HoldsFrame s.addedEntry (encodeBlock s.params.tiePolicy s.srcBytes) := by
  obtain ⟨-, hmod, h8, -, -⟩ := h.inv.writing h.writing
  have hparams : o.params = s.params := congrArg Arguments.params (ho.arguments.trans ha.arguments)
  have hsize := h.size_addedEntry
  have hoffset : s.addedEntry.offset = s.arcOffset := rfl
  have hend := ha.arcOffset
  refine ⟨hmod, h8, ?_, ?_, ?_, ?_⟩
  · rw [ho.indexOff, hoffset, hsize, hend]
  · rw [ho.indexOff, ho.arcLen]
    omega
  · rw [ho.arcLen, hparams]
    exact h.index_fits ha
  · have hkept : o.arc.readBytes s.arcOffset.toNat s.addedFrame.length =
        a.arc.readBytes s.arcOffset.toNat s.addedFrame.length :=
      readBytes_congr fun x hlow hhigh => ho.arc x (by omega) (by omega)
    rw [hoffset, hsize, hkept, ha.arc, readBytes_writeBytes, hparams]
    rfl

theorem State.CanArchive.getError_eq (ha : s.AddedAs a) (ho : a.ReopenedAs o) : o.getError = none := by
  have hargs := ho.arguments.trans ha.arguments
  simp only [State.arguments, Arguments.mk.injEq] at hargs
  obtain ⟨-, -, hdstAddr, hdstCap, hnameAddr, hnameLen, -, -, -, -, hparams⟩ := hargs
  have hname := h.name
  have hdst := h.dst
  have hover := mt (overlaps_eq_true_iff s s.nameRegion).2 (Bool.eq_false_iff.1 h.apart)
  rw [State.getError, hdstAddr, hdstCap, hnameAddr, hnameLen, hparams, if_neg (not_not.2 ho.mode),
    if_neg (by omega), if_neg (by omega)]
  exact if_neg hover

/-- AR_GET decodes the bytes that were added and stores them (R114, R140). -/
theorem State.CanArchive.exec_arGet (ha : s.AddedAs a) (ho : a.ReopenedAs o) :
    ∃ g, exec .arGet o = .next g ∧ g.errcode = .ok ∧ g.resultLen = s.srcLen ∧
      StoresAt s.buf g.buf s.dstAddr.toNat s.srcBytes := by
  have hholds := h.holdsFrame ha ho
  have hargs := ho.arguments.trans ha.arguments
  have hparams : o.params = s.params := congrArg Arguments.params hargs
  have hsrc : s.srcBytes.length = s.srcLen.toNat := length_readBytes _ _ _
  have hcap := h.fitsDst
  have hlt := s.srcLen.isLt
  obtain ⟨d, hd, hout, -⟩ := blockRoundTrip s.params.tiePolicy s.srcBytes
    (zeros (padLen (encodeBlock s.params.tiePolicy s.srcBytes).length)) s.dstCap.toNat (by omega) (by omega)
  have hentry : findEntry o.nameBytes o.idx = some s.addedEntry := by
    rw [ho.idx, ha.idx, nameBytes_of_reopenedAs ha ho]
    exact findEntry_insertEntry s.addedEntry s.idx h.new
  have hio : o.ioFail .command = false := ioFail_never (hparams ▸ h.never) _
  have hdst : o.dstCap = s.dstCap := congrArg Arguments.dstCap hargs
  have hdecode : decodeBlock o.params.tiePolicy o.dstCap.toNat (o.framedBlock s.addedEntry) = .ok d := by
    rw [hholds.framedBlock_eq, hparams, hdst, hd]
  refine ⟨_, exec_arGet_of_decoded (h.getError_eq ha ho) hentry (hholds.frameError_eq hio) hdecode, rfl, ?_, ?_⟩
  · have hres : (doneOk (o.fetched s.addedEntry d)).resultLen = BitVec.ofNat 32 d.out.length := rfl
    rw [hres, hout, hsrc, BitVec.ofNat_toNat, BitVec.setWidth_eq]
  · have hbuf : (doneOk (o.fetched s.addedEntry d)).buf = o.buf.writeBytes o.dstAddr.toNat d.out := rfl
    have haddr : o.dstAddr = s.dstAddr := congrArg Arguments.dstAddr hargs
    rw [hbuf, hout, ho.buf, ha.buf, haddr]
    exact storesAt_writeBytes s.buf s.dstAddr.toNat s.srcBytes

end

/-- Settles O53: the frame is the one AR_ADD stored, and its block decodes to the source. -/
theorem archivedFileIsFetchedBack : Obligations.ArchivedFileIsFetchedBack := by
  intro s hs hm hn hnamed hsrc hname hdst hover hcap n src f hnew hlen hcount hnames hfits
  have h : s.CanArchive :=
    ⟨hs, hm, hn, hnamed, hsrc, hname, hdst, hover, hcap, hnew, hlen, hcount, hnames, hfits⟩
  obtain ⟨a, ha⟩ := h.exists_addedAs
  obtain ⟨c, o, hclose, hopen, hcode, ho⟩ := h.exists_reopenedAs ha
  obtain ⟨g, hget, hgcode, hres, hstores⟩ := h.exec_arGet ha ho
  exact ⟨a, c, o, g, ha.exec, hclose, hopen, hget, ha.errcode, hcode, ho.errcode, hgcode, hres, hstores⟩

end Sys2Proof.Machine
end

section
/-! PROOFS. AR_OPEN_W on a closed handle, AR_ENUM, AR_SETVER and AR_GETVER (45_archive.md R136, R141 to R143): O40, O48,
O49 and O50. -/

namespace Sys2Proof.Machine

variable {s : State}

/-- Settles O40: the two outcomes of AR_OPEN_W on a closed handle. -/
theorem arOpenWResult : Obligations.ArOpenWResult := by
  intro s hm
  cases hio : s.ioFail .command with
  | true => exact exec_arOpenW_of_ioFail hm hio
  | false => exact ⟨_, exec_arOpenW_of_not_ioFail hm hio, openForWriting_storesAt s⟩

/-! ### Commands that check DST and store an output -/

theorem conclude_checkRange_of_le {r : Region} {k : Unit → Checked State} (h : r.1 + r.2 ≤ s.params.bufSize) :
    s.conclude (s.checkRange r >>= k) = s.conclude (k ()) := by
  rw [checkRange_of_le h, checked_bind_ok]

theorem conclude_emit_of_le {out : ByteString} {k : ByteString → State} (h : out.length ≤ s.dstCap.toNat) :
    s.conclude (emit s.dstCap.toNat out >>= fun out => .ok (k out)) = .next (doneOk (k out)) := by
  rw [emit_of_le h, checked_bind_ok, conclude_ok, succeed_eq_doneOk]

/-- An output that does not fit leaves the DST window open (R66, R151 item 3). -/
theorem conclude_emit_of_lt {out : ByteString} {k : ByteString → Checked State} (h : s.dstCap.toNat < out.length) :
    ∃ m, s.conclude (emit s.dstCap.toNat out >>= k) = .next (doneErr { s with buf := m } .dstFull) ∧
      SameOutside s.buf m s.dstAddr.toNat s.dstCap.toNat := by
  refine ⟨s.buf.release s.dstAddr.toNat s.dstCap.toNat s.stepTag, ?_, sameOutside_release _ _ _ _⟩
  rw [emit_of_lt h, checked_bind_error, conclude_error, fail_emitted]

/-! ### AR_ENUM -/

theorem exec_arEnum (s : State) : exec .arEnum s = execArEnum s := rfl

theorem exec_arEnum_of_unset (hm : s.mode = .unset) : exec .arEnum s = .next (doneErr s .mode) := by
  rw [exec_arEnum, execArEnum, conclude_require_of_eq_false (by rw [hm]; rfl)]

section
variable (hm : s.mode ≠ .unset)
include hm

theorem exec_arEnum_of_range (hdst : s.params.bufSize < s.dstAddr.toNat + s.dstCap.toNat) :
    exec .arEnum s = .next (doneErr s .range) := by
  rw [exec_arEnum, execArEnum, conclude_require_of_eq_true (bne_iff_ne.2 hm),
    conclude_checkRange_of_lt (r := s.dstRegion) hdst]

variable (hdst : s.dstAddr.toNat + s.dstCap.toNat ≤ s.params.bufSize)
include hdst

theorem exec_arEnum_of_missing (hsel : s.idx.length ≤ s.entrySel.toNat) :
    exec .arEnum s = .next (doneErr s .notFound) := by
  rw [exec_arEnum, execArEnum, conclude_require_of_eq_true (bne_iff_ne.2 hm),
    conclude_checkRange_of_le (r := s.dstRegion) hdst, List.getElem?_eq_none hsel]
  rfl

theorem exec_arEnum_of_entry {e : Entry} (he : s.idx[s.entrySel.toNat]? = some e) :
    exec .arEnum s = s.conclude (emit s.dstCap.toNat e.path >>= fun out =>
      .ok (({ s with entryOffset := e.offset, entrySize := e.size }.writeDst out).results out.length 0)) := by
  rw [exec_arEnum, execArEnum, conclude_require_of_eq_true (bne_iff_ne.2 hm),
    conclude_checkRange_of_le (r := s.dstRegion) hdst, he]

end

/-- Settles O48: the checks in their order, then the path of the entry, which fits DST_CAP or leaves the DST window
open. -/
theorem arEnumResult : Obligations.ArEnumResult := by
  refine fun s => ⟨exec_arEnum_of_unset, exec_arEnum_of_range, fun hm hdst =>
    ⟨exec_arEnum_of_missing hm hdst, fun e he => ⟨fun hfits => ?_, fun hfull => ?_⟩⟩⟩
  · refine ⟨_, ?_, storesAt_writeBytes _ _ _⟩
    rw [exec_arEnum_of_entry hm hdst he, conclude_emit_of_le hfits]
    rfl
  · rw [exec_arEnum_of_entry hm hdst he]
    exact conclude_emit_of_lt hfull

/-! ### AR_SETVER -/

theorem exec_arSetver (s : State) : exec .arSetver s = execArSetver s := rfl

theorem exec_arSetver_of_mode (hm : s.mode ≠ .writeOpen) : exec .arSetver s = .next (doneErr s .mode) := by
  rw [exec_arSetver, execArSetver, beq_eq_false_iff_ne.2 hm]
  rfl

theorem exec_arSetver_of_range (hm : s.mode = .writeOpen)
    (hsrc : s.params.bufSize < s.srcAddr.toNat + s.srcLen.toNat) : exec .arSetver s = .next (doneErr s .range) := by
  rw [exec_arSetver, execArSetver, beq_iff_eq.2 hm, require_true, checked_bind_ok,
    checkRange_of_lt (r := s.srcRegion) hsrc]
  rfl

section
variable (hm : s.mode = .writeOpen) (hsrc : s.srcAddr.toNat + s.srcLen.toNat ≤ s.params.bufSize)
include hm hsrc

theorem exec_arSetver_of_valid {v : Word} (hv : verParse s.srcBytes = some v) :
    exec .arSetver s = .next (doneOk { s.results 0 s.srcLen.toNat with version := v }) := by
  rw [exec_arSetver, execArSetver, beq_iff_eq.2 hm, require_true, checked_bind_ok,
    checkRange_of_le (r := s.srcRegion) hsrc]
  dsimp only
  rw [hv]
  rfl

theorem exec_arSetver_of_invalid (hv : verParse s.srcBytes = none) :
    exec .arSetver s = .next (doneWarn (s.results 0 s.srcLen.toNat) .versionParse) := by
  rw [exec_arSetver, execArSetver, beq_iff_eq.2 hm, require_true, checked_bind_ok,
    checkRange_of_le (r := s.srcRegion) hsrc]
  dsimp only
  rw [hv]
  rfl

end

/-- Settles O49: the checks in their order, then the parse of the source. -/
theorem arSetverResult : Obligations.ArSetverResult := by
  refine fun s => ⟨exec_arSetver_of_mode, exec_arSetver_of_range, fun hm hsrc => ⟨fun v hv => ?_, fun hv => ?_⟩⟩
  · rw [exec_arSetver_of_valid hm hsrc hv, results_toNat]
  · rw [exec_arSetver_of_invalid hm hsrc hv, results_toNat]

/-! ### AR_GETVER -/

theorem exec_arGetver (s : State) : exec .arGetver s = execArGetver s := rfl

/-- AR_GETVER past its check (R143). -/
theorem exec_arGetver_of_le (hdst : s.dstAddr.toNat + s.dstCap.toNat ≤ s.params.bufSize) :
    exec .arGetver s = s.conclude (emit s.dstCap.toNat (verFormat s.version) >>= fun out =>
      .ok ((s.writeDst out).results out.length 0)) := by
  rw [exec_arGetver, execArGetver, conclude_checkRange_of_le (r := s.dstRegion) hdst]

/-- Settles O50: the version string fits DST_CAP or leaves the DST window open. -/
theorem arGetverResult : Obligations.ArGetverResult := by
  refine fun s => ⟨fun hrange => ?_, fun hdst hfits => ?_, fun hdst hfull => ?_⟩
  · rw [exec_arGetver, execArGetver, conclude_checkRange_of_lt (r := s.dstRegion) hrange]
  · refine ⟨_, ?_, storesAt_writeBytes _ _ _⟩
    rw [exec_arGetver_of_le hdst, conclude_emit_of_le hfits]
    rfl
  · rw [exec_arGetver_of_le hdst]
    exact conclude_emit_of_lt hfull

end Sys2Proof.Machine
end

section
/-! PROOFS. Archive versions (45_archive.md R129 to R132): O51. The valid versions are the packed lists of at most four
groups of at most 99; what VerParse, VerFormat and VerValid do is said of such lists. -/

namespace Sys2Proof.Machine

/-! ### Splitting and joining -/

/-- VerParse splits at every byte 0x2E (R130). -/
theorem splitDots_eq_splitOn (s : ByteString) : splitDots s = s.splitOn 0x2E#8 := by
  induction s with
  | nil => rfl
  | cons b s ih =>
    rw [splitDots, List.splitOn_cons_eq_if_modifyHead, ih]
    cases hs : s.splitOn 0x2E#8 with
    | nil => exact absurd hs (List.splitOn_ne_nil _ _)
    | cons g gs => simp only [beq_iff_eq, List.modifyHead_cons]

theorem joinDots_eq_intercalate (ts : List ByteString) : joinDots ts = [0x2E#8].intercalate ts := by
  induction ts with
  | nil => rfl
  | cons t ts ih =>
    cases ts with
    | nil => rw [joinDots, List.intercalate_singleton]
    | cons u ts => rw [joinDots, ih, List.intercalate_cons_cons, List.append_assoc, List.singleton_append]

/-! ### Decimal groups -/

/-- DecimalValue, most significant digit first (R130). -/
theorem decimalValue_eq_ofDigits (t : ByteString) :
    decimalValue t = Nat.ofDigits 10 (t.reverse.map fun b => b.toNat - 0x30) := by
  induction t using List.reverseRecOn with
  | nil => rfl
  | append_singleton t b ih =>
    have hstep : decimalValue (t ++ [b]) = 10 * decimalValue t + (b.toNat - 0x30) := by simp [decimalValue]
    rw [hstep, ih, List.reverse_concat, List.map_cons, Nat.ofDigits_cons, Nat.add_comm]

/-- A group of a valid version string (R130). -/
abbrev ValidGroup (t : ByteString) : Prop :=
  t ≠ [] ∧ (∀ b ∈ t, 0x30 ≤ b.toNat ∧ b.toNat ≤ 0x39) ∧ decimalValue t ≤ 99

theorem groupValue_eq (t : ByteString) : groupValue t = if ValidGroup t then some (decimalValue t) else none := by
  simp only [groupValue, ValidGroup, List.all_eq_true, isDigit, Bool.and_eq_true, decide_eq_true_eq]

theorem groupValues_of_valid {ts : List ByteString} (h : ∀ t ∈ ts, ValidGroup t) :
    groupValues ts = some (ts.map decimalValue) := by
  induction ts with
  | nil => rfl
  | cons t ts ih =>
    obtain ⟨ht, hts⟩ := List.forall_mem_cons.1 h
    rw [groupValues, groupValue_eq, if_pos ht, ih hts, List.map_cons]

theorem groupValues_of_not_valid {ts : List ByteString} (h : ¬ ∀ t ∈ ts, ValidGroup t) : groupValues ts = none := by
  induction ts with
  | nil => exact absurd (List.forall_mem_nil _) h
  | cons t ts ih =>
    rw [groupValues, groupValue_eq]
    by_cases ht : ValidGroup t
    · rw [ih fun hts => h (List.forall_mem_cons.2 ⟨ht, hts⟩), if_pos ht]
    · rw [if_neg ht]

/-- VerParse, by the groups of the string (R130). -/
theorem verParse_eq (s : ByteString) : verParse s =
    if (splitDots s).length ≤ 4 ∧ ∀ t ∈ splitDots s, ValidGroup t
    then some (verPack ((splitDots s).map decimalValue)) else none := by
  rw [verParse, ite_and]
  split
  · split
    · next hvalid => rw [groupValues_of_valid hvalid, Option.map_some]
    · next hvalid => rw [groupValues_of_not_valid hvalid, Option.map_none]
  · rfl

/-- The decimal string of a 7-bit value is that of the library (R131). -/
theorem decimalString_eq_toDigits {n : Nat} (h : n < 128) :
    decimalString n = (Nat.toDigits 10 n).map fun c => BitVec.ofNat 8 c.toNat := by
  have hall : ∀ n, n < 128 → decimalString n = (Nat.toDigits 10 n).map fun c => BitVec.ofNat 8 c.toNat := by decide
  exact hall n h

theorem groupValue_decimalString {n : Nat} (h : n ≤ 99) : groupValue (decimalString n) = some n := by
  have hall : ∀ n, n < 100 → groupValue (decimalString n) = some n := by decide
  exact hall n (by omega)

theorem dot_not_mem_decimalString {n : Nat} (h : n ≤ 99) : 0x2E#8 ∉ decimalString n := by
  have hall : ∀ n, n < 100 → 0x2E#8 ∉ decimalString n := by decide
  exact hall n (by omega)

theorem groupValues_map_decimalString {gs : List Nat} (h : ∀ g ∈ gs, g ≤ 99) :
    groupValues (gs.map decimalString) = some gs := by
  induction gs with
  | nil => rfl
  | cons g gs ih =>
    obtain ⟨hg, hgs⟩ := List.forall_mem_cons.1 h
    rw [List.map_cons, groupValues, groupValue_decimalString hg, ih hgs]

/-! ### Packed versions -/

/-- Each group comes into the low byte and shifts the others up (R129). -/
theorem verPack_concat (gs : List Nat) (g : Nat) :
    verPack (gs ++ [g]) = (verPack gs <<< 8) ||| (0x80#32 ||| BitVec.ofNat 32 g) := by
  simp [verPack]

/-- A packed version has the groups for its digits to base 256 (R129). -/
theorem verPack_eq_ofDigits {gs : List Nat} (h : ∀ g ∈ gs, g ≤ 99) :
    verPack gs = BitVec.ofNat 32 (Nat.ofDigits 256 (gs.reverse.map fun g => 0x80 + g)) := by
  induction gs using List.reverseRecOn with
  | nil => rfl
  | append_singleton gs g ih =>
    rw [List.forall_mem_append, List.forall_mem_singleton] at h
    obtain ⟨hgs, hg⟩ := h
    have hbyte : ∀ g, g < 100 → (0x80#32 ||| BitVec.ofNat 32 g).toNat = 0x80 + g := by decide
    rw [verPack_concat, ih hgs, List.reverse_concat, List.map_cons, Nat.ofDigits_cons]
    generalize Nat.ofDigits 256 (gs.reverse.map fun g => 0x80 + g) = n
    apply BitVec.eq_of_toNat_eq
    have hshift : (n % 2 ^ 32) <<< 8 % 2 ^ 32 = (n % 2 ^ 24) <<< 8 := by
      simp only [Nat.shiftLeft_eq]
      omega
    rw [BitVec.toNat_or, BitVec.toNat_shiftLeft, hbyte g (by omega), BitVec.toNat_ofNat, BitVec.toNat_ofNat, hshift,
      ← Nat.shiftLeft_add_eq_or_of_lt (by omega), Nat.shiftLeft_eq]
    omega

/-- The bytes of a version, last to first, are its 4 bytes in little-endian order. -/
theorem verBytes_eq_reverse (v : Word) : verBytes v = (wordBytes v).reverse := rfl

theorem verBytes_injective : Function.Injective verBytes := by
  intro v w h
  have hbytes : wordBytes v = wordBytes w := List.reverse_injective h
  apply BitVec.eq_of_toNat_eq
  rw [← fromLe_wordBytes, hbytes, fromLe_wordBytes]

/-- Byte i of a version, the lowest first. -/
theorem extractLsb'_eq_getD (v : Word) (i : Nat) : v.extractLsb' (8 * i) 8 = (wordBytes v).getD i 0#8 := by
  match i with
  | 0 | 1 | 2 | 3 => rfl
  | i + 4 =>
    have hlt := v.isLt
    have hpow : 2 ^ 32 ≤ 2 ^ (8 * (i + 4)) := Nat.pow_le_pow_right (by decide) (by omega)
    apply BitVec.eq_of_toNat_eq
    rw [BitVec.extractLsb'_toNat, Nat.shiftRight_eq_div_pow, Nat.div_eq_of_lt (by omega)]
    rfl

/-- A byte of a version that stands for a group (R132). -/
abbrev GroupByte (b : Byte) : Prop := b.getLsbD 7 = true ∧ b.toNat % 128 ≤ 99

theorem groupByte_toNat {g : Nat} (h : g ≤ 99) : (groupByte g).toNat % 128 = g := by
  have hall : ∀ g, g < 100 → (groupByte g).toNat % 128 = g := by decide
  exact hall g (by omega)

theorem groupByte_of_bit {b : Byte} (h : b.getLsbD 7 = true) : groupByte (b.toNat % 128) = b := by
  have hall : ∀ b : Byte, b.getLsbD 7 = true → groupByte (b.toNat % 128) = b := by decide
  exact hall b h

/-- VerFormat of packed groups writes the groups (R131). -/
theorem verFormat_verPack {gs : List Nat} (h : ∀ g ∈ gs, g ≤ 99) (hl : gs.length ≤ 4) :
    verFormat (verPack gs) = [0x2E#8].intercalate (gs.map decimalString) := by
  have hzero : (List.replicate (4 - gs.length) 0#8).filter (fun b => b.getLsbD 7) = [] := by simp
  have hbits : (gs.map groupByte).filter (fun b => b.getLsbD 7) = gs.map groupByte := by
    refine List.filter_eq_self.2 fun b hb => ?_
    obtain ⟨g, hg, rfl⟩ := List.mem_map.1 hb
    exact (groupByte_valid (h g hg)).1
  rw [verFormat, joinDots_eq_intercalate, verBytes_verPack h hl, List.filter_append, hzero, hbits, List.nil_append,
    List.map_map]
  congr 1
  exact List.map_congr_left fun g hg => congrArg decimalString (groupByte_toNat (h g hg))

/-- Parsing the formatted string of packed groups gives them back (R131). -/
theorem verParse_verFormat_verPack {gs : List Nat} (hne : gs ≠ []) (h : ∀ g ∈ gs, g ≤ 99) (hl : gs.length ≤ 4) :
    verParse (verFormat (verPack gs)) = some (verPack gs) := by
  have hdots : ∀ t ∈ gs.map decimalString, 0x2E#8 ∉ t := by
    intro t ht
    obtain ⟨g, hg, rfl⟩ := List.mem_map.1 ht
    exact dot_not_mem_decimalString (h g hg)
  have hsplit : splitDots (verFormat (verPack gs)) = gs.map decimalString := by
    rw [verFormat_verPack h hl, splitDots_eq_splitOn, List.splitOn_intercalate _ hdots (by simpa using hne)]
  rw [verParse, hsplit, groupValues_map_decimalString h, if_pos (by simpa using hl), Option.map_some]

/-- The valid versions are the packed lists of at most four groups of at most 99 (R132). -/
theorem verValid_iff_exists_groups (v : Word) :
    verValid v = true ↔ ∃ gs : List Nat, gs.length ≤ 4 ∧ (∀ g ∈ gs, g ≤ 99) ∧ v = verPack gs := by
  constructor
  · intro hv
    simp only [verValid, List.all_eq_true, Bool.and_eq_true, decide_eq_true_eq] at hv
    generalize hbs : (verBytes v).dropWhile (· == 0#8) = bs at hv
    have hsplit := List.takeWhile_append_dropWhile (p := fun b => b == 0#8) (l := verBytes v)
    have hzeros : (verBytes v).takeWhile (· == 0#8) =
        List.replicate ((verBytes v).takeWhile (· == 0#8)).length 0#8 :=
      List.eq_replicate_iff.2 ⟨rfl, fun b hb => by simpa using List.mem_takeWhile_imp hb⟩
    have hlen := congrArg List.length hsplit
    rw [List.length_append, hbs, show (verBytes v).length = 4 from rfl] at hlen
    have hgs : ∀ g ∈ bs.map fun b => b.toNat % 128, g ≤ 99 := by
      intro g hg
      obtain ⟨b, hb, rfl⟩ := List.mem_map.1 hg
      exact (hv b hb).2
    refine ⟨bs.map fun b => b.toNat % 128, by rw [List.length_map]; omega, hgs, verBytes_injective ?_⟩
    rw [verBytes_verPack hgs (by rw [List.length_map]; omega), ← hsplit, hbs, hzeros, List.map_map, List.length_map,
      show 4 - bs.length = ((verBytes v).takeWhile (· == 0#8)).length by omega]
    congr 1
    have hbytes : bs.map (groupByte ∘ fun b => b.toNat % 128) = bs.map id :=
      List.map_congr_left fun b hb => groupByte_of_bit (hv b hb).1
    rw [hbytes, List.map_id]
  · rintro ⟨gs, hl, hg, rfl⟩
    exact verValid_verPack hg hl

/-- R132 byte by byte: k group bytes at the bottom and zero bytes above. -/
def BottomBytes (v : Word) (k : Nat) : Prop :=
  (∀ i, i < k → v.getLsbD (8 * i + 7) = true ∧ (v.extractLsb' (8 * i) 7).toNat ≤ 99) ∧
    ∀ i, k ≤ i → v.extractLsb' (8 * i) 8 = 0#8

theorem bottomBytes_iff (v : Word) (k : Nat) : BottomBytes v k ↔
    (∀ i, i < k → GroupByte ((wordBytes v).getD i 0#8)) ∧ ∀ i, k ≤ i → (wordBytes v).getD i 0#8 = 0#8 := by
  have hbit (i : Nat) : ((wordBytes v).getD i 0#8).getLsbD 7 = v.getLsbD (8 * i + 7) := by
    rw [← extractLsb'_eq_getD, BitVec.getLsbD_extractLsb']
    rfl
  have hval (i : Nat) : ((wordBytes v).getD i 0#8).toNat % 128 = (v.extractLsb' (8 * i) 7).toNat := by
    rw [← extractLsb'_eq_getD, BitVec.extractLsb'_toNat, BitVec.extractLsb'_toNat]
    omega
  simp only [BottomBytes, GroupByte, hbit, hval, extractLsb'_eq_getD]

/-- The bytes of packed groups: the groups at the bottom, the last one lowest (R129). -/
theorem bottomBytes_verPack {gs : List Nat} (h : ∀ g ∈ gs, g ≤ 99) (hl : gs.length ≤ 4) :
    BottomBytes (verPack gs) gs.length := by
  have hbytes : wordBytes (verPack gs) = (gs.map groupByte).reverse ++ List.replicate (4 - gs.length) 0#8 := by
    rw [← List.reverse_reverse (wordBytes _), ← verBytes_eq_reverse, verBytes_verPack h hl, List.reverse_append,
      List.reverse_replicate]
  have hlen : (gs.map groupByte).reverse.length = gs.length := by simp
  rw [bottomBytes_iff, hbytes]
  refine ⟨fun i hi => ?_, fun i hi => ?_⟩
  · rw [List.getD_append _ _ _ _ (hlen.symm ▸ hi), List.getD_eq_getElem _ _ (hlen.symm ▸ hi)]
    obtain ⟨g, hg, heq⟩ := List.mem_map.1 (List.mem_reverse.1 (List.getElem_mem (hlen.symm ▸ hi)))
    exact heq ▸ groupByte_valid (h g hg)
  · rw [List.getD_append_right _ _ _ _ (hlen.symm ▸ hi)]
    rw [List.getD_eq_getElem?_getD, List.getElem?_replicate]
    split <;> rfl

theorem verValid_of_bottomBytes {v : Word} {k : Nat} (hk : k ≤ 4) (h : BottomBytes v k) : verValid v = true := by
  obtain ⟨hlow, hhigh⟩ := (bottomBytes_iff v k).1 h
  have hlen : (wordBytes v).length = 4 := rfl
  have hzeros : ∀ b ∈ (wordBytes v).drop k, b = 0#8 := by
    intro b hb
    obtain ⟨i, hi, rfl⟩ := List.mem_drop_iff_getElem.1 hb
    rw [← List.getD_eq_getElem _ 0#8]
    exact hhigh _ (by omega)
  have hgroups : ∀ b ∈ (wordBytes v).take k, GroupByte b := by
    intro b hb
    obtain ⟨i, hi, rfl⟩ := List.mem_take_iff_getElem.1 hb
    rw [← List.getD_eq_getElem _ 0#8]
    exact hlow i (by omega)
  rw [verValid, verBytes_eq_reverse, ← List.take_append_drop k (wordBytes v), List.reverse_append,
    List.dropWhile_append_of_pos (by simpa using hzeros), List.all_eq_true]
  intro b hb
  obtain ⟨hbit, hval⟩ := hgroups b (List.mem_reverse.1 ((List.dropWhile_sublist _).mem hb))
  simp [hbit, hval]

/-! ### The statement -/

theorem verParse_spec (s : ByteString) :
    let value := fun t : ByteString => Nat.ofDigits 10 (t.reverse.map fun b => b.toNat - 0x30)
    let decimal := fun n : Nat => (Nat.toDigits 10 n).map fun c => BitVec.ofNat 8 c.toNat
    let groups := s.splitOn 0x2E#8
    if groups.length ≤ 4 ∧
      ∀ t ∈ groups, t ≠ [] ∧ (∀ b ∈ t, 0x30 ≤ b.toNat ∧ b.toNat ≤ 0x39) ∧ value t ≤ 99
    then
      let v := BitVec.ofNat 32 (Nat.ofDigits 256 (groups.reverse.map fun t => 0x80 + value t))
      verParse s = some v ∧
      verFormat v = [0x2E#8].intercalate (groups.map fun t => decimal (value t))
    else verParse s = none := by
  intro value decimal groups
  have hvalue : ∀ t, decimalValue t = value t := decimalValue_eq_ofDigits
  have hgroups : splitDots s = groups := splitDots_eq_splitOn s
  have hparse := verParse_eq s
  simp only [ValidGroup, hvalue, hgroups] at hparse
  split
  · next hvalid =>
    rw [if_pos hvalid] at hparse
    obtain ⟨hlen, hvalid⟩ := hvalid
    have hle : ∀ g ∈ groups.map decimalValue, g ≤ 99 := by
      intro g hg
      obtain ⟨t, ht, rfl⟩ := List.mem_map.1 hg
      obtain ⟨-, -, h99⟩ := hvalid t ht
      exact hvalue t ▸ h99
    have hpack : verPack (groups.map decimalValue) =
        BitVec.ofNat 32 (Nat.ofDigits 256 (groups.reverse.map fun t => 0x80 + value t)) := by
      rw [verPack_eq_ofDigits hle, ← List.map_reverse, List.map_map]
      simp only [Function.comp_def, hvalue]
    rw [← hpack]
    refine ⟨hparse, ?_⟩
    rw [verFormat_verPack hle (by simpa using hlen), List.map_map]
    congr 1
    refine List.map_congr_left fun t ht => ?_
    have h99 := hle _ (List.mem_map_of_mem ht)
    rw [Function.comp_apply, decimalString_eq_toDigits (by omega), hvalue]
  · next hinvalid => rw [hparse, if_neg hinvalid]

theorem verFormat_spec (v : Word) : verFormat v = [0x2E#8].intercalate
    (([v.extractLsb' 24 8, v.extractLsb' 16 8, v.extractLsb' 8 8, v.extractLsb' 0 8].filter
      fun b => b.getLsbD 7).map fun b => (Nat.toDigits 10 (b.extractLsb' 0 7).toNat).map
        fun c => BitVec.ofNat 8 c.toNat) := by
  rw [verFormat, joinDots_eq_intercalate]
  congr 1
  refine List.map_congr_left fun b _ => ?_
  have hlow : (b.extractLsb' 0 7).toNat = b.toNat % 128 := by
    rw [BitVec.extractLsb'_toNat, Nat.shiftRight_zero]
  rw [decimalString_eq_toDigits (by omega), hlow]

theorem verValid_spec (v : Word) : verValid v = true ↔ v = 0#32 ∨ ∃ k, 1 ≤ k ∧ k ≤ 4 ∧ BottomBytes v k := by
  constructor
  · intro hv
    obtain ⟨gs, hl, hg, rfl⟩ := (verValid_iff_exists_groups v).1 hv
    cases gs with
    | nil => exact .inl rfl
    | cons g gs => exact .inr ⟨_, by simp, hl, bottomBytes_verPack hg hl⟩
  · rintro (rfl | ⟨k, -, hk, h⟩)
    · exact verValid_zero
    · exact verValid_of_bottomBytes hk h

/-- Parsing the formatted string of a valid version gives it back (R131). -/
theorem verParse_verFormat {v : Word} (hv : verValid v = true) (hne : v ≠ 0#32) :
    verParse (verFormat v) = some v := by
  obtain ⟨gs, hl, hg, rfl⟩ := (verValid_iff_exists_groups v).1 hv
  refine verParse_verFormat_verPack ?_ hg hl
  rintro rfl
  exact hne rfl

/-- Settles O51: a valid version is a packed list of groups, and VerParse and VerFormat go from strings to such
lists and back. -/
theorem versionFormatParse : Obligations.VersionFormatParse := by
  refine ⟨verParse_spec, verFormat_spec, verValid_spec, fun v => ⟨fun hv => ?_, ?_⟩, fun v => verParse_verFormat⟩
  · by_cases hne : v = 0#32
    · exact .inl hne
    · exact .inr ⟨_, verParse_verFormat hv hne⟩
  · rintro (rfl | ⟨str, hstr⟩)
    · exact verValid_zero
    · exact verValid_of_verParse hstr

end Sys2Proof.Machine
end

section
/-! PROOFS. MODE (45_archive.md R133): O54. A command that is concluded keeps MODE; only the four commands that the
table restricts raise the error MODE. -/

namespace Sys2Proof.Machine

variable {i : Instr} {s t : State}

/-! ### What a command does to MODE -/

/-- The commands that R133 restricts to some modes. -/
abbrev RequiresMode (i : Instr) : Prop := i = .arAdd ∨ i = .arGet ∨ i = .arEnum ∨ i = .arSetver

/-- The commands that may change MODE (R133). -/
abbrev ChangesMode (i : Instr) : Prop := i = .arOpenW ∨ i = .arOpenR ∨ i = .arClose ∨ i = .sreset

/-- What R133 says of a command that goes from s to t. -/
structure ModeOutcome (i : Instr) (s t : State) : Prop where
  error : t.errcode = .mode → RequiresMode i
  success : t.err = false → t.mode = modeAfter i s.mode
  change : t.mode ≠ s.mode → ChangesMode i

/-- A failure other than MODE, or of a command that R133 restricts. -/
abbrev ModeFailure (i : Instr) (f : Failure) : Prop := f.code = .mode → RequiresMode i

theorem fail_mode (s : State) (f : Failure) : (s.fail f).mode = s.mode := by rw [fail_eq]; rfl

theorem fail_errcode (s : State) (f : Failure) : (s.fail f).errcode = f.code := by rw [fail_eq]; rfl

/-- A command whose MODE stays, whatever its outcome. -/
theorem modeOutcome_of_kept (hi : modeAfter i s.mode = s.mode) (ht : t.mode = s.mode)
    (herr : t.errcode = .mode → RequiresMode i) : ModeOutcome i s t :=
  ⟨herr, fun _ => ht.trans hi.symm, fun hne => absurd ht hne⟩

/-- A concluded command keeps MODE when its success does: a failure always does. -/
theorem modeOutcome_of_conclude {r : Checked State} (h : s.conclude r = .next t)
    (hr : Meets r (fun u => u.mode = s.mode) (ModeFailure i)) (hi : modeAfter i s.mode = s.mode := by rfl) :
    ModeOutcome i s t := by
  cases r with
  | ok u => cases h; exact modeOutcome_of_kept hi (hr.value u rfl) nofun
  | error f =>
    cases h
    exact modeOutcome_of_kept hi (fail_mode s f) (fail_errcode s f ▸ hr.failure f rfl)

/-- The same for a command that R133 restricts, of whose failures nothing is asked. -/
theorem modeOutcome_of_conclude_of_requiresMode {r : Checked State} (h : s.conclude r = .next t)
    (hr : Meets r (fun u => u.mode = s.mode) fun _ => True) (hreq : RequiresMode i := by decide)
    (hi : modeAfter i s.mode = s.mode := by rfl) : ModeOutcome i s t :=
  modeOutcome_of_conclude h ⟨hr.value, fun _ _ _ => hreq⟩ hi

theorem meets_mode_kept {u : State} {E : Failure → Prop} (h : u.mode = s.mode := by simp) :
    Meets (.ok u) (fun u => u.mode = s.mode) E := meets_ok h

/-! ### Computations that do not fail with MODE -/

theorem modeFailure_of_ne {f : Failure} (h : f.code ≠ .mode) : ModeFailure i f := fun hf => absurd hf h

theorem meets_notMode {α : Type} {r : Checked α} (h : ∀ f, r = .error f → f.code ≠ .mode) :
    Meets r (fun _ => True) (ModeFailure i) :=
  ⟨fun _ _ => trivial, fun f hf => modeFailure_of_ne (h f hf)⟩

theorem meets_require_notMode (p : Bool) {c : ErrCode} (hc : c ≠ .mode := by decide) :
    Meets (require p c) (fun _ => True) (ModeFailure i) :=
  meets_notMode fun f hf => by
    obtain ⟨-, rfl⟩ := require_eq_error.1 hf
    exact hc

theorem meets_checkRange_notMode (s : State) (r : Region) :
    Meets (s.checkRange r) (fun _ => True) (ModeFailure i) :=
  meets_require_notMode _

theorem meets_checkSrcDst_notMode (s : State) : Meets s.checkSrcDst (fun _ => True) (ModeFailure i) :=
  (meets_checkRange_notMode s _).bind fun _ _ => (meets_checkRange_notMode s _).bind fun _ _ =>
    meets_require_notMode _

theorem meets_emit_notMode (cap : Nat) (bs : ByteString) :
    Meets (emit cap bs) (fun _ => True) (ModeFailure i) :=
  meets_notMode fun f hf => by
    obtain ⟨-, rfl⟩ := emit_eq_error.1 hf
    decide

theorem meets_freqParse_notMode (b : ByteString) : Meets (freqParse b) (fun _ => True) (ModeFailure i) :=
  meets_notMode fun f hf => by
    rw [eq_format_of_freqParse hf]
    decide

theorem meets_walk_notMode (cap : Nat) (n : Option Node) (b : ByteString) (m : Nat) :
    Meets (walk cap n b m) (fun _ => True) (ModeFailure i) :=
  meets_notMode fun f hf => by
    obtain ⟨hc | hc, -⟩ := walkFailure_of_walk hf <;> rw [hc] <;> decide

theorem meets_decodeBlock_notMode (p : TiePolicy) (cap : Nat) (b : ByteString) :
    Meets (decodeBlock p cap b) (fun _ => True) (ModeFailure i) :=
  meets_notMode fun f hf => by
    obtain ⟨hc | hc | hc, -⟩ := (meets_decodeBlock_failure p cap b).failure f hf <;> rw [hc] <;> decide

theorem meets_checkFrame_notMode (p : Params) (f : ByteString) :
    Meets (checkFrame p f) (fun _ => True) (ModeFailure i) :=
  (meets_require_notMode _).bind fun _ _ => (meets_require_notMode _).bind fun _ _ =>
    (meets_require_notMode _).bind fun _ _ => (meets_require_notMode _).bind fun _ _ => meets_ok trivial

/-! ### The commands of the handle -/

theorem modeOutcome_arOpenW (h : exec .arOpenW s = .next t) : ModeOutcome .arOpenW s t := by
  obtain hu | hu := exec_arOpenW_cases s <;> obtain rfl := Host.Outcome.next.inj (hu.symm.trans h)
  · exact ⟨nofun, nofun, fun _ => .inl rfl⟩
  · exact ⟨nofun, fun _ => rfl, fun _ => .inl rfl⟩

theorem modeOutcome_arOpenR (h : exec .arOpenR s = .next t) : ModeOutcome .arOpenR s t := by
  have hclosed := (exec_arOpenR_implicitClose s).trans h
  obtain ⟨o, hu⟩ | ⟨c, hu⟩ := execArOpenR_cases s <;> obtain rfl := Host.Outcome.next.inj (hu.symm.trans h)
  · exact ⟨nofun, fun _ => rfl, fun _ => .inr (.inl rfl)⟩
  · obtain ⟨-, hcode⟩ := exec_arOpenR_failed (implicitClose_mode s) hclosed rfl
    refine ⟨fun hmode => ?_, nofun, fun _ => .inr (.inl rfl)⟩
    rw [hmode] at hcode
    exact absurd hcode (by decide)

/-- After a close, whatever its outcome, the handle is closed (R139). -/
theorem closeArchive_mode (s : State) (d : IoDraw) : (s.closeArchive d).1.mode = .unset := by
  obtain ⟨hm, hc⟩ | ⟨-, hc⟩ | ⟨-, -, hc⟩ | ⟨-, -, -, hc⟩ | ⟨-, -, -, hc⟩ := closeArchive_cases s d <;> rw [hc]
  · exact hm
  all_goals rfl

theorem modeOutcome_arClose (h : execArClose s = .next t) : ModeOutcome .arClose s t := by
  obtain hu | hu := execArClose_cases s <;> obtain rfl := Host.Outcome.next.inj (hu.symm.trans h)
  · exact ⟨nofun, fun _ => closeArchive_mode s _, fun _ => .inr (.inr (.inl rfl))⟩
  · exact ⟨nofun, nofun, fun _ => .inr (.inr (.inl rfl))⟩

/-! ### The other commands of the archive -/

theorem appendFrame_mode (s : State) : s.appendFrame.mode = s.mode := by rw [appendFrame_eq]

theorem modeOutcome_arAdd (h : execArAdd s = .next t) : ModeOutcome .arAdd s t := by
  rw [execArAdd_eq] at h
  refine modeOutcome_of_conclude_of_requiresMode h ?_
  cases s.addError with
  | some c => exact meets_error trivial
  | none =>
    rw [unlessError_none, State.addFrame]
    split
    · exact meets_error trivial
    · exact meets_mode_kept (appendFrame_mode s)

theorem modeOutcome_arGet (h : execArGet s = .next t) : ModeOutcome .arGet s t := by
  refine modeOutcome_of_conclude_of_requiresMode h (meets_then fun _ => meets_then fun _ => meets_then fun _ =>
    meets_then fun _ => ?_)
  cases findEntry s.nameBytes s.idx with
  | none => exact meets_error trivial
  | some e =>
    exact meets_then fun _ => meets_then fun _ => meets_then fun _ => meets_then fun _ => meets_then fun _ =>
      meets_mode_kept

theorem modeOutcome_arEnum (h : execArEnum s = .next t) : ModeOutcome .arEnum s t := by
  refine modeOutcome_of_conclude_of_requiresMode h (meets_then fun _ => meets_then fun _ => ?_)
  cases s.idx[s.entrySel.toNat]? with
  | none => exact meets_error trivial
  | some e => exact meets_then fun _ => meets_mode_kept

theorem modeOutcome_arSetver (h : execArSetver s = .next t) : ModeOutcome .arSetver s t := by
  have hreq : t.errcode = .mode → RequiresMode .arSetver := fun _ => by decide
  unfold execArSetver at h
  split at h
  · next f _ => cases h; exact modeOutcome_of_kept rfl (fail_mode s f) hreq
  · dsimp only at h
    split at h <;> (cases h; exact modeOutcome_of_kept rfl rfl hreq)

/-! ### Every command -/

theorem modeOutcome_exec (h : exec i s = .next t) : ModeOutcome i s t := by
  cases i with
  | nop => exact modeOutcome_of_conclude (r := .ok (s.results 0 0)) h meets_mode_kept
  | freqCount =>
    exact modeOutcome_of_conclude h ((meets_checkRange_notMode s _).bind fun _ _ => meets_mode_kept)
  | freqSer =>
    exact modeOutcome_of_conclude h ((meets_checkRange_notMode s _).bind fun _ _ =>
      (meets_emit_notMode _ _).bind fun _ _ => meets_mode_kept)
  | freqDes =>
    exact modeOutcome_of_conclude h ((meets_checkRange_notMode s _).bind fun _ _ =>
      (meets_freqParse_notMode _).bind fun _ _ => meets_mode_kept)
  | treeBuild => exact modeOutcome_of_conclude (r := .ok ((s.setTree s.freq).results 0 0)) h meets_mode_kept
  | codeGen => exact modeOutcome_of_conclude h ((meets_require_notMode _).bind fun _ _ => meets_mode_kept)
  | symEncode =>
    exact modeOutcome_of_conclude h ((meets_checkSrcDst_notMode s).bind fun _ _ =>
      (meets_require_notMode _).bind fun _ _ => (meets_require_notMode _).bind fun _ _ =>
      (meets_emit_notMode _ _).bind fun _ _ => meets_mode_kept)
  | symDecode =>
    exact modeOutcome_of_conclude h ((meets_checkSrcDst_notMode s).bind fun _ _ =>
      (meets_require_notMode _).bind fun _ _ => (meets_require_notMode _).bind fun _ _ =>
      (meets_walk_notMode _ _ _ _).bind fun _ _ => meets_mode_kept)
  | hufEncode =>
    exact modeOutcome_of_conclude h ((meets_checkSrcDst_notMode s).bind fun _ _ =>
      (meets_emit_notMode _ _).bind fun _ _ => meets_mode_kept)
  | hufDecode =>
    exact modeOutcome_of_conclude h ((meets_checkSrcDst_notMode s).bind fun _ _ =>
      (meets_decodeBlock_notMode _ _ _).bind fun _ _ => meets_mode_kept)
  | frame =>
    exact modeOutcome_of_conclude h ((meets_checkSrcDst_notMode s).bind fun _ _ =>
      (meets_emit_notMode _ _).bind fun _ _ => meets_mode_kept)
  | unframe =>
    exact modeOutcome_of_conclude h ((meets_checkSrcDst_notMode s).bind fun _ _ =>
      (meets_checkFrame_notMode _ _).bind fun _ _ => (meets_emit_notMode _ _).bind fun _ _ => meets_mode_kept)
  | arOpenW => exact modeOutcome_arOpenW h
  | arOpenR => exact modeOutcome_arOpenR h
  | arAdd => exact modeOutcome_arAdd h
  | arClose => exact modeOutcome_arClose h
  | arGet => exact modeOutcome_arGet h
  | arEnum => exact modeOutcome_arEnum h
  | arSetver => exact modeOutcome_arSetver h
  | arGetver =>
    exact modeOutcome_of_conclude h ((meets_checkRange_notMode s _).bind fun _ _ =>
      (meets_emit_notMode _ _).bind fun _ _ => meets_mode_kept)
  | sreset =>
    cases h
    exact ⟨nofun, fun _ => rfl, fun _ => .inr (.inr (.inr rfl))⟩

/-- Settles O54: MODE is the first check of the restricted commands, and the table holds command by command. -/
theorem handleModeTable : Obligations.HandleModeTable := by
  refine ⟨fun s hm => ⟨exec_arAdd_of_error (if_pos hm), exec_arSetver_of_mode hm⟩,
    fun s hm => exec_arGet_of_error (if_pos hm), fun s => exec_arEnum_of_unset, ?_, ?_, ?_⟩
  · exact fun i s t h => (modeOutcome_exec h).error
  · exact fun i s t h => (modeOutcome_exec h).success
  · exact fun i s t h => (modeOutcome_exec h).change

end Sys2Proof.Machine
end

section
/-! PROOFS. The commands NOP and SRESET (46_control.md R144, R145): O18. Neither has an operand to check, so each is
one completion; the reset that SRESET completes is the table of reset values. -/

namespace Sys2Proof.Machine

theorem exec_nop (s : State) : exec .nop s = execNop s := rfl

theorem exec_sreset (s : State) : exec .sreset s = execSreset s := rfl

/-- The reset inside the engine is R55's table, with BUF, ARC and the host's own state as they were. -/
theorem engineReset_eq_resetValues (s : State) : s.engineReset = resetValues s := rfl

/-- DONE, at bit 1, is the only STATUS bit set once a reset has completed (R30, R145). -/
theorem statusWord_doneOk_resetValues (s : State) : (doneOk (resetValues s)).statusWord = 0x00000002#32 := by
  have hbusy : (doneOk (resetValues s)).busy = false := rfl
  rw [State.statusWord, hbusy]
  simp only [doneOk, resetValues]
  decide

/-- Settles O18: the two commands are concluded successes, and STATUS after SRESET is DONE alone. -/
theorem controlCommandResults : Obligations.ControlCommandResults := by
  intro s
  refine ⟨?nop, ?sreset, statusWord_doneOk_resetValues s, ?buf, ?arc⟩
  case nop => rw [exec_nop, execNop, conclude_ok, succeed_eq_doneOk, State.results]
  case sreset => rw [exec_sreset, execSreset, conclude_ok, succeed_eq_doneOk, engineReset_eq_resetValues]
  case buf => rfl
  case arc => rfl

end Sys2Proof.Machine
end

section
/-! PROOFS. How every command completes (60_exceptions.md R148 to R153): O7, O58 and O55. One case list of the ways a
command can end is proved command by command; the three statements read it. -/

namespace Sys2Proof.Machine

variable {i : Instr} {s t : State}

/-! ### The ways to complete -/

/-- The codes a failure reports: neither success nor the warning (R147, R150). -/
abbrev IsError (c : ErrCode) : Prop := c ≠ .ok ∧ c ≠ .versionParse

/-- What R151 says of a failure of a command: output has begun only for DST_FULL and CORRUPT, and only a failed
append opens ARC, from the frame offset up. -/
structure FailureOf (i : Instr) (s : State) (f : Failure) : Prop where
  isError : IsError f.code
  output : f.emitted = true → f.code = .dstFull ∨ f.code = .corrupt
  archive : ∀ o, f.arcFrom = some o → i = .arAdd ∧ s.ioFail .command = true ∧ o = s.arcOffset.toNat

/-- The commands whose failure clauses are their own (R134, R136, R137, R139). -/
abbrev OpensOrCloses (i : Instr) : Prop := i = .arOpenW ∨ i = .arOpenR ∨ i = .arClose

/-- ERR_STICKY as the effects of a command leave it, before the completion (R145, R153). -/
def stickyAfter (i : Instr) (s : State) : Bool := if i = .sreset then false else s.errSticky

/-- The ways a command takes s to its completion (R148 item 2, R151, R152). -/
inductive Completion (i : Instr) (s : State) : State → Prop where
  | success (u : State) (h : u.errSticky = stickyAfter i s) : Completion i s (doneOk u)
  | warning (u : State) (hi : i = .arSetver) (h : u.errSticky = s.errSticky) :
      Completion i s (doneWarn u .versionParse)
  | failure (f : Failure) (hi : i ≠ .sreset) (h : FailureOf i s f) : Completion i s (s.fail f)
  | handleFailure (u : State) (c : ErrCode) (hi : OpensOrCloses i) (h : IsError c) : Completion i s (doneErr u c)

/-- An outcome is a next state in which the command has completed. -/
def Completes (i : Instr) (s : State) (o : Outcome) : Prop := ∃ t, o = .next t ∧ Completion i s t

theorem completes_next (h : Completion i s t) : Completes i s (.next t) := ⟨t, rfl, h⟩

/-- A failure before any output. -/
theorem completes_doneErr {c : ErrCode} (hi : i ≠ .sreset := by decide) (hc : IsError c := by decide) :
    Completes i s (.next (doneErr s c)) :=
  completes_next (fail_plain s c ▸ .failure { code := c } hi ⟨hc, nofun, nofun⟩)

theorem completes_succeed {u : State} (h : u.errSticky = stickyAfter i s) : Completes i s (.next u.succeed) :=
  completes_next (.success u h)

theorem completes_reportError {u : State} {c : ErrCode} (hi : OpensOrCloses i := by decide)
    (hc : IsError c := by decide) : Completes i s (.next (u.reportError c)) :=
  completes_next (.handleFailure u c hi hc)

/-- A concluded command completes when its success keeps ERR_STICKY and R151 holds of its failures. -/
theorem completes_conclude {r : Checked State} (hr : Meets r (fun u => u.errSticky = s.errSticky) (FailureOf i s))
    (hi : i ≠ .sreset := by decide) : Completes i s (s.conclude r) := by
  cases r with
  | ok u => exact completes_succeed ((hr.value u rfl).trans (if_neg hi).symm)
  | error f => exact completes_next (.failure f hi (hr.failure f rfl))

theorem meets_sticky_kept {u : State} {E : Failure → Prop} (h : u.errSticky = s.errSticky := by simp) :
    Meets (.ok u) (fun u => u.errSticky = s.errSticky) E := meets_ok h

/-! ### The failures of the checks and the shared computations -/

theorem failureOf_plain {c : ErrCode} (h : IsError c := by decide) : FailureOf i s { code := c } :=
  ⟨h, nofun, nofun⟩

/-- A walk fails with the codes that output may have begun for, and so does an output that does not fit. -/
theorem failureOf_of_walkFailure {f : Failure} (h : WalkFailure f) : FailureOf i s f := by
  obtain ⟨hcode, harc⟩ := h
  refine ⟨?_, fun _ => hcode.symm, fun o ho => nomatch harc.symm.trans ho⟩
  obtain hc | hc := hcode <;> rw [hc] <;> decide

theorem meets_require_failureOf (p : Bool) {c : ErrCode} (hc : IsError c := by decide) :
    Meets (require p c) (fun _ => True) (FailureOf i s) := by
  cases p with
  | true => exact meets_ok trivial
  | false => exact meets_error (failureOf_plain hc)

theorem meets_checkRange_failureOf (u : State) (r : Region) :
    Meets (u.checkRange r) (fun _ => True) (FailureOf i s) :=
  meets_require_failureOf _

theorem meets_checkSrcDst_failureOf (u : State) : Meets u.checkSrcDst (fun _ => True) (FailureOf i s) :=
  (meets_checkRange_failureOf u _).bind fun _ _ => (meets_checkRange_failureOf u _).bind fun _ _ =>
    meets_require_failureOf _

theorem meets_emit_failureOf (cap : Nat) (bs : ByteString) :
    Meets (emit cap bs) (fun _ => True) (FailureOf i s) :=
  ⟨fun _ _ => trivial, fun _ hf => (emit_eq_error.1 hf).2 ▸ failureOf_of_walkFailure ⟨.inr rfl, rfl⟩⟩

theorem meets_freqParse_failureOf (b : ByteString) : Meets (freqParse b) (fun _ => True) (FailureOf i s) :=
  ⟨fun _ _ => trivial, fun _ hf => eq_format_of_freqParse hf ▸ failureOf_plain⟩

theorem meets_walk_failureOf (cap : Nat) (n : Option Node) (b : ByteString) (m : Nat) :
    Meets (walk cap n b m) (fun _ => True) (FailureOf i s) :=
  ⟨fun _ _ => trivial, fun _ hf => failureOf_of_walkFailure (walkFailure_of_walk hf)⟩

theorem meets_decodeBlock_failureOf (p : TiePolicy) (cap : Nat) (b : ByteString) :
    Meets (decodeBlock p cap b) (fun _ => True) (FailureOf i s) := by
  refine (meets_freqParse_failureOf b).bind fun (f, c) _ => ?_
  dsimp only
  split
  · exact meets_ok trivial
  · exact (meets_require_failureOf _).bind fun _ _ => (meets_require_failureOf _).bind fun _ _ =>
      (meets_walk_failureOf _ _ _ _).bind fun _ _ => meets_ok trivial

theorem meets_checkFrame_failureOf (p : Params) (f : ByteString) :
    Meets (checkFrame p f) (fun _ => True) (FailureOf i s) :=
  (meets_require_failureOf _).bind fun _ _ => (meets_require_failureOf _).bind fun _ _ =>
    (meets_require_failureOf _).bind fun _ _ => (meets_require_failureOf _).bind fun _ _ => meets_ok trivial

/-! ### The opens and the close -/

@[simp] theorem closeArchive_errSticky (s : State) (d : IoDraw) :
    (s.closeArchive d).1.errSticky = s.errSticky := by
  obtain ⟨-, hc⟩ | ⟨-, hc⟩ | ⟨-, -, hc⟩ | ⟨-, -, -, hc⟩ | ⟨-, -, -, hc⟩ := closeArchive_cases s d <;>
    simp [hc]

@[simp] theorem implicitClose_errSticky (s : State) : s.implicitClose.errSticky = s.errSticky := by
  by_cases hs : s.mode = .unset
  · rw [implicitClose_of_unset hs]
  · rw [implicitClose_of_open hs, closeArchive_errSticky]

theorem completes_arOpenW (s : State) : Completes .arOpenW s (exec .arOpenW s) := by
  obtain hx | hx := exec_arOpenW_cases s <;> rw [hx]
  · exact completes_reportError
  · exact completes_succeed (implicitClose_errSticky s)

theorem completes_arOpenR (s : State) : Completes .arOpenR s (exec .arOpenR s) := by
  rw [← exec_arOpenR_implicitClose]
  have hm := implicitClose_mode s
  cases hread : s.implicitClose.readIndex with
  | ok o =>
    rw [exec_arOpenR_of_ok hm hread]
    exact completes_next (.success _ (implicitClose_errSticky s))
  | error f =>
    have herr : IsError f.code := by
      obtain hc | hc | hc := openErrorCode_of_readIndex hread <;> rw [hc] <;> decide
    rw [exec_arOpenR_of_error hm hread]
    exact completes_next (.handleFailure _ _ (by decide) herr)

theorem completes_arClose (s : State) : Completes .arClose s (exec .arClose s) := by
  rw [exec_arClose]
  obtain hx | hx := execArClose_cases s <;> rw [hx]
  · exact completes_succeed (closeArchive_errSticky s _)
  · exact completes_reportError

/-! ### The other commands of the archive -/

theorem completes_arAdd (s : State) : Completes .arAdd s (execArAdd s) := by
  refine completes_conclude ((meets_require_failureOf _).bind fun _ _ => (meets_require_failureOf _).bind fun _ _ =>
    (meets_checkRange_failureOf s _).bind fun _ _ => (meets_checkRange_failureOf s _).bind fun _ _ =>
    (meets_require_failureOf _).bind fun _ _ => (meets_require_failureOf _).bind fun _ _ =>
    (meets_require_failureOf _).bind fun _ _ => ?_)
  cases hio : s.ioFail .command with
  | true => exact meets_error ⟨⟨nofun, nofun⟩, nofun, fun _ ho => ⟨rfl, hio, (Option.some.inj ho).symm⟩⟩
  | false => exact meets_sticky_kept (by rw [appendFrame_eq]; rfl)

theorem completes_arGet (s : State) : Completes .arGet s (execArGet s) := by
  refine completes_conclude ((meets_require_failureOf _).bind fun _ _ =>
    (meets_checkRange_failureOf s _).bind fun _ _ => (meets_checkRange_failureOf s _).bind fun _ _ =>
    (meets_require_failureOf _).bind fun _ _ => ?_)
  cases findEntry s.nameBytes s.idx with
  | none => exact meets_error failureOf_plain
  | some e =>
    exact (meets_require_failureOf _).bind fun _ _ => (meets_require_failureOf _).bind fun _ _ =>
      (meets_require_failureOf _).bind fun _ _ => (meets_checkFrame_failureOf _ _).bind fun _ _ =>
      (meets_decodeBlock_failureOf _ _ _).bind fun _ _ => meets_sticky_kept

theorem completes_arEnum (s : State) : Completes .arEnum s (execArEnum s) := by
  refine completes_conclude ((meets_require_failureOf _).bind fun _ _ =>
    (meets_checkRange_failureOf s _).bind fun _ _ => ?_)
  cases s.idx[s.entrySel.toNat]? with
  | none => exact meets_error failureOf_plain
  | some e => exact (meets_emit_failureOf _ _).bind fun _ _ => meets_sticky_kept

theorem completes_arSetver (s : State) : Completes .arSetver s (exec .arSetver s) := by
  by_cases hm : s.mode = .writeOpen
  · rcases Nat.lt_or_ge s.params.bufSize (s.srcAddr.toNat + s.srcLen.toNat) with hsrc | hsrc
    · exact exec_arSetver_of_range hm hsrc ▸ completes_doneErr
    · cases hv : verParse s.srcBytes with
      | none => exact exec_arSetver_of_invalid hm hsrc hv ▸ completes_next (.warning _ rfl rfl)
      | some v => exact exec_arSetver_of_valid hm hsrc hv ▸ completes_next (.success _ rfl)
  · exact exec_arSetver_of_mode hm ▸ completes_doneErr

/-! ### Every command -/

/-- Every command of every state completes in one of the ways. -/
theorem completes_exec (i : Instr) (s : State) : Completes i s (exec i s) := by
  cases i with
  | nop => exact completes_conclude (r := .ok (s.results 0 0)) meets_sticky_kept
  | freqCount => exact completes_conclude ((meets_checkRange_failureOf s _).bind fun _ _ => meets_sticky_kept)
  | freqSer =>
    exact completes_conclude ((meets_checkRange_failureOf s _).bind fun _ _ =>
      (meets_emit_failureOf _ _).bind fun _ _ => meets_sticky_kept)
  | freqDes =>
    exact completes_conclude ((meets_checkRange_failureOf s _).bind fun _ _ =>
      (meets_freqParse_failureOf _).bind fun _ _ => meets_sticky_kept)
  | treeBuild => exact completes_conclude (r := .ok ((s.setTree s.freq).results 0 0)) meets_sticky_kept
  | codeGen => exact completes_conclude ((meets_require_failureOf _).bind fun _ _ => meets_sticky_kept)
  | symEncode =>
    exact completes_conclude ((meets_checkSrcDst_failureOf s).bind fun _ _ =>
      (meets_require_failureOf _).bind fun _ _ => (meets_require_failureOf _).bind fun _ _ =>
      (meets_emit_failureOf _ _).bind fun _ _ => meets_sticky_kept)
  | symDecode =>
    exact completes_conclude ((meets_checkSrcDst_failureOf s).bind fun _ _ =>
      (meets_require_failureOf _).bind fun _ _ => (meets_require_failureOf _).bind fun _ _ =>
      (meets_walk_failureOf _ _ _ _).bind fun _ _ => meets_sticky_kept)
  | hufEncode =>
    exact completes_conclude ((meets_checkSrcDst_failureOf s).bind fun _ _ =>
      (meets_emit_failureOf _ _).bind fun _ _ => meets_sticky_kept)
  | hufDecode =>
    exact completes_conclude ((meets_checkSrcDst_failureOf s).bind fun _ _ =>
      (meets_decodeBlock_failureOf _ _ _).bind fun _ _ => meets_sticky_kept)
  | frame =>
    exact completes_conclude ((meets_checkSrcDst_failureOf s).bind fun _ _ =>
      (meets_emit_failureOf _ _).bind fun _ _ => meets_sticky_kept)
  | unframe =>
    exact completes_conclude ((meets_checkSrcDst_failureOf s).bind fun _ _ =>
      (meets_checkFrame_failureOf _ _).bind fun _ _ => (meets_emit_failureOf _ _).bind fun _ _ =>
      meets_sticky_kept)
  | arOpenW => exact completes_arOpenW s
  | arOpenR => exact completes_arOpenR s
  | arAdd => exact completes_arAdd s
  | arClose => exact completes_arClose s
  | arGet => exact completes_arGet s
  | arEnum => exact completes_arEnum s
  | arSetver => exact completes_arSetver s
  | arGetver =>
    exact completes_conclude ((meets_checkRange_failureOf s _).bind fun _ _ =>
      (meets_emit_failureOf _ _).bind fun _ _ => meets_sticky_kept)
  | sreset => exact completes_succeed (u := s.engineReset) rfl

theorem completion_of_exec (h : exec i s = .next t) : Completion i s t := by
  obtain ⟨u, hu, hc⟩ := completes_exec i s
  exact Host.Outcome.next.inj (hu.symm.trans h) ▸ hc

/-! ### What a failure leaves -/

/-- A failure is a completion of the state before it, BUF and ARC aside. -/
theorem fail_eq_doneErr (s : State) (f : Failure) :
    s.fail f = doneErr { s with buf := (s.fail f).buf, arc := (s.fail f).arc } f.code := by
  simp only [fail_eq, doneErr]

theorem fail_buf_of_no_output {f : Failure} (h : f.emitted = false) : (s.fail f).buf = s.buf := by
  simp only [fail_eq, doneErr, h, Bool.false_eq_true, if_false]

theorem fail_arc_of_none {f : Failure} (h : f.arcFrom = none) : (s.fail f).arc = s.arc := by
  simp only [fail_eq, doneErr, h]

/-- A failure that opens ARC leaves the bytes below its offset alone (R151 item 4). -/
theorem fail_arc_read_of_some {f : Failure} {o x : Nat} (h : f.arcFrom = some o) (hx : x < o) :
    (s.fail f).arc.read x = s.arc.read x := by
  simp only [fail_eq, doneErr, h]
  exact sameOutside_release _ _ _ _ x (.inl hx)

theorem FailureOf.buf_kept {f : Failure} (h : FailureOf i s f) (hfull : f.code ≠ .dstFull)
    (hcorrupt : f.code ≠ .corrupt) : (s.fail f).buf = s.buf :=
  fail_buf_of_no_output (Bool.eq_false_iff.2 fun he => (h.output he).elim hfull hcorrupt)

theorem FailureOf.arc_kept {f : Failure} (h : FailureOf i s f) (hi : i ≠ .arAdd ∨ s.ioFail .command = false) :
    (s.fail f).arc = s.arc := by
  cases ho : f.arcFrom with
  | none => exact fail_arc_of_none ho
  | some o =>
    obtain ⟨hadd, hio, -⟩ := h.archive o ho
    exact hi.elim (absurd hadd) fun hno => nomatch hno.symm.trans hio

theorem FailureOf.arc_read_kept {f : Failure} (h : FailureOf i s f) {x : Nat} (hx : x < s.arcOffset.toNat) :
    (s.fail f).arc.read x = s.arc.read x := by
  cases ho : f.arcFrom with
  | none => rw [fail_arc_of_none ho]
  | some o =>
    obtain ⟨-, -, rfl⟩ := h.archive o ho
    exact fail_arc_read_of_some ho hx

/-! ### The statements -/

/-- Settles O7: each way to complete reports one of the three outcomes. -/
theorem everyCommandCompletes : Obligations.EveryCommandCompletes := by
  intro i s
  obtain ⟨t, ht, hc⟩ := completes_exec i s
  cases hc with
  | success u h => exact ⟨_, ht, rfl, rfl, .inl ⟨rfl, rfl, rfl⟩⟩
  | warning u hi h => exact ⟨_, ht, rfl, rfl, .inr (.inl ⟨hi, rfl, rfl, rfl⟩)⟩
  | failure f hi h =>
    rw [fail_eq_doneErr] at ht
    exact ⟨_, ht, rfl, rfl, .inr (.inr ⟨rfl, rfl, h.isError⟩)⟩
  | handleFailure u c hi h => exact ⟨_, ht, rfl, rfl, .inr (.inr ⟨rfl, rfl, h⟩)⟩

/-- Settles O58: a failure's completion sets the bit, and no command's effects change it but SRESET's. -/
theorem stickyBitRecordsFailures : Obligations.StickyBitRecordsFailures := by
  intro i s t ht
  cases completion_of_exec ht with
  | success u h => simp [doneOk, h, stickyAfter]
  | warning u hi h => simp [doneWarn, h, hi]
  | failure f hi h => rw [fail_eq_doneErr]; simp [doneErr, hi]
  | handleFailure u c hi h =>
    have hne : i ≠ .sreset := by rintro rfl; revert hi; decide
    simp [doneErr, hne]

/-- Settles O55: outside the opens and the close a failure is `State.fail`, of which R151 holds. -/
theorem failureEffects : Obligations.FailureEffects := by
  intro i s t hopenW hopenR hclose ht herr
  cases completion_of_exec ht with
  | success u h => cases herr
  | warning u hi h => cases herr
  | failure f hi h =>
    rw [fail_errcode]
    exact ⟨_, _, fail_eq_doneErr s f, fail_buf_outside s f, h.buf_kept, h.arc_kept, fun x => h.arc_read_kept⟩
  | handleFailure u c hi h =>
    obtain rfl | rfl | rfl := hi
    · exact absurd rfl hopenW
    · exact absurd rfl hopenR
    · exact absurd rfl hclose

end Sys2Proof.Machine
end

section
/-! PROOFS. The turn of the engine (60_exceptions.md R148) and the hardware reset (70_reset_and_hazards.md R165): O5, O6
and O16. -/

namespace Sys2Proof.Machine

variable {s : State}

/-! ### The turn of the engine -/

theorem engineMove_of_command {w : Word} {i : Instr} (hr : s.inReset = false) (hp : s.pending = some w)
    (hd : decode w = .ok i) : engineMove s = exec i s := by
  simp only [engineMove, hr, hp, hd, Bool.false_eq_true, if_false]

theorem step_of_engine_turn {turns : List Agent} (hs : s.sched = .engine :: turns) :
    step s = engineMove { s with sched := turns } := by
  rw [step, takeTurn, hs]

/-- Settles O5: either way the turn is the engine's, which runs the decoded word. -/
theorem stepRunsDecodedCommand : Obligations.StepRunsDecodedCommand := by
  refine fun s w i hr hp hd => ⟨fun hs => ?_, fun turns hs => ?_⟩
  · rw [step_of_pending hr hs hp, engineMove_of_command hr hp hd]
  · rw [step_of_engine_turn hs]
    exact engineMove_of_command hr hp hd

/-! ### Turns of the host at the end of its program -/

/-- A turn of the host at the end of its program only comes off the schedule (R85; log 6). -/
theorem step_of_idle_host_turn {turns : List Agent} (hs : s.sched = .host :: turns)
    (hend : s.hostProg[s.hostPos]? = none) : step s = .next { s with sched := turns } := by
  rw [step, takeTurn, hs]
  simp only [hostMove, hend]

theorem run_succ_of_next (m : Host.Core) {s t : m.State} (n : Nat) (h : m.step s = .next t) :
    m.run (n + 1) s = m.run n t := by
  rw [Host.Core.run, h]

theorem run_one (m : Host.Core) (s : m.State) : m.run 1 s = m.step s := by
  rw [Host.Core.run]
  cases m.step s <;> rfl

/-- Settles O6: by induction on the host turns before the engine's. -/
theorem engineStepAfterFiniteDelay : Obligations.EngineStepAfterFiniteDelay := by
  intro n
  induction n with
  | zero =>
    intro s w i hr hp hd _ hs
    obtain ⟨hrun, -⟩ := stepRunsDecodedCommand s w i hr hp hd
    have hsame : { s with sched := [] } = s := by rw [← show s.sched = [] from hs]
    rw [hsame]
    exact (run_one core s).trans (hrun hs)
  | succ n ih =>
    intro s w i hr hp hd hend hs
    rw [run_succ_of_next core (n + 1) (step_of_idle_host_turn hs hend)]
    exact ih { s with sched := List.replicate n .host } w i hr hp hd hend rfl

/-! ### The reset pin -/

theorem portWrite_of_inReset (h : s.inReset = true) (off : BitVec 12) (v : Word) : s.portWrite off v = s := by
  rw [State.portWrite, if_pos h]

theorem drivePin_low (s : State) : s.drivePin false = { resetValues s with inReset := true } := rfl

/-- The rising edge of `rst_n` (R165). -/
theorem drivePin_high_of_inReset (h : s.inReset = true) :
    s.drivePin true = { resetValues s with inReset := false } := by
  simp only [State.drivePin, h, if_true, engineReset_eq_resetValues]

theorem drivePin_low_high (s : State) :
    (s.drivePin false).drivePin true = { resetValues s with inReset := false } := by
  rw [drivePin_high_of_inReset (s := s.drivePin false) rfl, drivePin_low]
  rfl

/-- No STATUS bit is set after a reset (R55, R165). -/
theorem statusWord_resetValues (s : State) : { resetValues s with inReset := false }.statusWord = 0#32 := by
  have hbusy : { resetValues s with inReset := false }.busy = false := rfl
  rw [State.statusWord, hbusy]
  simp only [resetValues]
  decide

/-- Settles O16: the port is closed while the pin is low, and its rising edge leaves the table of reset values. -/
theorem hardwareReset : Obligations.HardwareReset := by
  refine ⟨fun s h => ⟨portRead_of_inReset h, portWrite_of_inReset h, drivePin_high_of_inReset h⟩,
    fun s => ⟨rfl, rfl, drivePin_low_high s, ?_⟩⟩
  rw [drivePin_low_high, show 0x008#12 = Reg.status.offset from rfl, portRead_offset rfl]
  exact statusWord_resetValues s

end Sys2Proof.Machine
end
